-- ==== Sys2Proof/Word.lean ====
section
/-!
DEFINITION. The words of the LTP-416: a word is 32 bits, a byte 8 bits (spec/00_scope.md, Conventions); host byte addresses are
24 bits (Table 0-2).
-/

namespace Sys2Proof

/-- A memory word (spec/00, "A word is 32 bits, occupying four consecutive byte addresses beginning at a multiple of four"). -/
abbrev Word := BitVec 32

/-- A byte (spec/00). -/
abbrev Byte := BitVec 8

/-- A host byte address: HADDR, 24 bits, 16 MiB space (spec/00, Table 0-2). -/
abbrev HostAddr := BitVec 24

/-- A subscriber line, 0 to 4095 (spec/00, Table 0-3). -/
abbrev LineNo := Fin 4096

/-- A cable group, 0 to 255 (spec/00, Table 0-3). -/
abbrev GroupNo := Fin 256

/-- A test bus, TB0 to TB3. -/
abbrev BusNo := Fin 4

/-- A measuring head, MH0 or MH1. -/
abbrev HeadNo := Fin 2

/-- A step kind, 0 to 7 (R60). -/
abbrev StepKind := Fin 8

/-- A claim number, 0 to 255, wrapping (R21). -/
abbrev ClaimNo := BitVec 8

/-- A 16-bit wrapping quantity: epoch, ticket sequence, produce and consume index (spec/00, Table 0-3; R124). -/
abbrev Count16 := BitVec 16

end Sys2Proof
end

