-- ==== Sys2Proof/Syntax.lean ====
section
/-!
DEFINITION. The commands: one constructor per row of spec/opcode_table.json. The table gives no operands; an operand here is
what the row's rule says the command carries.
-/

namespace Sys2Proof

/-- The four values a STATE message may carry (Table 1-3). -/
inductive Reported where
  | idle | offHook | ringing | inCall
deriving DecidableEq, Repr

/-- The three reasons of a DENY (Table 1-3). -/
inductive DenyReason where
  | busy | unequipped | blocked
deriving DecidableEq, Repr

/-- The three reading statuses of a READING (R54, R55). -/
inductive ReadingStatus where
  | valid | overRange | underRange
deriving DecidableEq, Repr

/-- The commands of the LTP-416. A field of a message that holds none of its listed values is `none`; the bus or head number of
a message is a plain number, since the part discards one out of range (R4, R30, R55). -/
inductive Instr where
  /-- COLD_RESET (R50): PORST asserted. -/
  | coldReset
  /-- WARM_RESET (R51): RESET asserted. -/
  | warmReset
  /-- HOST_WRITE (R158): a host write of `data` at `addr` with byte enables `be`. -/
  | hostWrite (addr : HostAddr) (data : Word) (be : BitVec 4)
  /-- HOST_READ (R165): a host read at `addr` with byte enables `be`. -/
  | hostRead (addr : HostAddr) (be : BitVec 4)
  /-- POST_WORD_POSTED (R175): a full-word host write of owner POSTED to a slot's post word at `addr`. -/
  | postWordPosted (addr : HostAddr) (data : Word)
  /-- POST_WORD_RETURNED (R175): a full-word host write of owner RETURNED to a slot's post word at `addr`. -/
  | postWordReturned (addr : HostAddr) (data : Word)
  /-- COMMIT_ATTEMPT (R170): a full-word host write of the commit word at 00027CH. -/
  | commitAttempt (data : Word)
  /-- ACKNOWLEDGEMENT (R181): a full-word host write of the acknowledge word at `addr`. -/
  | acknowledgement (addr : HostAddr) (data : Word)
  /-- CONSUME_INDEX_WRITE (R143): a full-word host write of the consume index word at `addr`. -/
  | consumeIndexWrite (addr : HostAddr) (data : Word)
  /-- TEST (R84): the slot at the take index is taken and is a TEST. -/
  | test
  /-- CANCEL (R93). -/
  | cancel
  /-- FENCE (R97). -/
  | fence
  /-- RELEASE_HOLD (R49). -/
  | releaseHold
  /-- BUS_RESET (R36). -/
  | busReset
  /-- HEAD_RESET (R77). -/
  | headReset
  /-- SWEEP_START (R119). -/
  | sweepStart
  /-- SWEEP_STOP (R119). -/
  | sweepStop
  /-- SWEEP_RESTART (R120). -/
  | sweepRestart
  /-- SWEEP_SEEK (R121). -/
  | sweepSeek
  /-- CLEAR_GROUP (R152). -/
  | clearGroup
  /-- LINE_QUERY (R18). -/
  | lineQuery
  /-- REFUSED_KIND (R176). -/
  | refusedKind
  /-- FENCE_COMPLETE (R98). -/
  | fenceComplete
  /-- STATE(line, state) (R5). -/
  | state (line : LineNo) (reported : Option Reported)
  /-- GRANT(line, claim number) (R26). -/
  | grant (line : LineNo) (claim : ClaimNo)
  /-- DENY(line, claim number, reason) (R27). -/
  | deny (line : LineNo) (claim : ClaimNo) (reason : Option DenyReason)
  /-- RECALL(line, claim number) (R40). -/
  | recall (line : LineNo) (claim : ClaimNo)
  /-- RESYNC_END (R16). -/
  | resyncEnd
  /-- SETTLED(bus) (R32). -/
  | settled (bus : Nat)
  /-- OPENED(bus) (R34). -/
  | opened (bus : Nat)
  /-- XP_FAULT(bus) (R33, R35). -/
  | xpFault (bus : Nat)
  /-- READING(head, reading status, value) (R63). -/
  | reading (head : Nat) (status : Option ReadingStatus) (value : BitVec 16)
  /-- ABORTED(head) (R74). -/
  | aborted (head : Nat)
  /-- READY(head) (R78). -/
  | ready (head : Nat)
  /-- HEAD_ERROR(head) (R71, R72). -/
  | headError (head : Nat)
  /-- CLAIM_TIMER_EXPIRY (R28). -/
  | claimTimerExpiry (bus : BusNo)
  /-- SETTLE_TIMER_EXPIRY (R33). -/
  | settleTimerExpiry (bus : BusNo)
  /-- OPEN_TIMER_EXPIRY (R35). -/
  | openTimerExpiry (bus : BusNo)
  /-- HOLD_TIMER_EXPIRY (R48). -/
  | holdTimerExpiry (bus : BusNo)
  /-- STEP_WATCHDOG_EXPIRY (R69). -/
  | stepWatchdogExpiry (head : HeadNo)
  /-- ABORT_TIMER_EXPIRY (R75). -/
  | abortTimerExpiry (head : HeadNo)
  /-- CLEAR_TIMER_EXPIRY (R78). -/
  | clearTimerExpiry (head : HeadNo)
  /-- PACING_TIMER_EXPIRY (R107). -/
  | pacingTimerExpiry
  /-- COALESCING_TIMER_EXPIRY (R135). -/
  | coalescingTimerExpiry
  /-- RESULT_HOLD_EXPIRY (R166). -/
  | resultHoldExpiry
  /-- STARVATION_COUNT_FULL (R163). -/
  | starvationCountFull
  /-- ENTRY_TO_IDLE_BUS (R23). -/
  | entryToIdleBus
  /-- ENTRY_TO_HELD_BUS (R47). -/
  | entryToHeldBus
  /-- SWEEP_ENTRY_SKIP (R91). -/
  | sweepEntrySkip
  /-- HEAD_GRANT (R58). -/
  | headGrant
  /-- ISSUE_ATTEMPT (R106). -/
  | issueAttempt
  /-- TICKET_MOVE (R141). -/
  | ticketMove
  /-- WRITER_TAKES_PATH (R163). -/
  | writerTakesPath
  /-- RECORD_WRITTEN (R162). -/
  | recordWritten
  /-- SWEEP_CONTROL (R118): a SWEEP_CONTROL slot whose action field holds none of the four actions. -/
  | sweepControl
deriving DecidableEq, Repr

end Sys2Proof
end

