-- ==== Sys2Proof/Decode.lean ====
section
/-!
DEFINITION. Decoding of table words. spec/opcode_table.json gives no row any bits (every row's "fields" is empty and none has
"fixed"), so no word spells a command: a command comes from a pin, a link or the host's bus, never from an encoded word (log 21).
-/

namespace Sys2Proof

/-- The command that a word spells by the table's bits: none, since no row has bits. -/
def decodeTableWord (_nbits _w : Nat) : Option Instr := none

end Sys2Proof
end

