-- ==== Sys2Proof/Machine/State.lean ====
section
/-!
DEFINITION. The state of the LTP-416: every record, queue, register, counter and timer the spec gives the part, the desk memory
it stands in front of, the messages it has issued on its three links, and the queue of commands. Plain data.
-/

namespace Sys2Proof.Machine

/-! ## The Line Table (spec/01) -/

/-- Supervision state (Table 1-1). -/
inductive Supervision where
  | unknown | idle | offHook | ringing | inCall | unequipped
deriving DecidableEq, Repr

/-- Fault kinds, highest rank first (Table 3-5). -/
inductive FaultKind where
  | hazard | foreignVoltage | short | ground | openWire | highLoop | unbalanced
deriving DecidableEq, Repr

/-- The verdict of a completed test (R68). -/
inductive Verdict where
  | pass
  | fail (kind : FaultKind)
  | hazard
deriving DecidableEq, Repr

/-- The last verdict of a line with the epoch at which that test completed (R13). -/
structure LastTest where
  verdict : Verdict
  epoch : Count16
deriving DecidableEq, Repr

/-- A line record (R1, Table 1-1). -/
structure LineRecord where
  supervision : Supervision
  stamp : Option (BitVec 8)
  loopMark : Bool
  yieldMark : Bool
  ticketMark : Option FaultKind
  occupying : Option BusNo
  lastTest : Option LastTest
deriving DecidableEq, Repr

/-- A line record after a cold reset (R15, Table 1-5). -/
def LineRecord.cold : LineRecord :=
  { supervision := .unknown, stamp := none, loopMark := false, yieldMark := false, ticketMark := none, occupying := none,
    lastTest := none }

/-! ## Test entries (spec/04) -/

/-- Class and origin of a test entry (R80, R81). -/
inductive TestClass where
  | desk | sweep
deriving DecidableEq, Repr

/-- Order mode of a test program (R60). -/
inductive OrderMode where
  | sequential | interleaved
deriving DecidableEq, Repr

/-- A member of a slot list (R82): result slot index, tag of the request that named it, merged indication. -/
structure SlotMember where
  slot : Nat
  tag : Count16
  merged : Bool
deriving DecidableEq, Repr

/-- A test entry (R80, Table 4-1). -/
structure TestEntry where
  line : LineNo
  cls : TestClass
  origin : TestClass
  mask : BitVec 8
  start : StepKind
  order : OrderMode
  force : Bool
  hold : Bool
  slots : List SlotMember
deriving DecidableEq, Repr

/-! ## Bus records (spec/02) -/

/-- Bus states (R20). -/
inductive BusState where
  | idle | claiming | seizing | waitHead | measuring | held | releasing | faulted
deriving DecidableEq, Repr

/-- Why a test has been ordered to end early (R20). -/
inductive AbortReason where
  | recall | cancel | noHead
deriving DecidableEq, Repr

/-- The matrix command outstanding for a bus (R31). -/
inductive MatrixCommand where
  | close | opening
deriving DecidableEq, Repr

/-- Which timer of a bus runs (Table 2-1). -/
inductive BusTimer where
  | claim | settle | hold | opening
deriving DecidableEq, Repr

/-- How the last OPEN failed (Table 2-1). -/
inductive FaultCause where
  | xpFault | timeout
deriving DecidableEq, Repr

/-- A bus record (R20, Table 2-1). A running timer stands with its remaining time in ms. -/
structure Bus where
  state : BusState
  line : Option LineNo
  claim : ClaimNo
  forced : Bool
  hold : Bool
  test : Option TestEntry
  abort : Option AbortReason
  command : Option MatrixCommand
  timer : Option (BusTimer × Nat)
  cause : Option FaultCause
deriving DecidableEq, Repr

/-- A bus record whose state is IDLE holds its state alone (R20). -/
def Bus.idle : Bus :=
  { state := .idle, line := none, claim := 0, forced := false, hold := false, test := none, abort := none, command := none,
    timer := none, cause := none }

/-- A bus record recovering from a reset: OPEN outstanding, open timer at 50 ms, RELEASING, with the line and claim number it
keeps (R50, R51). -/
def Bus.recovering (line : Option LineNo) (claim : ClaimNo) : Bus :=
  { Bus.idle with state := .releasing, line := line, claim := claim, command := some .opening, timer := some (.opening, 50) }

/-! ## Head records and step programs (spec/03) -/

/-- Head states (R53). -/
inductive HeadState where
  | free | attached | aborting | clearing | suspect
deriving DecidableEq, Repr

/-- Which timer of a head runs (Table 3-1). -/
inductive HeadTimer where
  | watchdog | abort | clear
deriving DecidableEq, Repr

/-- A head record (R53, Table 3-1). `startedAt` is the elapsed time of the present timed phase. -/
structure Head where
  state : HeadState
  bus : Option BusNo
  step : Option StepKind
  timer : Option (HeadTimer × Nat)
  startedAt : Nat
deriving DecidableEq, Repr

/-- A head whose clear a reset has begun (R79). -/
def Head.clearing : Head :=
  { state := .clearing, bus := none, step := none, timer := some (.clear, 200), startedAt := 0 }

/-- Step statuses (R62). -/
inductive StepStatus where
  | notRun | pass | fail | suspect | aborted
deriving DecidableEq, Repr

/-- A step record (R62): the reading status and value are present once the step has a reading. -/
structure StepRecord where
  status : StepStatus
  reading : Option (ReadingStatus × BitVec 16)
deriving DecidableEq, Repr

/-- A step not yet run (R62). -/
def StepRecord.notRun : StepRecord := { status := .notRun, reading := none }

/-- The eight step records in step-kind order (R62). -/
abbrev StepRecords := Vector StepRecord 8

/-- All eight steps NOT_RUN with no reading (R88, R96, R100). -/
def StepRecords.notRun : StepRecords := Vector.replicate 8 StepRecord.notRun

/-- The step program of a measuring bus (R62). -/
structure StepProgram where
  order : List StepKind
  position : Nat
  steps : StepRecords
deriving DecidableEq, Repr

/-! ## Outcomes and dispositions (spec/02, spec/09) -/

/-- The outcome of a test (Table 4-2); COMPLETED carries the verdict. -/
inductive TestOutcome where
  | completed (verdict : Verdict)
  | cancelled | recalled | claimDenied | claimTimeout | xpFault | headTimeout | headError | noHead
deriving DecidableEq, Repr

/-- Dispositions of a request slot (Table 10-7). -/
inductive Disposition where
  | accepted | merged | done | refusedKind | refusedLine | refusedProgram | refusedSlot | refusedSlotBusy | refusedTarget
  | refusedState | refusedNotFound
deriving DecidableEq, Repr

/-- Outcomes of a commit attempt (Table 10-7). -/
inductive CommitOutcome where
  | accepted | refusedRange | refusedLayout | refusedLimits | refusedBusy
deriving DecidableEq, Repr

/-- An attempt's generation and its outcome: the content of the outcome word (R173, R174). -/
structure CommitRecord where
  generation : Nat
  outcome : CommitOutcome
deriving DecidableEq, Repr

/-! ## Tickets (spec/06) -/

/-- The thirteen ticket kinds (R125). -/
inductive TicketKind where
  | lineFault (kind : FaultKind)
  | standingLoop | restored | headTimeout | headError | xpFault | linkTimeout
deriving DecidableEq, Repr

/-- Ticket origins (Table 6-3). -/
inductive TicketOrigin where
  | desk | sweep | equipment
deriving DecidableEq, Repr

/-- The context record of an equipment event (R70, R126). -/
structure EventContext where
  bus : Option BusNo
  head : Option HeadNo
  step : Option StepKind
  busState : Option BusState
  headState : Option HeadState
  line : Option LineNo
  claim : ClaimNo
  elapsed : Nat
deriving DecidableEq, Repr

/-- The detail of a ticket, by family (R126). -/
inductive TicketDetail where
  | steps (records : StepRecords)
  | age (epochs : BitVec 8)
  | context (ctx : EventContext)
deriving DecidableEq, Repr

/-- A formed ticket, without the two fields given later (R126, Table 6-3). -/
structure Ticket where
  kind : TicketKind
  origin : TicketOrigin
  epoch : Count16
  group : Option GroupNo
  lines : List LineNo
  detail : TicketDetail
deriving DecidableEq, Repr

/-- A ticket of the outbox with its sequence number (R137). -/
structure QueuedTicket where
  sequence : Count16
  ticket : Ticket
deriving DecidableEq, Repr

/-! ## The memory path (spec/08) -/

/-- States of a result record (Table 10-7). -/
inductive RecordState where
  | inProgress | complete | cancelled | failed
deriving DecidableEq, Repr

/-- A TEST result record (R88, R96, R100). -/
structure ResultRecord where
  tag : Count16
  state : RecordState
  outcome : Option TestOutcome
  line : LineNo
  bus : Option BusNo
  head : Option HeadNo
  merged : Bool
  epoch : Count16
  steps : StepRecords
deriving DecidableEq, Repr

/-- A QUERY record (R19). -/
structure QueryRecord where
  tag : Count16
  epoch : Count16
  line : LineNo
  snapshot : LineRecord
deriving DecidableEq, Repr

/-- A pending writer entry (R159, Table 8-2). A bus entry keeps the members whose record is not yet written. The four general
entries are equal, so only what each carries is kept. -/
inductive WriterEntry where
  | bus (bus : BusNo) (record : ResultRecord) (slots : List SlotMember)
  | status (outcome : Option CommitRecord)
  | inProgress (slot : Nat) (record : ResultRecord)
  | cancelled (slot : Nat) (record : ResultRecord)
  | query (slot : Nat) (record : QueryRecord)
  | disposition (slot : Fin 64) (disposition : Disposition) (fence : Bool)
  | ticket (index : Count16) (sequence : Count16) (droppedBefore : Nat) (ticket : Ticket)
deriving DecidableEq, Repr

/-- The attention sources and the HAZARD flag (Table 9-3). -/
inductive Flag where
  | result | fence | refused | holdEnd | ticket | drop | groupAlarm | head | bus | link | passEnd | commit | hazard
deriving DecidableEq, Repr

/-- The three conditions of an attention flag (R179). -/
inductive FlagCondition where
  | clear | raised | shown
deriving DecidableEq, Repr

/-- The record the writer is writing: its words with their addresses, latched when the writer took the path, and for the status
entry the flags RAISED at that moment (R161, R162, R179). -/
structure Transfer where
  words : List (Nat × Word)
  flags : List Flag
deriving DecidableEq, Repr

/-- The three conditions of the memory path (R156). -/
inductive Path where
  | free
  | host
  | writer (record : Transfer)
deriving DecidableEq, Repr

/-- A host access (R156): an address, byte enables, and for a write its data. -/
inductive HostAccess where
  | write (addr : HostAddr) (data : Word) (be : BitVec 4)
  | read (addr : HostAddr) (be : BitVec 4)
deriving DecidableEq, Repr

/-- The read hold in effect (R165, R166); the result hold with its remaining time in ms. -/
inductive ReadHold where
  | pendingWrite
  | result (remaining : Nat)
deriving DecidableEq, Repr

/-- What a performed host read returned on HDATA (R156). -/
structure ReadResult where
  addr : HostAddr
  be : BitVec 4
  data : Word
deriving DecidableEq, Repr

/-! ## Anchor and intake (spec/09) -/

/-- The pass window of a step kind (R64, R65). -/
structure Limits where
  low : BitVec 16
  high : BitVec 16
deriving DecidableEq, Repr

/-- The anchor in force: its generation and the settings of Table 9-1 (R169). -/
structure Anchor where
  generation : Nat
  ringBase : Nat
  ringSize : Nat
  resultBase : Nat
  resultCount : Nat
  ticketBase : Nat
  ticketSize : Nat
  statusBase : Nat
  installed : Nat
  sweepMask : BitVec 8
  sweepStart : StepKind
  sweepOrder : OrderMode
  sweepInterval : Nat
  sweepBusLimit : Nat
  standingLoopLimit : Nat
  alarmThreshold : Nat
  coalescingWindow : Nat
  holdLimit : Nat
  resultHoldLimit : Nat
  claimLimit : Nat
  hazardLimit : Nat
  enables : BitVec 12
  levels : BitVec 12
  limits : Vector Limits 8
deriving DecidableEq, Repr

/-- The shadow of a request slot: its four words and its posted indication (R175). -/
structure Shadow where
  words : Vector Word 4
  posted : Bool
deriving DecidableEq, Repr

/-- A cleared shadow: zero content and unposted (R174, R175). -/
def Shadow.cleared : Shadow := { words := Vector.replicate 4 0, posted := false }

/-- The TEST at the take index that waits for queue space (R86, R176): there is none; one waits; one waits and a test of the conditions
of R176, made at one of the moments R86 names, has found that it can be taken again. -/
inductive TestWait where
  | absent | waiting | retest
deriving DecidableEq, Repr

/-! ## Sweep and groups (spec/05, spec/07) -/

/-- Sweep state (Table 5-1). -/
inductive SweepState where
  | stopped | running
deriving DecidableEq, Repr

/-- Held-back reasons (Table 5-1). -/
inductive HeldBack where
  | none | noHead | noBusAllowed | outbox | queue | resync
deriving DecidableEq, Repr

/-- A focus entry (R114). -/
structure FocusEntry where
  group : GroupNo
  cursor : Fin 16
deriving DecidableEq, Repr

/-- A group record (R146, Table 7-1). -/
structure GroupRecord where
  counter : Nat
  alarm : Bool
deriving DecidableEq, Repr

/-- A group record after a reset or an accepted commit (R154, R155). -/
def GroupRecord.zero : GroupRecord := { counter := 0, alarm := false }

/-! ## Link messages (Table 1-2, R30, R54) -/

/-- Messages from the part to the exchange (Table 1-2). -/
inductive ExchangeMessage where
  | claim (line : LineNo) (claim : ClaimNo) (forced : Bool)
  | release (line : LineNo) (claim : ClaimNo)
  | keep (line : LineNo) (claim : ClaimNo)
  | resync
deriving DecidableEq, Repr

/-- Commands from the part to the matrix (R30). -/
inductive MatrixMessage where
  | close (bus : BusNo) (line : LineNo)
  | opening (bus : BusNo)
deriving DecidableEq, Repr

/-- Commands from the part to the heads (R54). -/
inductive HeadMessage where
  | start (head : HeadNo) (bus : BusNo) (step : StepKind)
  | abort (head : HeadNo)
  | clear (head : HeadNo)
deriving DecidableEq, Repr

/-- How many of the messages listed for each link have surely begun transmission, and how many RESYNC_ENDs have arrived (the model's
own, for R3, R30, R55; log 10). -/
structure Begun where
  exchange : Nat
  matrix : Nat
  head : Nat
  resyncEnds : Nat
deriving DecidableEq, Repr

/-! ## Stops -/

/-- The part has no state in which it stops: every command has an effect, an answer, or is discarded. So there is no fault to
name, and no meaning raises one. -/
inductive Fault where
deriving DecidableEq, Repr

/-- Refusals. Safe: a refused command proves nothing about the part. -/
inductive Refusal where
  /-- Raised by an arm of `exec` whose command has no meaning yet (safe). No arm raises it now. -/
  | notModelled (mnemonic : String)
deriving DecidableEq, Repr

/-! ## The state -/

/-- The state of the part (Table 0-1), the desk memory and the queue of commands. -/
structure State where
  /-- The commands that wait, first in, first out (the model's own). -/
  pending : List Instr
  /-- The counter the free values of Config are applied to (the model's own, log 12). -/
  freeIndex : Nat
  /-- Desk memory: the bytes written, by rising address (log 7). -/
  mem : List Host.Cell
  -- Path Unit
  path : Path
  writerQueue : List WriterEntry
  starvation : Nat
  hostAccesses : List HostAccess
  readHold : Option ReadHold
  resultHoldSpent : Bool
  readData : Option ReadResult
  -- Anchor Unit
  staging : Vector Word 32
  anchor : Option Anchor
  lastCommit : Option CommitRecord
  flags : Vector FlagCondition 13
  -- Intake Unit
  shadows : Vector Shadow 64
  takeIndex : Fin 64
  testWaiting : TestWait
  fence : Option (Fin 64)
  -- Test Queue
  queue : List TestEntry
  /-- A CANCEL has changed a queued entry since the Test Queue last looked for a move (the model's own, for R89; log 31). -/
  cancelSinceLook : Bool
  -- Access Unit
  buses : Vector Bus 4
  claimCounter : ClaimNo
  resyncPending : Bool
  -- Head Unit
  heads : Vector Head 2
  waitQueue : List BusNo
  programs : Vector (Option StepProgram) 4
  -- Line Table
  lines : Vector LineRecord 4096
  -- Sweep Unit
  sweep : SweepState
  pointer : Nat
  epoch : Count16
  pacing : Nat
  focus : List FocusEntry
  -- Ticket Unit
  register : Option Ticket
  coalescing : Option Nat
  outbox : List QueuedTicket
  ticketSeq : Count16
  produce : Count16
  consume : Count16
  droppedBefore : Nat
  droppedTotal : Nat
  -- Group Counters
  groups : Vector GroupRecord 256
  alarmList : List GroupNo
  alarmOverflow : Bool
  -- messages issued on the three links, oldest first
  exchangeOut : List ExchangeMessage
  matrixOut : List MatrixMessage
  headOut : List HeadMessage
  /-- What the replies show of the messages above: how many have surely begun transmission (the model's own, log 10). -/
  begun : Begun
deriving DecidableEq, Repr

/-- The part right after a cold reset at power-on: every unit's cold value, the four OPENs, the RESYNC and the two CLEARs sent
(R15, R50, R79, R99, R123, R145, R155, R168, R169). The fields the spec states no reset value for are those of log 12; the order of the OPENs is log 29. -/
def State.reset : State where
  pending := []
  freeIndex := 0
  mem := []
  path := .free
  writerQueue := []
  starvation := 0
  hostAccesses := []
  readHold := none
  resultHoldSpent := false
  readData := none
  staging := Vector.replicate 32 0
  anchor := none
  lastCommit := none
  flags := Vector.replicate 13 .clear
  shadows := Vector.replicate 64 Shadow.cleared
  takeIndex := 0
  testWaiting := .absent
  fence := none
  queue := []
  cancelSinceLook := false
  buses := Vector.replicate 4 (Bus.recovering none 0)
  claimCounter := 0
  resyncPending := true
  heads := Vector.replicate 2 Head.clearing
  waitQueue := []
  programs := Vector.replicate 4 none
  lines := Vector.replicate 4096 LineRecord.cold
  sweep := .stopped
  pointer := 0
  epoch := 0
  pacing := 0
  focus := []
  register := none
  coalescing := none
  outbox := []
  ticketSeq := 0
  produce := 0
  consume := 0
  droppedBefore := 0
  droppedTotal := 0
  groups := Vector.replicate 256 GroupRecord.zero
  alarmList := []
  alarmOverflow := false
  exchangeOut := [.resync]
  matrixOut := [.opening 0, .opening 1, .opening 2, .opening 3]
  headOut := [.clear 0, .clear 1]
  begun := { exchange := 0, matrix := 0, head := 0, resyncEnds := 0 }

end Sys2Proof.Machine
end

