-- ==== Sys2Proof/Machine/Table.lean ====
section
/-!
DEFINITION. Tables of a fixed size: reading, replacing and updating the entries of a `Vector` in a form that both evaluates and
reasons well. The lemmas about them are in Sys2Proof/Laws/Table.lean.
-/

namespace Sys2Proof.Machine

/-- The entry of a table at an index. -/
def entry {α : Type} {n : Nat} (v : Vector α n) (i : Fin n) : α := v[i]

/-- The table with one entry replaced. -/
def putEntry {α : Type} {n : Nat} (v : Vector α n) (i : Fin n) (x : α) : Vector α n := v.set i.val x i.isLt

/-- The table with a function applied to every entry. -/
def mapEntries {α β : Type} {n : Nat} (f : α → β) (v : Vector α n) : Vector β n :=
  ⟨⟨v.toList.map f⟩, by simp⟩

/-- The four buses in number order. -/
def allBuses : List BusNo := [0, 1, 2, 3]

/-- The two heads in number order. -/
def allHeads : List HeadNo := [0, 1]

/-- The first element of a list that a partial function accepts, with the function's answer and the list without the element. -/
def takeFirst {α β : Type} (p : α → Option β) : List α → Option (α × β × List α)
  | [] => none
  | x :: xs =>
    match p x with
    | some b => some (x, b, xs)
    | none =>
      match takeFirst p xs with
      | some (y, b, ys) => some (y, b, x :: ys)
      | none => none

end Sys2Proof.Machine
end

