-- ==== Sys2Proof/Machine/Ops.lean ====
section
/-!
DEFINITION. The named operations over the state that every unit shares: its records, the messages it issues, the writer queue, and
the views of the state that several rules read.
-/

namespace Sys2Proof.Machine

/-! ## Looks for a move (R89) -/

/-- At one of the events R89 lists (`event`) the Test Queue looks for a move again (log 31). -/
def State.look (event : Bool) (s : State) : State := { s with cancelSinceLook := s.cancelSinceLook && !event }

/-! ## Records -/

/-- The record of a bus (R20). -/
def State.bus (s : State) (b : BusNo) : Bus := entry s.buses b

/-- The state with a bus record replaced. -/
def State.setBus (s : State) (b : BusNo) (r : Bus) : State := { s with buses := putEntry s.buses b r }

/-- The record of a head (R53). -/
def State.head (s : State) (h : HeadNo) : Head := entry s.heads h

/-- The state with a head record replaced. -/
def State.setHead (s : State) (h : HeadNo) (r : Head) : State := { s with heads := putEntry s.heads h r }

/-- The step program of a bus (R62). -/
def State.program (s : State) (b : BusNo) : Option StepProgram := entry s.programs b

/-- The state with a bus's step program replaced. -/
def State.setProgram (s : State) (b : BusNo) (p : Option StepProgram) : State :=
  { s with programs := putEntry s.programs b p }

/-- The record of a line (R1). -/
def State.line (s : State) (l : LineNo) : LineRecord := entry s.lines l

/-- The state with a line record replaced. -/
def State.setLine (s : State) (l : LineNo) (r : LineRecord) : State := { s with lines := putEntry s.lines l r }

/-- The state with a change made to every line record. -/
def State.mapLines (s : State) (f : LineRecord → LineRecord) : State := { s with lines := mapEntries f s.lines }

/-- The record of a cable group (R146). -/
def State.group (s : State) (g : GroupNo) : GroupRecord := entry s.groups g

/-- The state with a group record replaced. -/
def State.setGroup (s : State) (g : GroupNo) (r : GroupRecord) : State := { s with groups := putEntry s.groups g r }

/-- The shadow of a request slot (R175). -/
def State.shadow (s : State) (i : Fin 64) : Shadow := entry s.shadows i

/-- The state with a shadow replaced. -/
def State.setShadow (s : State) (i : Fin 64) (r : Shadow) : State := { s with shadows := putEntry s.shadows i r }

/-- The cable group a line belongs to: line ÷ 16, rounded down (spec/00, Conventions; R146). -/
def groupOf (l : LineNo) : GroupNo := ⟨l.val / 16, by omega⟩

/-! ## Messages issued on the links (R3, R30, R55) -/

/-- A message issued on the exchange link. -/
def State.sendExchange (s : State) (m : ExchangeMessage) : State := { s with exchangeOut := s.exchangeOut ++ [m] }

/-- A command issued on the matrix link. -/
def State.sendMatrix (s : State) (m : MatrixMessage) : State := { s with matrixOut := s.matrixOut ++ [m] }

/-- A command issued on the head link. -/
def State.sendHead (s : State) (m : HeadMessage) : State := { s with headOut := s.headOut ++ [m] }

/-! ## What a reply shows of the messages issued (R3, R30, R55; log 10)

A place in a list is counted from 1; 0 says that the list holds no such message. The links keep their order, so the message at place
`n` having begun transmission says that the first `n` have. -/

/-- The place one further on of a message that is there. -/
def placeAfter : Nat → Nat
  | 0 => 0
  | n + 1 => n + 2

/-- The place of the newest message of a kind. -/
def newestPlace {α : Type} (p : α → Bool) : List α → Nat
  | [] => 0
  | m :: ms =>
    match newestPlace p ms with
    | 0 => if p m then 1 else 0
    | n + 1 => n + 2

/-- The place of the message of a kind that has `k` of its kind before it. -/
def nthPlace {α : Type} (p : α → Bool) : Nat → List α → Nat
  | _, [] => 0
  | 0, m :: ms => if p m then 1 else placeAfter (nthPlace p 0 ms)
  | k + 1, m :: ms => placeAfter (nthPlace p (if p m then k else k + 1) ms)

/-- The place of the oldest message of a kind behind the first `n` messages. -/
def oldestBehind {α : Type} (p : α → Bool) (n : Nat) (ms : List α) : Nat :=
  match nthPlace p 0 (ms.drop n) with
  | 0 => 0
  | k + 1 => n + (k + 1)

/-- The first `n` messages of the exchange link have begun transmission. -/
def State.showExchange (s : State) (n : Nat) : State :=
  { s with begun := { s.begun with exchange := max s.begun.exchange n } }

/-- The first `n` commands of the matrix link have begun transmission. -/
def State.showMatrix (s : State) (n : Nat) : State := { s with begun := { s.begun with matrix := max s.begun.matrix n } }

/-- The first `n` commands of the head link have begun transmission. -/
def State.showHead (s : State) (n : Nat) : State := { s with begun := { s.begun with head := max s.begun.head n } }

/-- A CLAIM of a line and a claim number, forced or not. -/
def ExchangeMessage.isClaim (l : LineNo) (c : ClaimNo) : ExchangeMessage → Bool
  | .claim l' c' _ => l' == l && c' == c
  | .release _ _ | .keep _ _ | .resync => false

/-- A RESYNC. -/
def ExchangeMessage.isResync : ExchangeMessage → Bool
  | .resync => true
  | .claim _ _ _ | .release _ _ | .keep _ _ => false

/-- A CLOSE of a bus. -/
def MatrixMessage.isClose (b : BusNo) : MatrixMessage → Bool
  | .close b' _ => b' == b
  | .opening _ => false

/-- An OPEN of a bus. -/
def MatrixMessage.isOpen (b : BusNo) : MatrixMessage → Bool
  | .opening b' => b' == b
  | .close _ _ => false

/-- A START of a head. -/
def HeadMessage.isStart (h : HeadNo) : HeadMessage → Bool
  | .start h' _ _ => h' == h
  | .abort _ | .clear _ => false

/-- An ABORT of a head. -/
def HeadMessage.isAbort (h : HeadNo) : HeadMessage → Bool
  | .abort h' => h' == h
  | .start _ _ _ | .clear _ => false

/-- A CLEAR of a head. -/
def HeadMessage.isClear (h : HeadNo) : HeadMessage → Bool
  | .clear h' => h' == h
  | .start _ _ _ | .abort _ => false

/-- A GRANT, DENY or RECALL of a line and claim number answers the newest CLAIM that carries them (R21, R24). -/
def heardAnswer (l : LineNo) (c : ClaimNo) (s : State) : State :=
  s.showExchange (newestPlace (ExchangeMessage.isClaim l c) s.exchangeOut)

/-- The k-th RESYNC_END answers a RESYNC that is no earlier than the k-th of the list (R16). -/
def heardResyncEnd (s : State) : State :=
  let t := s.showExchange (nthPlace ExchangeMessage.isResync s.begun.resyncEnds s.exchangeOut)
  { t with begun := { t.begun with resyncEnds := s.begun.resyncEnds + 1 } }

/-- A SETTLED answers the newest CLOSE of its bus (R31, R33). -/
def heardSettled (b : BusNo) (s : State) : State := s.showMatrix (newestPlace (MatrixMessage.isClose b) s.matrixOut)

/-- An OPENED answers one of the OPENs of its bus that follow the bus's newest CLOSE, the oldest at the least (R31). -/
def heardOpened (b : BusNo) (s : State) : State :=
  s.showMatrix (oldestBehind (MatrixMessage.isOpen b) (newestPlace (MatrixMessage.isClose b) s.matrixOut) s.matrixOut)

/-- An XP_FAULT answers the newest CLOSE of its bus or an OPEN that follows it; with no CLOSE issued, an OPEN (R31, R33). -/
def heardXpFault (b : BusNo) (s : State) : State :=
  match newestPlace (MatrixMessage.isClose b) s.matrixOut with
  | 0 => s.showMatrix (nthPlace (MatrixMessage.isOpen b) 0 s.matrixOut)
  | n + 1 => s.showMatrix (n + 1)

/-- A READING answers the newest START of its head (R56, R63). -/
def heardReading (h : HeadNo) (s : State) : State := s.showHead (newestPlace (HeadMessage.isStart h) s.headOut)

/-- An ABORTED answers the newest ABORT of its head (R56, R74). -/
def heardAborted (h : HeadNo) (s : State) : State := s.showHead (newestPlace (HeadMessage.isAbort h) s.headOut)

/-- A READY answers one of the CLEARs of its head that follow the head's newest START, the oldest at the least (R56, R78). -/
def heardReady (h : HeadNo) (s : State) : State :=
  s.showHead (oldestBehind (HeadMessage.isClear h) (newestPlace (HeadMessage.isStart h) s.headOut) s.headOut)

/-! ## The writer queue (R159, R160) -/

/-- An entry becomes pending, last in the order (R160). -/
def State.pushEntry (s : State) (e : WriterEntry) : State := { s with writerQueue := s.writerQueue ++ [e] }

/-- The entry is one of the four general ones (R159). -/
def WriterEntry.isGeneral : WriterEntry → Bool
  | .bus _ _ _ | .status _ => false
  | .inProgress _ _ | .cancelled _ _ | .query _ _ | .disposition _ _ _ | .ticket _ _ _ _ => true

/-- The entry carries a final record: COMPLETE, CANCELLED or FAILED (R98). -/
def WriterEntry.isFinal : WriterEntry → Bool
  | .bus _ _ _ | .cancelled _ _ => true
  | .status _ | .inProgress _ _ | .query _ _ | .disposition _ _ _ | .ticket _ _ _ _ => false

/-- The entry is the status entry (R161). -/
def WriterEntry.isStatus : WriterEntry → Bool
  | .status _ => true
  | .bus _ _ _ | .inProgress _ _ | .cancelled _ _ | .query _ _ | .disposition _ _ _ | .ticket _ _ _ _ => false

/-- The entry carries a ticket (R141). -/
def WriterEntry.isTicket : WriterEntry → Bool
  | .ticket _ _ _ _ => true
  | .bus _ _ _ | .status _ | .inProgress _ _ | .cancelled _ _ | .query _ _ | .disposition _ _ _ => false

/-- The entry is the bus entry of the bus named (R159). -/
def WriterEntry.isBus (b : BusNo) : WriterEntry → Bool
  | .bus c _ _ => b == c
  | .status _ | .inProgress _ _ | .cancelled _ _ | .query _ _ | .disposition _ _ _ | .ticket _ _ _ _ => false

/-- How many of the four general writer entries are empty (R160). -/
def State.freeGeneral (s : State) : Nat := 4 - s.writerQueue.countP WriterEntry.isGeneral

/-- The bus's reserved writer entry is empty (R22, R159). -/
def State.busEntryEmpty (s : State) (b : BusNo) : Bool := !s.writerQueue.any (WriterEntry.isBus b)

/-- A ticket is in the writer (R124, R141). -/
def State.ticketInWriter (s : State) : Bool := s.writerQueue.any WriterEntry.isTicket

/-- A writer entry holds a final record not yet performed (R98). -/
def State.finalPending (s : State) : Bool := s.writerQueue.any WriterEntry.isFinal

/-! ## Views of the state -/

/-- A limit of the anchor in force; 0 while none is in force, when no rule reads it. -/
def State.limit (s : State) (f : Anchor → Nat) : Nat :=
  match s.anchor with
  | some a => f a
  | none => 0

/-- The installed line count of the anchor in force; while none is in force no line is installed (R2). -/
def State.installedCount (s : State) : Nat := s.limit Anchor.installed

/-- A line is installed (R2). -/
def State.installed (s : State) (l : LineNo) : Bool := decide (l.val < s.installedCount)

/-- A head is in service while it is FREE, ATTACHED or ABORTING (R53). -/
def HeadState.inService : HeadState → Bool
  | .free | .attached | .aborting => true
  | .clearing | .suspect => false

/-- At least one head is in service (R22, R76). -/
def State.headInService (s : State) : Bool := allHeads.any fun h => (s.head h).state.inService

/-- The slots of a bus's test in progress. -/
def Bus.slots (r : Bus) : List SlotMember :=
  match r.test with
  | some e => e.slots
  | none => []

/-- The in-flight set: the slot lists of the queued entries and of the tests in progress (R83). -/
def State.inFlight (s : State) : List Nat :=
  (s.queue.flatMap fun e => e.slots.map SlotMember.slot) ++
    (allBuses.flatMap fun b => (s.bus b).slots.map SlotMember.slot)

/-- A bus carries a test of class SWEEP (R91). -/
def Bus.carriesSweep (r : Bus) : Bool :=
  match r.test with
  | some e => e.cls == .sweep
  | none => false

/-- The number of buses carrying SWEEP-class tests (R91, R104). -/
def State.sweepOnBuses (s : State) : Nat := allBuses.countP fun b => (s.bus b).carriesSweep

/-- The bus that a message of the exchange matches: not IDLE, naming the line, holding the claim number (R25). -/
def State.matchBus (s : State) (l : LineNo) (c : ClaimNo) : Option BusNo :=
  allBuses.find? fun b => (s.bus b).state != .idle && (s.bus b).line == some l && (s.bus b).claim == c

/-- The bus that names a line while it is not IDLE (R22). -/
def State.busOfLine (s : State) (l : LineNo) : Option BusNo :=
  allBuses.find? fun b => (s.bus b).state != .idle && (s.bus b).line == some l

end Sys2Proof.Machine
end

