-- ==== Sys2Proof/Machine/Flags.lean ====
section
/-!
DEFINITION. The attention flags, the ATTN level and the URGENT line (spec/09, section 9.5).
-/

namespace Sys2Proof.Machine

/-- The place of a flag in the flag table. -/
def Flag.index : Flag → Fin 13
  | .result => 0 | .fence => 1 | .refused => 2 | .holdEnd => 3 | .ticket => 4 | .drop => 5 | .groupAlarm => 6
  | .head => 7 | .bus => 8 | .link => 9 | .passEnd => 10 | .commit => 11 | .hazard => 12

/-- The flag's bit in word 1 of the status block and in the acknowledge word (Table 10-6). -/
def Flag.position : Flag → Nat
  | .hazard => 15
  | .result => 0 | .fence => 1 | .refused => 2 | .holdEnd => 3 | .ticket => 4 | .drop => 5 | .groupAlarm => 6
  | .head => 7 | .bus => 8 | .link => 9 | .passEnd => 10 | .commit => 11

/-- All flags. -/
def allFlags : List Flag :=
  [.result, .fence, .refused, .holdEnd, .ticket, .drop, .groupAlarm, .head, .bus, .link, .passEnd, .commit, .hazard]

/-- The class of a source, by its place in the levels word: TEST 0, TICKET 1, ALARM 2, EQUIPMENT 3, SWEEP 4, CONFIG 5; HAZARD
belongs to none (Table 9-3, Table 10-1). -/
def Flag.cls : Flag → Option Nat
  | .result | .fence | .refused | .holdEnd => some 0
  | .ticket | .drop => some 1
  | .groupAlarm => some 2
  | .head | .bus | .link => some 3
  | .passEnd => some 4
  | .commit => some 5
  | .hazard => none

/-- The condition of a flag (R179). -/
def State.flag (s : State) (f : Flag) : FlagCondition := entry s.flags f.index

/-- The state with a flag's condition replaced. -/
def State.setFlag (s : State) (f : Flag) (c : FlagCondition) : State := { s with flags := putEntry s.flags f.index c }

/-- Raising a flag (R179): a CLEAR flag becomes RAISED, any other stays; while no anchor is in force no flag is raised. -/
def State.raiseFlag (s : State) (f : Flag) : State :=
  if s.anchor.isSome && s.flag f == .clear then s.setFlag f .raised else s

/-- Clearing the flags whose position holds 1 in an acknowledge word (R181). -/
def State.acknowledgeFlags (s : State) (data : Word) : State :=
  allFlags.foldl (fun t f => if data.getLsbD f.position then t.setFlag f .clear else t) s

/-- The flags RAISED now, which the writer puts into the image (R179). -/
def State.raisedFlags (s : State) : List Flag := allFlags.filter fun f => s.flag f == .raised

/-- A performed status write: every flag it carried that is still set becomes SHOWN (R179). -/
def State.showFlags (s : State) (fs : List Flag) : State :=
  fs.foldl (fun t f => if t.flag f == .clear then t else t.setFlag f .shown) s

/-- The level a class has in force, 0–3 (R180, Table 10-1 word 11). -/
def Anchor.level (a : Anchor) (cls : Nat) : Nat := (a.levels.toNat >>> (2 * cls)) % 4

/-- What a flag contributes to the ATTN lines: its class's level if it is SHOWN and its source is enabled (R180). -/
def State.flagLevel (s : State) (a : Anchor) (f : Flag) : Nat :=
  match f.cls with
  | some c => if s.flag f == .shown && a.enables.getLsbD f.position then a.level c else 0
  | none => 0

/-- The level on ATTN1–ATTN0 (R180). -/
def State.attn (s : State) : Nat :=
  match s.anchor with
  | some a => allFlags.foldl (fun m f => max m (s.flagLevel a f)) 0
  | none => 0

/-- URGENT is active while the HAZARD flag is RAISED or SHOWN (R180). -/
def State.urgent (s : State) : Bool := s.flag .hazard != .clear

/-- HWAIT is active while a host access is outstanding (R156). -/
def State.hwait (s : State) : Bool := !s.hostAccesses.isEmpty

end Sys2Proof.Machine
end

