-- ==== Sys2Proof/Machine/Groups.lean ====
section
/-!
DEFINITION. The Group Counters: counting, raising a cable alarm, decay, clearing (spec/07).
-/

namespace Sys2Proof.Machine

/-- A group offered to the focus list is appended with cursor 0 if there is room and no entry of it (R114). -/
def offerFocus (g : GroupNo) (s : State) : State :=
  if s.focus.length < 4 && !s.focus.any (fun f => f.group == g) then { s with focus := s.focus ++ [{ group := g, cursor := 0 }] }
  else s

/-- A group enters the alarm list, or the overflow indication is set if the list is full (R150). -/
def listAlarm (g : GroupNo) (s : State) : State :=
  if s.alarmList.length < 8 then { s with alarmList := s.alarmList ++ [g] } else { s with alarmOverflow := true }

/-- A counted line brings its group's counter to the threshold: the alarm is raised, in the order of R149. -/
def raiseAlarm (g : GroupNo) (threshold : Nat) (s : State) : State :=
  (offerFocus g (listAlarm g (s.setGroup g { counter := threshold, alarm := true }))).raiseFlag .groupAlarm

/-- A line handed to the Group Counters acts on its group's record (R148). -/
def countLine (l : LineNo) (s : State) : State :=
  let g := groupOf l
  let r := s.group g
  let threshold := s.limit Anchor.alarmThreshold
  if r.counter + 1 < threshold then s.setGroup g { r with counter := r.counter + 1 }
  else if r.counter + 1 = threshold then raiseAlarm g threshold s
  else s

/-- A group record's decay at a pass end: an unalarmed counter above 0 decreases by 1 (R151). -/
def GroupRecord.decay (r : GroupRecord) : GroupRecord :=
  if r.alarm then r else { r with counter := r.counter - 1 }

/-- Decay over all 256 records (R151). -/
def decayGroups (s : State) : State := { s with groups := mapEntries GroupRecord.decay s.groups }

/-- The group leaves the alarm list if it stands there, and the indication is cleared as a place is freed (R150, R153). -/
def unlistAlarm (g : GroupNo) (s : State) : State :=
  if s.alarmList.contains g then { s with alarmList := s.alarmList.filter (fun x => x != g), alarmOverflow := false } else s

/-- The effect of a CLEAR_GROUP that passes its checks (R153). -/
def clearGroupRecord (g : GroupNo) (s : State) : State :=
  let t := unlistAlarm g (s.setGroup g GroupRecord.zero)
  { t with focus := t.focus.filter fun f => f.group != g }

/-- Every counter 0, every alarm clear, the alarm list and the focus list empty, the indication clear (R154, R155, R122). -/
def clearAllGroups (s : State) : State :=
  { s with groups := Vector.replicate 256 GroupRecord.zero, alarmList := [], alarmOverflow := false, focus := [] }

end Sys2Proof.Machine
end

