-- ==== Sys2Proof/Config.lean ====
section
/-!
DEFINITION. The free values of the model: what the spec leaves open. Each is an opaque constant without a body, so no proof can
see a value of it. The part has no other configuration of its own: its settings are the anchor's, which is state (R169).
-/

namespace Sys2Proof.Config

/-- What a byte of the desk's static RAM holds that nothing has written yet, by its address (log 7). -/
opaque powerOnByte : Nat → Byte

/-- The data of a byte lane whose enable is inactive in a host read, by the lane's byte address (log 8). -/
opaque disabledLane : Nat → Byte

/-- How many words of the record being written are in memory when a reset cuts it short (R168; log 9). Applied to
`State.freeIndex`. -/
opaque cutShort : Nat → Nat

/-- How many of the newest messages issued on the exchange link had not begun transmission at a reset (R3; log 10). -/
opaque unsentExchange : Nat → Nat

/-- The same for the matrix link (R30; log 10). -/
opaque unsentMatrix : Nat → Nat

/-- The same for the head link (R55; log 10). -/
opaque unsentHead : Nat → Nat

/-- Which of several steps of the part that are due together is taken first, on an empty queue ("either may be taken first";
log 2). -/
opaque pick : Nat → Nat

end Sys2Proof.Config
end

