-- ==== Sys2Proof/Machine/Memory.lean ====
section
/-!
DEFINITION. Desk memory: 16 MiB of bytes (spec/00, Table 0-2) as a list of cells in one canonical form, addresses strictly
rising. An unlisted address holds no value the model knows: what a host read of it returns is the free value
`Config.powerOnByte` (log 7). Every 24-bit address exists, so no access faults.
-/

namespace Sys2Proof.Machine

namespace Memory

/-- The canonical form: addresses strictly rising. No listed cell can equal what an unlisted address reads as, since that is no
value at all. -/
def wf : List Host.Cell → Bool
  | [] => true
  | [_] => true
  | x :: y :: m => decide (x.1 < y.1) && wf (y :: m)

/-- The byte written at an address, or none where nothing has been written. -/
def read : List Host.Cell → Nat → Option Byte
  | [], _ => none
  | c :: m, a => if c.1 = a then some c.2 else read m a

/-- Memory with one byte written. -/
def write : List Host.Cell → Nat → Byte → List Host.Cell
  | [], a, b => [(a, b)]
  | c :: m, a, b =>
    if a < c.1 then (a, b) :: c :: m
    else if a = c.1 then (a, b) :: m
    else c :: write m a b

/-- The byte a host read returns from an address (R156: "a host read returns what memory holds"). -/
def readByte (m : List Host.Cell) (a : Nat) : Byte := (read m a).getD (Config.powerOnByte a)

/-- One lane of a word: lane i holds bits 8i+7 to 8i at the word's address plus i (R183: "The lowest-addressed byte of a word
holds bits 7–0"; for host lanes log 18). -/
def lane (data : Word) (i : Nat) : Byte := data.extractLsb' (8 * i) 8

/-- One lane of a word written if its enable is active (R156). -/
def writeLane (m : List Host.Cell) (a : Nat) (data : Word) (be : BitVec 4) (i : Nat) : List Host.Cell :=
  if be.getLsbD i then write m (a + i) (lane data i) else m

/-- A word written at a word address under byte enables. -/
def writeLanes (m : List Host.Cell) (a : Nat) (data : Word) (be : BitVec 4) : List Host.Cell :=
  writeLane (writeLane (writeLane (writeLane m a data be 0) a data be 1) a data be 2) a data be 3

/-- A full word written at a word address (R183: the part writes full words). -/
def writeWord (m : List Host.Cell) (a : Nat) (data : Word) : List Host.Cell := writeLanes m a data 0xF#4

/-- Several full words written in order (R162). -/
def writeWords (m : List Host.Cell) : List (Nat × Word) → List Host.Cell
  | [] => m
  | (a, w) :: ws => writeWords (writeWord m a w) ws

/-- One lane of a host read: what memory gives where the enable is active, else a free value (log 8). -/
def readLane (m : List Host.Cell) (a : Nat) (be : BitVec 4) (i : Nat) : Byte :=
  if be.getLsbD i then readByte m (a + i) else Config.disabledLane (a + i)

/-- The data of a host read at a word address. -/
def readLanes (m : List Host.Cell) (a : Nat) (be : BitVec 4) : Word :=
  readLane m a be 3 ++ readLane m a be 2 ++ readLane m a be 1 ++ readLane m a be 0

end Memory

/-- The word address an access falls in: byte lanes are chosen by the byte enables (spec/00, Table 0-2; log 8). -/
def wordAddr (addr : HostAddr) : Nat := addr.toNat / 4 * 4

end Sys2Proof.Machine
end

