-- ==== Sys2Proof/Machine/Bits.lean ====
section
/-!
DEFINITION. Fields of a word (spec/10: "Bit 0 of a word is its least significant bit").
-/

namespace Sys2Proof.Machine

/-- The field of `len` bits of a word that begins at bit `lo`. -/
def field (w : Word) (lo len : Nat) : Nat := (w.toNat >>> lo) % 2 ^ len

/-- One bit of a word. -/
def bit (w : Word) (i : Nat) : Bool := w.getLsbD i

/-- A value placed in the field of `len` bits that begins at bit `lo`, 0 elsewhere (R183). -/
def place (v lo len : Nat) : Word := BitVec.ofNat 32 ((v % 2 ^ len) <<< lo)

/-- A bit placed at position `i`. -/
def placeBit (b : Bool) (i : Nat) : Word := place (if b then 1 else 0) i 1

end Sys2Proof.Machine
end

