-- ==== Sys2Proof/Machine/Records.lean ====
section
/-!
DEFINITION. The layouts of the records the part writes (spec/10, section 10.2) and the codes of the enumerations (Table 10-7).
Every reserved bit and word is 0, and so is a field that does not apply to the record's variant (R183).
-/

namespace Sys2Proof.Machine

/-! ## Codes (Table 10-7) -/

def Disposition.code : Disposition → Nat
  | .accepted => 1 | .merged => 2 | .done => 3 | .refusedKind => 4 | .refusedLine => 5 | .refusedProgram => 6
  | .refusedSlot => 7 | .refusedSlotBusy => 8 | .refusedTarget => 9 | .refusedState => 10 | .refusedNotFound => 11

/-- A disposition beginning REFUSED (R177). -/
def Disposition.isRefusal : Disposition → Bool
  | .accepted | .merged | .done => false
  | .refusedKind | .refusedLine | .refusedProgram | .refusedSlot | .refusedSlotBusy | .refusedTarget | .refusedState
  | .refusedNotFound => true

def CommitOutcome.code : CommitOutcome → Nat
  | .accepted => 1 | .refusedRange => 2 | .refusedLayout => 3 | .refusedLimits => 4 | .refusedBusy => 5

def RecordState.code : RecordState → Nat
  | .inProgress => 1 | .complete => 2 | .cancelled => 3 | .failed => 4

def TestOutcome.code : TestOutcome → Nat
  | .completed _ => 1 | .cancelled => 2 | .recalled => 3 | .claimDenied => 4 | .claimTimeout => 5 | .xpFault => 6
  | .headTimeout => 7 | .headError => 8 | .noHead => 9

/-- Fault kind codes follow the ranking of Table 3-5 (section 10.3). -/
def FaultKind.code : FaultKind → Nat
  | .hazard => 1 | .foreignVoltage => 2 | .short => 3 | .ground => 4 | .openWire => 5 | .highLoop => 6 | .unbalanced => 7

def Verdict.code : Verdict → Nat
  | .pass => 1 | .fail _ => 2 | .hazard => 3

/-- The fault kind written with a verdict: a FAIL's kind; HAZARD is written with fault kind 1 (section 10.3). -/
def Verdict.faultCode : Verdict → Nat
  | .pass => 0 | .fail k => k.code | .hazard => 1

def TicketKind.code : TicketKind → Nat
  | .lineFault k => k.code | .standingLoop => 8 | .restored => 9 | .headTimeout => 10 | .headError => 11 | .xpFault => 12
  | .linkTimeout => 13

def TicketOrigin.code : TicketOrigin → Nat
  | .desk => 1 | .sweep => 2 | .equipment => 3

def StepStatus.code : StepStatus → Nat
  | .notRun => 0 | .pass => 1 | .fail => 2 | .suspect => 3 | .aborted => 4

end Sys2Proof.Machine

namespace Sys2Proof

def ReadingStatus.code : ReadingStatus → Nat
  | .valid => 1 | .overRange => 2 | .underRange => 3

end Sys2Proof

namespace Sys2Proof.Machine

def Supervision.code : Supervision → Nat
  | .unknown => 0 | .idle => 1 | .offHook => 2 | .ringing => 3 | .inCall => 4 | .unequipped => 5

def BusState.code : BusState → Nat
  | .idle => 1 | .claiming => 2 | .seizing => 3 | .waitHead => 4 | .measuring => 5 | .held => 6 | .releasing => 7
  | .faulted => 8

def HeadState.code : HeadState → Nat
  | .free => 1 | .attached => 2 | .aborting => 3 | .clearing => 4 | .suspect => 5

def FaultCause.code : FaultCause → Nat
  | .xpFault => 1 | .timeout => 2

def SweepState.code : SweepState → Nat
  | .stopped => 0 | .running => 1

def HeldBack.code : HeldBack → Nat
  | .none => 0 | .noHead => 1 | .noBusAllowed => 2 | .outbox => 3 | .queue => 4 | .resync => 5

/-- The code of an optional value, with the code that stands for absent. -/
def optCode {α : Type} (absent : Nat) (f : α → Nat) : Option α → Nat
  | some x => f x
  | none => absent

/-! ## Result records (Tables 10-3, 10-4) -/

/-- A step record, one word (Table 10-4). -/
def StepRecord.word (r : StepRecord) : Word :=
  match r.reading with
  | some (st, v) => place v.toNat 0 16 ||| place st.code 16 2 ||| place r.status.code 24 3
  | none => place r.status.code 24 3

/-- The verdict of an outcome; absent but for COMPLETED (Table 4-2). -/
def TestOutcome.verdict : TestOutcome → Option Verdict
  | .completed v => some v
  | .cancelled | .recalled | .claimDenied | .claimTimeout | .xpFault | .headTimeout | .headError | .noHead => none

/-- The record state an outcome gives (Table 4-2). -/
def TestOutcome.recordState : TestOutcome → RecordState
  | .completed _ => .complete
  | .cancelled => .cancelled
  | .recalled | .claimDenied | .claimTimeout | .xpFault | .headTimeout | .headError | .noHead => .failed

/-- The sixteen words of a TEST record (Table 10-3). -/
def ResultRecord.words (r : ResultRecord) : List Word :=
  let verdict := r.outcome.bind TestOutcome.verdict
  [ place r.state.code 8 8 ||| place (optCode 0 TestOutcome.code r.outcome) 16 8 |||
      place (optCode 0 Verdict.code verdict) 24 4 ||| place (optCode 0 Verdict.faultCode verdict) 28 4,
    place r.tag.toNat 0 16 ||| place r.epoch.toNat 16 16,
    place r.line.val 0 12 ||| place (optCode 7 Fin.val r.bus) 16 3 ||| place (optCode 7 Fin.val r.head) 20 3 |||
      placeBit r.merged 24,
    0, 0, 0, 0, 0 ] ++ r.steps.toList.map StepRecord.word

/-- The sixteen words of a QUERY record (Table 10-3). -/
def QueryRecord.words (r : QueryRecord) : List Word :=
  let x := r.snapshot
  [ place 1 0 8 ||| place RecordState.complete.code 8 8,
    place r.tag.toNat 0 16 ||| place r.epoch.toNat 16 16,
    place r.line.val 0 12 ||| place 7 16 3 ||| place 7 20 3,
    0, 0, 0, 0, 0,
    place x.supervision.code 0 8 ||| placeBit x.loopMark 8 ||| placeBit x.yieldMark 9 ||| placeBit x.stamp.isSome 10 |||
      place (optCode 7 Fin.val x.occupying) 12 3 ||| place (optCode 0 BitVec.toNat x.stamp) 16 8,
    place (optCode 0 FaultKind.code x.ticketMark) 0 8 ||| place (optCode 0 (fun t => t.verdict.code) x.lastTest) 8 8 |||
      place (optCode 0 (fun t => t.verdict.faultCode) x.lastTest) 16 8,
    place (optCode 0 (fun t => t.epoch.toNat) x.lastTest) 0 16,
    0, 0, 0, 0, 0 ]

/-- The record of one slot of a bus entry: the same but for the slot's tag and merged indication (R100). -/
def ResultRecord.forMember (r : ResultRecord) (m : SlotMember) : ResultRecord := { r with tag := m.tag, merged := m.merged }

/-! ## Ticket records (Table 10-5) -/

/-- The line list as an offset mask: bit k lists line group × 16 + k (Table 10-5). -/
def offsetMask (ls : List LineNo) : Nat := ls.foldl (fun m l => m ||| (1 <<< (l.val % 16))) 0

/-- The eight detail words of a ticket (spec/10, below Table 10-5). -/
def TicketDetail.words : TicketDetail → List Word
  | .steps rs => rs.toList.map StepRecord.word
  | .age a => [place a.toNat 0 8, 0, 0, 0, 0, 0, 0, 0]
  | .context c =>
    [ place (optCode 15 Fin.val c.bus) 0 4 ||| place (optCode 15 Fin.val c.head) 4 4 ||| place (optCode 15 Fin.val c.step) 8 4 |||
        place (optCode 0 BusState.code c.busState) 16 8 ||| place (optCode 0 HeadState.code c.headState) 24 8,
      place (optCode 0 Fin.val c.line) 0 12 ||| placeBit c.line.isSome 15 ||| place c.claim.toNat 16 8,
      place c.elapsed 0 16, 0, 0, 0, 0, 0 ]

/-- The sixteen words of a ticket record with its sequence number and dropped-before count (Table 10-5). -/
def Ticket.words (t : Ticket) (sequence : Count16) (dropped : Nat) : List Word :=
  [ place sequence.toNat 0 16 ||| place t.kind.code 16 8 ||| place t.origin.code 24 8,
    place dropped 0 8 ||| place (optCode 0 Fin.val t.group) 8 8 ||| placeBit t.group.isSome 23,
    place (offsetMask t.lines) 0 16 ||| place t.epoch.toNat 16 16,
    0, 0, 0, 0, 0 ] ++ t.detail.words

/-! ## Post word and outcome word -/

/-- A disposition as a whole post word: owner RETURNED and the disposition code (R177, R183). -/
def Disposition.postWord (d : Disposition) : Word := place 2 0 2 ||| place d.code 8 4

/-- The outcome word: generation and outcome code (R173, Table 10-1 word 30). -/
def CommitRecord.word (c : CommitRecord) : Word := place c.generation 0 8 ||| place c.outcome.code 8 4

/-! ## Where records stand -/

/-- Words at consecutive word addresses (R183: ascending address order). -/
def placeAt : Nat → List Word → List (Nat × Word)
  | _, [] => []
  | a, w :: ws => (a, w) :: placeAt (a + 4) ws

/-- The address of a result record (Table 10-3). -/
def Anchor.resultAddr (a : Anchor) (slot : Nat) : Nat := a.resultBase + 64 * slot

/-- The address of a slot's post word, word 3 of its 16 bytes (Table 10-2). -/
def Anchor.postAddr (a : Anchor) (slot : Fin 64) : Nat := a.ringBase + 16 * slot.val + 12

/-- The address of the ticket-ring slot of an index, index modulo ring size (section 6.5, Table 10-5). -/
def Anchor.ticketAddr (a : Anchor) (index : Count16) : Nat := a.ticketBase + 64 * (index.toNat % a.ticketSize)

/-- The address of the acknowledge word, word 2 of the status block (Table 10-6). -/
def Anchor.ackAddr (a : Anchor) : Nat := a.statusBase + 8

/-- The address of the consume index word, word 4 of the status block (Table 10-6). -/
def Anchor.consumeAddr (a : Anchor) : Nat := a.statusBase + 16

/-- The outcome word's address (Table 10-1). -/
def outcomeAddr : Nat := 0x278

/-- The commit word's address (Table 10-1). -/
def commitAddr : Nat := 0x27C

end Sys2Proof.Machine
end

