-- ==== Sys2Proof/Machine/Status.lean ====
section
/-!
DEFINITION. The sweep's conditions and held-back reason (R104, R105), the status image (R178, Table 10-6), the status writer entry
(R161), which words a pending entry covers (R165), and `finish`, the end of every event: the status entry is marked dirty if the
image changed, and a result hold whose slot has left flight passes into the pending-write hold.
-/

namespace Sys2Proof.Machine

/-! ## Conditions of the sweep -/

/-- A SWEEP-class entry waits in the Test Queue (Table 5-2). -/
def State.sweepQueued (s : State) : Bool := s.queue.any fun e => e.cls == .sweep

/-- Free places of the outbox: 8 less the tickets it holds (R104). -/
def State.outboxFree (s : State) : Nat := 8 - s.outbox.length

/-- The reason of the first row of Table 5-2 whose condition fails, or NONE when every condition holds (R104, R105). Once an attempt has
queued a visit this is QUEUE, as the table says and the worked sequence of section 5.9 does not: the model's choice (log 30). -/
def State.obstacle (s : State) : HeldBack :=
  if s.anchor.isNone || s.resyncPending then .resync
  else if !s.headInService then .noHead
  else if s.limit Anchor.sweepBusLimit ≤ s.sweepOnBuses then .noBusAllowed
  else if 16 ≤ s.queue.length || s.sweepQueued then .queue
  else if s.outboxFree < s.sweepOnBuses + 2 then .outbox
  else .none

/-- The held-back reason: NONE while the sweep is STOPPED (R105). -/
def State.heldBack (s : State) : HeldBack :=
  match s.sweep with
  | .stopped => .none
  | .running => s.obstacle

/-! ## The status image (Table 10-6) -/

/-- Word 0: generation in force, last commit outcome with its generation, resync indication. -/
def State.statusWord0 (s : State) : Word :=
  place (s.limit Anchor.generation) 0 8 ||| place (optCode 0 CommitRecord.generation s.lastCommit) 8 8 |||
    place (optCode 0 (fun c => c.outcome.code) s.lastCommit) 16 4 ||| placeBit s.resyncPending 24

/-- Word 1: the attention flags, 1 while set. -/
def State.statusWord1 (s : State) : Word :=
  allFlags.foldl (fun w f => w ||| placeBit (s.flag f != .clear) f.position) 0

/-- Word 3: take index, queue occupancy, produce index. -/
def State.statusWord3 (s : State) : Word :=
  place s.takeIndex.val 0 6 ||| place s.queue.length 8 5 ||| place s.produce.toNat 16 16

/-- Word 5: sweep state, held-back reason, pointer. -/
def State.statusWord5 (s : State) : Word :=
  place s.sweep.code 0 1 ||| place s.heldBack.code 4 3 ||| place s.pointer 16 12

/-- Word 6: epoch, dropped total. -/
def State.statusWord6 (s : State) : Word := place s.epoch.toNat 0 16 ||| place s.droppedTotal 16 16

/-- Word 7: head states, bus states, fault causes of FAULTED buses. -/
def State.statusWord7 (s : State) : Word :=
  place (s.head 0).state.code 0 4 ||| place (s.head 1).state.code 4 4 |||
    place (s.bus 0).state.code 8 4 ||| place (s.bus 1).state.code 12 4 |||
    place (s.bus 2).state.code 16 4 ||| place (s.bus 3).state.code 20 4 |||
    place (optCode 0 FaultCause.code (s.bus 0).cause) 24 2 ||| place (optCode 0 FaultCause.code (s.bus 1).cause) 26 2 |||
    place (optCode 0 FaultCause.code (s.bus 2).cause) 28 2 ||| place (optCode 0 FaultCause.code (s.bus 3).cause) 30 2

/-- Word 8: number of groups in the alarm list, list-overflow indication. -/
def State.statusWord8 (s : State) : Word := place s.alarmList.length 0 4 ||| placeBit s.alarmOverflow 4

/-- The group at a place of the alarm list, 0 beyond the number. -/
def State.alarmPlace (s : State) (i : Nat) : Nat := optCode 0 Fin.val s.alarmList[i]?

/-- Words 9 and 10: the alarm list, oldest alarm lowest. -/
def State.alarmWord (s : State) (first : Nat) : Word :=
  place (s.alarmPlace first) 0 8 ||| place (s.alarmPlace (first + 1)) 8 8 ||| place (s.alarmPlace (first + 2)) 16 8 |||
    place (s.alarmPlace (first + 3)) 24 8

/-- The status image: every word of the status block but the acknowledge word and the consume index word, each with its word
number (R159, R178). -/
def State.statusImage (s : State) : List (Nat × Word) :=
  [(0, s.statusWord0), (1, s.statusWord1), (3, s.statusWord3), (5, s.statusWord5), (6, s.statusWord6), (7, s.statusWord7),
    (8, s.statusWord8), (9, s.alarmWord 0), (10, s.alarmWord 4), (11, 0), (12, 0), (13, 0), (14, 0), (15, 0)]

/-! ## The status entry (R161) -/

/-- A record is being written. -/
def Path.isWriter : Path → Bool
  | .writer _ => true
  | .free | .host => false

/-- Marks the status entry in a list of entries not yet begun: pending where it stands, else placed last; an outcome replaces an
earlier one not yet written (R161). -/
def markStatus (o : Option CommitRecord) : List WriterEntry → List WriterEntry
  | [] => [.status o]
  | e :: es =>
    if e.isStatus then
      match o with
      | some _ => .status o :: es
      | none => e :: es
    else e :: markStatus o es

/-- The status entry is marked dirty, with the outcome of a commit attempt if there is one. The entry being written, which stands
first, is not the one that is marked: a change taken after the writer has taken the path marks it afresh (R161). -/
def State.markDirty (s : State) (o : Option CommitRecord) : State :=
  if s.path.isWriter then
    match s.writerQueue with
    | [] => { s with writerQueue := markStatus o [] }
    | e :: es => { s with writerQueue := e :: markStatus o es }
  else { s with writerQueue := markStatus o s.writerQueue }

/-- The status entry is marked dirty if a field of the image has changed while an anchor is in force (R161, R178; at the end of
the event, log 13). -/
def State.markIfChanged (before s : State) : State :=
  if s.anchor.isSome && before.statusImage != s.statusImage then s.markDirty none else s

/-! ## Covered words (R165) -/

/-- A word lies in the 64-byte record at an address. -/
def inRecord (base w : Nat) : Bool := decide (base ≤ w) && decide (w < base + 64)

/-- A pending entry covers a word: it holds a record that includes the word and is not yet written (R165). -/
def WriterEntry.covers (a : Anchor) (w : Nat) : WriterEntry → Bool
  | .bus _ _ slots => slots.any fun m => inRecord (a.resultAddr m.slot) w
  | .status o =>
    (inRecord a.statusBase w && w != a.ackAddr && w != a.consumeAddr) || (o.isSome && w == outcomeAddr)
  | .inProgress slot _ => inRecord (a.resultAddr slot) w
  | .cancelled slot _ => inRecord (a.resultAddr slot) w
  | .query slot _ => inRecord (a.resultAddr slot) w
  | .disposition slot _ _ => w == a.postAddr slot
  | .ticket index _ _ _ => inRecord (a.ticketAddr index) w

/-- Some pending entry covers the word (R165). -/
def State.covered (s : State) (a : Anchor) (w : Nat) : Bool := s.writerQueue.any (WriterEntry.covers a w)

/-- The result slot whose record a word lies in (Table 8-1). -/
def Anchor.slotOfWord (a : Anchor) (w : Nat) : Option Nat :=
  if a.resultBase ≤ w ∧ w < a.resultBase + 64 * a.resultCount then some ((w - a.resultBase) / 64) else none

/-- The word lies in a result record whose slot is in flight (R166). -/
def State.wordInFlight (s : State) (a : Anchor) (w : Nat) : Bool :=
  match a.slotOfWord w with
  | some slot => s.inFlight.contains slot
  | none => false

/-- The hold that applies to a host read of a word, given the hold in effect on it: the pending-write hold while the word is
covered, else the result hold while its slot is in flight, the limit is not 0 and the read has not used its result hold up; the
timer starts at the limit when the result hold takes over (R165, R166; log 15). -/
def State.holdOf (s : State) (w : Nat) : Option ReadHold :=
  match s.anchor with
  | none => none
  | some a =>
    if s.covered a w then some .pendingWrite
    else if s.wordInFlight a w && a.resultHoldLimit != 0 && !s.resultHoldSpent then
      match s.readHold with
      | some (.result n) => some (.result n)
      | some .pendingWrite => some (.result a.resultHoldLimit)
      | none => some (.result a.resultHoldLimit)
    else none

/-- A result hold whose word has become covered passes into the pending-write hold and its timer stops (R166). -/
def State.retestHold (s : State) : State :=
  match s.readHold, s.hostAccesses, s.anchor with
  | some (.result _), .read addr _ :: _, some a =>
    if s.covered a (wordAddr addr) then { s with readHold := some .pendingWrite } else s
  | _, _, _ => s

/-- The end of an event that began in state `before`. -/
def finish (before s : State) : State := (State.markIfChanged before s).retestHold

end Sys2Proof.Machine
end

