-- ==== Sys2Proof/Machine/Tickets.lean ====
section
/-!
DEFINITION. The Ticket Unit: formation, suppression, the coalescing register, the outbox, drops, the move into the writer, the
consume index (spec/06).
-/

namespace Sys2Proof.Machine

/-! ## The outbox and drops -/

/-- The ticket mark of a line made absent if it still holds the kind (R139). -/
def clearMark (kind : FaultKind) (s : State) (l : LineNo) : State :=
  if (s.line l).ticketMark = some kind then s.setLine l { s.line l with ticketMark := none } else s

/-- The ticket marks a dropped ticket cleans up: only a line fault ticket's kind can stand in a mark (R139). -/
def cleanMarks (t : Ticket) (s : State) : State :=
  match t.kind with
  | .lineFault k => t.lines.foldl (clearMark k) s
  | .standingLoop | .restored | .headTimeout | .headError | .xpFault | .linkTimeout => s

/-- A ticket finds the outbox full and is lost: the drop counts increase, DROP is raised, the marks are cleaned up (R138, R139). -/
def dropTicket (t : Ticket) (s : State) : State :=
  cleanMarks t
    ({ s with droppedBefore := min 255 (s.droppedBefore + 1), droppedTotal := min 65535 (s.droppedTotal + 1) }.raiseFlag .drop)

/-- A ticket enters the outbox and takes its sequence number, or is dropped (R137). -/
def enterOutbox (t : Ticket) (s : State) : State :=
  if s.outbox.length < 8 then
    { s with outbox := s.outbox ++ [{ sequence := s.ticketSeq, ticket := t }], ticketSeq := s.ticketSeq + 1 }
  else dropTicket t s

/-! ## The coalescing register -/

/-- The open ticket closes and enters the outbox; the timer stops; an empty register closes nothing (R135, R136). -/
def closeRegister (s : State) : State :=
  match s.register with
  | some t => enterOutbox t { s with register := none, coalescing := none }
  | none => s

/-- A mergeable ticket opens the register and the coalescing timer starts (R132). -/
def openRegister (t : Ticket) (s : State) : State :=
  { s with register := some t, coalescing := some (s.limit Anchor.coalescingWindow) }

/-- A ticket joins the open ticket: same kind, same group, its line above the last (R133). -/
def Ticket.joins (t o : Ticket) : Bool :=
  o.kind == t.kind && o.group == t.group &&
    (match o.lines.getLast?, t.lines.head? with
     | some last, some l => decide (last < l)
     | _, _ => false)

/-- The open ticket with a ticket's line appended; its origin becomes DESK if the appended line's test is of class DESK, its epoch
and detail are kept (R132, R133). -/
def Ticket.append (o t : Ticket) : Ticket :=
  { o with lines := o.lines ++ t.lines, origin := if t.origin == .desk then .desk else o.origin }

/-- A mergeable ticket reaches the register (R132–R134). -/
def reachRegister (t : Ticket) (s : State) : State :=
  match s.register with
  | none => openRegister t s
  | some o => if t.joins o then openRegister (o.append t) s else openRegister t (closeRegister s)

/-- The four mergeable kinds (R125). -/
def TicketKind.mergeable : TicketKind → Bool
  | .lineFault .short | .lineFault .ground | .lineFault .openWire | .restored => true
  | .lineFault .hazard | .lineFault .foreignVoltage | .lineFault .highLoop | .lineFault .unbalanced => false
  | .standingLoop | .headTimeout | .headError | .xpFault | .linkTimeout => false

/-- A formed ticket goes to the register or to the outbox (R131). -/
def routeTicket (t : Ticket) (s : State) : State :=
  if t.kind.mergeable then reachRegister t s else enterOutbox t s

/-! ## Forming tickets -/

/-- The origin a test's class gives a ticket (Table 6-2). -/
def TestClass.origin : TestClass → TicketOrigin
  | .desk => .desk
  | .sweep => .sweep

/-- A ticket of a line, formed in the present epoch (R126). -/
def lineTicket (s : State) (kind : TicketKind) (origin : TicketOrigin) (l : LineNo) (detail : TicketDetail) : Ticket :=
  { kind := kind, origin := origin, epoch := s.epoch, group := some (groupOf l), lines := [l], detail := detail }

/-- A FAIL or HAZARD verdict forms a line fault ticket unless the line's mark already holds the kind: the mark is set, the line is
counted in its group, and the ticket is routed (R127, R148). The mark is set before the routing: where the routed ticket closes a ticket
of the same kind and line that is dropped, the drop clears the mark just set, the model's choice (R11, R132, R139; log 28). -/
def formLineFault (l : LineNo) (kind : FaultKind) (cls : TestClass) (steps : StepRecords) (s : State) : State :=
  if (s.line l).ticketMark = some kind then s
  else
    routeTicket (lineTicket s (.lineFault kind) cls.origin l (.steps steps))
      (countLine l (s.setLine l { s.line l with ticketMark := some kind }))

/-- A PASS on a marked line forms a RESTORED ticket and the mark becomes absent (R128). -/
def formRestored (l : LineNo) (cls : TestClass) (steps : StepRecords) (s : State) : State :=
  match (s.line l).ticketMark with
  | some _ =>
    routeTicket (lineTicket s .restored cls.origin l (.steps steps)) (s.setLine l { s.line l with ticketMark := none })
  | none => s

/-- The verdict of a completed test reaches the Ticket Unit (R127, R128). -/
def takeVerdict (l : LineNo) (v : Verdict) (cls : TestClass) (steps : StepRecords) (s : State) : State :=
  match v with
  | .pass => formRestored l cls steps s
  | .fail k => formLineFault l k cls steps s
  | .hazard => formLineFault l .hazard cls steps s

/-- A standing loop handed over by the sweep: the ticket goes to the outbox and the loop mark is set (R129). -/
def formStandingLoop (l : LineNo) (age : BitVec 8) (s : State) : State :=
  routeTicket (lineTicket s .standingLoop .sweep l (.age age)) (s.setLine l { s.line l with loopMark := true })

/-- An equipment event forms an equipment ticket; one that arises while no anchor is in force is not handed over (R130). -/
def equipmentEvent (kind : TicketKind) (c : EventContext) (s : State) : State :=
  if s.anchor.isSome then
    routeTicket
      { kind := kind, origin := .equipment, epoch := s.epoch, group := c.line.map groupOf, lines := [], detail := .context c } s
  else s

/-! ## The ticket ring -/

/-- Tickets in the ring: produce minus consume, modulo 65536 (R141). -/
def State.ringFill (s : State) : Nat := (s.produce - s.consume).toNat

/-- The four conditions of R141. -/
def State.moveReady (s : State) : Bool :=
  !s.outbox.isEmpty && !s.ticketInWriter && decide (s.ringFill < s.limit Anchor.ticketSize) && decide (3 ≤ s.freeGeneral)

/-- The oldest outbox ticket moves into a general writer entry, addressed to the slot of the produce index; it takes the
dropped-before count, which becomes 0 (R140, R141). -/
def moveTicket (s : State) : State :=
  match s.outbox with
  | [] => s
  | q :: qs =>
    if s.moveReady then
      { s with outbox := qs, droppedBefore := 0 }.pushEntry (.ticket s.produce q.sequence s.droppedBefore q.ticket)
    else s

/-- An offered consume index is accepted when it lies in the window: produce minus c at most the ring size, or the ring size less
1 while a ticket is in the writer; any other is ignored (R143). -/
def offerConsume (a : Anchor) (data : Word) (s : State) : State :=
  let c : Count16 := data.setWidth 16
  let room := if s.ticketInWriter then a.ticketSize - 1 else a.ticketSize
  if (s.produce - c).toNat ≤ room then { s with consume := c } else s

/-- TICKET_MOVE (R141). -/
def execTicketMove (s : State) : Host.Outcome State Fault Refusal := .next (finish s (moveTicket s))

/-- COALESCING_TIMER_EXPIRY: the open ticket closes and enters the outbox (R135); the timer runs only while the register is open. -/
def execCoalescingTimerExpiry (s : State) : Host.Outcome State Fault Refusal :=
  match s.coalescing with
  | some _ => .next (finish s (closeRegister s))
  | none => .next s

end Sys2Proof.Machine
end

