-- ==== Sys2Proof/Machine/BusOps.lean ====
section
/-!
DEFINITION. What happens on a bus, shared by the Access Unit and the Head Unit: entering IDLE and RELEASING, the end of a test, the
head wait queue, aborting a step, the loss of the last head (spec/02, spec/03).
-/

namespace Sys2Proof.Machine

/-! ## Entering IDLE and RELEASING -/

/-- The line record's occupying bus is set or made absent (R12). -/
def setOccupying (l : LineNo) (o : Option BusNo) (s : State) : State := s.setLine l { s.line l with occupying := o }

/-- The bus enters IDLE: its record holds its state alone and its line's occupying bus becomes absent, at which the Test Queue looks
for a move (R12, R20, R89). -/
def enterIdle (b : BusNo) (s : State) : State :=
  match (s.bus b).line with
  | some l => ((setOccupying l none s).setBus b Bus.idle).look true
  | none => (s.setBus b Bus.idle).look true

/-- The bus sends OPEN, OPEN is its outstanding command, the open timer starts at 50 ms and it enters RELEASING (R32, R33, R36,
R39, R42, R43, R44, R48, R49). -/
def startRelease (b : BusNo) (s : State) : State :=
  (s.sendMatrix (.opening b)).setBus b
    { s.bus b with state := .releasing, command := some .opening, timer := some (.opening, 50), cause := none }

/-! ## The end of a test (R38) -/

/-- The outcome of a pending abort reason (R38). -/
def AbortReason.outcome : AbortReason → TestOutcome
  | .recall => .recalled
  | .cancel => .cancelled
  | .noHead => .noHead

/-- The outcome a test ends with: that of the pending reason where an abort is pending, whatever the event (R38). -/
def Bus.endOutcome (r : Bus) (o : TestOutcome) : TestOutcome :=
  match r.abort with
  | some reason => reason.outcome
  | none => o

/-- The final record of a test (R100); each slot's tag and merged indication are put in when it is written. -/
def finalRecord (e : TestEntry) (o : TestOutcome) (b : BusNo) (h : Option HeadNo) (epoch : Count16) (steps : StepRecords) :
    ResultRecord :=
  { tag := 0, state := o.recordState, outcome := some o, line := e.line, bus := some b, head := h, merged := false,
    epoch := epoch, steps := steps }

/-- First, the final record enters the bus's reserved writer entry if the slot list is not empty (R38). -/
def queueFinal (b : BusNo) (e : TestEntry) (o : TestOutcome) (h : Option HeadNo) (steps : StepRecords) (s : State) : State :=
  if e.slots.isEmpty then s else s.pushEntry (.bus b (finalRecord e o b h s.epoch steps) e.slots)

/-- Second, for COMPLETED, verdict and epoch go to the Line Table and the verdict to the Ticket Unit (R13, R38). -/
def handOnVerdict (e : TestEntry) (o : TestOutcome) (steps : StepRecords) (s : State) : State :=
  match o.verdict with
  | some v =>
    takeVerdict e.line v e.cls steps
      (s.setLine e.line { s.line e.line with lastTest := some { verdict := v, epoch := s.epoch } })
  | none => s

/-- Third, the test in progress becomes absent, with the abort that was pending on it (log 14) and its step program (R38, R62). -/
def dropTest (b : BusNo) (s : State) : State :=
  (s.setBus b { s.bus b with test := none, abort := none }).setProgram b none

/-- A test ends on a bus with an outcome (the pending reason's if an abort is pending), the head granted to it and its step
records; at the end of a test of class SWEEP the Test Queue looks for a move (R38, R89). -/
def endTest (b : BusNo) (o : TestOutcome) (h : Option HeadNo) (steps : StepRecords) (s : State) : State :=
  match (s.bus b).test with
  | some e =>
    let o' := (s.bus b).endOutcome o
    (dropTest b (handOnVerdict e o' steps (queueFinal b e o' h steps s))).look (e.cls == .sweep)
  | none => s

/-- A test ends before its bus reached MEASURING: no head, all steps NOT_RUN (Table 4-2). -/
def endTestEarly (b : BusNo) (o : TestOutcome) (s : State) : State := endTest b o none StepRecords.notRun s

/-! ## The head wait queue (R57) -/

/-- The class of a bus's test in progress. -/
def State.busIsDesk (s : State) (b : BusNo) : Bool :=
  match (s.bus b).test with
  | some e => e.cls == .desk
  | none => false

/-- The place of a joining bus: a DESK-class bus goes behind the DESK-class buses and ahead of every SWEEP-class bus, a SWEEP-class
bus goes last (R57). -/
def joinedQueue (isDesk : BusNo → Bool) (b : BusNo) (q : List BusNo) : List BusNo :=
  if isDesk b then q.filter isDesk ++ b :: q.filter (fun c => !isDesk c) else q ++ [b]

/-- The bus joins the head wait queue (R57). -/
def joinWait (b : BusNo) (s : State) : State := { s with waitQueue := joinedQueue s.busIsDesk b s.waitQueue }

/-- The Access Unit takes the bus out of the head wait queue (R57). -/
def leaveWait (b : BusNo) (s : State) : State := { s with waitQueue := s.waitQueue.filter fun c => c != b }

/-- A waiting bus's test is ended: it leaves the queue, the test ends, and the bus sends OPEN and enters RELEASING (R42, R44, R45). -/
def endWaiting (b : BusNo) (o : TestOutcome) (s : State) : State := startRelease b (endTestEarly b o (leaveWait b s))

/-! ## Aborts -/

/-- A bus takes abort pending with a reason (R41, R44, R45). -/
def setAbort (b : BusNo) (reason : AbortReason) (s : State) : State := s.setBus b { s.bus b with abort := some reason }

/-- The head attached to a bus. -/
def State.headOfBus (s : State) (b : BusNo) : Option HeadNo :=
  allHeads.find? fun h => (s.head h).bus == some b

/-- The Head Unit is asked to abort the test of a measuring bus: an ATTACHED head is sent ABORT and enters ABORTING with the abort
timer at 100 ms; one already ABORTING is left as it is (R73). -/
def abortStep (b : BusNo) (s : State) : State :=
  match s.headOfBus b with
  | some h =>
    if (s.head h).state = .attached then
      (s.sendHead (.abort h)).setHead h { s.head h with state := .aborting, timer := some (.abort, 100), startedAt := 0 }
    else s
  | none => s

/-- The Test Queue orders a test on a bus to end for CANCEL; a reason already pending is kept (R44). -/
def cancelOnBus (b : BusNo) (s : State) : State :=
  match (s.bus b).abort with
  | some _ => s
  | none =>
    match (s.bus b).state with
    | .claiming => setAbort b .cancel s
    | .seizing => setAbort b .cancel s
    | .waitHead => endWaiting b .cancelled s
    | .measuring => abortStep b (setAbort b .cancel s)
    | .idle => s
    | .held => s
    | .releasing => s
    | .faulted => s

/-! ## Loss of the last head (R45, R76) -/

/-- A claiming or seizing bus without an abort pending takes abort pending NO_HEAD (R45). -/
def loseHeadOnBus (s : State) (b : BusNo) : State :=
  if ((s.bus b).state = .claiming ∨ (s.bus b).state = .seizing) ∧ (s.bus b).abort = none then setAbort b .noHead s else s

/-- A head has left service: if none is left in service, every waiting bus ends its test NO_HEAD and releases, and claiming and
seizing buses take abort pending NO_HEAD (R45, R76). -/
def lossOfLastHead (s : State) : State :=
  if s.headInService then s
  else allBuses.foldl loseHeadOnBus (s.waitQueue.foldl (fun t b => endWaiting b .noHead t) s)

/-! ## Heads -/

/-- A head record that enters FREE or SUSPECT: bus attached, current step and timer become absent (R53). -/
def Head.released (state : HeadState) : Head := { state := state, bus := none, step := none, timer := none, startedAt := 0 }

/-- The head enters FREE (R53). -/
def freeHead (h : HeadNo) (s : State) : State := s.setHead h (Head.released .free)

/-- The head enters SUSPECT (R53). -/
def suspectHead (h : HeadNo) (s : State) : State := s.setHead h (Head.released .suspect)

/-- The step records of a bus's program, all NOT_RUN if it has none (R62). -/
def State.stepRecords (s : State) (b : BusNo) : StepRecords :=
  match s.program b with
  | some p => p.steps
  | none => StepRecords.notRun

end Sys2Proof.Machine
end

