-- ==== Sys2Proof/Machine/Access.lean ====
section
/-!
DEFINITION. The Access Unit and the Line Table against the exchange link and the matrix link: STATE, GRANT, DENY, RECALL,
RESYNC_END, SETTLED, OPENED, XP_FAULT and the four bus timers (spec/01, spec/02).
-/

namespace Sys2Proof.Machine

/-! ## STATE (R5, Table 1-4) -/

end Sys2Proof.Machine

namespace Sys2Proof

/-- The supervision state a STATE message carries. -/
def Reported.supervision : Reported → Machine.Supervision
  | .idle => .idle
  | .offHook => .offHook
  | .ringing => .ringing
  | .inCall => .inCall

end Sys2Proof

namespace Sys2Proof.Machine

/-- Table 1-4: a STATE acting on a record, with the epoch in effect. A STATE that carries the state already held changes nothing. -/
def LineRecord.report (r : LineRecord) (v : Supervision) (epoch : Count16) : LineRecord :=
  if r.supervision = v then r
  else if v = .offHook then { r with supervision := .offHook, stamp := some (epoch.setWidth 8), loopMark := false }
  else { r with supervision := v, stamp := none, loopMark := false }

/-- STATE (R5), and the look of the Test Queue where the supervision state changes (R89); a state field that holds none of the four
values is discarded (R4). -/
def execState (l : LineNo) (reported : Option Reported) (s : State) : Host.Outcome State Fault Refusal :=
  match reported with
  | some v =>
    .next (finish s
      ((s.setLine l ((s.line l).report v.supervision s.epoch)).look ((s.line l).supervision != v.supervision)))
  | none => .next s

/-! ## RESYNC_END (R16) -/

/-- A record still UNKNOWN becomes IDLE (R16). -/
def LineRecord.resynced (r : LineRecord) : LineRecord :=
  if r.supervision = .unknown then { r with supervision := .idle } else r

/-- The resync ends (R16), at which the Test Queue looks for a move (R89). -/
def endResync (s : State) : State :=
  (({ s.mapLines LineRecord.resynced with resyncPending := false } : State).look true).raiseFlag .link

/-- RESYNC_END: while resync is pending it ends the resync; otherwise it is discarded (R16). -/
def execResyncEnd (s : State) : Host.Outcome State Fault Refusal :=
  if s.resyncPending then .next (finish s (endResync (heardResyncEnd s))) else .next (heardResyncEnd s)

/-! ## GRANT (R26, R29) -/

/-- A matched GRANT starts the seizure: CLOSE sent, settle timer at 50 ms (R26). -/
def startSeizure (b : BusNo) (l : LineNo) (s : State) : State :=
  (s.sendMatrix (.close b l)).setBus b
    { s.bus b with state := .seizing, command := some .close, timer := some (.settle, 50) }

/-- A matched GRANT with an abort pending: the test ends, RELEASE is sent, the bus enters IDLE (R26). -/
def declineGrant (b : BusNo) (reason : AbortReason) (l : LineNo) (c : ClaimNo) (s : State) : State :=
  enterIdle b ((endTestEarly b reason.outcome s).sendExchange (.release l c))

/-- GRANT: an unmatched one is answered with RELEASE (R29); one that matches a bus not CLAIMING is discarded (R25). -/
def takeGrant (l : LineNo) (c : ClaimNo) (s : State) : State :=
  match s.matchBus l c with
  | none => s.sendExchange (.release l c)
  | some b =>
    if (s.bus b).state = .claiming then
      match (s.bus b).abort with
      | none => startSeizure b l s
      | some reason => declineGrant b reason l c s
    else s

/-- GRANT (R26). -/
def execGrant (l : LineNo) (c : ClaimNo) (s : State) : Host.Outcome State Fault Refusal :=
  .next (finish s (takeGrant l c (heardAnswer l c s)))

/-! ## DENY (R27) -/

/-- What a DENY's reason does to the line record (R9, R10, R27). -/
def LineRecord.deny (r : LineRecord) (reason : DenyReason) : LineRecord :=
  match reason with
  | .busy => { r with yieldMark := true }
  | .unequipped =>
    if r.supervision = .offHook then { r with supervision := .unequipped, stamp := none, loopMark := false }
    else { r with supervision := .unequipped }
  | .blocked => r

/-- A DENY that matches a bus in CLAIMING ends the claim; any other is discarded (R25, R27, R29). -/
def takeDeny (l : LineNo) (c : ClaimNo) (reason : DenyReason) (s : State) : State :=
  match s.matchBus l c with
  | none => s
  | some b =>
    if (s.bus b).state = .claiming then
      let t := enterIdle b (endTestEarly b .claimDenied s)
      t.setLine l ((t.line l).deny reason)
    else s

/-- DENY (R27); a reason field that holds none of the three is discarded (R4). -/
def execDeny (l : LineNo) (c : ClaimNo) (reason : Option DenyReason) (s : State) : Host.Outcome State Fault Refusal :=
  match reason with
  | some r => .next (finish s (takeDeny l c r (heardAnswer l c s)))
  | none => .next s

/-! ## RECALL (R40–R43, Table 2-3) -/

/-- The line's yield mark is set (R10). -/
def setYield (l : LineNo) (s : State) : State := s.setLine l { s.line l with yieldMark := true }

/-- An unforced recall of a bus with no abort pending, by the bus's state (R41, R42, R43). -/
def yieldBus (b : BusNo) (l : LineNo) (s : State) : State :=
  match (s.bus b).state with
  | .seizing => setYield l (setAbort b .recall s)
  | .waitHead => endWaiting b .recalled (setYield l s)
  | .measuring => abortStep b (setYield l (setAbort b .recall s))
  | .held => (startRelease b s).raiseFlag .holdEnd
  | .idle => s
  | .claiming => s
  | .releasing => s
  | .faulted => s

/-- A matched recall by the bus's state (Table 2-3). -/
def recallBus (b : BusNo) (l : LineNo) (c : ClaimNo) (s : State) : State :=
  match (s.bus b).state with
  | .idle => s
  | .claiming => s
  | .releasing => s
  | .faulted => s.sendExchange (.keep l c)
  | .seizing | .waitHead | .measuring | .held =>
    if (s.bus b).abort.isSome then s
    else if (s.bus b).forced then s.sendExchange (.keep l c)
    else yieldBus b l s

/-- RECALL; an unmatched one is discarded (R29, R40). -/
def takeRecall (l : LineNo) (c : ClaimNo) (s : State) : State :=
  match s.matchBus l c with
  | none => s
  | some b => recallBus b l c s

/-- RECALL (R40). -/
def execRecall (l : LineNo) (c : ClaimNo) (s : State) : Host.Outcome State Fault Refusal :=
  .next (finish s (takeRecall l c (heardAnswer l c s)))

/-! ## The matrix link (R30–R36) -/

/-- The time a running bus timer of 50 ms has run (R33, R35; log 22). -/
def Bus.ranOf50 (r : Bus) : Nat :=
  match r.timer with
  | some (_, remaining) => 50 - remaining
  | none => 50

/-- The context of an event of a bus: bus, line, bus state, claim number, elapsed; no head and no step (R28, R33, R35). -/
def busContext (s : State) (b : BusNo) (elapsed : Nat) : EventContext :=
  { bus := some b, head := none, step := none, busState := some (s.bus b).state, headState := none, line := (s.bus b).line,
    claim := (s.bus b).claim, elapsed := elapsed }

/-- The seizure has settled (R32). -/
def settleBus (b : BusNo) (s : State) : State :=
  match (s.bus b).abort with
  | none => joinWait b (s.setBus b { s.bus b with state := .waitHead, command := none, timer := none })
  | some reason => startRelease b (endTestEarly b reason.outcome s)

/-- The seizure ends in failure (R33). -/
def failSeizure (b : BusNo) (elapsed : Nat) (s : State) : State :=
  equipmentEvent .xpFault (busContext s b elapsed) ((startRelease b (endTestEarly b .xpFault s)).raiseFlag .bus)

/-- The crosspoint is open (R34). -/
def releaseBus (b : BusNo) (s : State) : State :=
  match (s.bus b).line with
  | some l => enterIdle b (s.sendExchange (.release l (s.bus b).claim))
  | none => enterIdle b s

/-- The release fails: the crosspoint is in doubt and the bus enters FAULTED, keeping its line and claim (R35). -/
def failRelease (b : BusNo) (cause : FaultCause) (elapsed : Nat) (s : State) : State :=
  equipmentEvent .xpFault (busContext s b elapsed)
    ((s.setBus b { s.bus b with state := .faulted, command := none, timer := none, cause := some cause }).raiseFlag .bus)

/-- SETTLED answers the CLOSE of a bus in SEIZING; any other is discarded (R30, R31, R32). -/
def execSettled (bus : Nat) (s : State) : Host.Outcome State Fault Refusal :=
  if h : bus < 4 then
    let b : BusNo := ⟨bus, h⟩
    if (s.bus b).state = .seizing ∧ (s.bus b).command = some .close then .next (finish s (settleBus b (heardSettled b s)))
    else .next (heardSettled b s)
  else .next s

/-- OPENED answers the OPEN of a bus in RELEASING; any other is discarded (R30, R31, R34). -/
def execOpened (bus : Nat) (s : State) : Host.Outcome State Fault Refusal :=
  if h : bus < 4 then
    let b : BusNo := ⟨bus, h⟩
    if (s.bus b).state = .releasing ∧ (s.bus b).command = some .opening then .next (finish s (releaseBus b (heardOpened b s)))
    else .next (heardOpened b s)
  else .next s

/-- XP_FAULT answers either command: it fails a seizure or a release; with none outstanding it is discarded (R30, R31, R33, R35).
The elapsed time of a seizure is less than the 50 of an expiry, also where the timer has run out and its expiry has not been taken
(R33). -/
def execXpFault (bus : Nat) (s : State) : Host.Outcome State Fault Refusal :=
  if h : bus < 4 then
    let b : BusNo := ⟨bus, h⟩
    if (s.bus b).state = .seizing ∧ (s.bus b).command = some .close then
      .next (finish s (failSeizure b (min 49 (s.bus b).ranOf50) (heardXpFault b s)))
    else if (s.bus b).state = .releasing ∧ (s.bus b).command = some .opening then
      .next (finish s (failRelease b .xpFault (s.bus b).ranOf50 (heardXpFault b s)))
    else .next (heardXpFault b s)
  else .next s

/-! ## The bus timers -/

/-- The timer that runs for a bus. -/
def Bus.runs (r : Bus) (k : BusTimer) : Bool :=
  match r.timer with
  | some (k', _) => k' == k
  | none => false

/-- The claim timer expires: the test ends CLAIM_TIMEOUT or with the pending reason's outcome, the bus enters IDLE, no RELEASE is
sent, LINK_TIMEOUT is handed on and LINK raised (R28). -/
def claimTimeout (b : BusNo) (s : State) : State :=
  equipmentEvent .linkTimeout (busContext s b (s.limit Anchor.claimLimit))
    ((enterIdle b (endTestEarly b .claimTimeout s)).raiseFlag .link)

/-- CLAIM_TIMER_EXPIRY (R28; log 4). -/
def execClaimTimerExpiry (b : BusNo) (s : State) : Host.Outcome State Fault Refusal :=
  if (s.bus b).state = .claiming ∧ (s.bus b).runs .claim then .next (finish s (claimTimeout b s)) else .next s

/-- SETTLE_TIMER_EXPIRY: the CLOSE is abandoned and the seizure fails with 50 ms elapsed (R33; log 4). -/
def execSettleTimerExpiry (b : BusNo) (s : State) : Host.Outcome State Fault Refusal :=
  if (s.bus b).state = .seizing ∧ (s.bus b).runs .settle then .next (finish s (failSeizure b 50 s)) else .next s

/-- OPEN_TIMER_EXPIRY: the OPEN is abandoned and the bus enters FAULTED with cause TIMEOUT (R35; log 4). -/
def execOpenTimerExpiry (b : BusNo) (s : State) : Host.Outcome State Fault Refusal :=
  if (s.bus b).state = .releasing ∧ (s.bus b).runs .opening then .next (finish s (failRelease b .timeout 50 s)) else .next s

/-- HOLD_TIMER_EXPIRY: the bus releases its line and HOLD_END is raised (R48; log 4). -/
def execHoldTimerExpiry (b : BusNo) (s : State) : Host.Outcome State Fault Refusal :=
  if (s.bus b).state = .held ∧ (s.bus b).runs .hold then .next (finish s ((startRelease b s).raiseFlag .holdEnd)) else .next s

end Sys2Proof.Machine
end

