-- ==== Sys2Proof/Machine/Heads.lean ====
section
/-!
DEFINITION. The Head Unit: run order, granting, starting and classifying steps, the hazard stop, the verdict, watchdogs, aborts,
clears (spec/03).
-/

namespace Sys2Proof.Machine

/-! ## Step kinds and run order (R60, R61) -/

/-- The positions of the full order, and the step kinds. -/
def allKinds : List StepKind := [0, 1, 2, 3, 4, 5, 6, 7]

/-- The two FV kinds measure foreign voltage (Table 3-3). -/
def isFv (k : StepKind) : Bool := decide (k.val < 2)

/-- The step watchdog of a kind, ms (Table 3-3). -/
def watchdogOf (k : StepKind) : Nat :=
  match k with
  | 0 => 200 | 1 => 200 | 2 => 1500 | 3 => 1500 | 4 => 1500 | 5 => 1000 | 6 => 500 | 7 => 800

/-- The failing kind of a step kind (Table 3-3). -/
def failingKind (k : StepKind) : FaultKind :=
  match k with
  | 0 => .foreignVoltage | 1 => .foreignVoltage | 2 => .short | 3 => .ground | 4 => .ground | 5 => .openWire | 6 => .highLoop
  | 7 => .unbalanced

/-- The step kind at position i of the full order (R61). -/
def orderAt (start : StepKind) (mode : OrderMode) (i : StepKind) : StepKind :=
  match mode with
  | .sequential => start + i
  | .interleaved => Fin.ofNat 8 (start.val ^^^ i.val)

/-- The run order: the full order with every kind not in the mask passed over (R61). -/
def runOrder (mask : BitVec 8) (start : StepKind) (mode : OrderMode) : List StepKind :=
  (allKinds.map (orderAt start mode)).filter fun k => mask.getLsbD k.val

/-! ## Classifying readings (R64–R66) -/

/-- The comparison value of a reading (R64, R65). -/
def comparison (k : StepKind) (st : ReadingStatus) (v : BitVec 16) : BitVec 16 :=
  match st with
  | .valid => v
  | .overRange => if isFv k then 0x7FFF else 0xFFFF
  | .underRange => if isFv k then 0x8000 else 0

/-- A 16-bit value as a number: signed for the FV kinds, unsigned for the others (R60). -/
def numeric (k : StepKind) (v : BitVec 16) : Int := if isFv k then v.toInt else (v.toNat : Int)

/-- The step is PASS if the comparison value lies within the window, bounds included, FAIL otherwise (R64, R65). -/
def classify (k : StepKind) (w : Limits) (c : BitVec 16) : StepStatus :=
  if numeric k w.low ≤ numeric k c ∧ numeric k c ≤ numeric k w.high then .pass else .fail

/-- An FV reading is a hazard when the magnitude of its comparison value is at or above the hazard limit (R66). -/
def isHazard (k : StepKind) (c : BitVec 16) (limit : Nat) : Bool := isFv k && decide (limit ≤ (numeric k c).natAbs)

/-- Eight records given one by one. -/
def eightRecords (f : StepKind → StepRecord) : StepRecords := #v[f 0, f 1, f 2, f 3, f 4, f 5, f 6, f 7]

/-- The step records after a hazard found on step k: k FAIL, every non-FV step already run SUSPECT keeping its reading, the rest
as they were (R66). -/
def hazardRecords (rs : StepRecords) (k : StepKind) (st : ReadingStatus) (c : BitVec 16) : StepRecords :=
  eightRecords fun j =>
    if j = k then { status := .fail, reading := some (st, c) }
    else if isFv j then entry rs j
    else if (entry rs j).status = .notRun then entry rs j
    else { entry rs j with status := .suspect }

/-- The failing kinds of Table 3-5 below HAZARD, highest rank first. -/
def ranking : List FaultKind := [.foreignVoltage, .short, .ground, .openWire, .highLoop, .unbalanced]

/-- Some FAIL step has the failing kind. -/
def failsWith (rs : StepRecords) (f : FaultKind) : Bool :=
  allKinds.any fun k => (entry rs k).status == .fail && failingKind k == f

/-- The verdict of a program that ended without a hazard: FAIL with the highest-ranked failing kind, or PASS (R68). -/
def verdictOf (rs : StepRecords) : Verdict :=
  match ranking.find? (failsWith rs) with
  | some f => .fail f
  | none => .pass

/-! ## Granting and starting (R58, R62, R63) -/

/-- The lowest-numbered FREE head (R58). -/
def State.freeHeadNo (s : State) : Option HeadNo := allHeads.find? fun h => (s.head h).state == .free

/-- A step is started: START is sent, the head's current step is set and its watchdog starts (R63). -/
def startStep (h : HeadNo) (b : BusNo) (k : StepKind) (s : State) : State :=
  (s.sendHead (.start h b k)).setHead h
    { state := .attached, bus := some b, step := some k, timer := some (.watchdog, watchdogOf k), startedAt := 0 }

/-- The step program built at a grant (R62). -/
def buildProgram (e : TestEntry) : StepProgram :=
  { order := runOrder e.mask e.start e.order, position := 0, steps := StepRecords.notRun }

/-- The bus leaves the queue and enters MEASURING, the head is attached to it, the program is built and its first step started
(R37, R58, R62, R63). -/
def grantHead (h : HeadNo) (b : BusNo) (rest : List BusNo) (s : State) : State :=
  let t := { s with waitQueue := rest }.setBus b { s.bus b with state := .measuring, timer := none }
  match (s.bus b).test with
  | some e =>
    let u := t.setProgram b (some (buildProgram e))
    match (buildProgram e).order with
    | k :: _ => startStep h b k u
    | [] => u
  | none => t

/-- HEAD_GRANT: made whenever the queue holds a bus and a head is FREE (R58). -/
def execHeadGrant (s : State) : Host.Outcome State Fault Refusal :=
  match s.waitQueue, s.freeHeadNo with
  | b :: rest, some h => .next (finish s (grantHead h b rest s))
  | _, _ => .next s

/-! ## The end of a measurement (R39, R46, R68) -/

/-- The bus enters HELD with its line, claim, flags and crosspoint kept; the hold timer starts at the hold limit, or none runs if
the limit is 0 (R39, R46). The Test Queue looks for a move (R89). -/
def holdBus (b : BusNo) (s : State) : State :=
  let limit := s.limit Anchor.holdLimit
  (s.setBus b { s.bus b with state := .held, timer := if limit = 0 then none else some (.hold, 1000 * limit) }).look true

/-- An outcome after which a bus with its hold flag set is HELD: COMPLETED with PASS or FAIL (R39). -/
def TestOutcome.mayHold : TestOutcome → Bool
  | .completed .pass => true
  | .completed (.fail _) => true
  | .completed .hazard => false
  | .cancelled | .recalled | .claimDenied | .claimTimeout | .xpFault | .headTimeout | .headError | .noHead => false

/-- A program ends with a verdict: the head enters FREE, the test ends COMPLETED, and the bus enters HELD or RELEASING (R39, R67,
R68). -/
def completeTest (h : HeadNo) (b : BusNo) (v : Verdict) (rs : StepRecords) (s : State) : State :=
  let t := endTest b (.completed v) (some h) rs (freeHead h s)
  if (s.bus b).hold && ((s.bus b).endOutcome (.completed v)).mayHold then holdBus b t else startRelease b t

/-- A hazard stops the test at the step that found it and raises HAZARD (R67). -/
def hazardStop (h : HeadNo) (b : BusNo) (rs : StepRecords) (s : State) : State :=
  (completeTest h b .hazard rs s).raiseFlag .hazard

/-- A step has ended with a status: the next step of the run order is started, or the program ends with its verdict (R63, R68). -/
def advanceProgram (h : HeadNo) (b : BusNo) (p : StepProgram) (rs : StepRecords) (s : State) : State :=
  match p.order[p.position + 1]? with
  | some k => startStep h b k (s.setProgram b (some { p with position := p.position + 1, steps := rs }))
  | none => completeTest h b (verdictOf rs) rs s

/-- A READING taken for an ATTACHED head on step k of bus b (R63–R68). -/
def takeReading (h : HeadNo) (b : BusNo) (k : StepKind) (p : StepProgram) (a : Anchor) (st : ReadingStatus) (v : BitVec 16)
    (s : State) : State :=
  let c := comparison k st v
  if isHazard k c a.hazardLimit then hazardStop h b (hazardRecords p.steps k st c) s
  else
    advanceProgram h b p (putEntry p.steps k { status := classify k (entry a.limits k) c, reading := some (st, c) }) s

/-- The step records of an abandoned or aborted step: ABORTED with no reading (R69, R74). -/
def State.abortedRecords (s : State) (b : BusNo) (k : StepKind) : StepRecords :=
  putEntry (s.stepRecords b) k { status := .aborted, reading := none }

/-- An ABORTED or a READING ends the abort: the head enters FREE, the test ends with the pending reason's outcome and the bus
enters RELEASING (R74). An ABORTING head's bus has an abort pending. -/
def endAbort (h : HeadNo) (s : State) : State :=
  match (s.head h).bus, (s.head h).step with
  | some b, some k => startRelease b (endTest b .cancelled (some h) (s.abortedRecords b k) (freeHead h s))
  | _, _ => freeHead h s

/-- A READING by the state of the head it names (Table 3-2). -/
def readHead (h : HeadNo) (st : ReadingStatus) (v : BitVec 16) (s : State) : State :=
  match (s.head h).state with
  | .attached =>
    match (s.head h).bus, (s.head h).step with
    | some b, some k =>
      match s.program b, s.anchor with
      | some p, some a => takeReading h b k p a st v s
      | _, _ => s
    | _, _ => s
  | .aborting => endAbort h s
  | .free => s
  | .clearing => s
  | .suspect => s

/-- READING (R63); one that names no head, or whose status field holds none of the three, is discarded (R55). -/
def execReading (head : Nat) (st : Option ReadingStatus) (v : BitVec 16) (s : State) : Host.Outcome State Fault Refusal :=
  if h : head < 2 then
    match st with
    | some r => .next (finish s (readHead ⟨head, h⟩ r v (heardReading ⟨head, h⟩ s)))
    | none => .next s
  else .next s

/-- ABORTED: taken in ABORTING, discarded in every other state (R56, R74). -/
def execAborted (head : Nat) (s : State) : Host.Outcome State Fault Refusal :=
  if h : head < 2 then
    let t := heardAborted ⟨head, h⟩ s
    if (s.head ⟨head, h⟩).state = .aborting then .next (finish s (endAbort ⟨head, h⟩ t)) else .next t
  else .next s

/-! ## Head failures (R69–R72, R75, R76) -/

/-- The context of a head event (R70, Table 3-6). -/
def headContext (s : State) (h : HeadNo) (elapsed : Nat) : EventContext :=
  let hd := s.head h
  { bus := hd.bus, head := some h, step := hd.step, busState := hd.bus.map fun b => (s.bus b).state, headState := some hd.state,
    line := hd.bus.bind fun b => (s.bus b).line,
    claim := (match hd.bus with
      | some b => (s.bus b).claim
      | none => 0),
    elapsed := elapsed }

/-- The test of a failing head's bus ends and the bus enters RELEASING; a head with no bus has none (R69, R71, R72, R75). -/
def endFailedTest (h : HeadNo) (o : TestOutcome) (s : State) : State :=
  match (s.head h).bus, (s.head h).step with
  | some b, some k => startRelease b (endTest b o (some h) (s.abortedRecords b k) (suspectHead h s))
  | _, _ => suspectHead h s

/-- A head fails: it enters SUSPECT, its bus's test ends, the equipment event is handed on and HEAD raised; if it left service and
was the last, the waiting buses lose theirs (R69, R71, R72, R75, R76). -/
def failHead (h : HeadNo) (kind : TicketKind) (o : TestOutcome) (elapsed : Nat) (s : State) : State :=
  let t := (equipmentEvent kind (headContext s h elapsed) (endFailedTest h o s)).raiseFlag .head
  if (s.head h).state.inService then lossOfLastHead t else t

/-- HEAD_ERROR: taken in every state but SUSPECT (R56, R71, R72). -/
def execHeadError (head : Nat) (s : State) : Host.Outcome State Fault Refusal :=
  if h : head < 2 then
    match (s.head ⟨head, h⟩).state with
    | .suspect => .next s
    | .free => .next (finish s (failHead ⟨head, h⟩ .headError .headError 0 s))
    | .attached => .next (finish s (failHead ⟨head, h⟩ .headError .headError (s.head ⟨head, h⟩).startedAt s))
    | .aborting => .next (finish s (failHead ⟨head, h⟩ .headError .headError (s.head ⟨head, h⟩).startedAt s))
    | .clearing => .next (finish s (failHead ⟨head, h⟩ .headError .headError (s.head ⟨head, h⟩).startedAt s))
  else .next s

/-- The timer that runs for a head. -/
def Head.runs (r : Head) (k : HeadTimer) : Bool :=
  match r.timer with
  | some (k', _) => k' == k
  | none => false

/-- The watchdog value of the head's current step (Table 3-6). -/
def Head.watchdogValue (r : Head) : Nat :=
  match r.step with
  | some k => watchdogOf k
  | none => 0

/-- STEP_WATCHDOG_EXPIRY: the step is abandoned, the head enters SUSPECT and the test ends HEAD_TIMEOUT (R69; log 4). -/
def execStepWatchdogExpiry (h : HeadNo) (s : State) : Host.Outcome State Fault Refusal :=
  if (s.head h).state = .attached ∧ (s.head h).runs .watchdog then
    .next (finish s (failHead h .headTimeout .headTimeout (s.head h).watchdogValue s))
  else .next s

/-- ABORT_TIMER_EXPIRY: the head enters SUSPECT and the test ends with the pending reason's outcome (R75; log 4). -/
def execAbortTimerExpiry (h : HeadNo) (s : State) : Host.Outcome State Fault Refusal :=
  if (s.head h).state = .aborting ∧ (s.head h).runs .abort then
    .next (finish s (failHead h .headTimeout .headTimeout 100 s))
  else .next s

/-! ## Clears (R77, R78) -/

/-- The head is sent CLEAR, enters CLEARING, and its clear timer starts at 200 ms (R77, R79). -/
def startClear (h : HeadNo) (s : State) : State := (s.sendHead (.clear h)).setHead h Head.clearing

/-- READY: ends the clear of a CLEARING head in success, which returns it to service; any other is discarded (R56, R78, R89). -/
def execReady (head : Nat) (s : State) : Host.Outcome State Fault Refusal :=
  if h : head < 2 then
    let t := heardReady ⟨head, h⟩ s
    if (s.head ⟨head, h⟩).state = .clearing then .next (finish s (((freeHead ⟨head, h⟩ t).look true).raiseFlag .head))
    else .next t
  else .next s

/-- CLEAR_TIMER_EXPIRY: the clear ends in failure; no equipment event is handed on (R78; log 4). -/
def execClearTimerExpiry (h : HeadNo) (s : State) : Host.Outcome State Fault Refusal :=
  if (s.head h).state = .clearing ∧ (s.head h).runs .clear then .next (finish s ((suspectHead h s).raiseFlag .head))
  else .next s

end Sys2Proof.Machine
end

