-- ==== Sys2Proof/Machine/Standing.lean ====
section
/-!
DEFINITION. The standing-loop check (spec/05, section 5.4).
-/

namespace Sys2Proof.Machine

/-- The off-hook age: the epoch minus the stamp, modulo 256 (R6, R112). -/
def offHookAge (epoch : Count16) (stamp : BitVec 8) : BitVec 8 := epoch.setWidth 8 - stamp

/-- The standing-loop check of a skipped line: an OFF_HOOK line whose age is at least the limit and whose loop mark is clear has a
STANDING_LOOP ticket formed (R109, R112). -/
def standingLoopCheck (l : LineNo) (s : State) : State :=
  let r := s.line l
  match r.supervision, r.stamp with
  | .offHook, some stamp =>
    if s.limit Anchor.standingLoopLimit ≤ (offHookAge s.epoch stamp).toNat && !r.loopMark then
      formStandingLoop l (offHookAge s.epoch stamp) s
    else s
  | _, _ => s

end Sys2Proof.Machine
end

