-- ==== Sys2Proof/Machine/Operands.lean ====
section
/-!
DEFINITION. The operands of a request, read from the shadow of its slot (Table 10-2, R182): every field the request kinds name.
-/

namespace Sys2Proof.Machine

/-- The nine request kinds (Table 10-7). -/
inductive RequestKind where
  | test | cancel | fence | releaseHold | busReset | headReset | sweepControl | clearGroup | lineQuery
deriving DecidableEq, Repr

/-- The four sweep actions (Table 10-7). -/
inductive SweepAction where
  | start | stop | restart | seek
deriving DecidableEq, Repr

/-- A request as its slot's shadow holds it. -/
structure Request where
  kind : Option RequestKind
  slot : Nat
  target : Nat
  mask : BitVec 8
  start : StepKind
  order : OrderMode
  force : Bool
  hold : Bool
  action : Option SweepAction
  tag : Count16
deriving DecidableEq, Repr

/-- The kind field, word 0 bits 3–0: none of the nine for 0 and 10–15 (Table 10-7, R182). -/
def requestKind (w : Word) : Option RequestKind :=
  match field w 0 4 with
  | 1 => some .test | 2 => some .cancel | 3 => some .fence | 4 => some .releaseHold | 5 => some .busReset
  | 6 => some .headReset | 7 => some .sweepControl | 8 => some .clearGroup | 9 => some .lineQuery
  | _ => none

/-- The sweep action field, word 1 bits 26–24: none of the four for 0 and 5–7 (Table 10-7, R182). -/
def sweepAction (w : Word) : Option SweepAction :=
  match field w 24 3 with
  | 1 => some .start | 2 => some .stop | 3 => some .restart | 4 => some .seek
  | _ => none

/-- The request of a shadow (Table 10-2). -/
def Shadow.request (x : Shadow) : Request :=
  let w0 := entry x.words 0
  let w1 := entry x.words 1
  { kind := requestKind w0
    slot := field w0 8 8
    target := field w0 16 16
    mask := w1.extractLsb' 0 8
    start := Fin.ofNat 8 (field w1 8 3)
    order := if bit w1 12 then .interleaved else .sequential
    force := bit w1 16
    hold := bit w1 17
    action := sweepAction w1
    tag := (entry x.words 2).extractLsb' 0 16 }

/-- A target that holds a line: bits 11–0, bits 15–12 ignored (Table 10-2, R182). -/
def Request.line (r : Request) : LineNo := Fin.ofNat 4096 r.target

end Sys2Proof.Machine
end

