-- ==== Sys2Proof/Machine/Waiting.lean ====
section
/-!
DEFINITION. A TEST that waits for queue space (spec/04, R86; spec/09, R176): the conditions under which the slot at the take index can
be taken, and the moments at which they are tested for a waiting TEST.
-/

namespace Sys2Proof.Machine

/-- A TEST merges into an entry: same line, start step, order mode, FORCE and HOLD, and fewer than 4 slot members (R85). -/
def Request.mergesInto (r : Request) (e : TestEntry) : Bool :=
  e.line == r.line && e.start == r.start && e.order == r.order && e.force == r.force && e.hold == r.hold &&
    decide (e.slots.length < 4)

/-- The Test Queue has room for a TEST: fewer than 16 entries, or an entry it could merge into (R86, R176). -/
def State.queueTakes (s : State) (r : Request) : Bool :=
  decide (s.queue.length < 16) || s.queue.any r.mergesInto

/-- The conditions of R176 for the slot at the take index as it stands, but for the anchor. For a TEST that waits, the queue condition
is among them; for a slot rewritten to another kind it is not (log 16). -/
def State.intakeReady (s : State) : Bool :=
  let r := (s.shadow s.takeIndex).request
  s.fence.isNone && (s.shadow s.takeIndex).posted && decide (2 ≤ s.freeGeneral) &&
    (s.testWaiting == .absent || r.kind != some .test || s.queueTakes r)

/-- A waiting TEST after an event. The conditions of R176 are tested at the moments R86 names, an entry leaving the queue, a general
writer entry becoming empty, the post word written POSTED (`moment`): met, the slot is taken again. Until it is, an event that ends
them leaves it waiting (R87). Another write of the slot does not have them tested (R175, R176). -/
def retestWaiting (moment : Bool) (s : State) : State :=
  match s.testWaiting with
  | .absent => s
  | .waiting => { s with testWaiting := if moment && s.anchor.isSome && s.intakeReady then .retest else .waiting }
  | .retest => { s with testWaiting := if s.anchor.isSome && s.intakeReady then .retest else .waiting }

end Sys2Proof.Machine
end

