-- ==== Sys2Proof/Machine/Selection.lean ====
section
/-!
DEFINITION. The selection of the Test Queue: which entry moves onto which bus, and the skip of a SWEEP-class entry (spec/02, section
2.2; spec/04, section 4.3).
-/

namespace Sys2Proof.Machine

/-- The Access Unit offers buses: an anchor is in force, resync is not pending, a head is in service (R22). -/
def State.offersBuses (s : State) : Bool := s.anchor.isSome && !s.resyncPending && s.headInService

/-- The lowest-numbered available IDLE bus: IDLE with its writer entry empty (R22). -/
def State.idleBus (s : State) : Option BusNo :=
  allBuses.find? fun b => (s.bus b).state == .idle && s.busEntryEmpty b

/-- What the selection does with an entry. -/
inductive Move where
  | toIdle (bus : BusNo)
  | toHeld (bus : BusNo)
  | skip
deriving DecidableEq, Repr

/-- A DESK-class entry's eligibility (R90). -/
def State.deskMove (s : State) (e : TestEntry) : Option Move :=
  match e.cls with
  | .sweep => none
  | .desk =>
    match (s.line e.line).occupying with
    | none => s.idleBus.map Move.toIdle
    | some b => if (s.bus b).state = .held && s.busEntryEmpty b then some (.toHeld b) else none

/-- A SWEEP-class entry examined with an available IDLE bus (R91). -/
def State.sweepMove (s : State) (idle : BusNo) (e : TestEntry) : Option Move :=
  match e.cls with
  | .desk => none
  | .sweep =>
    match (s.line e.line).occupying with
    | none => if (s.line e.line).supervision = .idle then some (.toIdle idle) else some .skip
    | some b => if (s.bus b).state = .held then some .skip else none

/-- A skip waits for the next look of the Test Queue: a CANCEL, at which R89 lets it make none, has returned an entry to class SWEEP, and
no SWEEP-class entry is eligible for the IDLE bus (R89; log 31). -/
def State.skipWaits (s : State) (idle : BusNo) : Bool :=
  s.cancelSinceLook && !s.queue.any fun e => s.sweepMove idle e == some (.toIdle idle)

/-- The next move of the selection, with the entry and the queue without it: the oldest eligible DESK-class entry, otherwise the
oldest SWEEP-class entry that does not wait, considered only below the sweep bus limit and with an available IDLE bus, and, where none
is eligible, only after a look (R89–R91). -/
def State.selection (s : State) : Option (TestEntry × Move × List TestEntry) :=
  if s.offersBuses then
    match takeFirst s.deskMove s.queue with
    | some m => some m
    | none =>
      match s.idleBus with
      | some b =>
        if s.sweepOnBuses < s.limit Anchor.sweepBusLimit && !s.skipWaits b then takeFirst (s.sweepMove b) s.queue else none
      | none => none
  else none

/-- The entry leaves the queue, which may let a waiting TEST be taken (R86, R92). -/
def leaveQueue (rest : List TestEntry) (s : State) : State := retestWaiting true { s with queue := rest }

/-- An IDLE bus is given an entry: it takes the claim number, sends CLAIM and enters CLAIMING, and the line's occupying bus is set
in the same step, at which the Test Queue looks again (R21, R22, R23, R89, R92). -/
def giveToIdle (b : BusNo) (e : TestEntry) (rest : List TestEntry) (s : State) : State :=
  let t := setOccupying e.line (some b)
    { (leaveQueue rest s).sendExchange (.claim e.line s.claimCounter e.force) with claimCounter := s.claimCounter + 1 }
  (t.setBus b
    { Bus.idle with state := .claiming, line := some e.line, claim := s.claimCounter, forced := e.force, hold := e.hold,
                    test := some e, timer := some (.claim, s.limit Anchor.claimLimit) }).look true

/-- A HELD bus is given a desk entry of its own line: it enters WAIT_HEAD and joins the head wait queue; the hold timer stops, the
hold flag becomes the entry's, the claim number and forced flag stay (R47, R92). -/
def giveToHeld (b : BusNo) (e : TestEntry) (rest : List TestEntry) (s : State) : State :=
  joinWait b
    ((leaveQueue rest s).setBus b { s.bus b with state := .waitHead, test := some e, hold := e.hold, timer := none })

/-- A removed SWEEP-class entry is handed to the Sweep Unit as a skip of its line (R91, R113). -/
def skipEntry (e : TestEntry) (rest : List TestEntry) (s : State) : State := standingLoopCheck e.line (leaveQueue rest s)

/-- ENTRY_TO_IDLE_BUS (R23). -/
def execEntryToIdleBus (s : State) : Host.Outcome State Fault Refusal :=
  match s.selection with
  | some (e, .toIdle b, rest) => .next (finish s (giveToIdle b e rest s))
  | _ => .next s

/-- ENTRY_TO_HELD_BUS (R47). -/
def execEntryToHeldBus (s : State) : Host.Outcome State Fault Refusal :=
  match s.selection with
  | some (e, .toHeld b, rest) => .next (finish s (giveToHeld b e rest s))
  | _ => .next s

/-- SWEEP_ENTRY_SKIP (R91). -/
def execSweepEntrySkip (s : State) : Host.Outcome State Fault Refusal :=
  match s.selection with
  | some (e, .skip, rest) => .next (finish s (skipEntry e rest s))
  | _ => .next s

end Sys2Proof.Machine
end

