-- ==== Sys2Proof/Machine/Sweep.lean ====
section
/-!
DEFINITION. The Sweep Unit: issue attempts, pass boundaries, pacing (spec/05).
-/

namespace Sys2Proof.Machine

/-! ## Pass boundaries (R116, R117) -/

/-- The pass start actions: pointer 0 and every yield mark cleared (R117). -/
def passStart (s : State) : State := { s.mapLines fun r => { r with yieldMark := false } with pointer := 0 }

/-- The pass end actions in the order of R116, and the pass start that follows at once. -/
def passEnd (s : State) : State :=
  passStart ((closeRegister (decayGroups { s with epoch := s.epoch + 1 })).raiseFlag .passEnd)

/-! ## Candidates (R108, R109) -/

/-- A candidate may be visited: installed, IDLE, no yield mark, no occupying bus, named by no Test Queue entry (R109). -/
def State.visitable (s : State) (l : LineNo) : Bool :=
  s.installed l && (s.line l).supervision == .idle && !(s.line l).yieldMark && (s.line l).occupying.isNone &&
    !s.queue.any fun e => e.line == l

/-- The line of a focus entry at its cursor: group × 16 + cursor (R108). -/
def FocusEntry.line (f : FocusEntry) : LineNo := ⟨f.group.val * 16 + f.cursor.val, by omega⟩

/-- The first focus entry's cursor advances, or after cursor 15 the entry leaves the list (R115). -/
def advanceFocus (s : State) : State :=
  match s.focus with
  | [] => s
  | f :: fs =>
    if h : f.cursor.val < 15 then { s with focus := { f with cursor := ⟨f.cursor.val + 1, by omega⟩ } :: fs }
    else { s with focus := fs }

/-- The pointer line. -/
def State.pointerLine (s : State) : LineNo := Fin.ofNat 4096 s.pointer

/-- The pointer's advance from this line passes the last installed line (R110). -/
def State.atLastLine (s : State) : Bool := decide (s.installedCount ≤ s.pointer + 1)

/-- The pointer advances by 1, or a pass end is reached (R108, R110). -/
def advancePointer (s : State) : State :=
  if s.atLastLine then passEnd s else { s with pointer := s.pointer + 1 }

/-- A visit is issued: a SWEEP entry of the line with the anchor's sweep program is placed at the end of the queue, where it may take
the place a waiting TEST was to take (R87, R111); the Test Queue looks for a move (R89). -/
def issueVisit (a : Anchor) (l : LineNo) (s : State) : State :=
  retestWaiting false (State.look true { s with queue := s.queue ++
      [{ line := l, cls := .sweep, origin := .sweep, mask := a.sweepMask, start := a.sweepStart, order := a.sweepOrder,
         force := false, hold := false, slots := [] }] })

/-- The walk of an issue attempt: candidates are skipped until one is visited or a pass end is reached by a skip (R108–R111).
At most 64 focus candidates and 4,096 pointer candidates are taken. -/
def walk (a : Anchor) : Nat → State → State
  | 0, s => s
  | n + 1, s =>
    match s.focus with
    | f :: _ =>
      if s.visitable f.line then advanceFocus (issueVisit a f.line s)
      else walk a n (advanceFocus (standingLoopCheck f.line s))
    | [] =>
      if s.visitable s.pointerLine then advancePointer (issueVisit a s.pointerLine s)
      else if s.atLastLine then passEnd (standingLoopCheck s.pointerLine s)
      else walk a n (advancePointer (standingLoopCheck s.pointerLine s))

/-- How many candidates one attempt can take (R108). -/
def walkBound : Nat := 64 + 4096

/-- The conditions of an attempt: RUNNING, every condition of Table 5-2, the pacing timer expired (R104, R106). -/
def State.attemptReady (s : State) : Bool :=
  s.sweep == .running && s.obstacle == .none && s.pacing == 0

/-- An issue attempt, after which the pacing timer is restarted at the sweep interval (R106, R107). -/
def issueAttempt (a : Anchor) (s : State) : State := { walk a walkBound s with pacing := a.sweepInterval }

/-- ISSUE_ATTEMPT (R106). -/
def execIssueAttempt (s : State) : Host.Outcome State Fault Refusal :=
  match s.anchor with
  | some a => if s.attemptReady then .next (finish s (issueAttempt a s)) else .next s
  | none => .next s

/-- PACING_TIMER_EXPIRY: the timer expires and stays expired until the next restart; the attempt it allows is ISSUE_ATTEMPT (R106,
R107; log 4, log 27). -/
def execPacingTimerExpiry (s : State) : Host.Outcome State Fault Refusal := .next (finish s { s with pacing := 0 })

end Sys2Proof.Machine
end

