-- ==== Sys2Proof/Machine/Intake.lean ====
section
/-!
DEFINITION. The Intake Unit: taking the slot at the take index, the checks and effects of the nine request kinds, dispositions, the
fence (spec/01 section 1.7, spec/02, spec/03 section 3.11, spec/04, spec/05 section 5.7, spec/07 section 7.6, spec/09 section 9.3).
-/

namespace Sys2Proof.Machine

/-! ## Taking a slot (R176, R177) -/

/-- The slot at the take index can be taken now: its request, with the anchor in force. A TEST that waits for queue space is taken
again only once a test of these conditions at one of its moments has found it so (R86, R176; log 16). -/
def State.takeable (s : State) : Option (Anchor × Request) :=
  match s.anchor with
  | none => none
  | some a =>
    if s.intakeReady && s.testWaiting != .waiting then some (a, (s.shadow s.takeIndex).request) else none

/-- The take index advances by 1, wrapping from the ring size less 1 to 0 (R176). -/
def nextIndex (size : Nat) (i : Fin 64) : Fin 64 := if i.val + 1 < size then Fin.ofNat 64 (i.val + 1) else 0

/-- The slot is taken: its shadow becomes unposted and the take index advances past it (R176). -/
def passSlot (a : Anchor) (s : State) : State :=
  { s.setShadow s.takeIndex { s.shadow s.takeIndex with posted := false } with
    takeIndex := nextIndex a.ringSize s.takeIndex, testWaiting := .absent }

/-- The slot is taken with a disposition, queued behind any record the same take has queued (R177). -/
def dispose (a : Anchor) (d : Disposition) (s : State) : State :=
  passSlot a (s.pushEntry (.disposition s.takeIndex d false))

/-- A take of a request that the row is about; otherwise the step does not come about (log 3). -/
def takeIf (s : State) (p : Request → Bool) (act : Anchor → Request → State → State) : State :=
  match s.takeable with
  | some (a, r) => if p r then finish s (act a r s) else s
  | none => s

/-- The slot is below the result count and in no slot list, or the disposition that refuses it (R18, R84). -/
def checkSlot (a : Anchor) (r : Request) (s : State) : Option Disposition :=
  if a.resultCount ≤ r.slot then some .refusedSlot
  else if s.inFlight.contains r.slot then some .refusedSlotBusy
  else none

/-! ## TEST (R84–R88) -/

/-- The checks of a TEST, in order (R84). -/
def checkTest (a : Anchor) (r : Request) (s : State) : Option Disposition :=
  if !s.installed r.line then some .refusedLine
  else if r.mask = 0 then some .refusedProgram
  else checkSlot a r s

/-- The IN_PROGRESS record (R88). -/
def inProgressRecord (s : State) (r : Request) (merged : Bool) : ResultRecord :=
  { tag := r.tag, state := .inProgress, outcome := none, line := r.line, bus := none, head := none, merged := merged,
    epoch := s.epoch, steps := StepRecords.notRun }

/-- The member a TEST adds (R82). -/
def Request.member (r : Request) (merged : Bool) : SlotMember := { slot := r.slot, tag := r.tag, merged := merged }

/-- An entry a TEST merges into: the union of the masks, class DESK, the slot appended (R85). -/
def TestEntry.merge (e : TestEntry) (r : Request) : TestEntry :=
  { e with mask := e.mask ||| r.mask, cls := .desk, slots := e.slots ++ [r.member true] }

/-- The queue with a TEST merged into the oldest entry that takes it; none where no entry does (R85). -/
def mergeQueue (r : Request) : List TestEntry → Option (List TestEntry)
  | [] => none
  | e :: es => if r.mergesInto e then some (e.merge r :: es) else (mergeQueue r es).map fun q => e :: q

/-- The new entry of a TEST (R86). -/
def Request.newEntry (r : Request) : TestEntry :=
  { line := r.line, cls := .desk, origin := .desk, mask := r.mask, start := r.start, order := r.order, force := r.force,
    hold := r.hold, slots := [r.member false] }

/-- A TEST accepted or merged queues its IN_PROGRESS record and then its disposition (R88); the Test Queue looks for a move (R89). -/
def answerTest (a : Anchor) (r : Request) (merged : Bool) (q : List TestEntry) (s : State) : State :=
  dispose a (if merged then .merged else .accepted)
    ((State.look true { s with queue := q }).pushEntry (.inProgress r.slot (inProgressRecord s r merged)))

/-- A taken TEST is refused, merged, added, or left waiting for queue space, posted and with the take index on it (R84–R86). -/
def takeTest (a : Anchor) (r : Request) (s : State) : State :=
  match checkTest a r s with
  | some d => dispose a d s
  | none =>
    match mergeQueue r s.queue with
    | some q => answerTest a r true q s
    | none =>
      if s.queue.length < 16 then answerTest a r false (s.queue ++ [r.newEntry]) s
      else { s with testWaiting := .waiting }

/-- TEST (R84). -/
def execTest (s : State) : Host.Outcome State Fault Refusal := .next (takeIf s (fun r => r.kind == some .test) takeTest)

/-! ## CANCEL (R93–R96) -/

/-- The CANCELLED record (R96). -/
def cancelledRecord (s : State) (m : SlotMember) (l : LineNo) (b : Option BusNo) : ResultRecord :=
  { tag := m.tag, state := .cancelled, outcome := some .cancelled, line := l, bus := b, head := none, merged := m.merged,
    epoch := s.epoch, steps := StepRecords.notRun }

/-- The member of a slot in a list. -/
def findMember (slot : Nat) (ms : List SlotMember) : Option SlotMember := ms.find? fun m => m.slot == slot

/-- A slot list without a slot. -/
def dropMember (slot : Nat) (ms : List SlotMember) : List SlotMember := ms.filter fun m => m.slot != slot

/-- What becomes of a queued entry that has lost a slot: with members left it keeps its class; with none it leaves the queue if of
DESK origin, and returns to class SWEEP if of SWEEP origin (R81, R94). -/
def TestEntry.afterCancel (e : TestEntry) (slot : Nat) : List TestEntry :=
  let left := dropMember slot e.slots
  if left.isEmpty then
    match e.origin with
    | .desk => []
    | .sweep => [{ e with cls := .sweep, slots := [] }]
  else [{ e with slots := left }]

/-- The queue after a slot is withdrawn from the entry that holds it, with the member and the entry's line (R94). -/
def cancelQueued (slot : Nat) : List TestEntry → Option (SlotMember × LineNo × List TestEntry)
  | [] => none
  | e :: es =>
    match findMember slot e.slots with
    | some m => some (m, e.line, e.afterCancel slot ++ es)
    | none => (cancelQueued slot es).map fun x => (x.1, x.2.1, e :: x.2.2)

/-- The bus whose test in progress holds a slot. -/
def State.busOfSlot (s : State) (slot : Nat) : Option BusNo :=
  allBuses.find? fun b => (findMember slot (s.bus b).slots).isSome

/-- A CANCEL that finds its slot in the test in progress on a bus (R95): the member is withdrawn unless it alone keeps a DESK-origin
test, which is ordered to end. -/
def cancelTestOnBus (a : Anchor) (b : BusNo) (e : TestEntry) (m : SlotMember) (s : State) : State :=
  let left := dropMember m.slot e.slots
  if left.isEmpty && e.origin == .desk then cancelOnBus b (dispose a .done s)
  else
    dispose a .done
      ((s.setBus b { s.bus b with test := some { e with slots := left } }).pushEntry
        (.cancelled m.slot (cancelledRecord s m e.line (some b))))

/-- A CANCEL whose slot is in no queued entry: in a test on a bus, or not in flight (R93, R95). -/
def cancelElsewhere (a : Anchor) (slot : Nat) (s : State) : State :=
  match s.busOfSlot slot with
  | none => dispose a .refusedNotFound s
  | some b =>
    match (s.bus b).test with
    | none => dispose a .refusedNotFound s
    | some e =>
      match findMember slot e.slots with
      | none => dispose a .refusedNotFound s
      | some m => cancelTestOnBus a b e m s

/-- The queue after a CANCEL. It is no event at which R89 has the Test Queue look for a move, so unless moves are under way what it makes
of an entry is not looked at (R89; log 31). -/
def cancelledQueue (q : List TestEntry) (s : State) : State :=
  { s with queue := q, cancelSinceLook := s.cancelSinceLook || s.selection.isNone }

/-- A taken CANCEL (R93, R94, R95). -/
def takeCancel (a : Anchor) (r : Request) (s : State) : State :=
  if a.resultCount ≤ r.slot then dispose a .refusedSlot s
  else
    match cancelQueued r.slot s.queue with
    | some (m, l, q) =>
      dispose a .done ((cancelledQueue q s).pushEntry (.cancelled r.slot (cancelledRecord s m l none)))
    | none => cancelElsewhere a r.slot s

/-- CANCEL (R93). -/
def execCancel (s : State) : Host.Outcome State Fault Refusal := .next (takeIf s (fun r => r.kind == some .cancel) takeCancel)

/-! ## FENCE (R97, R98) -/

/-- A taken FENCE: the take index advances, the fence is pending with its slot's index, the register closes, no write is queued
(R97). -/
def takeFence (a : Anchor) (_ : Request) (s : State) : State :=
  closeRegister { passSlot a s with fence := some s.takeIndex }

/-- FENCE (R97). -/
def execFence (s : State) : Host.Outcome State Fault Refusal := .next (takeIf s (fun r => r.kind == some .fence) takeFence)

/-- A pending fence completes: nothing is in flight, no final record is pending, and a general entry is empty (R98, R160). -/
def State.fenceReady (s : State) : Bool := s.inFlight.isEmpty && !s.finalPending && decide (1 ≤ s.freeGeneral)

/-- The fence's DONE is queued and the fence pending record becomes absent (R98). -/
def completeFence (i : Fin 64) (s : State) : State := { s with fence := none }.pushEntry (.disposition i .done true)

/-- FENCE_COMPLETE (R98). -/
def execFenceComplete (s : State) : Host.Outcome State Fault Refusal :=
  match s.fence with
  | some i => if s.fenceReady then .next (finish s (completeFence i s)) else .next s
  | none => .next s

/-! ## RELEASE_HOLD (R49) -/

/-- A bus that a RELEASE_HOLD acts on by clearing its hold flag: on its way through a test, with the flag set (R49). -/
def Bus.willHold (r : Bus) : Bool :=
  r.hold && (r.state == .claiming || r.state == .seizing || r.state == .waitHead || r.state == .measuring)

/-- A taken RELEASE_HOLD (R49). -/
def takeReleaseHold (a : Anchor) (r : Request) (s : State) : State :=
  if !s.installed r.line then dispose a .refusedLine s
  else
    match s.busOfLine r.line with
    | none => dispose a .refusedState s
    | some b =>
      if (s.bus b).state = .held then dispose a .done (startRelease b s)
      else if (s.bus b).willHold then dispose a .done (s.setBus b { s.bus b with hold := false })
      else dispose a .refusedState s

/-- RELEASE_HOLD (R49). -/
def execReleaseHold (s : State) : Host.Outcome State Fault Refusal :=
  .next (takeIf s (fun r => r.kind == some .releaseHold) takeReleaseHold)

/-! ## BUS_RESET (R36) and HEAD_RESET (R77) -/

/-- A taken BUS_RESET (R36). -/
def takeBusReset (a : Anchor) (r : Request) (s : State) : State :=
  if h : r.target < 4 then
    let b : BusNo := ⟨r.target, h⟩
    if (s.bus b).state = .faulted then dispose a .done (startRelease b s) else dispose a .refusedState s
  else dispose a .refusedTarget s

/-- BUS_RESET (R36). -/
def execBusReset (s : State) : Host.Outcome State Fault Refusal :=
  .next (takeIf s (fun r => r.kind == some .busReset) takeBusReset)

/-- A taken HEAD_RESET (R77). -/
def takeHeadReset (a : Anchor) (r : Request) (s : State) : State :=
  if h : r.target < 2 then
    let i : HeadNo := ⟨r.target, h⟩
    if (s.head i).state = .suspect then dispose a .accepted (startClear i s) else dispose a .refusedState s
  else dispose a .refusedTarget s

/-- HEAD_RESET (R77). -/
def execHeadReset (s : State) : Host.Outcome State Fault Refusal :=
  .next (takeIf s (fun r => r.kind == some .headReset) takeHeadReset)

/-! ## SWEEP_CONTROL (R118–R121) -/

/-- The request is a SWEEP_CONTROL with an action. -/
def Request.sweeps (x : Option SweepAction) (r : Request) : Bool := r.kind == some .sweepControl && r.action == x

/-- START puts the sweep in RUNNING; the attempt it allows is ISSUE_ATTEMPT (R119; log 27). -/
def takeStart (a : Anchor) (_ : Request) (s : State) : State := dispose a .done { s with sweep := .running }

/-- SWEEP_START (R119). -/
def execSweepStart (s : State) : Host.Outcome State Fault Refusal := .next (takeIf s (Request.sweeps (some .start)) takeStart)

/-- STOP puts the sweep in STOPPED (R119). -/
def takeStop (a : Anchor) (_ : Request) (s : State) : State := dispose a .done { s with sweep := .stopped }

/-- SWEEP_STOP (R119). -/
def execSweepStop (s : State) : Host.Outcome State Fault Refusal := .next (takeIf s (Request.sweeps (some .stop)) takeStop)

/-- RESTART takes the pass start actions and puts the sweep in RUNNING (R120; log 27). -/
def takeRestart (a : Anchor) (_ : Request) (s : State) : State := dispose a .done { passStart s with sweep := .running }

/-- SWEEP_RESTART (R120). -/
def execSweepRestart (s : State) : Host.Outcome State Fault Refusal :=
  .next (takeIf s (Request.sweeps (some .restart)) takeRestart)

/-- SEEK sets the pointer to an installed target line (R118, R121). -/
def takeSeek (a : Anchor) (r : Request) (s : State) : State :=
  if s.installed r.line then dispose a .done { s with pointer := r.line.val } else dispose a .refusedLine s

/-- SWEEP_SEEK (R121). -/
def execSweepSeek (s : State) : Host.Outcome State Fault Refusal := .next (takeIf s (Request.sweeps (some .seek)) takeSeek)

/-- A SWEEP_CONTROL whose action field holds none of the four is refused (R118). -/
def takeBadAction (a : Anchor) (_ : Request) (s : State) : State := dispose a .refusedProgram s

/-- SWEEP_CONTROL (R118). -/
def execSweepControl (s : State) : Host.Outcome State Fault Refusal := .next (takeIf s (Request.sweeps none) takeBadAction)

/-! ## CLEAR_GROUP (R152, R153) -/

/-- A group is installed while an anchor is in force and its first line is below the installed line count (R146). -/
def State.groupInstalled (s : State) (g : GroupNo) : Bool := decide (g.val * 16 < s.installedCount)

/-- A taken CLEAR_GROUP (R152). -/
def takeClearGroup (a : Anchor) (r : Request) (s : State) : State :=
  if h : r.target < 256 then
    let g : GroupNo := ⟨r.target, h⟩
    if s.groupInstalled g then dispose a .done (clearGroupRecord g s) else dispose a .refusedTarget s
  else dispose a .refusedTarget s

/-- CLEAR_GROUP (R152). -/
def execClearGroup (s : State) : Host.Outcome State Fault Refusal :=
  .next (takeIf s (fun r => r.kind == some .clearGroup) takeClearGroup)

/-! ## LINE_QUERY (R18, R19) -/

/-- The checks of a LINE_QUERY, in order (R18). -/
def checkQuery (a : Anchor) (r : Request) (s : State) : Option Disposition :=
  if !s.installed r.line then some .refusedLine else checkSlot a r s

/-- The QUERY record: a snapshot of the whole line record as the slot is taken (R19). -/
def queryRecord (s : State) (r : Request) : QueryRecord :=
  { tag := r.tag, epoch := s.epoch, line := r.line, snapshot := s.line r.line }

/-- A taken LINE_QUERY (R18, R19). -/
def takeLineQuery (a : Anchor) (r : Request) (s : State) : State :=
  match checkQuery a r s with
  | some d => dispose a d s
  | none => dispose a .done (s.pushEntry (.query r.slot (queryRecord s r)))

/-- LINE_QUERY (R18). -/
def execLineQuery (s : State) : Host.Outcome State Fault Refusal :=
  .next (takeIf s (fun r => r.kind == some .lineQuery) takeLineQuery)

/-! ## REFUSED_KIND (R176) -/

/-- A taken slot whose kind is none of the nine (R176). -/
def takeBadKind (a : Anchor) (_ : Request) (s : State) : State := dispose a .refusedKind s

/-- REFUSED_KIND (R176). -/
def execRefusedKind (s : State) : Host.Outcome State Fault Refusal := .next (takeIf s (fun r => r.kind.isNone) takeBadKind)

end Sys2Proof.Machine
end

