-- ==== Sys2Proof/Machine/Commit.lean ====
section
/-!
DEFINITION. The anchor block's settings, the checks of a commit and its two outcomes (spec/09, sections 9.1 and 9.2; Table 10-1).
-/

namespace Sys2Proof.Machine

/-! ## Reading the staging copy (Table 10-1) -/

/-- A 16-bit half of a word. -/
def half (w : Word) (lo : Nat) : BitVec 16 := w.extractLsb' lo 16

/-- A limits-table word: low bound in bits 15–0, high bound in bits 31–16 (Table 10-1, words 12–19). -/
def limitsWord (w : Word) : Limits := { low := half w 0, high := half w 16 }

/-- The settings a staging copy holds, under a generation (Table 10-1). -/
def settings (st : Vector Word 32) (generation : Nat) : Anchor :=
  { generation := generation
    ringBase := field (entry st 0) 0 24
    resultBase := field (entry st 1) 0 24
    ticketBase := field (entry st 2) 0 24
    statusBase := field (entry st 3) 0 24
    ringSize := field (entry st 4) 0 8
    resultCount := field (entry st 4) 8 8
    ticketSize := field (entry st 4) 16 8
    installed := field (entry st 5) 0 13
    hazardLimit := field (entry st 5) 16 12
    sweepMask := (entry st 6).extractLsb' 0 8
    sweepStart := Fin.ofNat 8 (field (entry st 6) 8 3)
    sweepOrder := if bit (entry st 6) 12 then .interleaved else .sequential
    sweepBusLimit := field (entry st 6) 16 3
    sweepInterval := field (entry st 7) 0 16
    coalescingWindow := field (entry st 7) 16 16
    holdLimit := field (entry st 8) 0 12
    resultHoldLimit := field (entry st 8) 16 10
    claimLimit := field (entry st 9) 0 12
    standingLoopLimit := field (entry st 9) 16 4
    alarmThreshold := field (entry st 9) 24 8
    enables := (entry st 10).extractLsb' 0 12
    levels := (entry st 11).extractLsb' 0 12
    limits := #v[limitsWord (entry st 12), limitsWord (entry st 13), limitsWord (entry st 14), limitsWord (entry st 15),
      limitsWord (entry st 16), limitsWord (entry st 17), limitsWord (entry st 18), limitsWord (entry st 19)] }

/-! ## Validation (R171, R172) -/

/-- A value lies in a range, both ends included. -/
def within (v lo hi : Nat) : Bool := decide (lo ≤ v) && decide (v ≤ hi)

/-- Every setting lies in its range, measured on its value alone (R171, Table 9-1). -/
def Anchor.rangeOk (a : Anchor) : Bool :=
  [4, 8, 16, 32, 64].contains a.ringSize && within a.resultCount 1 64 && [8, 16, 32, 64, 128].contains a.ticketSize &&
    within a.installed 16 4096 && a.installed % 16 == 0 && a.sweepMask != 0 &&
    within a.sweepInterval 10 10000 && within a.sweepBusLimit 0 4 &&
    within a.standingLoopLimit 1 15 && within a.alarmThreshold 1 255 && within a.coalescingWindow 10 5000 &&
    within a.holdLimit 0 3600 && within a.resultHoldLimit 0 1000 && within a.claimLimit 50 2000 &&
    within a.hazardLimit 1 2500

/-- The five windows with their extents: base and length in bytes (Table 8-1). -/
def Anchor.windows (a : Anchor) : List (Nat × Nat) :=
  [(0x200, 0x80), (a.ringBase, a.ringSize * 16), (a.resultBase, a.resultCount * 64), (a.ticketBase, a.ticketSize * 64),
    (a.statusBase, 64)]

/-- Two windows do not overlap. -/
def disjoint (x y : Nat × Nat) : Bool := decide (x.1 + x.2 ≤ y.1) || decide (y.1 + y.2 ≤ x.1)

/-- No two windows of a list overlap. -/
def pairwiseDisjoint : List (Nat × Nat) → Bool
  | [] => true
  | x :: xs => xs.all (disjoint x) && pairwiseDisjoint xs

/-- Each base meets its alignment, each window ends at or below FFFFFFH, no two overlap (R171, Table 9-1). -/
def Anchor.layoutOk (a : Anchor) : Bool :=
  a.ringBase % (a.ringSize * 16) == 0 && a.resultBase % 64 == 0 && a.ticketBase % (a.ticketSize * 64) == 0 &&
    a.statusBase % 64 == 0 && a.windows.all (fun w => decide (w.1 + w.2 ≤ 0x1000000)) && pairwiseDisjoint a.windows

/-- Low bound at most high bound: signed for kinds 0 and 1, unsigned for the others (R171). -/
def boundsOk (k : Fin 8) (w : Limits) : Bool :=
  if k.val < 2 then decide (w.low.toInt ≤ w.high.toInt) else decide (w.low.toNat ≤ w.high.toNat)

/-- Every row of the limits table is in order (R171). -/
def Anchor.limitsOk (a : Anchor) : Bool := [0, 1, 2, 3, 4, 5, 6, 7].all fun k => boundsOk k (entry a.limits k)

/-- A bus in IDLE or FAULTED (R172). -/
def BusState.settledDown : BusState → Bool
  | .idle | .faulted => true
  | .claiming | .seizing | .waitHead | .measuring | .held | .releasing => false

/-- The part is quiet (R172). The status entry does not count. -/
def State.quiet (s : State) : Bool :=
  allBuses.all (fun b => (s.bus b).state.settledDown) && s.queue.isEmpty && s.fence.isNone &&
    s.writerQueue.all WriterEntry.isStatus && s.outbox.isEmpty && s.register.isNone

/-- The checks in the order of R171; the first that fails gives the refusal. -/
def validate (a : Anchor) (s : State) : CommitOutcome :=
  if !a.rangeOk then .refusedRange
  else if !a.layoutOk then .refusedLayout
  else if !a.limitsOk then .refusedLimits
  else if !s.quiet then .refusedBusy
  else .accepted

/-! ## The two outcomes -/

/-- A refused attempt while an anchor is in force shows its outcome in the status block and raises COMMIT; while none is in force
the outcome word is its only trace (R173). -/
def refuseCommit (c : CommitRecord) (s : State) : State :=
  if s.anchor.isSome then { s with lastCommit := some c }.raiseFlag .commit else s

/-- An accepted attempt, in the order of R174: anchor and decode; intake; ticket indexes; attention flags; groups and focus; sweep
pointer. -/
def acceptCommit (a : Anchor) (s : State) : State :=
  let t := clearAllGroups
    { s with anchor := some a, shadows := Vector.replicate 64 Shadow.cleared, takeIndex := 0, testWaiting := .absent, fence := none,
             cancelSinceLook := false, produce := 0, consume := 0, flags := Vector.replicate 13 .clear,
             lastCommit := some { generation := a.generation, outcome := .accepted },
             pointer := if a.installed ≤ s.pointer then 0 else s.pointer }
  t.raiseFlag .commit

/-- Whether a full-word write of the commit word is an attempt: its generation is 1–255 and differs from the generation in force
(R170). -/
def State.isAttempt (s : State) (data : Word) : Bool :=
  let g := field data 0 8
  g != 0 && (match s.anchor with
    | some a => g != a.generation
    | none => true)

/-- A commit attempt, in the order of R170: the register is closed, the staging copy validated, the attempt accepted or refused,
the outcome placed in the status entry. -/
def commitAttempt (data : Word) (s : State) : State :=
  let t := closeRegister s
  let a := settings t.staging (field data 0 8)
  let outcome := validate a t
  let c : CommitRecord := { generation := field data 0 8, outcome := outcome }
  match outcome with
  | .accepted => (acceptCommit a t).markDirty (some c)
  | .refusedRange => (refuseCommit c t).markDirty (some c)
  | .refusedLayout => (refuseCommit c t).markDirty (some c)
  | .refusedLimits => (refuseCommit c t).markDirty (some c)
  | .refusedBusy => (refuseCommit c t).markDirty (some c)

end Sys2Proof.Machine
end

