-- ==== Sys2Proof/Machine/Path.lean ====
section
/-!
DEFINITION. The memory path: host accesses, what a host write does in its window, the writer's records, the read holds (spec/08;
spec/09, sections 9.3 and 9.5).
-/

namespace Sys2Proof.Machine

/-! ## What a host write does in its window (R157, R158) -/

/-- The active byte lanes merged into a copy of a word (R158). -/
def mergeLanes (old new : Word) (be : BitVec 4) : Word :=
  let pick (i : Nat) : Byte := if be.getLsbD i then Memory.lane new i else Memory.lane old i
  pick 3 ++ pick 2 ++ pick 1 ++ pick 0

/-- All four byte enables are active (spec/00, "Full-word write"). -/
def isFullWord (be : BitVec 4) : Bool := be == 0xF#4

/-- A word of the staging copy merged (R158, R169). -/
def mergeStaging (i : Fin 32) (data : Word) (be : BitVec 4) (s : State) : State :=
  { s with staging := putEntry s.staging i (mergeLanes (entry s.staging i) data be) }

/-- A write into the anchor block: the staging copy follows it, and a full-word write of the commit word may be a commit attempt
(R158, R169, R170). -/
def writeAnchorBlock (i : Fin 32) (data : Word) (be : BitVec 4) (s : State) : State :=
  let t := mergeStaging i data be s
  if i = 31 ∧ isFullWord be ∧ t.isAttempt data then commitAttempt data t else t

/-- The posted indication after a full-word write of a post word, by its owner field: POSTED 1, RETURNED 2, any other as it was
(R175, R182). -/
def postedAfter (data : Word) (was : Bool) : Bool :=
  if field data 0 2 = 1 then true else if field data 0 2 = 2 then false else was

/-- A write into a request slot: the shadow follows it, and a full-word write of the post word posts or unposts it; the post word of
the slot at the take index written POSTED has a waiting TEST tested again (R86, R158, R175). -/
def writeShadow (i : Fin 64) (word : Fin 4) (data : Word) (be : BitVec 4) (s : State) : State :=
  let x := s.shadow i
  let post := decide (word = 3) && isFullWord be
  retestWaiting (decide (i = s.takeIndex) && post && decide (field data 0 2 = 1))
    (s.setShadow i
      { words := putEntry x.words word (mergeLanes (entry x.words word) data be),
        posted := if post then postedAfter data x.posted else x.posted })

/-- An acknowledgement: the flags written 1 become CLEAR and the status entry is marked dirty (R181). -/
def acknowledge (data : Word) (s : State) : State := (s.acknowledgeFlags data).markDirty none

/-- A write into the status block: the acknowledge word and the consume index word act when written as full words (R158, R143,
R181). -/
def writeStatusBlock (a : Anchor) (w : Nat) (data : Word) (be : BitVec 4) (s : State) : State :=
  if w = a.ackAddr ∧ isFullWord be then acknowledge data s
  else if w = a.consumeAddr ∧ isFullWord be then offerConsume a data s
  else s

/-- A performed host write is handed to the owner of its window (R157, R158, Table 8-1); while no anchor is in force the anchor
block is the only window. -/
def handToOwner (w : Nat) (data : Word) (be : BitVec 4) (s : State) : State :=
  if 0x200 ≤ w ∧ w < 0x280 then writeAnchorBlock (Fin.ofNat 32 ((w - 0x200) / 4)) data be s
  else
    match s.anchor with
    | none => s
    | some a =>
      if a.ringBase ≤ w ∧ w < a.ringBase + 16 * a.ringSize then
        writeShadow (Fin.ofNat 64 ((w - a.ringBase) / 16)) (Fin.ofNat 4 ((w - a.ringBase) % 16 / 4)) data be s
      else if a.statusBase ≤ w ∧ w < a.statusBase + 64 then writeStatusBlock a w data be s
      else s

/-! ## Performing host accesses (R156, R163) -/

/-- The writer starvation count at the end of a host access: it counts one performed while the writer waited (R163; log 6). -/
def countStarved (waited : Bool) (n : Nat) : Nat := if waited then min 16 (n + 1) else n

/-- The access presented takes the path and ends: the path is HOST while it is performed and FREE after it, the access leaves the
pins (R156), the starvation count follows (R163). -/
def endAccess (rest : List HostAccess) (s : State) : State :=
  { s with path := .free, hostAccesses := rest, readHold := none, resultHoldSpent := false,
           starvation := countStarved (!s.writerQueue.isEmpty) s.starvation }

/-- A host write is performed: it is in memory when its access ends, and is then handed to its owner as one event (R156, R158). -/
def performWrite (addr : HostAddr) (data : Word) (be : BitVec 4) (rest : List HostAccess) (s : State) : State :=
  let t := { s with path := .host, mem := Memory.writeLanes s.mem (wordAddr addr) data be }
  let u := endAccess rest t
  finish u (handToOwner (wordAddr addr) data be u)

/-- A host read is performed and returns what memory holds (R156). -/
def performRead (addr : HostAddr) (be : BitVec 4) (rest : List HostAccess) (s : State) : State :=
  let t := { s with path := .host,
                    readData := some { addr := addr, be := be, data := Memory.readLanes s.mem (wordAddr addr) be } }
  endAccess rest t

/-- An access presented on a FREE path takes it: no entry is pending, or, while an anchor is in force, the starvation count is
below 16; while none is in force the outcome word goes first (R163, R164). -/
def State.hostMayTake (s : State) : Bool :=
  (match s.path with
    | .free => true
    | .host => false
    | .writer _ => false) &&
    (s.writerQueue.isEmpty || (s.anchor.isSome && decide (s.starvation < 16)))

/-- The host's accesses, one after another while each may be performed: a read under a hold is held, an access that may not take the
path waits (R156, R163, R165, R166). The first is the one presented; the others follow it (log 5). -/
def serveHost : Nat → State → State
  | 0, s => s
  | n + 1, s =>
    match s.hostAccesses with
    | [] => s
    | .write addr data be :: rest =>
      if s.hostMayTake then serveHost n (performWrite addr data be rest s) else s
    | .read addr be :: rest =>
      match s.holdOf (wordAddr addr) with
      | some h => { s with readHold := some h }
      | none => if s.hostMayTake then serveHost n (performRead addr be rest s) else { s with readHold := none }

/-- The host's outstanding accesses are looked at again. -/
def serveAll (s : State) : State := serveHost s.hostAccesses.length s

/-- The host makes an access: it is presented if none is outstanding, and otherwise follows those that are (R156; log 5). -/
def present (x : HostAccess) (s : State) : State :=
  if s.hostAccesses.isEmpty then serveAll { s with hostAccesses := [x] } else { s with hostAccesses := s.hostAccesses ++ [x] }

/-- HOST_WRITE (R158). -/
def execHostWrite (addr : HostAddr) (data : Word) (be : BitVec 4) (s : State) : Host.Outcome State Fault Refusal :=
  .next (present (.write addr data be) s)

/-- HOST_READ (R165). -/
def execHostRead (addr : HostAddr) (be : BitVec 4) (s : State) : Host.Outcome State Fault Refusal :=
  .next (present (.read addr be) s)

/-- POST_WORD_POSTED: a full-word host write whose owner field is POSTED (R175). -/
def execPostWordPosted (addr : HostAddr) (data : Word) (s : State) : Host.Outcome State Fault Refusal :=
  .next (present (.write addr data 0xF#4) s)

/-- POST_WORD_RETURNED: a full-word host write whose owner field is RETURNED (R175). -/
def execPostWordReturned (addr : HostAddr) (data : Word) (s : State) : Host.Outcome State Fault Refusal :=
  .next (present (.write addr data 0xF#4) s)

/-- COMMIT_ATTEMPT: a full-word host write of the commit word (R170). -/
def execCommitAttempt (data : Word) (s : State) : Host.Outcome State Fault Refusal :=
  .next (present (.write (BitVec.ofNat 24 commitAddr) data 0xF#4) s)

/-- ACKNOWLEDGEMENT: a full-word host write of the acknowledge word (R181). -/
def execAcknowledgement (addr : HostAddr) (data : Word) (s : State) : Host.Outcome State Fault Refusal :=
  .next (present (.write addr data 0xF#4) s)

/-- CONSUME_INDEX_WRITE: a full-word host write of the consume index word (R143). -/
def execConsumeIndexWrite (addr : HostAddr) (data : Word) (s : State) : Host.Outcome State Fault Refusal :=
  .next (present (.write addr data 0xF#4) s)

/-- RESULT_HOLD_EXPIRY: the result hold ends while the slot is in flight; the read completes from memory once its word is not
covered (R166; log 4). -/
def execResultHoldExpiry (s : State) : Host.Outcome State Fault Refusal :=
  match s.readHold with
  | some (.result _) => .next (serveAll { s with readHold := none, resultHoldSpent := true })
  | some .pendingWrite => .next s
  | none => .next s

/-! ## The writer (R160–R164) -/

/-- The words of the record an entry has to write next, each with its address (R159, R162). For the status entry: the outcome word
first, when it carries one, and then the image as it stands (R161, R162). -/
def entryWords (s : State) (e : WriterEntry) : List (Nat × Word) :=
  match s.anchor with
  | none =>
    match e with
    | .status (some c) => [(outcomeAddr, c.word)]
    | .status none => []
    | .bus _ _ _ => []
    | .inProgress _ _ => []
    | .cancelled _ _ => []
    | .query _ _ => []
    | .disposition _ _ _ => []
    | .ticket _ _ _ _ => []
  | some a =>
    match e with
    | .status o =>
      (match o with
        | some c => [(outcomeAddr, c.word)]
        | none => []) ++ s.statusImage.map fun x => (a.statusBase + 4 * x.1, x.2)
    | .bus _ r (m :: _) => placeAt (a.resultAddr m.slot) (r.forMember m).words
    | .bus _ _ [] => []
    | .inProgress slot r => placeAt (a.resultAddr slot) r.words
    | .cancelled slot r => placeAt (a.resultAddr slot) r.words
    | .query slot r => placeAt (a.resultAddr slot) r.words
    | .disposition slot d _ => [(a.postAddr slot, d.postWord)]
    | .ticket index sequence dropped t => placeAt (a.ticketAddr index) (t.words sequence dropped)

/-- The writer takes the path for the next record of the first entry; the status image and the flags RAISED are latched (R161, R162,
R163, R179). -/
def takePath (s : State) : State :=
  match s.writerQueue with
  | [] => s
  | e :: _ =>
    { s with path := .writer { words := entryWords s e, flags := if e.isStatus then s.raisedFlags else [] }, starvation := 0 }

/-- A host access is presented and not held (R163: a held read is not presented for these terms). -/
def State.hostPresented (s : State) : Bool := !s.hostAccesses.isEmpty && s.readHold.isNone

/-- The writer may take the path: it is FREE, an entry is pending, and no host access is presented, or the starvation count has
reached 16, or no anchor is in force (R163, R164). -/
def State.writerMayTake (s : State) : Bool :=
  (match s.path with
    | .free => true
    | .host => false
    | .writer _ => false) &&
    !s.writerQueue.isEmpty && (!s.hostPresented || decide (16 ≤ s.starvation) || s.anchor.isNone)

/-- WRITER_TAKES_PATH (R163). -/
def execWriterTakesPath (s : State) : Host.Outcome State Fault Refusal :=
  if s.writerMayTake then .next (takePath s) else .next s

/-- STARVATION_COUNT_FULL: the count has reached 16 and the writer takes the path ahead of the host (R163). -/
def execStarvationCountFull (s : State) : Host.Outcome State Fault Refusal :=
  if s.writerMayTake ∧ s.starvation = 16 then .next (takePath s) else .next s

/-- The news of a performed entry (R162): RESULT for a final record, a CANCELLED record or a QUERY record; REFUSED for a refusal;
FENCE for a fence's DONE; the produce index and TICKET for a ticket; the flags shown for the status entry. At a bus entry the Test Queue looks
for a move (R89). -/
def performed (e : WriterEntry) (flags : List Flag) (s : State) : State :=
  match e with
  | .bus _ _ _ => (s.look true).raiseFlag .result
  | .cancelled _ _ => s.raiseFlag .result
  | .query _ _ => s.raiseFlag .result
  | .inProgress _ _ => s
  | .disposition _ d fence =>
    if d.isRefusal then s.raiseFlag .refused else if fence then s.raiseFlag .fence else s
  | .ticket _ _ _ _ => { s with produce := s.produce + 1 }.raiseFlag .ticket
  | .status _ => s.showFlags flags

/-- The first entry after one of its records is written: a bus entry with further slots stays pending, any other is performed and
becomes empty (R162); a general one becoming empty has a waiting TEST tested again (R86). -/
def entryWritten (flags : List Flag) (s : State) : State :=
  match s.writerQueue with
  | [] => s
  | .bus b r (_ :: m :: ms) :: es => { s with writerQueue := .bus b r (m :: ms) :: es }
  | e :: es =>
    let t := performed e flags { s with writerQueue := es }
    if e.isGeneral then retestWaiting true t else t

/-- The starvation count becomes 0 when the last pending entry has been performed (R163). -/
def resetStarvation (s : State) : State := if s.writerQueue.isEmpty then { s with starvation := 0 } else s

/-- The writer finishes its record: every word is in memory, the path is FREE, and the entry moves on (R162). -/
def writeRecord (t : Transfer) (s : State) : State :=
  resetStarvation (entryWritten t.flags { s with mem := Memory.writeWords s.mem t.words, path := .free })

/-- RECORD_WRITTEN: the record is written, held reads are tested again and a waiting host access is served (R162, R163, R165). -/
def execRecordWritten (s : State) : Host.Outcome State Fault Refusal :=
  match s.path with
  | .writer t => .next (serveAll (finish s (writeRecord t s)))
  | .free => .next s
  | .host => .next s

end Sys2Proof.Machine
end

