-- ==== Sys2Proof/Machine/Reset.lean ====
section
/-!
DEFINITION. Cold and warm reset of every unit (R15, R17, R50, R51, R79, R80, R99, R123, R145, R155, R168, R169).
-/

namespace Sys2Proof.Machine

/-! ## The memory path at a reset (R168) -/

/-- What a reset lets into memory: the host write being performed, handed to no owner; of the record being written, the words begun,
whose number is a free value (R168; log 9). -/
def resetMemory (s : State) : List Host.Cell :=
  match s.path with
  | .free => s.mem
  | .host =>
    match s.hostAccesses with
    | .write addr data be :: _ => Memory.writeLanes s.mem (wordAddr addr) data be
    | .read _ _ :: _ => s.mem
    | [] => s.mem
  | .writer t => Memory.writeWords s.mem (t.words.take (Config.cutShort s.freeIndex))

/-- The host accesses still outstanding: the one being performed is completed by the reset (R168). -/
def resetAccesses (s : State) : List HostAccess :=
  match s.path with
  | .host =>
    match s.hostAccesses with
    | .write _ _ _ :: rest => rest
    | .read addr be :: rest => .read addr be :: rest
    | [] => []
  | .free => s.hostAccesses
  | .writer _ => s.hostAccesses

/-- The messages of a link after a reset: those whose transmission had begun are completed, the newer ones are not sent. `begun` of
them have surely begun; how many of the others have not is a free value (R3, R30, R55; log 10). -/
def keptMessages {α : Type} (begun unsent : Nat) (ms : List α) : List α := ms.take (max begun (ms.length - unsent))

/-- The messages of the exchange link that a reset lets go out (R3). -/
def keptExchange (s : State) : List ExchangeMessage :=
  keptMessages s.begun.exchange (Config.unsentExchange s.freeIndex) s.exchangeOut

/-- The commands of the matrix link that a reset lets go out (R30). -/
def keptMatrix (s : State) : List MatrixMessage := keptMessages s.begun.matrix (Config.unsentMatrix s.freeIndex) s.matrixOut

/-- The commands of the head link that a reset lets go out (R55). -/
def keptHead (s : State) : List HeadMessage := keptMessages s.begun.head (Config.unsentHead s.freeIndex) s.headOut

/-! ## Both resets -/

/-- What a cold and a warm reset do alike: Path Unit, Anchor Unit, Intake Unit, Test Queue, Head Unit, Ticket Unit, Group Counters,
the claim number counter, and the parts of the sweep both resets clear. -/
def resetShared (s : State) : State :=
  { s with
    freeIndex := s.freeIndex + 1
    mem := resetMemory s
    path := .free
    writerQueue := []
    starvation := 0
    hostAccesses := resetAccesses s
    readHold := none
    resultHoldSpent := false
    staging := Vector.replicate 32 0
    anchor := none
    lastCommit := none
    flags := Vector.replicate 13 .clear
    shadows := Vector.replicate 64 Shadow.cleared
    takeIndex := 0
    testWaiting := .absent
    fence := none
    queue := []
    cancelSinceLook := false
    claimCounter := 0
    heads := Vector.replicate 2 Head.clearing
    waitQueue := []
    programs := Vector.replicate 4 none
    sweep := .stopped
    pacing := 0
    focus := []
    register := none
    coalescing := none
    outbox := []
    ticketSeq := 0
    produce := 0
    consume := 0
    droppedBefore := 0
    droppedTotal := 0
    groups := Vector.replicate 256 GroupRecord.zero
    alarmList := []
    alarmOverflow := false
    exchangeOut := keptExchange s
    matrixOut := keptMatrix s
    headOut := keptHead s ++ [.clear 0, .clear 1]
    begun := { s.begun with exchange := (keptExchange s).length, matrix := (keptMatrix s).length, head := (keptHead s).length } }

/-! ## Cold reset (R50) -/

/-- The cold reset of every unit; each bus sends OPEN with no line, RESYNC is sent and each head is sent CLEAR. The order of the OPENs, by
bus number, is the model's choice (log 29). -/
def coldReset (s : State) : State :=
  let t := resetShared s
  { t with
    buses := Vector.replicate 4 (Bus.recovering none 0)
    matrixOut := t.matrixOut ++ allBuses.map MatrixMessage.opening
    exchangeOut := t.exchangeOut ++ [.resync]
    resyncPending := true
    lines := Vector.replicate 4096 LineRecord.cold
    pointer := 0
    epoch := 0 }

/-- COLD_RESET (R50). A held or waiting host access is then performed (R168; log 19). -/
def execColdReset (s : State) : Host.Outcome State Fault Refusal := .next (serveAll (coldReset s))

/-! ## Warm reset (R51) -/

/-- A bus at a warm reset: an IDLE bus stays IDLE, every other keeps its line and claim number, sends OPEN and enters RELEASING
(R51). -/
def Bus.warm (r : Bus) : Bus := if r.state = .idle then r else Bus.recovering r.line r.claim

/-- The buses that send OPEN at a warm reset (R51). -/
def busesNotIdle (s : State) : List BusNo := allBuses.filter fun b => (s.bus b).state != .idle

/-- A warm reset: line records kept but for every ticket mark, which is made absent; pointer, epoch and resync state kept (R17, R51,
R123). The order of the OPENs, by bus number, is the model's choice (log 29). -/
def warmReset (s : State) : State :=
  let t := resetShared s
  { t with
    buses := mapEntries Bus.warm s.buses
    matrixOut := t.matrixOut ++ (busesNotIdle s).map MatrixMessage.opening
    lines := mapEntries (fun r => { r with ticketMark := none }) s.lines }

/-- WARM_RESET (R51). A held or waiting host access is then performed (R168; log 19). -/
def execWarmReset (s : State) : Host.Outcome State Fault Refusal := .next (serveAll (warmReset s))

end Sys2Proof.Machine
end

