-- ==== Sys2Proof/Machine/Dispatch.lean ====
section
/-!
DEFINITION. One arm per command: its effect on everything but the queue.
-/

namespace Sys2Proof.Machine

def exec (i : Instr) (s : State) : Host.Outcome State Fault Refusal :=
  match i with
  | .coldReset => Sys2Proof.Machine.execColdReset s
  | .warmReset => Sys2Proof.Machine.execWarmReset s
  | .hostWrite addr data be => Sys2Proof.Machine.execHostWrite addr data be s
  | .hostRead addr be => Sys2Proof.Machine.execHostRead addr be s
  | .postWordPosted addr data => Sys2Proof.Machine.execPostWordPosted addr data s
  | .postWordReturned addr data => Sys2Proof.Machine.execPostWordReturned addr data s
  | .commitAttempt data => Sys2Proof.Machine.execCommitAttempt data s
  | .acknowledgement addr data => Sys2Proof.Machine.execAcknowledgement addr data s
  | .consumeIndexWrite addr data => Sys2Proof.Machine.execConsumeIndexWrite addr data s
  | .test => Sys2Proof.Machine.execTest s
  | .cancel => Sys2Proof.Machine.execCancel s
  | .fence => Sys2Proof.Machine.execFence s
  | .releaseHold => Sys2Proof.Machine.execReleaseHold s
  | .busReset => Sys2Proof.Machine.execBusReset s
  | .headReset => Sys2Proof.Machine.execHeadReset s
  | .sweepStart => Sys2Proof.Machine.execSweepStart s
  | .sweepStop => Sys2Proof.Machine.execSweepStop s
  | .sweepRestart => Sys2Proof.Machine.execSweepRestart s
  | .sweepSeek => Sys2Proof.Machine.execSweepSeek s
  | .clearGroup => Sys2Proof.Machine.execClearGroup s
  | .lineQuery => Sys2Proof.Machine.execLineQuery s
  | .refusedKind => Sys2Proof.Machine.execRefusedKind s
  | .fenceComplete => Sys2Proof.Machine.execFenceComplete s
  | .state line reported => Sys2Proof.Machine.execState line reported s
  | .grant line claim => Sys2Proof.Machine.execGrant line claim s
  | .deny line claim reason => Sys2Proof.Machine.execDeny line claim reason s
  | .recall line claim => Sys2Proof.Machine.execRecall line claim s
  | .resyncEnd => Sys2Proof.Machine.execResyncEnd s
  | .settled bus => Sys2Proof.Machine.execSettled bus s
  | .opened bus => Sys2Proof.Machine.execOpened bus s
  | .xpFault bus => Sys2Proof.Machine.execXpFault bus s
  | .reading head status value => Sys2Proof.Machine.execReading head status value s
  | .aborted head => Sys2Proof.Machine.execAborted head s
  | .ready head => Sys2Proof.Machine.execReady head s
  | .headError head => Sys2Proof.Machine.execHeadError head s
  | .claimTimerExpiry bus => Sys2Proof.Machine.execClaimTimerExpiry bus s
  | .settleTimerExpiry bus => Sys2Proof.Machine.execSettleTimerExpiry bus s
  | .openTimerExpiry bus => Sys2Proof.Machine.execOpenTimerExpiry bus s
  | .holdTimerExpiry bus => Sys2Proof.Machine.execHoldTimerExpiry bus s
  | .stepWatchdogExpiry head => Sys2Proof.Machine.execStepWatchdogExpiry head s
  | .abortTimerExpiry head => Sys2Proof.Machine.execAbortTimerExpiry head s
  | .clearTimerExpiry head => Sys2Proof.Machine.execClearTimerExpiry head s
  | .pacingTimerExpiry => Sys2Proof.Machine.execPacingTimerExpiry s
  | .coalescingTimerExpiry => Sys2Proof.Machine.execCoalescingTimerExpiry s
  | .resultHoldExpiry => Sys2Proof.Machine.execResultHoldExpiry s
  | .starvationCountFull => Sys2Proof.Machine.execStarvationCountFull s
  | .entryToIdleBus => Sys2Proof.Machine.execEntryToIdleBus s
  | .entryToHeldBus => Sys2Proof.Machine.execEntryToHeldBus s
  | .sweepEntrySkip => Sys2Proof.Machine.execSweepEntrySkip s
  | .headGrant => Sys2Proof.Machine.execHeadGrant s
  | .issueAttempt => Sys2Proof.Machine.execIssueAttempt s
  | .ticketMove => Sys2Proof.Machine.execTicketMove s
  | .writerTakesPath => Sys2Proof.Machine.execWriterTakesPath s
  | .recordWritten => Sys2Proof.Machine.execRecordWritten s
  | .sweepControl => Sys2Proof.Machine.execSweepControl s

end Sys2Proof.Machine
end

