-- ==== Sys2Proof/Machine/Schedule.lean ====
section
/-!
DEFINITION. What the part does of itself, on an empty queue (log 1): it takes one of its own steps that is due; where none is due,
1 ms of the time base passes and every running timer counts down. Which of several due steps is taken first is a free value
(log 2).
-/

namespace Sys2Proof.Machine

/-! ## Due steps -/

/-- A bus timer that has run out (R28, R33, R35, R48). -/
def dueOfBus (s : State) (b : BusNo) : List Instr :=
  match (s.bus b).timer with
  | some (.claim, 0) => [.claimTimerExpiry b]
  | some (.settle, 0) => [.settleTimerExpiry b]
  | some (.opening, 0) => [.openTimerExpiry b]
  | some (.hold, 0) => [.holdTimerExpiry b]
  | _ => []

/-- A head timer that has run out (R69, R75, R78). -/
def dueOfHead (s : State) (h : HeadNo) : List Instr :=
  match (s.head h).timer with
  | some (.watchdog, 0) => [.stepWatchdogExpiry h]
  | some (.abort, 0) => [.abortTimerExpiry h]
  | some (.clear, 0) => [.clearTimerExpiry h]
  | _ => []

/-- The other timers that have run out (R135, R166). The pacing timer's running out is its being 0 (R107). -/
def dueOfTimers (s : State) : List Instr :=
  (match s.coalescing with
    | some 0 => [.coalescingTimerExpiry]
    | _ => []) ++
  (match s.readHold with
    | some (.result 0) => [.resultHoldExpiry]
    | _ => [])

/-- The selection's next move (R89). -/
def dueOfSelection (s : State) : List Instr :=
  match s.selection with
  | some (_, .toIdle _, _) => [.entryToIdleBus]
  | some (_, .toHeld _, _) => [.entryToHeldBus]
  | some (_, .skip, _) => [.sweepEntrySkip]
  | none => []

/-- The command that takes a request (Table 9-2). -/
def Request.command (r : Request) : Instr :=
  match r.kind with
  | none => .refusedKind
  | some .test => .test
  | some .cancel => .cancel
  | some .fence => .fence
  | some .releaseHold => .releaseHold
  | some .busReset => .busReset
  | some .headReset => .headReset
  | some .clearGroup => .clearGroup
  | some .lineQuery => .lineQuery
  | some .sweepControl =>
    match r.action with
    | none => .sweepControl
    | some .start => .sweepStart
    | some .stop => .sweepStop
    | some .restart => .sweepRestart
    | some .seek => .sweepSeek

/-- The Intake Unit's take, or the completion of its fence (R98, R176). -/
def dueOfIntake (s : State) : List Instr :=
  (match s.takeable with
    | some (_, r) => [r.command]
    | none => []) ++
  (if s.fence.isSome && s.fenceReady then [.fenceComplete] else [])

/-- A grant, an issue attempt, a ticket move (R58, R106, R141). -/
def dueOfUnits (s : State) : List Instr :=
  (if !s.waitQueue.isEmpty && s.freeHeadNo.isSome then [.headGrant] else []) ++
  (if s.attemptReady then [.issueAttempt] else []) ++
  (if s.moveReady then [.ticketMove] else [])

/-- The writer's next step (R162, R163). -/
def dueOfWriter (s : State) : List Instr :=
  match s.path with
  | .writer _ => [.recordWritten]
  | .host => []
  | .free =>
    if s.writerMayTake then (if s.starvation = 16 then [.starvationCountFull] else [.writerTakesPath]) else []

/-- Every step of the part that is due. -/
def dueSteps (s : State) : List Instr :=
  allBuses.flatMap (dueOfBus s) ++ allHeads.flatMap (dueOfHead s) ++ dueOfTimers s ++ dueOfSelection s ++ dueOfIntake s ++
    dueOfUnits s ++ dueOfWriter s

/-! ## The time base -/

/-- 1 ms of a bus's running timer. -/
def Bus.tick (r : Bus) : Bus := { r with timer := r.timer.map fun t => (t.1, t.2 - 1) }

/-- 1 ms of a head's running timer and of its timed phase, whose elapsed time is 0–65535 ms (Table 3-1). -/
def Head.tick (r : Head) : Head :=
  { r with timer := r.timer.map fun t => (t.1, t.2 - 1),
           startedAt := if r.timer.isSome then min 65535 (r.startedAt + 1) else r.startedAt }

/-- 1 ms of a running result hold. -/
def ReadHold.tick : ReadHold → ReadHold
  | .pendingWrite => .pendingWrite
  | .result n => .result (n - 1)

/-- 1 ms of the time base passes (spec/00: "all timers count on the 1 ms time base"). -/
def tick (s : State) : State :=
  { s with buses := mapEntries Bus.tick s.buses, heads := mapEntries Head.tick s.heads, pacing := s.pacing - 1,
           coalescing := s.coalescing.map fun n => n - 1, readHold := s.readHold.map ReadHold.tick }

/-- The step of the part on an empty queue. -/
def autonomous (s : State) : Host.Outcome State Fault Refusal :=
  match dueSteps s with
  | [] => .next (tick s)
  | [c] => exec c s
  | c :: cs => exec ((c :: cs).getD (Config.pick s.freeIndex % (cs.length + 1)) c) { s with freeIndex := s.freeIndex + 1 }

end Sys2Proof.Machine
end

