-- ==== Sys2Proof/Safety.lean ====
section
/-!
DEFINITION. The terms claims use: what stays the same between two states, and the invariants of the part. The part has no unsafe stop
to define: no command faults and none is refused.
-/

namespace Sys2Proof.Machine

/-! ## What stays the same -/

/-- The pending writer entries other than the status entry, in order. -/
def State.newsEntries (s : State) : List WriterEntry := s.writerQueue.filter fun e => !e.isStatus

/-- The parts of the state, for frames: every field, and `news`, the writer queue without its status entry. -/
inductive Field where
  | news
  | pending | freeIndex | mem | path | writerQueue | starvation | hostAccesses | readHold | resultHoldSpent | readData
  | staging | anchor | lastCommit | flags | shadows | takeIndex | testWaiting | fence | queue | cancelSinceLook | buses | claimCounter
  | resyncPending | heads | waitQueue | programs | lines | sweep | pointer | epoch | pacing | focus | register
  | coalescing | outbox | ticketSeq | produce | consume | droppedBefore | droppedTotal | groups | alarmList
  | alarmOverflow | exchangeOut | matrixOut | headOut | begun
deriving DecidableEq, Repr

/-- A part is the same in two states. For memory this says that every byte reads as before. -/
def Field.same : Field → State → State → Prop
  | .news, s, t => t.newsEntries = s.newsEntries
  | .pending, s, t => t.pending = s.pending
  | .freeIndex, s, t => t.freeIndex = s.freeIndex
  | .mem, s, t => t.mem = s.mem ∧ ∀ a, Memory.read t.mem a = Memory.read s.mem a
  | .path, s, t => t.path = s.path
  | .writerQueue, s, t => t.writerQueue = s.writerQueue
  | .starvation, s, t => t.starvation = s.starvation
  | .hostAccesses, s, t => t.hostAccesses = s.hostAccesses
  | .readHold, s, t => t.readHold = s.readHold
  | .resultHoldSpent, s, t => t.resultHoldSpent = s.resultHoldSpent
  | .readData, s, t => t.readData = s.readData
  | .staging, s, t => t.staging = s.staging
  | .anchor, s, t => t.anchor = s.anchor
  | .lastCommit, s, t => t.lastCommit = s.lastCommit
  | .flags, s, t => t.flags = s.flags
  | .shadows, s, t => t.shadows = s.shadows
  | .takeIndex, s, t => t.takeIndex = s.takeIndex
  | .testWaiting, s, t => t.testWaiting = s.testWaiting
  | .fence, s, t => t.fence = s.fence
  | .queue, s, t => t.queue = s.queue
  | .cancelSinceLook, s, t => t.cancelSinceLook = s.cancelSinceLook
  | .buses, s, t => t.buses = s.buses
  | .claimCounter, s, t => t.claimCounter = s.claimCounter
  | .resyncPending, s, t => t.resyncPending = s.resyncPending
  | .heads, s, t => t.heads = s.heads
  | .waitQueue, s, t => t.waitQueue = s.waitQueue
  | .programs, s, t => t.programs = s.programs
  | .lines, s, t => t.lines = s.lines
  | .sweep, s, t => t.sweep = s.sweep
  | .pointer, s, t => t.pointer = s.pointer
  | .epoch, s, t => t.epoch = s.epoch
  | .pacing, s, t => t.pacing = s.pacing
  | .focus, s, t => t.focus = s.focus
  | .register, s, t => t.register = s.register
  | .coalescing, s, t => t.coalescing = s.coalescing
  | .outbox, s, t => t.outbox = s.outbox
  | .ticketSeq, s, t => t.ticketSeq = s.ticketSeq
  | .produce, s, t => t.produce = s.produce
  | .consume, s, t => t.consume = s.consume
  | .droppedBefore, s, t => t.droppedBefore = s.droppedBefore
  | .droppedTotal, s, t => t.droppedTotal = s.droppedTotal
  | .groups, s, t => t.groups = s.groups
  | .alarmList, s, t => t.alarmList = s.alarmList
  | .alarmOverflow, s, t => t.alarmOverflow = s.alarmOverflow
  | .exchangeOut, s, t => t.exchangeOut = s.exchangeOut
  | .matrixOut, s, t => t.matrixOut = s.matrixOut
  | .headOut, s, t => t.headOut = s.headOut
  | .begun, s, t => t.begun = s.begun

/-- Between two states nothing changes but the parts named. -/
def OnlyChanges (fs : List Field) (s t : State) : Prop := ∀ f, f ∉ fs → f.same s t

/-! ## Terms of the statements -/

/-- The owner of a source raises its flag (R179): while an anchor is in force a CLEAR flag becomes RAISED; any other stays. -/
def FlagRaised (f : Flag) (s t : State) : Prop :=
  t.flag f = if s.anchor.isSome = true ∧ s.flag f = .clear then .raised else s.flag f

/-- Every flag but those named is as it was. -/
def OtherFlags (fs : List Flag) (s t : State) : Prop := ∀ f, f ∉ fs → t.flag f = s.flag f

/-- Every bus record but one is as it was. -/
def OtherBuses (b : BusNo) (s t : State) : Prop := ∀ x, x ≠ b → t.bus x = s.bus x

/-- Every head record but one is as it was. -/
def OtherHeads (h : HeadNo) (s t : State) : Prop := ∀ x, x ≠ h → t.head x = s.head x

/-- Every step program but one bus's is as it was. -/
def OtherPrograms (b : BusNo) (s t : State) : Prop := ∀ x, x ≠ b → t.program x = s.program x

/-- Every line record but one is as it was. -/
def OtherLines (l : LineNo) (s t : State) : Prop := ∀ x, x ≠ l → t.line x = s.line x

/-- A ticket that carries no line fault reaches the outbox: it is placed behind the tickets there with the next sequence number, or,
if the outbox holds 8, it is lost and counted and DROP is raised (R137, R138). -/
def TicketEntered (k : Ticket) (s t : State) : Prop :=
  if s.outbox.length < 8 then
    t.outbox = s.outbox ++ [{ sequence := s.ticketSeq, ticket := k }] ∧ t.ticketSeq = s.ticketSeq + 1 ∧
      t.droppedBefore = s.droppedBefore ∧ t.droppedTotal = s.droppedTotal ∧ t.flag .drop = s.flag .drop
  else
    t.outbox = s.outbox ∧ t.ticketSeq = s.ticketSeq ∧ t.droppedBefore = min 255 (s.droppedBefore + 1) ∧
      t.droppedTotal = min 65535 (s.droppedTotal + 1) ∧ FlagRaised .drop s t

/-- An equipment event is handed over: while an anchor is in force its ticket reaches the outbox; while none is, nothing follows
(R130). -/
def EventHandedOver (kind : TicketKind) (ctx : EventContext) (s t : State) : Prop :=
  if s.anchor.isSome = true then
    TicketEntered { kind := kind, origin := .equipment, epoch := s.epoch, group := ctx.line.map groupOf, lines := [],
                    detail := .context ctx } s t
  else
    t.outbox = s.outbox ∧ t.ticketSeq = s.ticketSeq ∧ t.droppedBefore = s.droppedBefore ∧ t.droppedTotal = s.droppedTotal ∧
      t.flag .drop = s.flag .drop

/-- What the end of a test on a bus places in the writer queue (R38, R100): the final record in the bus's entry, or nothing if the
slot list is empty. The tag and merged indication are put in slot by slot as the record is written. -/
def State.finalEntries (s : State) (b : BusNo) (o : TestOutcome) (h : Option HeadNo) (rs : StepRecords) : List WriterEntry :=
  match (s.bus b).test with
  | some e =>
    if e.slots = [] then []
    else [.bus b { tag := 0, state := o.recordState, outcome := some o, line := e.line, bus := some b, head := h, merged := false,
                   epoch := s.epoch, steps := rs } e.slots]
  | none => []

/-- The outcome of a test that ends on a bus: that of the reason pending there, if one is (R38). -/
def State.outcomeOn (s : State) (b : BusNo) (o : TestOutcome) : TestOutcome :=
  match (s.bus b).abort with
  | some .recall => .recalled
  | some .cancel => .cancelled
  | some .noHead => .noHead
  | none => o

/-- The record of a bus whose test has ended and which has sent OPEN (R32, R33, R39, R42). -/
def Bus.sentOpen (r : Bus) : Bus :=
  { r with state := .releasing, test := none, abort := none, command := some .opening, timer := some (.opening, 50),
           cause := none }

/-- The lowest-numbered available IDLE bus (R22). -/
def LowestIdleBus (s : State) (b : BusNo) : Prop :=
  ((s.bus b).state = .idle ∧ s.busEntryEmpty b = true) ∧
    ∀ x, x < b → ¬ ((s.bus x).state = .idle ∧ s.busEntryEmpty x = true)

/-- The move a DESK-class entry is eligible for (R90). -/
def DeskMoves (s : State) (e : TestEntry) (m : Move) : Prop :=
  e.cls = .desk ∧
    (((s.line e.line).occupying = none ∧ ∃ b, LowestIdleBus s b ∧ m = .toIdle b) ∨
      (∃ b, (s.line e.line).occupying = some b ∧ (s.bus b).state = .held ∧ s.busEntryEmpty b = true ∧ m = .toHeld b))

/-- What becomes of a SWEEP-class entry that is examined and does not wait (R91). -/
def SweepMoves (s : State) (e : TestEntry) (m : Move) : Prop :=
  e.cls = .sweep ∧
    (((s.line e.line).occupying = none ∧ (s.line e.line).supervision = .idle ∧ ∃ b, LowestIdleBus s b ∧ m = .toIdle b) ∨
      ((s.line e.line).occupying = none ∧ (s.line e.line).supervision ≠ .idle ∧ m = .skip) ∨
      (∃ b, (s.line e.line).occupying = some b ∧ (s.bus b).state = .held ∧ m = .skip))

/-- Where one of the events R89 lists comes about, the Test Queue looks for a move; where none does, its last look stands. `cancelSinceLook`
is the model's own record of a CANCEL since then (log 31). -/
def Looked (event : Prop) (s t : State) : Prop :=
  (event → t.cancelSinceLook = false) ∧ (¬ event → t.cancelSinceLook = s.cancelSinceLook)

/-- The Access Unit offers buses (R22). -/
def Offered (s : State) : Prop :=
  s.anchor.isSome = true ∧ s.resyncPending = false ∧ ∃ h, (s.head h).state.inService = true

/-- SWEEP-class entries are considered: fewer buses carry SWEEP-class tests than the limit in force, and an IDLE bus is available
(R91); and no CANCEL has come since the last look, or an entry is eligible for that bus, which R89 has moved whenever there is one
(log 31). -/
def SweepConsidered (s : State) : Prop :=
  (∃ b, LowestIdleBus s b) ∧ (∃ a, s.anchor = some a ∧ s.sweepOnBuses < a.sweepBusLimit) ∧
    (s.cancelSinceLook = false ∨ ∃ e ∈ s.queue, ∃ b, SweepMoves s e (.toIdle b))

/-- The entry the selection takes next, what becomes of it, and the queue without it (R22, R89–R91): while buses are offered, the
oldest eligible DESK-class entry; where no DESK-class entry is eligible, the oldest SWEEP-class entry that does not wait, while such
entries are considered. -/
def Selects (s : State) (e : TestEntry) (m : Move) (rest : List TestEntry) : Prop :=
  Offered s ∧ ∃ before after, s.queue = before ++ e :: after ∧ rest = before ++ after ∧
    ((DeskMoves s e m ∧ ∀ x ∈ before, ∀ y, ¬ DeskMoves s x y) ∨
      (SweepMoves s e m ∧ (∀ x ∈ s.queue, ∀ y, ¬ DeskMoves s x y) ∧ (∀ x ∈ before, ∀ y, ¬ SweepMoves s x y) ∧ SweepConsidered s))

/-- The comparison value of a reading (R64, R65). -/
def ComparisonIs (k : StepKind) (st : ReadingStatus) (v c : BitVec 16) : Prop :=
  match st with
  | .valid => c = v
  | .overRange => c = if k.val < 2 then 0x7FFF#16 else 0xFFFF#16
  | .underRange => c = if k.val < 2 then 0x8000#16 else 0#16

/-- A comparison value lies in a pass window, bounds included: signed for the two FV kinds, unsigned for the others (R64, R65). -/
def InWindow (k : StepKind) (w : Limits) (c : BitVec 16) : Prop :=
  if k.val < 2 then w.low.toInt ≤ c.toInt ∧ c.toInt ≤ w.high.toInt
  else w.low.toNat ≤ c.toNat ∧ c.toNat ≤ w.high.toNat

/-- The reading is a hazard (R66). -/
def HazardFound (k : StepKind) (c : BitVec 16) (limit : Nat) : Prop := k.val < 2 ∧ limit ≤ c.toInt.natAbs

/-- The verdict of a program that ended without a hazard (R68): PASS if no step is FAIL, otherwise FAIL with a failing kind of some
FAIL step that no FAIL step outranks. -/
def VerdictIs (rs : StepRecords) (v : Verdict) : Prop :=
  (v = .pass ∧ ∀ k, (entry rs k).status ≠ .fail) ∨
    (∃ k, (entry rs k).status = .fail ∧ v = .fail (failingKind k) ∧
      ∀ j, (entry rs j).status = .fail → (failingKind k).code ≤ (failingKind j).code)

/-- A failure of a head that is joined to a bus: the command, the ticket kind, the outcome without an abort pending, and the
milliseconds elapsed (R69, R71, R72, R75, Table 3-6). -/
def JoinedFailure (s : State) (h : HeadNo) (c : Instr) (kind : TicketKind) (o : TestOutcome) (ms : Nat) : Prop :=
  (c = .stepWatchdogExpiry h ∧ (s.head h).state = .attached ∧ (∃ n, (s.head h).timer = some (.watchdog, n)) ∧
      kind = .headTimeout ∧ o = .headTimeout ∧ ∃ k, (s.head h).step = some k ∧ ms = watchdogOf k) ∨
    (c = .abortTimerExpiry h ∧ (s.head h).state = .aborting ∧ (∃ n, (s.head h).timer = some (.abort, n)) ∧
      kind = .headTimeout ∧ o = .headTimeout ∧ ms = 100) ∨
    (c = .headError h.val ∧ ((s.head h).state = .attached ∨ (s.head h).state = .aborting) ∧
      kind = .headError ∧ o = .headError ∧ ms = (s.head h).startedAt)

/-- The context record of a failure of a head joined to a bus (Table 3-6). -/
def State.joinedContext (s : State) (h : HeadNo) (b : BusNo) (k : StepKind) (ms : Nat) : EventContext :=
  { bus := some b, head := some h, step := some k, busState := some (s.bus b).state, headState := some (s.head h).state,
    line := (s.bus b).line, claim := (s.bus b).claim, elapsed := ms }

/-- A head that is out of service: SUSPECT, with no bus, step or timer (R53). -/
def Head.suspect : Head := { state := .suspect, bus := none, step := none, timer := none, startedAt := 0 }

/-- A head that is free (R53). -/
def Head.free : Head := { state := .free, bus := none, step := none, timer := none, startedAt := 0 }

/-- A TEST may merge into an entry (R85). -/
def CanMerge (r : Request) (e : TestEntry) : Prop :=
  e.line = r.line ∧ e.start = r.start ∧ e.order = r.order ∧ e.force = r.force ∧ e.hold = r.hold ∧ e.slots.length < 4

/-- The Test Queue has room for a TEST (R86, R176). -/
def RoomFor (s : State) (r : Request) : Prop := s.queue.length < 16 ∨ ∃ e ∈ s.queue, CanMerge r e

/-- The slot at the take index is taken (R176): the conditions, with the anchor in force and the request of its shadow. For a TEST left
waiting a test of the conditions must have found them met (R86); a waiting slot rewritten to another kind needs no room (log 16). -/
def Takes (s : State) (a : Anchor) (r : Request) : Prop :=
  s.anchor = some a ∧ s.fence = none ∧ (s.shadow s.takeIndex).posted = true ∧ s.writerQueue.countP WriterEntry.isGeneral ≤ 2 ∧
    (s.shadow s.takeIndex).request = r ∧ s.testWaiting ≠ .waiting ∧
    (s.testWaiting = .retest → r.kind = some .test → RoomFor s r)

/-- The slot at which a TEST was left waiting can be taken again (R86, R176; log 16). -/
def CanRetake (t : State) : Prop :=
  t.anchor ≠ none ∧ t.fence = none ∧ (t.shadow t.takeIndex).posted = true ∧ t.writerQueue.countP WriterEntry.isGeneral ≤ 2 ∧
    ((t.shadow t.takeIndex).request.kind = some .test → RoomFor t (t.shadow t.takeIndex).request)

/-- What an event does to a waiting TEST (R86, R87, R176): at one of the moments R86 names the conditions are tested and, if they hold,
the slot is to be taken again; at no other event is it taken up, and one that ends the conditions leaves it waiting. -/
def WaitTested (moment : Prop) (s t : State) : Prop :=
  (s.testWaiting = .absent → t.testWaiting = .absent) ∧
    (s.testWaiting ≠ .absent → (moment ∨ s.testWaiting = .retest) ∧ CanRetake t → t.testWaiting = .retest) ∧
    (s.testWaiting ≠ .absent → ¬ ((moment ∨ s.testWaiting = .retest) ∧ CanRetake t) → t.testWaiting = .waiting)

/-- A slot is taken and passed (R176): its shadow unposted with its content kept; the take index advanced, wrapping at the ring size;
no TEST waiting. -/
def SlotPassed (a : Anchor) (s t : State) : Prop :=
  t.shadow s.takeIndex = { s.shadow s.takeIndex with posted := false } ∧ (∀ i, i ≠ s.takeIndex → t.shadow i = s.shadow i) ∧
    (a.ringSize ≤ 64 → t.takeIndex.val = if s.takeIndex.val + 1 < a.ringSize then s.takeIndex.val + 1 else 0) ∧
    t.testWaiting = .absent

/-- A slot has been taken and disposed (R176, R177): the records the take queues, then the disposition; the slot passed. -/
def Disposed (a : Anchor) (records : List WriterEntry) (d : Disposition) (s t : State) : Prop :=
  t.newsEntries = s.newsEntries ++ records ++ [.disposition s.takeIndex d false] ∧ SlotPassed a s t

/-- The line a target names is installed (R2). -/
def Request.targetInstalled (r : Request) (a : Anchor) : Bool := decide (r.target % 4096 < a.installed)

/-- A bus is held for a line, or on its way to be (R49). -/
def State.holdsLine (s : State) (l : LineNo) : Bool :=
  allBuses.any fun b =>
    (s.bus b).line == some l &&
      ((s.bus b).state == .held ||
        ((s.bus b).hold &&
          ((s.bus b).state == .claiming || (s.bus b).state == .seizing || (s.bus b).state == .waitHead ||
            (s.bus b).state == .measuring)))

/-- The checks of each request kind in their order, with the disposition of the first that fails (R18, R36, R49, R77, R84, R93, R118,
R152, R176, Table 9-2), and the command that takes the slot. -/
def refusalOf (s : State) (a : Anchor) (r : Request) : Option (Instr × Disposition) :=
  match r.kind with
  | none => some (.refusedKind, .refusedKind)
  | some .test =>
    if !r.targetInstalled a then some (.test, .refusedLine)
    else if r.mask = 0 then some (.test, .refusedProgram)
    else if a.resultCount ≤ r.slot then some (.test, .refusedSlot)
    else if r.slot ∈ s.inFlight then some (.test, .refusedSlotBusy)
    else none
  | some .cancel =>
    if a.resultCount ≤ r.slot then some (.cancel, .refusedSlot)
    else if r.slot ∉ s.inFlight then some (.cancel, .refusedNotFound)
    else none
  | some .fence => none
  | some .releaseHold =>
    if !r.targetInstalled a then some (.releaseHold, .refusedLine)
    else if !s.holdsLine r.line then some (.releaseHold, .refusedState)
    else none
  | some .busReset =>
    if h : r.target < 4 then
      if (s.bus ⟨r.target, h⟩).state = .faulted then none else some (.busReset, .refusedState)
    else some (.busReset, .refusedTarget)
  | some .headReset =>
    if h : r.target < 2 then
      if (s.head ⟨r.target, h⟩).state = .suspect then none else some (.headReset, .refusedState)
    else some (.headReset, .refusedTarget)
  | some .sweepControl =>
    match r.action with
    | none => some (.sweepControl, .refusedProgram)
    | some .seek => if !r.targetInstalled a then some (.sweepSeek, .refusedLine) else none
    | some .start => none
    | some .stop => none
    | some .restart => none
  | some .clearGroup =>
    if 255 < r.target then some (.clearGroup, .refusedTarget)
    else if a.installed ≤ r.target * 16 then some (.clearGroup, .refusedTarget)
    else none
  | some .lineQuery =>
    if !r.targetInstalled a then some (.lineQuery, .refusedLine)
    else if a.resultCount ≤ r.slot then some (.lineQuery, .refusedSlot)
    else if r.slot ∈ s.inFlight then some (.lineQuery, .refusedSlotBusy)
    else none

/-- The IN_PROGRESS record of a TEST (R88). -/
def State.inProgressOf (s : State) (r : Request) (merged : Bool) : ResultRecord :=
  { tag := r.tag, state := .inProgress, outcome := none, line := r.line, bus := none, head := none, merged := merged,
    epoch := s.epoch, steps := StepRecords.notRun }

/-- The CANCELLED record of a slot (R96). -/
def State.cancelledOf (s : State) (m : SlotMember) (l : LineNo) (b : Option BusNo) : ResultRecord :=
  { tag := m.tag, state := .cancelled, outcome := some .cancelled, line := l, bus := b, head := none, merged := m.merged,
    epoch := s.epoch, steps := StepRecords.notRun }

/-- The conditions of an issue attempt: RUNNING, the pacing timer expired, every row of Table 5-2 (R104, R106). -/
def MayAttempt (s : State) (a : Anchor) : Prop :=
  s.anchor = some a ∧ s.sweep = .running ∧ s.pacing = 0 ∧ s.resyncPending = false ∧ (∃ h, (s.head h).state.inService = true) ∧
    s.sweepOnBuses < a.sweepBusLimit ∧ s.queue.length < 16 ∧ (∀ e ∈ s.queue, e.cls = .desk) ∧
    s.sweepOnBuses + 2 ≤ 8 - s.outbox.length

/-- A candidate line is visited, not skipped (R109). -/
def Visited (s : State) (a : Anchor) (l : LineNo) : Prop :=
  l.val < a.installed ∧ (s.line l).supervision = .idle ∧ (s.line l).yieldMark = false ∧ (s.line l).occupying = none ∧
    ∀ e ∈ s.queue, e.line ≠ l

/-- The entry of a routine visit (R87). -/
def visitEntry (a : Anchor) (l : LineNo) : TestEntry :=
  { line := l, cls := .sweep, origin := .sweep, mask := a.sweepMask, start := a.sweepStart, order := a.sweepOrder, force := false,
    hold := false, slots := [] }

/-- The host write that a command makes: address, data, byte enables (R158, R143, R170, R175, R181). -/
def writeOf : Instr → Option (HostAddr × Word × BitVec 4)
  | .hostWrite addr data be => some (addr, data, be)
  | .postWordPosted addr data => some (addr, data, 0xF#4)
  | .postWordReturned addr data => some (addr, data, 0xF#4)
  | .commitAttempt data => some (0x27C#24, data, 0xF#4)
  | .acknowledgement addr data => some (addr, data, 0xF#4)
  | .consumeIndexWrite addr data => some (addr, data, 0xF#4)
  | _ => none

/-- A host write may take the path at once: it is the only access, the path is FREE, and no entry is pending or, while an anchor is in
force, the writer has not waited for 16 accesses (R156, R163, R164). -/
def PathOpen (s : State) : Prop :=
  s.hostAccesses = [] ∧ s.path = .free ∧ (s.writerQueue = [] ∨ (s.anchor.isSome = true ∧ s.starvation < 16))

/-- The writer goes first: it is writing a record, or it is to take the FREE path ahead of a presented access (R163, R164). -/
def WriterFirst (s : State) : Prop :=
  s.path.isWriter = true ∨ (s.path = .free ∧ s.writerQueue ≠ [] ∧ (s.anchor = none ∨ 16 ≤ s.starvation))

/-- The active byte lanes of a write merged into a copy of a word (R158). -/
def Merged (old data : Word) (be : BitVec 4) (new : Word) : Prop :=
  ∀ i, i < 32 → new.getLsbD i = if be.getLsbD (i / 8) = true then data.getLsbD i else old.getLsbD i

/-- The part is quiet (R172). -/
def Quiet (s : State) : Prop :=
  (∀ b, (s.bus b).state = .idle ∨ (s.bus b).state = .faulted) ∧ s.queue = [] ∧ s.fence = none ∧
    (∀ e ∈ s.writerQueue, e.isStatus = true) ∧ s.outbox = [] ∧ s.register = none

/-! ### Messages and their transmission -/

/-- The messages of a link after a reset (R3, R30, R55): those that have begun transmission, at least the `begun` of them that surely
have, and then the reset's own; those kept have surely begun (log 10). -/
def Kept {α : Type} (begun : Nat) (ms own after : List α) (begun' : Nat) : Prop :=
  ∃ n, begun ≤ n ∧ after = ms.take n ++ own ∧ begun' = (ms.take n).length

/-- The place, counted from 1, of the newest message of a kind; 0 where there is none. -/
def NewestAt {α : Type} (p : α → Prop) (ms : List α) (n : Nat) : Prop :=
  (n = 0 ∧ ∀ m ∈ ms, ¬ p m) ∨
    ∃ before m after, ms = before ++ m :: after ∧ p m ∧ (∀ x ∈ after, ¬ p x) ∧ n = before.length + 1

/-- The place, counted from 1, of the oldest message of a kind behind the first `k`; 0 where there is none. -/
def OldestAt {α : Type} (p : α → Prop) (k : Nat) (ms : List α) (n : Nat) : Prop :=
  (n = 0 ∧ ∀ m ∈ ms.drop k, ¬ p m) ∨
    ∃ before m after, ms = before ++ m :: after ∧ k ≤ before.length ∧ p m ∧ (∀ x ∈ before.drop k, ¬ p x) ∧ n = before.length + 1

/-- The first `n` messages of the exchange link are known to have begun transmission. -/
def ExchangeShown (n : Nat) (s t : State) : Prop := t.begun = { s.begun with exchange := max s.begun.exchange n }

/-- The first `n` commands of the matrix link are known to have begun transmission. -/
def MatrixShown (n : Nat) (s t : State) : Prop := t.begun = { s.begun with matrix := max s.begun.matrix n }

/-- The first `n` commands of the head link are known to have begun transmission. -/
def HeadShown (n : Nat) (s t : State) : Prop := t.begun = { s.begun with head := max s.begun.head n }

/-- What a GRANT, DENY or RECALL shows: the newest CLAIM of its line and claim number (R21, R24; log 10). -/
def AnswerHeard (l : LineNo) (c : ClaimNo) (s t : State) : Prop :=
  ∃ n, NewestAt (fun m => ∃ f, m = ExchangeMessage.claim l c f) s.exchangeOut n ∧ ExchangeShown n s t

/-- What a RESYNC_END shows: the RESYNC that has as many before it as RESYNC_ENDs have arrived (R16; log 10). -/
def ResyncEndHeard (s t : State) : Prop :=
  ∃ n, ((n = 0 ∧ s.exchangeOut.count .resync ≤ s.begun.resyncEnds) ∨
      ∃ before after, s.exchangeOut = before ++ .resync :: after ∧ before.count .resync = s.begun.resyncEnds ∧
        n = before.length + 1) ∧
    t.begun = { s.begun with exchange := max s.begun.exchange n, resyncEnds := s.begun.resyncEnds + 1 }

/-- What a SETTLED shows: the newest CLOSE of its bus (R31; log 10). -/
def SettledHeard (b : BusNo) (s t : State) : Prop :=
  ∃ n, NewestAt (fun m => ∃ l, m = MatrixMessage.close b l) s.matrixOut n ∧ MatrixShown n s t

/-- What an OPENED shows: the oldest OPEN of its bus behind the bus's newest CLOSE (R31; log 10). -/
def OpenedHeard (b : BusNo) (s t : State) : Prop :=
  ∃ k n, NewestAt (fun m => ∃ l, m = MatrixMessage.close b l) s.matrixOut k ∧
    OldestAt (fun m => m = MatrixMessage.opening b) k s.matrixOut n ∧ MatrixShown n s t

/-- What an XP_FAULT shows: the newest CLOSE of its bus, or the oldest OPEN where no CLOSE has been issued (R31, R33; log 10). -/
def XpFaultHeard (b : BusNo) (s t : State) : Prop :=
  ∃ k n, NewestAt (fun m => ∃ l, m = MatrixMessage.close b l) s.matrixOut k ∧
    (k ≠ 0 → n = k) ∧ (k = 0 → OldestAt (fun m => m = MatrixMessage.opening b) 0 s.matrixOut n) ∧ MatrixShown n s t

/-- What a READING shows: the newest START of its head (R63; log 10). -/
def ReadingHeard (h : HeadNo) (s t : State) : Prop :=
  ∃ n, NewestAt (fun m => ∃ b k, m = HeadMessage.start h b k) s.headOut n ∧ HeadShown n s t

/-- What an ABORTED shows: the newest ABORT of its head (R74; log 10). -/
def AbortedHeard (h : HeadNo) (s t : State) : Prop :=
  ∃ n, NewestAt (fun m => m = HeadMessage.abort h) s.headOut n ∧ HeadShown n s t

/-- What a READY shows: the oldest CLEAR of its head behind the head's newest START (R78; log 10). -/
def ReadyHeard (h : HeadNo) (s t : State) : Prop :=
  ∃ k n, NewestAt (fun m => ∃ b i, m = HeadMessage.start h b i) s.headOut k ∧
    OldestAt (fun m => m = HeadMessage.clear h) k s.headOut n ∧ HeadShown n s t

/-! ### Resets -/

/-- What both resets leave alike (R79, R99, R123, R145, R155, R168, R169, R175, R179): every unit but the Line Table, the bus
records, the resync state, the pointer and the epoch. -/
def ResetAlike (s t : State) : Prop :=
  t.path = .free ∧ t.writerQueue = [] ∧ t.starvation = 0 ∧ t.readHold = none ∧
    (∀ i, entry t.staging i = 0) ∧ t.anchor = none ∧ t.lastCommit = none ∧ (∀ f, t.flag f = .clear) ∧
    (∀ i, t.shadow i = { words := Vector.replicate 4 0, posted := false }) ∧ t.takeIndex = 0 ∧ t.testWaiting = .absent ∧
    t.fence = none ∧ t.queue = [] ∧ t.cancelSinceLook = false ∧ t.claimCounter = 0 ∧
    (∀ h, t.head h = { state := .clearing, bus := none, step := none, timer := some (.clear, 200), startedAt := 0 }) ∧
    t.waitQueue = [] ∧ (∀ b, t.program b = none) ∧ t.sweep = .stopped ∧ t.pacing = 0 ∧ t.focus = [] ∧
    t.register = none ∧ t.coalescing = none ∧ t.outbox = [] ∧ t.ticketSeq = 0 ∧ t.produce = 0 ∧ t.consume = 0 ∧
    t.droppedBefore = 0 ∧ t.droppedTotal = 0 ∧ (∀ g, t.group g = { counter := 0, alarm := false }) ∧ t.alarmList = [] ∧
    t.alarmOverflow = false ∧ Kept s.begun.head s.headOut [.clear 0, .clear 1] t.headOut t.begun.head ∧
    t.begun.resyncEnds = s.begun.resyncEnds ∧
    (s.path = .free → t.mem = s.mem) ∧
    (∀ r, s.path = .writer r → ∃ n, t.mem = Memory.writeWords s.mem (r.words.take n))

/-! ### Tickets -/

/-- The ticket marks a dropped ticket takes back: those of its lines that still hold its kind (R139). -/
def MarksCleaned (k : Ticket) (s t : State) : Prop :=
  ∀ l, ((l ∈ k.lines ∧ ∃ f, k.kind = .lineFault f ∧ (s.line l).ticketMark = some f) →
      t.line l = { s.line l with ticketMark := none }) ∧
    (¬ (l ∈ k.lines ∧ ∃ f, k.kind = .lineFault f ∧ (s.line l).ticketMark = some f) → t.line l = s.line l)

/-- What the Ticket Unit may change beside the marks of its lines, when a ticket reaches the outbox. -/
def outboxFields : List Field := [.outbox, .ticketSeq, .droppedBefore, .droppedTotal, .flags]

/-- A ticket reaches the outbox, with all it does: no flag but DROP, and no line but those of a dropped ticket, is touched
(R137–R139). -/
def OutboxReached (k : Ticket) (s t : State) : Prop :=
  TicketEntered k s t ∧ OtherFlags [.drop] s t ∧ (s.outbox.length < 8 → ∀ l, t.line l = s.line l) ∧
    (8 ≤ s.outbox.length → MarksCleaned k s t) ∧ OnlyChanges (outboxFields ++ [.lines]) s t

/-- The coalescing register closes: the open ticket reaches the outbox and the timer stops; an empty register closes nothing
(R135, R136). -/
def RegisterClosed (s t : State) : Prop :=
  match s.register with
  | none => OnlyChanges [] s t
  | some k =>
    ∃ u, OutboxReached k s u ∧ t.register = none ∧ t.coalescing = none ∧ OnlyChanges [.register, .coalescing] u t

/-- A ticket of one line is appended to the open ticket: same kind, same group, a line above the last (R133). -/
def Appends (o k : Ticket) (l : LineNo) : Prop :=
  o.kind = k.kind ∧ o.group = k.group ∧ ∃ last, o.lines.getLast? = some last ∧ last < l

/-- A mergeable ticket of line `l` reaches the register: it opens an empty one, is appended to the open ticket, or closes it and
opens the register afresh; the coalescing timer starts at the window in force (R132–R134). -/
def RegisterReached (a : Anchor) (k : Ticket) (l : LineNo) (s t : State) : Prop :=
  t.coalescing = some a.coalescingWindow ∧
    match s.register with
    | none => t.register = some k ∧ OnlyChanges [.register, .coalescing] s t
    | some o =>
      (Appends o k l →
        t.register = some { o with lines := o.lines ++ [l], origin := if k.origin = .desk then .desk else o.origin } ∧
          OnlyChanges [.register, .coalescing] s t) ∧
      (¬ Appends o k l → ∃ u, RegisterClosed s u ∧ t.register = some k ∧ OnlyChanges [.register, .coalescing] u t)

/-- A line ticket goes where its kind sends it (R125, R131). -/
def Routed (a : Anchor) (k : Ticket) (l : LineNo) (s t : State) : Prop :=
  (k.kind = .lineFault .short ∨ k.kind = .lineFault .ground ∨ k.kind = .lineFault .openWire ∨ k.kind = .restored →
      RegisterReached a k l s t) ∧
    (k.kind = .lineFault .hazard ∨ k.kind = .lineFault .foreignVoltage ∨ k.kind = .lineFault .highLoop ∨
        k.kind = .lineFault .unbalanced ∨ k.kind = .standingLoop → OutboxReached k s t)

/-- A line is counted in its group (R148): below the threshold the counter grows; the count that reaches it sets the alarm flag, lists
the group or sets the overflow indication, offers it to the focus list and raises GROUP_ALARM (R114, R149, R150); an alarmed group
is left as it is. -/
def LineCounted (a : Anchor) (g : GroupNo) (s t : State) : Prop :=
  (∀ x, x ≠ g → t.group x = s.group x) ∧
    ((s.group g).counter + 1 < a.alarmThreshold →
      t.group g = { s.group g with counter := (s.group g).counter + 1 } ∧ OnlyChanges [.groups] s t) ∧
    ((s.group g).counter + 1 = a.alarmThreshold →
      t.group g = { counter := a.alarmThreshold, alarm := true } ∧
        (s.alarmList.length < 8 → t.alarmList = s.alarmList ++ [g] ∧ t.alarmOverflow = s.alarmOverflow) ∧
        (8 ≤ s.alarmList.length → t.alarmList = s.alarmList ∧ t.alarmOverflow = true) ∧
        (s.focus.length < 4 ∧ (∀ f ∈ s.focus, f.group ≠ g) → t.focus = s.focus ++ [{ group := g, cursor := 0 }]) ∧
        (¬ (s.focus.length < 4 ∧ ∀ f ∈ s.focus, f.group ≠ g) → t.focus = s.focus) ∧
        FlagRaised .groupAlarm s t ∧ OtherFlags [.groupAlarm] s t ∧
        OnlyChanges [.groups, .alarmList, .alarmOverflow, .focus, .flags] s t) ∧
    (a.alarmThreshold < (s.group g).counter + 1 → OnlyChanges [] s t)

/-- A FAIL or HAZARD verdict reaches the Ticket Unit (R126, R127): suppressed by a mark of its kind; otherwise the mark is set, the
line counted and the ticket routed. -/
def FaultTicketed (a : Anchor) (l : LineNo) (kind : FaultKind) (origin : TicketOrigin) (rs : StepRecords) (s t : State) : Prop :=
  ((s.line l).ticketMark = some kind → OnlyChanges [] s t) ∧
    ((s.line l).ticketMark ≠ some kind →
      ∃ u w, u.line l = { s.line l with ticketMark := some kind } ∧ OtherLines l s u ∧ OnlyChanges [.lines] s u ∧
        LineCounted a (groupOf l) u w ∧
        Routed a { kind := .lineFault kind, origin := origin, epoch := s.epoch, group := some (groupOf l), lines := [l],
                   detail := .steps rs } l w t)

/-- A PASS reaches the Ticket Unit (R128): on a marked line the mark becomes absent and a RESTORED ticket is routed. -/
def PassTicketed (a : Anchor) (l : LineNo) (origin : TicketOrigin) (rs : StepRecords) (s t : State) : Prop :=
  ((s.line l).ticketMark = none → OnlyChanges [] s t) ∧
    ((s.line l).ticketMark ≠ none →
      ∃ u, u.line l = { s.line l with ticketMark := none } ∧ OtherLines l s u ∧ OnlyChanges [.lines] s u ∧
        Routed a { kind := .restored, origin := origin, epoch := s.epoch, group := some (groupOf l), lines := [l],
                   detail := .steps rs } l u t)

/-! ### The sweep -/

/-- A standing loop is found on a skipped line (R112). -/
def LoopDue (a : Anchor) (l : LineNo) (stamp : BitVec 8) (s : State) : Prop :=
  (s.line l).supervision = .offHook ∧ (s.line l).stamp = some stamp ∧ (s.line l).loopMark = false ∧
    a.standingLoopLimit ≤ (s.epoch.setWidth 8 - stamp).toNat

/-- The standing-loop check of a skipped line (R112, R129): a loop that is due forms a STANDING_LOOP ticket with its age and sets the
loop mark; nothing else changes. -/
def LoopChecked (a : Anchor) (l : LineNo) (s t : State) : Prop :=
  (∀ stamp, LoopDue a l stamp s →
      t.line l = { s.line l with loopMark := true } ∧ OtherLines l s t ∧
        TicketEntered { kind := .standingLoop, origin := .sweep, epoch := s.epoch, group := some (groupOf l), lines := [l],
                        detail := .age (s.epoch.setWidth 8 - stamp) } s t ∧
        OtherFlags [.drop] s t ∧ OnlyChanges (outboxFields ++ [.lines]) s t) ∧
    ((∀ stamp, ¬ LoopDue a l stamp s) → OnlyChanges [] s t)

/-- A pass end and the pass start that follows it (R116, R117, R151): the epoch grows, unalarmed counters decay, the register closes,
PASS_END is raised, the pointer goes to 0 and every yield mark is cleared. -/
def PassEnded (s t : State) : Prop :=
  ∃ u, RegisterClosed s u ∧ t.epoch = s.epoch + 1 ∧
    (∀ g, ((s.group g).alarm = true → t.group g = s.group g) ∧
      ((s.group g).alarm = false → t.group g = { s.group g with counter := (s.group g).counter - 1 })) ∧
    FlagRaised .passEnd u t ∧ OtherFlags [.passEnd] u t ∧ t.pointer = 0 ∧
    (∀ l, t.line l = { u.line l with yieldMark := false }) ∧ OnlyChanges [.epoch, .groups, .flags, .pointer, .lines] u t

/-- The focus list after its first entry's candidate is done with (R115). -/
def focusAdvanced (f : FocusEntry) (fs : List FocusEntry) : List FocusEntry :=
  if h : f.cursor.val + 1 < 16 then { f with cursor := ⟨f.cursor.val + 1, h⟩ } :: fs else fs

/-- What an issue attempt does (R108–R111): the candidate is the first focus entry's line, or the pointer line where the focus list is
empty. A visit ends the attempt, has the Test Queue look for a move (R89; log 31), and may take the place a waiting TEST was to take (R87); a
skip checks for a standing loop and goes on
to the next candidate; a pass end ends it. -/
inductive Attempt (a : Anchor) : State → State → Prop where
  | visitFocus (f : FocusEntry) (fs : List FocusEntry) (s t : State) : s.focus = f :: fs → Visited s a f.line →
      t.queue = s.queue ++ [visitEntry a f.line] → t.focus = focusAdvanced f fs → WaitTested False s t →
      Looked True s t → OnlyChanges [.queue, .cancelSinceLook, .focus, .testWaiting] s t → Attempt a s t
  | visitPointer (l : LineNo) (s t : State) : s.focus = [] → l.val = s.pointer → Visited s a l → s.pointer + 1 < a.installed →
      t.queue = s.queue ++ [visitEntry a l] → t.pointer = s.pointer + 1 → WaitTested False s t →
      Looked True s t → OnlyChanges [.queue, .cancelSinceLook, .pointer, .testWaiting] s t → Attempt a s t
  | visitLast (l : LineNo) (s u t : State) : s.focus = [] → l.val = s.pointer → Visited s a l → a.installed ≤ s.pointer + 1 →
      u.queue = s.queue ++ [visitEntry a l] → WaitTested False s u → Looked True s u →
      OnlyChanges [.queue, .cancelSinceLook, .testWaiting] s u → PassEnded u t → Attempt a s t
  | skipFocus (f : FocusEntry) (fs : List FocusEntry) (s u w t : State) : s.focus = f :: fs → ¬ Visited s a f.line →
      LoopChecked a f.line s u → w.focus = focusAdvanced f fs → OnlyChanges [.focus] u w → Attempt a w t → Attempt a s t
  | skipPointer (l : LineNo) (s u w t : State) : s.focus = [] → l.val = s.pointer → ¬ Visited s a l →
      s.pointer + 1 < a.installed → LoopChecked a l s u → w.pointer = s.pointer + 1 → OnlyChanges [.pointer] u w →
      Attempt a w t → Attempt a s t
  | skipLast (l : LineNo) (s u t : State) : s.focus = [] → l.val = s.pointer → ¬ Visited s a l → a.installed ≤ s.pointer + 1 →
      LoopChecked a l s u → PassEnded u t → Attempt a s t

/-! ### Tests that complete, and the loss of the last head -/

/-- The state in which a completed test has handed everything on but its bus and its program: the head is FREE, the final record stands
in the bus's entry, the line has its last verdict, and the Ticket Unit has taken the verdict (R13, R38, R68). -/
def State.testDone (s : State) (h : HeadNo) (b : BusNo) (e : TestEntry) (v : Verdict) (rs : StepRecords) : State :=
  takeVerdict e.line v e.cls rs
    { s with
      heads := putEntry s.heads h Head.free
      writerQueue := s.writerQueue ++ s.finalEntries b (.completed v) (some h) rs
      lines := putEntry s.lines e.line { s.line e.line with lastTest := some { verdict := v, epoch := s.epoch } } }

/-- No head is left in service (R45, R76): each waiting bus ends its test NO_HEAD and releases, in the order of the queue (log 17), and
each claiming or seizing bus without an abort pending takes NO_HEAD. The lists are what the failing head's own bus put there first. -/
def LastHeadGone (records : List WriterEntry) (opened : List MatrixMessage) (s t : State) : Prop :=
  t.waitQueue = [] ∧
    t.newsEntries = s.newsEntries ++ records ++
      s.waitQueue.flatMap (fun b => s.finalEntries b (s.outcomeOn b .noHead) none StepRecords.notRun) ∧
    t.matrixOut = s.matrixOut ++ opened ++ s.waitQueue.map MatrixMessage.opening ∧
    (∀ b, (s.bus b).state = .waitHead → t.bus b = (s.bus b).sentOpen ∧ t.program b = none) ∧
    (∀ b, (s.bus b).state = .claiming ∨ (s.bus b).state = .seizing → t.program b = s.program b ∧
      ((s.bus b).abort = none → t.bus b = { s.bus b with abort := some .noHead }) ∧
      ((s.bus b).abort ≠ none → t.bus b = s.bus b))

/-! ### Checks of a commit -/

/-- Every setting lies in its range (R171, Table 9-1). -/
def InRange (a : Anchor) : Prop :=
  (a.ringSize = 4 ∨ a.ringSize = 8 ∨ a.ringSize = 16 ∨ a.ringSize = 32 ∨ a.ringSize = 64) ∧
    (1 ≤ a.resultCount ∧ a.resultCount ≤ 64) ∧
    (a.ticketSize = 8 ∨ a.ticketSize = 16 ∨ a.ticketSize = 32 ∨ a.ticketSize = 64 ∨ a.ticketSize = 128) ∧
    (16 ≤ a.installed ∧ a.installed ≤ 4096 ∧ a.installed % 16 = 0) ∧ a.sweepMask ≠ 0 ∧
    (10 ≤ a.sweepInterval ∧ a.sweepInterval ≤ 10000) ∧ a.sweepBusLimit ≤ 4 ∧
    (1 ≤ a.standingLoopLimit ∧ a.standingLoopLimit ≤ 15) ∧ (1 ≤ a.alarmThreshold ∧ a.alarmThreshold ≤ 255) ∧
    (10 ≤ a.coalescingWindow ∧ a.coalescingWindow ≤ 5000) ∧ a.holdLimit ≤ 3600 ∧ a.resultHoldLimit ≤ 1000 ∧
    (50 ≤ a.claimLimit ∧ a.claimLimit ≤ 2000) ∧ (1 ≤ a.hazardLimit ∧ a.hazardLimit ≤ 2500)

/-- Two stretches of memory, each a base and a length, do not overlap. -/
def Apart (x y : Nat × Nat) : Prop := x.1 + x.2 ≤ y.1 ∨ y.1 + y.2 ≤ x.1

/-- The bases are aligned, the windows end inside memory and no two overlap (R171, Tables 8-1 and 9-1). -/
def LaidOut (a : Anchor) : Prop :=
  (a.ringBase % (16 * a.ringSize) = 0 ∧ a.resultBase % 64 = 0 ∧ a.ticketBase % (64 * a.ticketSize) = 0 ∧
      a.statusBase % 64 = 0) ∧
    (a.ringBase + 16 * a.ringSize ≤ 0x1000000 ∧ a.resultBase + 64 * a.resultCount ≤ 0x1000000 ∧
      a.ticketBase + 64 * a.ticketSize ≤ 0x1000000 ∧ a.statusBase + 64 ≤ 0x1000000) ∧
    List.Pairwise Apart
      [(0x200, 0x80), (a.ringBase, 16 * a.ringSize), (a.resultBase, 64 * a.resultCount), (a.ticketBase, 64 * a.ticketSize),
        (a.statusBase, 64)]

/-- Every row of the limits table has its low bound at or below its high bound (R171). -/
def LimitsInOrder (a : Anchor) : Prop :=
  ∀ k : StepKind,
    if k.val < 2 then (entry a.limits k).low.toInt ≤ (entry a.limits k).high.toInt
    else (entry a.limits k).low.toNat ≤ (entry a.limits k).high.toNat

/-- The outcome of a commit attempt: the first check that fails gives the refusal (R171, R172). -/
def OutcomeIs (a : Anchor) (s : State) (o : CommitOutcome) : Prop :=
  (¬ InRange a ∧ o = .refusedRange) ∨
    (InRange a ∧ ¬ LaidOut a ∧ o = .refusedLayout) ∨
    (InRange a ∧ LaidOut a ∧ ¬ LimitsInOrder a ∧ o = .refusedLimits) ∨
    (InRange a ∧ LaidOut a ∧ LimitsInOrder a ∧ ¬ Quiet s ∧ o = .refusedBusy) ∨
    (InRange a ∧ LaidOut a ∧ LimitsInOrder a ∧ Quiet s ∧ o = .accepted)

/-! ### Host accesses -/

/-- The fields any performed host write may change: memory, and the path's own bookkeeping. -/
def accessFields : List Field := [.mem, .starvation, .readHold, .resultHoldSpent]

/-- A write is in memory: each enabled lane holds its byte of the data, every other byte reads as before. -/
def Stored (w : Nat) (data : Word) (be : BitVec 4) (s t : State) : Prop :=
  (∀ i, i < 4 → be.getLsbD i = true → Memory.read t.mem (w + i) = some (data.extractLsb' (8 * i) 8)) ∧
    ∀ x, (∀ i, i < 4 → be.getLsbD i = true → x ≠ w + i) → Memory.read t.mem x = Memory.read s.mem x

/-- A read has returned what memory holds: each enabled lane whose byte has been written carries it. -/
def Returned (addr : HostAddr) (be : BitVec 4) (s t : State) : Prop :=
  ∃ data, t.readData = some { addr := addr, be := be, data := data } ∧
    ∀ i v, i < 4 → be.getLsbD i = true → Memory.read s.mem (wordAddr addr + i) = some v → data.extractLsb' (8 * i) 8 = v

/-- A word lies in the record of a result slot that is in flight (R166). -/
def InFlightWord (s : State) (a : Anchor) (w : Nat) : Prop :=
  ∃ i, i < a.resultCount ∧ a.resultBase + 64 * i ≤ w ∧ w < a.resultBase + 64 * i + 64 ∧ i ∈ s.inFlight

/-- A pending writer entry covers a word (R165). -/
def Covered (s : State) (a : Anchor) (w : Nat) : Prop := ∃ e ∈ s.writerQueue, e.covers a w = true

/-- The status entry is pending and not yet begun (R161). -/
def StatusPending (t : State) : Prop :=
  ∃ e, e ∈ (if t.path.isWriter = true then t.writerQueue.tail else t.writerQueue) ∧ e.isStatus = true

/-! ### The part's own steps -/

/-- The writer takes the path (R163, R164): it is FREE, an entry is pending, and no access is presented and not held, or the count has
reached 16, or no anchor is in force. -/
def WriterDue (s : State) : Prop :=
  s.path = .free ∧ s.writerQueue ≠ [] ∧ (s.hostAccesses = [] ∨ s.readHold ≠ none ∨ 16 ≤ s.starvation ∨ s.anchor = none)

/-- The slot at the take index is taken and holds a request of a kind. -/
def TakesKind (s : State) (p : Request → Prop) : Prop := ∃ a r, Takes s a r ∧ p r

/-- A command is a step of the part that is due: a timer has run out (R28, R33, R35, R48, R69, R75, R78, R135, R166); the selection has
a move (R89); the slot at the take index is taken, by its kind (R176); the pending fence completes (R98); a bus waits and a head is FREE
(R58); an issue attempt may be made (R104, R106); a ticket may move into the writer (R141); the writer may take the path (R163, R164), or
is writing a record (R162). -/
def Due (s : State) : Instr → Prop
  | .claimTimerExpiry b => (s.bus b).timer = some (.claim, 0)
  | .settleTimerExpiry b => (s.bus b).timer = some (.settle, 0)
  | .openTimerExpiry b => (s.bus b).timer = some (.opening, 0)
  | .holdTimerExpiry b => (s.bus b).timer = some (.hold, 0)
  | .stepWatchdogExpiry h => (s.head h).timer = some (.watchdog, 0)
  | .abortTimerExpiry h => (s.head h).timer = some (.abort, 0)
  | .clearTimerExpiry h => (s.head h).timer = some (.clear, 0)
  | .coalescingTimerExpiry => s.coalescing = some 0
  | .resultHoldExpiry => s.readHold = some (.result 0)
  | .entryToIdleBus => ∃ e b rest, Selects s e (.toIdle b) rest
  | .entryToHeldBus => ∃ e b rest, Selects s e (.toHeld b) rest
  | .sweepEntrySkip => ∃ e rest, Selects s e .skip rest
  | .refusedKind => TakesKind s fun r => r.kind = none
  | .test => TakesKind s fun r => r.kind = some .test
  | .cancel => TakesKind s fun r => r.kind = some .cancel
  | .fence => TakesKind s fun r => r.kind = some .fence
  | .releaseHold => TakesKind s fun r => r.kind = some .releaseHold
  | .busReset => TakesKind s fun r => r.kind = some .busReset
  | .headReset => TakesKind s fun r => r.kind = some .headReset
  | .sweepControl => TakesKind s fun r => r.kind = some .sweepControl ∧ r.action = none
  | .sweepStart => TakesKind s fun r => r.kind = some .sweepControl ∧ r.action = some .start
  | .sweepStop => TakesKind s fun r => r.kind = some .sweepControl ∧ r.action = some .stop
  | .sweepRestart => TakesKind s fun r => r.kind = some .sweepControl ∧ r.action = some .restart
  | .sweepSeek => TakesKind s fun r => r.kind = some .sweepControl ∧ r.action = some .seek
  | .clearGroup => TakesKind s fun r => r.kind = some .clearGroup
  | .lineQuery => TakesKind s fun r => r.kind = some .lineQuery
  | .fenceComplete =>
    s.fence ≠ none ∧ s.inFlight = [] ∧ (∀ e ∈ s.writerQueue, e.isFinal = false) ∧ s.writerQueue.countP WriterEntry.isGeneral ≤ 3
  | .headGrant => s.waitQueue ≠ [] ∧ ∃ h, (s.head h).state = .free
  | .issueAttempt => ∃ a, MayAttempt s a
  | .ticketMove =>
    s.outbox ≠ [] ∧ (∀ e ∈ s.writerQueue, e.isTicket = false) ∧
      (∃ a, s.anchor = some a ∧ (s.produce - s.consume).toNat < a.ticketSize) ∧ s.writerQueue.countP WriterEntry.isGeneral ≤ 1
  | .writerTakesPath => WriterDue s ∧ s.starvation ≠ 16
  | .starvationCountFull => WriterDue s ∧ s.starvation = 16
  | .recordWritten => s.path.isWriter = true
  | .coldReset | .warmReset | .hostWrite _ _ _ | .hostRead _ _ | .postWordPosted _ _ | .postWordReturned _ _ | .commitAttempt _
  | .acknowledgement _ _ | .consumeIndexWrite _ _ | .state _ _ | .grant _ _ | .deny _ _ _ | .recall _ _ | .resyncEnd | .settled _
  | .opened _ | .xpFault _ | .reading _ _ _ | .aborted _ | .ready _ | .headError _ | .pacingTimerExpiry => False

/-! ### Layouts -/

/-- A word holds its fields, each a lowest bit, a length and a value, and 0 in every other bit (R183). -/
def WordIs (w : Word) (fields : List (Nat × Nat × Nat)) : Prop :=
  (∀ f ∈ fields, w.toNat / 2 ^ f.1 % 2 ^ f.2.1 = f.2.2) ∧
    ∀ i, i < 32 → (∀ f ∈ fields, i < f.1 ∨ f.1 + f.2.1 ≤ i) → w.getLsbD i = false

/-- What the writer writes for an entry: words laid out as given, at the word numbers given from a base, in ascending order (R183). -/
def Written (s : State) (e : WriterEntry) (base : Nat) (numbers : List Nat) (layout : List (List (Nat × Nat × Nat))) : Prop :=
  ∃ ws, List.Forall₂ WordIs ws layout ∧ entryWords s e = (numbers.map fun i => base + 4 * i).zip ws

/-- The number a field holds for an indication. -/
def indication (b : Bool) : Nat := if b = true then 1 else 0

/-- The code of an optional value, with the code that stands for absent. -/
def codeOr {α : Type} (absent : Nat) (code : α → Nat) : Option α → Nat
  | some x => code x
  | none => absent

/-- A step record (Table 10-4). -/
def stepLayout (r : StepRecord) : List (Nat × Nat × Nat) :=
  match r.reading with
  | some (st, v) => [(0, 16, v.toNat), (16, 2, st.code), (24, 3, r.status.code)]
  | none => [(0, 16, 0), (16, 2, 0), (24, 3, r.status.code)]

/-- Verdict and fault kind codes of a verdict (Table 10-7, and the sentence below it for HAZARD). -/
def verdictCodes : Verdict → Nat × Nat
  | .pass => (1, 0)
  | .fail k => (2, k.code)
  | .hazard => (3, 1)

/-- Outcome, verdict and fault kind codes of a TEST record; 0 where there is none (Tables 10-3, 10-7). -/
def outcomeCodes : Option TestOutcome → Nat × Nat × Nat
  | none => (0, 0, 0)
  | some (.completed v) => (1, verdictCodes v)
  | some .cancelled => (2, 0, 0)
  | some .recalled => (3, 0, 0)
  | some .claimDenied => (4, 0, 0)
  | some .claimTimeout => (5, 0, 0)
  | some .xpFault => (6, 0, 0)
  | some .headTimeout => (7, 0, 0)
  | some .headError => (8, 0, 0)
  | some .noHead => (9, 0, 0)

/-- A TEST record (Tables 10-3 and 10-4). -/
def testLayout (r : ResultRecord) : List (List (Nat × Nat × Nat)) :=
  [[(0, 8, 0), (8, 8, r.state.code), (16, 8, (outcomeCodes r.outcome).1), (24, 4, (outcomeCodes r.outcome).2.1),
      (28, 4, (outcomeCodes r.outcome).2.2)],
    [(0, 16, r.tag.toNat), (16, 16, r.epoch.toNat)],
    [(0, 12, r.line.val), (16, 3, codeOr 7 Fin.val r.bus), (20, 3, codeOr 7 Fin.val r.head), (24, 1, indication r.merged)],
    [], [], [], [], []] ++ r.steps.toList.map stepLayout

/-- A QUERY record (Table 10-3). -/
def queryLayout (r : QueryRecord) : List (List (Nat × Nat × Nat)) :=
  let x := r.snapshot
  [[(0, 8, 1), (8, 8, 2), (16, 16, 0)],
    [(0, 16, r.tag.toNat), (16, 16, r.epoch.toNat)],
    [(0, 12, r.line.val), (16, 3, 7), (20, 3, 7), (24, 1, 0)],
    [], [], [], [], [],
    [(0, 8, x.supervision.code), (8, 1, indication x.loopMark), (9, 1, indication x.yieldMark), (10, 1, indication x.stamp.isSome),
      (12, 3, codeOr 7 Fin.val x.occupying), (16, 8, (x.stamp.getD 0).toNat)],
    [(0, 8, codeOr 0 FaultKind.code x.ticketMark), (8, 8, codeOr 0 (fun t => (verdictCodes t.verdict).1) x.lastTest),
      (16, 8, codeOr 0 (fun t => (verdictCodes t.verdict).2) x.lastTest)],
    [(0, 16, codeOr 0 (fun t => t.epoch.toNat) x.lastTest)],
    [], [], [], [], []]

/-- The detail words of a ticket, by its family (below Table 10-5). -/
def detailLayout : TicketDetail → List (List (Nat × Nat × Nat))
  | .steps rs => rs.toList.map stepLayout
  | .age n => [[(0, 8, n.toNat)], [], [], [], [], [], [], []]
  | .context c =>
    [[(0, 4, codeOr 15 Fin.val c.bus), (4, 4, codeOr 15 Fin.val c.head), (8, 4, codeOr 15 Fin.val c.step),
        (16, 8, codeOr 0 BusState.code c.busState), (24, 8, codeOr 0 HeadState.code c.headState)],
      [(0, 12, codeOr 0 Fin.val c.line), (15, 1, indication c.line.isSome), (16, 8, c.claim.toNat)],
      [(0, 16, c.elapsed)], [], [], [], [], []]

/-- A ticket record (Table 10-5): bit k of the offset mask lists the line at offset k of the group. -/
def ticketLayout (sequence : Count16) (dropped : Nat) (t : Ticket) : List (List (Nat × Nat × Nat)) :=
  [[(0, 16, sequence.toNat), (16, 8, t.kind.code), (24, 8, t.origin.code)],
    [(0, 8, dropped), (8, 8, codeOr 0 Fin.val t.group), (23, 1, indication t.group.isSome)],
    ((List.range 16).map fun k => (k, 1, if ∃ l ∈ t.lines, l.val % 16 = k then 1 else 0)) ++ [(16, 16, t.epoch.toNat)],
    [], [], [], [], []] ++ detailLayout t.detail

/-- The held-back reason's code (R105, Tables 5-2 and 10-7): 0 while STOPPED, else that of the first condition that fails. -/
def heldBackCode (s : State) : Nat :=
  if s.sweep = .stopped then 0
  else if s.anchor = none ∨ s.resyncPending = true then 5
  else if ¬ ∃ h, (s.head h).state.inService = true then 1
  else if s.limit Anchor.sweepBusLimit ≤ s.sweepOnBuses then 2
  else if 16 ≤ s.queue.length ∨ ∃ e ∈ s.queue, e.cls = .sweep then 4
  else if 8 - s.outbox.length < s.sweepOnBuses + 2 then 3
  else 0

/-- The positions of the attention flags (Table 10-6, word 1). -/
def flagPositions : List (Nat × Flag) :=
  [(0, .result), (1, .fence), (2, .refused), (3, .holdEnd), (4, .ticket), (5, .drop), (6, .groupAlarm), (7, .head), (8, .bus),
    (9, .link), (10, .passEnd), (11, .commit), (15, .hazard)]

/-- The group at a place of the alarm list, oldest first; 0 beyond the number (Table 10-6). -/
def alarmAt (s : State) (i : Nat) : Nat := codeOr 0 Fin.val s.alarmList[i]?

/-- The words of the status block the part writes: all but the acknowledge word and the consume index word (Table 10-6). -/
def statusNumbers : List Nat := [0, 1, 3, 5, 6, 7, 8, 9, 10, 11, 12, 13, 14, 15]

/-- The status image (R178, Table 10-6), word by word of `statusNumbers`. -/
def statusLayout (a : Anchor) (s : State) : List (List (Nat × Nat × Nat)) :=
  [[(0, 8, a.generation),
      (8, 8, codeOr 0 CommitRecord.generation s.lastCommit), (16, 4, codeOr 0 (fun c => c.outcome.code) s.lastCommit),
      (24, 1, indication s.resyncPending)],
    flagPositions.map fun x => (x.1, 1, if s.flag x.2 = .clear then 0 else 1),
    [(0, 6, s.takeIndex.val), (8, 5, s.queue.length), (16, 16, s.produce.toNat)],
    [(0, 1, if s.sweep = .running then 1 else 0), (4, 3, heldBackCode s), (16, 12, s.pointer)],
    [(0, 16, s.epoch.toNat), (16, 16, s.droppedTotal)],
    [(0, 4, (s.head 0).state.code), (4, 4, (s.head 1).state.code), (8, 4, (s.bus 0).state.code), (12, 4, (s.bus 1).state.code),
      (16, 4, (s.bus 2).state.code), (20, 4, (s.bus 3).state.code), (24, 2, codeOr 0 FaultCause.code (s.bus 0).cause),
      (26, 2, codeOr 0 FaultCause.code (s.bus 1).cause), (28, 2, codeOr 0 FaultCause.code (s.bus 2).cause),
      (30, 2, codeOr 0 FaultCause.code (s.bus 3).cause)],
    [(0, 4, s.alarmList.length), (4, 1, indication s.alarmOverflow)],
    [(0, 8, alarmAt s 0), (8, 8, alarmAt s 1), (16, 8, alarmAt s 2), (24, 8, alarmAt s 3)],
    [(0, 8, alarmAt s 4), (8, 8, alarmAt s 5), (16, 8, alarmAt s 6), (24, 8, alarmAt s 7)],
    [], [], [], [], []]

/-- The request a shadow holds (Table 10-2, R182), with the codes of kinds and sweep actions (Table 10-7). -/
def RequestRead (x : Shadow) : Prop :=
  x.request.kind =
      [none, some .test, some .cancel, some .fence, some .releaseHold, some .busReset, some .headReset, some .sweepControl,
        some .clearGroup, some .lineQuery].getD ((entry x.words 0).toNat % 16) none ∧
    x.request.slot = (entry x.words 0).toNat / 2 ^ 8 % 256 ∧ x.request.target = (entry x.words 0).toNat / 2 ^ 16 ∧
    x.request.mask.toNat = (entry x.words 1).toNat % 256 ∧ x.request.start.val = (entry x.words 1).toNat / 2 ^ 8 % 8 ∧
    (x.request.order = if (entry x.words 1).getLsbD 12 = true then .interleaved else .sequential) ∧
    x.request.force = (entry x.words 1).getLsbD 16 ∧ x.request.hold = (entry x.words 1).getLsbD 17 ∧
    x.request.action =
      [none, some .start, some .stop, some .restart, some .seek].getD ((entry x.words 1).toNat / 2 ^ 24 % 8) none ∧
    x.request.tag.toNat = (entry x.words 2).toNat % 65536 ∧ x.request.line.val = x.request.target % 4096

/-- The settings a staging copy holds (Table 10-1). -/
def SettingsRead (v : Vector Word 32) (g : Nat) (a : Anchor) : Prop :=
  let f (i : Fin 32) (lo len : Nat) : Nat := (entry v i).toNat / 2 ^ lo % 2 ^ len
  a.generation = g ∧ a.ringBase = f 0 0 24 ∧ a.resultBase = f 1 0 24 ∧ a.ticketBase = f 2 0 24 ∧ a.statusBase = f 3 0 24 ∧
    a.ringSize = f 4 0 8 ∧ a.resultCount = f 4 8 8 ∧ a.ticketSize = f 4 16 8 ∧ a.installed = f 5 0 13 ∧ a.hazardLimit = f 5 16 12 ∧
    a.sweepMask.toNat = f 6 0 8 ∧ a.sweepStart.val = f 6 8 3 ∧
    (a.sweepOrder = if f 6 12 1 = 1 then .interleaved else .sequential) ∧ a.sweepBusLimit = f 6 16 3 ∧
    a.sweepInterval = f 7 0 16 ∧ a.coalescingWindow = f 7 16 16 ∧ a.holdLimit = f 8 0 12 ∧ a.resultHoldLimit = f 8 16 10 ∧
    a.claimLimit = f 9 0 12 ∧ a.standingLoopLimit = f 9 16 4 ∧ a.alarmThreshold = f 9 24 8 ∧ a.enables.toNat = f 10 0 12 ∧
    a.levels.toNat = f 11 0 12 ∧
    ∀ k : StepKind, (entry a.limits k).low.toNat = f (Fin.ofNat 32 (12 + k.val)) 0 16 ∧
      (entry a.limits k).high.toNat = f (Fin.ofNat 32 (12 + k.val)) 16 16

/-- The codes of the enumerations (Table 10-7). -/
def CodesAssigned : Prop :=
  [Disposition.accepted, .merged, .done, .refusedKind, .refusedLine, .refusedProgram, .refusedSlot, .refusedSlotBusy, .refusedTarget,
      .refusedState, .refusedNotFound].map Disposition.code = [1, 2, 3, 4, 5, 6, 7, 8, 9, 10, 11] ∧
    [CommitOutcome.accepted, .refusedRange, .refusedLayout, .refusedLimits, .refusedBusy].map CommitOutcome.code = [1, 2, 3, 4, 5] ∧
    [RecordState.inProgress, .complete, .cancelled, .failed].map RecordState.code = [1, 2, 3, 4] ∧
    [FaultKind.hazard, .foreignVoltage, .short, .ground, .openWire, .highLoop, .unbalanced].map FaultKind.code =
      [1, 2, 3, 4, 5, 6, 7] ∧
    (∀ k, (TicketKind.lineFault k).code = k.code) ∧
    [TicketKind.standingLoop, .restored, .headTimeout, .headError, .xpFault, .linkTimeout].map TicketKind.code =
      [8, 9, 10, 11, 12, 13] ∧
    [TicketOrigin.desk, .sweep, .equipment].map TicketOrigin.code = [1, 2, 3] ∧
    [StepStatus.notRun, .pass, .fail, .suspect, .aborted].map StepStatus.code = [0, 1, 2, 3, 4] ∧
    [ReadingStatus.valid, .overRange, .underRange].map ReadingStatus.code = [1, 2, 3] ∧
    [Supervision.unknown, .idle, .offHook, .ringing, .inCall, .unequipped].map Supervision.code = [0, 1, 2, 3, 4, 5] ∧
    [BusState.idle, .claiming, .seizing, .waitHead, .measuring, .held, .releasing, .faulted].map BusState.code =
      [1, 2, 3, 4, 5, 6, 7, 8] ∧
    [HeadState.free, .attached, .aborting, .clearing, .suspect].map HeadState.code = [1, 2, 3, 4, 5] ∧
    [FaultCause.xpFault, .timeout].map FaultCause.code = [1, 2] ∧
    (∀ x ∈ flagPositions, x.2.position = x.1)

/-! ## Invariants -/

/-- Desk memory keeps its canonical form. -/
def MemoryOk (s : State) : Prop := Memory.wf s.mem = true

/-- A bus and the line it names know each other (R12, R20, R22): an IDLE record holds its state alone, the occupying bus of the line
a bus names is that bus, and a line's occupying bus names the line. So no two buses name one line. -/
def BusLineOk (s : State) : Prop :=
  (∀ b, (s.bus b).state = .idle → s.bus b = Bus.idle) ∧
    (∀ b l, (s.bus b).line = some l → (s.line l).occupying = some b) ∧
    (∀ b l, (s.line l).occupying = some b → (s.bus b).line = some l)

/-- R146, R147: while an anchor is in force a counter is at most the threshold, a group's alarm flag is set exactly when its counter
equals it, and every group of the focus list is alarmed; while none is in force every record is zero. -/
def GroupsOk (s : State) : Prop :=
  match s.anchor with
  | some a =>
    1 ≤ a.alarmThreshold ∧
      (∀ g, (s.group g).counter ≤ a.alarmThreshold ∧ ((s.group g).alarm = true ↔ (s.group g).counter = a.alarmThreshold)) ∧
      (∀ f, f ∈ s.focus → (s.group f.group).alarm = true)
  | none => ∀ g, s.group g = GroupRecord.zero

/-- Every slot list holds at most 4 members: of a queued entry, of a test on a bus, and of a pending bus entry (R82, Table 0-3). -/
def SlotListsOk (s : State) : Prop :=
  (∀ e ∈ s.queue, e.slots.length ≤ 4) ∧ (∀ b e, (s.bus b).test = some e → e.slots.length ≤ 4) ∧
    ∀ b r slots, WriterEntry.bus b r slots ∈ s.writerQueue → slots.length ≤ 4

/-- The nine writer entries (R159, Table 0-3): four general ones, one for each bus and the status entry, which may be pending again behind
the one being written (R161). A bus entry is filled only while it is empty (R22): while a bus carries a test its entry is. -/
def WriterEntriesOk (s : State) : Prop :=
  s.writerQueue.countP WriterEntry.isGeneral ≤ 4 ∧ (∀ b, s.writerQueue.countP (WriterEntry.isBus b) ≤ 1) ∧
    (∀ b, (s.bus b).test ≠ none → s.busEntryEmpty b = true) ∧
    (if s.path.isWriter = true then s.writerQueue.tail else s.writerQueue).countP WriterEntry.isStatus ≤ 1

/-- The lines of a ticket rise and are all of its group (R133), so that there are at most 16 (Table 0-3). -/
def Ticket.LinesOk (k : Ticket) : Prop :=
  k.lines.Pairwise (· < ·) ∧ (∀ l ∈ k.lines, k.group = some (groupOf l)) ∧ k.lines.length ≤ 16

/-- The lines of every ticket: of the open one, of those in the outbox and of the one in the writer. -/
def TicketLinesOk (s : State) : Prop :=
  (∀ k, s.register = some k → k.LinesOk) ∧ (∀ q ∈ s.outbox, q.ticket.LinesOk) ∧
    ∀ i n d k, WriterEntry.ticket i n d k ∈ s.writerQueue → k.LinesOk

/-- The capacities of Table 0-3 and of R82, R114, R133, R137, R138, R150, R159, R163. Those of the head wait queue and of the ticket ring
are `WaitQueueOk` and `RingOk`, that of the sweep's share of the buses `SweepShareOk`. -/
def CapacityOk (s : State) : Prop :=
  s.queue.length ≤ 16 ∧ s.outbox.length ≤ 8 ∧ s.alarmList.length ≤ 8 ∧ s.focus.length ≤ 4 ∧ s.starvation ≤ 16 ∧
    s.droppedBefore ≤ 255 ∧ s.droppedTotal ≤ 65535 ∧ SlotListsOk s ∧ WriterEntriesOk s ∧ TicketLinesOk s

/-- R83: a result slot index appears at most once among all slot lists. -/
def SlotsOk (s : State) : Prop := s.inFlight.Nodup

/-- R169, R171, R102: the anchor in force has a generation 1–255 and passes the checks of a commit, and the sweep pointer lies below
its installed line count. -/
def AnchorOk (s : State) : Prop :=
  ∀ a, s.anchor = some a →
    1 ≤ a.generation ∧ a.generation ≤ 255 ∧ a.rangeOk = true ∧ a.layoutOk = true ∧ a.limitsOk = true ∧ s.pointer < a.installed

/-- R57: the head wait queue holds exactly the buses in WAIT_HEAD, each once, so at most four. -/
def WaitQueueOk (s : State) : Prop :=
  s.waitQueue.Nodup ∧ (∀ b, b ∈ s.waitQueue ↔ (s.bus b).state = .waitHead) ∧ s.waitQueue.length ≤ 4

/-- R58: a head in ATTACHED or ABORTING is joined to a bus in MEASURING and has a step in progress, every other head to none; no two
heads are joined to one bus, and every bus in MEASURING has a head joined to it. -/
def HeadsOk (s : State) : Prop :=
  (∀ h, (s.head h).state = .attached ∨ (s.head h).state = .aborting →
      (s.head h).step ≠ none ∧ ∃ b, (s.head h).bus = some b ∧ (s.bus b).state = .measuring) ∧
    (∀ h, (s.head h).state ≠ .attached → (s.head h).state ≠ .aborting → (s.head h).bus = none) ∧
    (∀ b, (s.bus b).state = .measuring → ∃ h, (s.head h).bus = some b) ∧
    (∀ b, ¬ ((s.head 0).bus = some b ∧ (s.head 1).bus = some b))

/-- R141: at most one ticket is in the writer, the ring holds at most its size, and less while a ticket is in the writer; so no ticket
the host has not consumed is overwritten. -/
def RingOk (s : State) : Prop :=
  ∀ a, s.anchor = some a →
    s.writerQueue.countP WriterEntry.isTicket ≤ 1 ∧ (s.produce - s.consume).toNat ≤ a.ticketSize ∧
      (s.ticketInWriter = true → (s.produce - s.consume).toNat < a.ticketSize)

/-- A bus carries a test exactly in CLAIMING, SEIZING, WAIT_HEAD and MEASURING (R20, R38), and every program names a step (R84,
R171). -/
def TestsOk (s : State) : Prop :=
  (∀ b, (s.bus b).test ≠ none ↔
      (s.bus b).state = .claiming ∨ (s.bus b).state = .seizing ∨ (s.bus b).state = .waitHead ∨ (s.bus b).state = .measuring) ∧
    (∀ b e, (s.bus b).test = some e → e.mask ≠ 0) ∧ (∀ e ∈ s.queue, e.mask ≠ 0)

/-- R91: the buses that carry SWEEP-class tests are no more than the sweep bus limit in force, and none while no anchor is. -/
def SweepShareOk (s : State) : Prop :=
  match s.anchor with
  | some a => s.sweepOnBuses ≤ a.sweepBusLimit
  | none => s.sweepOnBuses = 0

/-- What holds together about the work on buses and heads. -/
def WorkOk (s : State) : Prop := AnchorOk s ∧ TestsOk s ∧ WaitQueueOk s ∧ HeadsOk s ∧ SweepShareOk s

/-- R52, R164, R179: while no anchor is in force nothing is queued, pending or raised, no test is on a bus, and the one write that can
be pending or in progress is the outcome word. -/
def BeforeCommitOk (s : State) : Prop :=
  s.anchor = none →
    s.queue = [] ∧ s.fence = none ∧ s.register = none ∧ s.outbox = [] ∧ (∀ b, (s.bus b).test = none) ∧
      (∀ f, s.flag f = .clear) ∧ s.writerQueue.length ≤ 1 ∧ (∀ e ∈ s.writerQueue, ∃ c, e = .status (some c)) ∧
      (∀ r, s.path = .writer r → ∀ w ∈ r.words, w.1 = 0x278)

end Sys2Proof.Machine
end

