-- ==== Sys2Proof/Certificates/Slice0/Obligations.lean ====
section
/-!
DEFINITION. The statements for the provers. `OnlyChanges fs s t` is the frame: every part of the state not named in `fs` is as it
was. `.writerQueue` and `.readHold` stand in most frames because the end of an event may mark the status entry and may turn a result
hold into a pending-write hold (R161, R166); where `.news` is not named beside them, no other entry becomes pending or leaves. `.cancelSinceLook`,
the model's own (log 31), stands in the frames of commands that bring about an event at which R89 has the Test Queue look for a move;
`Looked` says which.
-/

open Sys2Proof Sys2Proof.Machine

/-! ## The queue of commands, and the part on an empty queue -/

/-- A step takes the command at the front of the queue and executes it on the state with the queue's rest. -/
def Obligations.StepTakesFront : Prop :=
  ∀ (c : Instr) (rest : List Instr) (s : State), s.pending = c :: rest → step s = exec c { s with pending := rest }

/-- The model's choice (log 1, log 2): on an empty queue the part takes one of its own steps that is due, and where none is due 1 ms
of the time base passes, in which every running timer counts down by 1 and nothing else changes. `Due` says which steps are due: a
timer at 0, a move of the selection (R89; log 31), a take (R176), a completed fence (R98), a grant (R58), an issue attempt (R106), a ticket move
(R141), the writer (R162, R163). That each is a step of its own is log 27, that a timer is due at 0 is log 4, the take of a waiting TEST is
log 16, and the count of a head's `startedAt` log 22. -/
def Obligations.EmptyQueueActs : Prop :=
  ∀ s : State, (∀ c, c ∈ dueSteps s ↔ Due s c) ∧ (s.pending = [] →
    (dueSteps s = [] →
      ∃ t, step s = .next t ∧
        (∀ b, t.bus b = { s.bus b with timer := (s.bus b).timer.map fun x => (x.1, x.2 - 1) }) ∧
        (∀ h, t.head h =
          { s.head h with
            timer := (s.head h).timer.map fun x => (x.1, x.2 - 1),
            startedAt := if (s.head h).timer.isSome = true then min 65535 ((s.head h).startedAt + 1)
              else (s.head h).startedAt }) ∧
        t.pacing = s.pacing - 1 ∧ t.coalescing = s.coalescing.map (fun n => n - 1) ∧
        (∀ n, s.readHold = some (.result n) → t.readHold = some (.result (n - 1))) ∧
        ((∀ n, s.readHold ≠ some (.result n)) → t.readHold = s.readHold) ∧
        OnlyChanges [.buses, .heads, .pacing, .coalescing, .readHold] s t) ∧
    (dueSteps s ≠ [] → ∃ c ∈ dueSteps s, ∃ n, step s = exec c { s with freeIndex := n }))

/-- The model's choice: every command answers a next state in every state, also where the rule of its row does not apply and the step
does not come about (log 3), and no command, a reset included, touches the queue of commands (log 11). -/
def Obligations.EveryCommandAnswers : Prop :=
  ∀ (c : Instr) (s : State), ∃ t, exec c s = .next t ∧ t.pending = s.pending

/-! ## Resets -/

/-- What a cold reset leaves, in the state the machine begins in. The model's choices in it: memory lists nothing (log 7), no command
waits (log 21), no TEST waits and no CANCEL since the last look is on record (log 12), no message of the links is known to have begun
transmission (log 10), and the OPENs stand in the order of the bus numbers (log 29). -/
def Obligations.ResetState : Prop :=
  (∀ l, State.reset.line l =
      { supervision := .unknown, stamp := none, loopMark := false, yieldMark := false, ticketMark := none, occupying := none,
        lastTest := none }) ∧
    (∀ b, State.reset.bus b =
      { state := .releasing, line := none, claim := 0, forced := false, hold := false, test := none, abort := none,
        command := some .opening, timer := some (.opening, 50), cause := none }) ∧
    State.reset.resyncPending = true ∧ State.reset.pointer = 0 ∧ State.reset.epoch = 0 ∧ State.reset.pending = [] ∧
    State.reset.mem = [] ∧ State.reset.exchangeOut = [.resync] ∧
    State.reset.matrixOut = [.opening 0, .opening 1, .opening 2, .opening 3] ∧
    State.reset.begun = { exchange := 0, matrix := 0, head := 0, resyncEnds := 0 } ∧ ResetAlike State.reset State.reset

/-- Every invariant stated below holds in the state the machine begins in. -/
def Obligations.ResetMeetsInvariants : Prop :=
  MemoryOk State.reset ∧ BusLineOk State.reset ∧ GroupsOk State.reset ∧ CapacityOk State.reset ∧ SlotsOk State.reset ∧
    RingOk State.reset ∧ WorkOk State.reset ∧ BeforeCommitOk State.reset

/-- COLD_RESET with no host access outstanding (with one: `ResetServesHost`): every unit's cold value, the RESYNC, the four OPENs and the
two CLEARs sent, and memory as R168 leaves it. Of the messages issued before, those that had begun transmission go out, at the least the
ones an answer or an earlier reset shows to have begun (R3, R30, R55; log 10); the words of a record cut short are log 9, the order of the OPENs log 29. -/
def Obligations.ColdResetClears : Prop :=
  ∀ s : State, s.hostAccesses = [] →
    ∃ t, exec .coldReset s = .next t ∧ ResetAlike s t ∧
      (∀ l, t.line l =
        { supervision := .unknown, stamp := none, loopMark := false, yieldMark := false, ticketMark := none, occupying := none,
          lastTest := none }) ∧
      (∀ b, t.bus b =
        { state := .releasing, line := none, claim := 0, forced := false, hold := false, test := none, abort := none,
          command := some .opening, timer := some (.opening, 50), cause := none }) ∧
      t.resyncPending = true ∧ t.pointer = 0 ∧ t.epoch = 0 ∧
      Kept s.begun.exchange s.exchangeOut [.resync] t.exchangeOut t.begun.exchange ∧
      Kept s.begun.matrix s.matrixOut [.opening 0, .opening 1, .opening 2, .opening 3] t.matrixOut t.begun.matrix ∧
      t.pending = s.pending ∧ t.hostAccesses = [] ∧ t.readData = s.readData

/-- WARM_RESET with no host access outstanding (with one: `ResetServesHost`; messages as for a cold reset, log 10; a record cut short is
log 9; the order of the OPENs, that of the bus numbers, log 29): line records kept but for the ticket marks; an IDLE bus stays IDLE, every other keeps its line and claim number, sends OPEN and
enters RELEASING; resync state, pointer and epoch kept. -/
def Obligations.WarmResetKeeps : Prop :=
  ∀ s : State, s.hostAccesses = [] →
    ∃ t, exec .warmReset s = .next t ∧ ResetAlike s t ∧
      (∀ l, t.line l = { s.line l with ticketMark := none }) ∧
      (∀ b, (s.bus b).state = .idle → t.bus b = s.bus b) ∧
      (∀ b, (s.bus b).state ≠ .idle → t.bus b =
        { state := .releasing, line := (s.bus b).line, claim := (s.bus b).claim, forced := false, hold := false, test := none,
          abort := none, command := some .opening, timer := some (.opening, 50), cause := none }) ∧
      t.resyncPending = s.resyncPending ∧ t.pointer = s.pointer ∧ t.epoch = s.epoch ∧
      Kept s.begun.exchange s.exchangeOut [] t.exchangeOut t.begun.exchange ∧
      Kept s.begun.matrix s.matrixOut ((allBuses.filter fun b => (s.bus b).state != .idle).map MatrixMessage.opening) t.matrixOut
        t.begun.matrix ∧
      t.pending = s.pending ∧ t.hostAccesses = [] ∧ t.readData = s.readData

/-- A reset that finds a host access (R168). A read, held or not, is performed against memory as the reset leaves it; a write that waited
is performed as one made right after the reset (log 19). A write being performed is completed to memory and handed to no owner. All else
is as the reset leaves it without the access. Lanes and low address bits are logs 18 and 8; with more accesses outstanding than the one
presented, log 5. -/
def Obligations.ResetServesHost : Prop :=
  ∀ (s : State) (c : Instr), c = .coldReset ∨ c = .warmReset →
    (∀ addr be, s.hostAccesses = [.read addr be] →
      ∃ t u, exec c { s with hostAccesses := [] } = .next u ∧ exec c s = .next t ∧ t.hostAccesses = [] ∧ t.readHold = none ∧
        t.path = .free ∧ t.readData = some { addr := addr, be := be, data := Memory.readLanes t.mem (wordAddr addr) be } ∧
        Returned addr be u t ∧ OnlyChanges [.readData] u t) ∧
    (∀ addr data be, s.hostAccesses = [.write addr data be] → s.path ≠ .host →
      ∃ u, exec c { s with hostAccesses := [] } = .next u ∧ exec c s = exec (.hostWrite addr data be) u) ∧
    (∀ addr data be, s.hostAccesses = [.write addr data be] → s.path = .host → MemoryOk s →
      ∃ t u, exec c { s with hostAccesses := [] } = .next u ∧ exec c s = .next t ∧ Stored (wordAddr addr) data be s t ∧
        t.hostAccesses = [] ∧ OnlyChanges [.mem] u t)

/-! ## The exchange link -/

/-- STATE sets the line's supervision state, with the stamp and the loop mark of Table 1-4, and nothing else. The frame leaves out `cancelSinceLook`, the model's own (log 31), of
which `SelectionOrder` speaks. -/
def Obligations.StateTaken : Prop :=
  ∀ (s : State) (l : LineNo) (v : Reported),
    ∃ t, exec (.state l (some v)) s = .next t ∧
      ((s.line l).supervision = v.supervision → t.line l = s.line l) ∧
      ((s.line l).supervision ≠ v.supervision → v = .offHook →
        t.line l = { s.line l with supervision := .offHook, stamp := some (s.epoch.setWidth 8), loopMark := false }) ∧
      ((s.line l).supervision ≠ v.supervision → v ≠ .offHook →
        t.line l = { s.line l with supervision := v.supervision, stamp := none, loopMark := false }) ∧
      OtherLines l s t ∧ OnlyChanges [.lines, .cancelSinceLook, .writerQueue, .readHold] s t

/-- Unmatched answers: a GRANT is answered at once with RELEASE carrying its line and claim number; a DENY and a RECALL are discarded,
and change no line record. The frames leave out `begun`, the model's own record of what is known to have been sent (log 10), of which
`MessagesDiscarded` speaks. -/
def Obligations.UnmatchedAnswers : Prop :=
  ∀ (s : State) (l : LineNo) (c : ClaimNo),
    (∀ b, ¬ ((s.bus b).state ≠ .idle ∧ (s.bus b).line = some l ∧ (s.bus b).claim = c)) →
    (∃ t, exec (.grant l c) s = .next t ∧ t.exchangeOut = s.exchangeOut ++ [.release l c] ∧
      OnlyChanges [.exchangeOut, .readHold, .begun] s t) ∧
    (∀ reason, ∃ t, exec (.deny l c (some reason)) s = .next t ∧ OnlyChanges [.readHold, .begun] s t) ∧
    (∃ t, exec (.recall l c) s = .next t ∧ OnlyChanges [.readHold, .begun] s t)

/-- Inbound messages that are discarded change nothing (R4, R25, R30, R31, R55, R56, Table 3-2). What a well-formed one, or an unmatched
answer, shows of the transmission of the message it answers is the model's own record (log 10). -/
def Obligations.MessagesDiscarded : Prop :=
  ∀ s : State,
    (∀ l, ∃ t, exec (.state l none) s = .next t ∧ OnlyChanges [] s t) ∧
    (∀ l c, ∃ t, exec (.deny l c none) s = .next t ∧ OnlyChanges [] s t) ∧
    (∀ l c, (∀ b, ¬ ((s.bus b).state ≠ .idle ∧ (s.bus b).line = some l ∧ (s.bus b).claim = c)) →
      (∃ t, exec (.grant l c) s = .next t ∧ AnswerHeard l c s t) ∧
      (∀ reason, ∃ t, exec (.deny l c (some reason)) s = .next t ∧ AnswerHeard l c s t) ∧
      ∃ t, exec (.recall l c) s = .next t ∧ AnswerHeard l c s t) ∧
    (BusLineOk s → ∀ b l, (s.bus b).state ≠ .idle → (s.bus b).state ≠ .claiming → (s.bus b).line = some l →
      (∃ t, exec (.grant l (s.bus b).claim) s = .next t ∧ AnswerHeard l (s.bus b).claim s t ∧ OnlyChanges [.readHold, .begun] s t) ∧
      ∀ r, ∃ t, exec (.deny l (s.bus b).claim (some r)) s = .next t ∧ AnswerHeard l (s.bus b).claim s t ∧
        OnlyChanges [.readHold, .begun] s t) ∧
    (s.resyncPending = false → ∃ t, exec .resyncEnd s = .next t ∧ ResyncEndHeard s t ∧ OnlyChanges [.begun] s t) ∧
    (∀ n, 4 ≤ n →
      (∃ t, exec (.settled n) s = .next t ∧ OnlyChanges [] s t) ∧ (∃ t, exec (.opened n) s = .next t ∧ OnlyChanges [] s t) ∧
      ∃ t, exec (.xpFault n) s = .next t ∧ OnlyChanges [] s t) ∧
    (∀ b : BusNo, ¬ ((s.bus b).state = .seizing ∧ (s.bus b).command = some .close) →
      ∃ t, exec (.settled b.val) s = .next t ∧ SettledHeard b s t ∧ OnlyChanges [.begun] s t) ∧
    (∀ b : BusNo, ¬ ((s.bus b).state = .releasing ∧ (s.bus b).command = some .opening) →
      ∃ t, exec (.opened b.val) s = .next t ∧ OpenedHeard b s t ∧ OnlyChanges [.begun] s t) ∧
    (∀ b : BusNo, (s.bus b).command = none →
      ∃ t, exec (.xpFault b.val) s = .next t ∧ XpFaultHeard b s t ∧ OnlyChanges [.begun] s t) ∧
    (∀ n, 2 ≤ n → ∀ st v,
      (∃ t, exec (.reading n st v) s = .next t ∧ OnlyChanges [] s t) ∧ (∃ t, exec (.aborted n) s = .next t ∧ OnlyChanges [] s t) ∧
      (∃ t, exec (.ready n) s = .next t ∧ OnlyChanges [] s t) ∧ ∃ t, exec (.headError n) s = .next t ∧ OnlyChanges [] s t) ∧
    (∀ (h : HeadNo) v, ∃ t, exec (.reading h.val none v) s = .next t ∧ OnlyChanges [] s t) ∧
    (∀ (h : HeadNo) st v, (s.head h).state ≠ .attached → (s.head h).state ≠ .aborting →
      ∃ t, exec (.reading h.val (some st) v) s = .next t ∧ ReadingHeard h s t ∧ OnlyChanges [.readHold, .begun] s t) ∧
    (∀ h : HeadNo, (s.head h).state ≠ .aborting →
      ∃ t, exec (.aborted h.val) s = .next t ∧ AbortedHeard h s t ∧ OnlyChanges [.begun] s t) ∧
    (∀ h : HeadNo, (s.head h).state ≠ .clearing →
      ∃ t, exec (.ready h.val) s = .next t ∧ ReadyHeard h s t ∧ OnlyChanges [.begun] s t) ∧
    (∀ h : HeadNo, (s.head h).state = .suspect → ∃ t, exec (.headError h.val) s = .next t ∧ OnlyChanges [] s t)

/-- A GRANT that matches a bus in CLAIMING: without an abort pending the bus sends CLOSE and enters SEIZING with the settle timer at
50 ms; with one the test ends with its outcome, RELEASE is sent and the bus enters IDLE (R26).
A DENY that matches a bus in CLAIMING: the test ends CLAIM_DENIED (or with the pending reason's outcome), the bus enters IDLE, the
line loses its occupying bus and takes the reason's effect, and no RELEASE is sent (R9, R10, R27). What the answer shows of the
transmission of its CLAIM is the model's own record (log 10), and so is that the Test Queue looks for a move where the bus enters IDLE
(R89; log 31). -/
def Obligations.ClaimAnswered : Prop :=
  (∀ (s : State) (b : BusNo) (l : LineNo), BusLineOk s → (s.bus b).state = .claiming → (s.bus b).line = some l →
    ((s.bus b).abort = none →
      ∃ t, exec (.grant l (s.bus b).claim) s = .next t ∧
        t.bus b = { s.bus b with state := .seizing, command := some .close, timer := some (.settle, 50) } ∧ OtherBuses b s t ∧
        t.matrixOut = s.matrixOut ++ [.close b l] ∧ AnswerHeard l (s.bus b).claim s t ∧
        OnlyChanges [.buses, .matrixOut, .writerQueue, .readHold, .begun] s t) ∧
    (∀ e o, (s.bus b).abort ≠ none → (s.bus b).test = some e → o = s.outcomeOn b .claimDenied →
      ∃ t, exec (.grant l (s.bus b).claim) s = .next t ∧
        t.newsEntries = s.newsEntries ++ s.finalEntries b o none StepRecords.notRun ∧
        t.bus b = Bus.idle ∧ OtherBuses b s t ∧ t.program b = none ∧ OtherPrograms b s t ∧
        t.line l = { s.line l with occupying := none } ∧ OtherLines l s t ∧ Looked True s t ∧
        t.exchangeOut = s.exchangeOut ++ [.release l (s.bus b).claim] ∧ AnswerHeard l (s.bus b).claim s t ∧
        OnlyChanges [.news, .writerQueue, .readHold, .buses, .programs, .lines, .exchangeOut, .cancelSinceLook, .begun] s t)) ∧
  (∀ (s : State) (b : BusNo) (l : LineNo) (e : TestEntry) (reason : DenyReason), BusLineOk s → (s.bus b).state = .claiming →
    (s.bus b).line = some l → (s.bus b).test = some e →
    ∃ t, exec (.deny l (s.bus b).claim (some reason)) s = .next t ∧
      t.newsEntries = s.newsEntries ++ s.finalEntries b (s.outcomeOn b .claimDenied) none StepRecords.notRun ∧
      t.bus b = Bus.idle ∧ OtherBuses b s t ∧ t.program b = none ∧ OtherPrograms b s t ∧
      (reason = .busy → t.line l = { s.line l with occupying := none, yieldMark := true }) ∧
      (reason = .unequipped → (s.line l).supervision = .offHook →
        t.line l = { s.line l with occupying := none, supervision := .unequipped, stamp := none, loopMark := false }) ∧
      (reason = .unequipped → (s.line l).supervision ≠ .offHook →
        t.line l = { s.line l with occupying := none, supervision := .unequipped }) ∧
      (reason = .blocked → t.line l = { s.line l with occupying := none }) ∧ OtherLines l s t ∧ AnswerHeard l (s.bus b).claim s t ∧
      Looked True s t ∧ OnlyChanges [.news, .writerQueue, .readHold, .buses, .programs, .lines, .cancelSinceLook, .begun] s t)

/-- CLAIM_TIMER_EXPIRY: the test ends CLAIM_TIMEOUT (or with the pending reason's outcome), the bus enters IDLE, no RELEASE is sent,
LINK_TIMEOUT is handed on with its context and LINK is raised (R28). The command acts whatever time remains on the timer (log 4); that the
Test Queue looks for a move is log 31 (R89). -/
def Obligations.ClaimTimerExpires : Prop :=
  ∀ (s : State) (b : BusNo) (l : LineNo) (e : TestEntry) (a : Anchor) (n : Nat), s.anchor = some a →
    (s.bus b).state = .claiming → (s.bus b).line = some l → (s.bus b).test = some e → (s.bus b).timer = some (.claim, n) →
    ∃ t, exec (.claimTimerExpiry b) s = .next t ∧
      t.newsEntries = s.newsEntries ++ s.finalEntries b (s.outcomeOn b .claimTimeout) none StepRecords.notRun ∧
      t.bus b = Bus.idle ∧ OtherBuses b s t ∧ t.program b = none ∧ OtherPrograms b s t ∧
      t.line l = { s.line l with occupying := none } ∧ OtherLines l s t ∧
      EventHandedOver .linkTimeout
        { bus := some b, head := none, step := none, busState := some .claiming, headState := none, line := some l,
          claim := (s.bus b).claim, elapsed := a.claimLimit } s t ∧
      FlagRaised .link s t ∧ OtherFlags [.link, .drop] s t ∧ Looked True s t ∧
      OnlyChanges [.news, .writerQueue, .readHold, .buses, .programs, .lines, .flags, .outbox, .ticketSeq, .droppedBefore,
        .droppedTotal, .cancelSinceLook] s t

/-- A matched RECALL (Table 2-3): discarded in CLAIMING and RELEASING and where an abort is pending; answered with KEEP in FAULTED and
for a forced claim; otherwise the claim is given back by the bus's state. What it shows of the transmission of the CLAIM is the model's
own record (log 10), and so is that the Test Queue looks for a move where a test of class SWEEP ends (R89; log 31). -/
def Obligations.RecallTaken : Prop :=
  ∀ (s : State) (b : BusNo) (l : LineNo), BusLineOk s → (s.bus b).line = some l →
    ((s.bus b).state = .claiming ∨ (s.bus b).state = .releasing ∨
        ((s.bus b).abort ≠ none ∧
          ((s.bus b).state = .seizing ∨ (s.bus b).state = .waitHead ∨ (s.bus b).state = .measuring ∨ (s.bus b).state = .held)) →
      ∃ t, exec (.recall l (s.bus b).claim) s = .next t ∧ AnswerHeard l (s.bus b).claim s t ∧
        OnlyChanges [.readHold, .begun] s t) ∧
    ((s.bus b).state = .faulted ∨
        ((s.bus b).abort = none ∧ (s.bus b).forced = true ∧
          ((s.bus b).state = .seizing ∨ (s.bus b).state = .waitHead ∨ (s.bus b).state = .measuring ∨ (s.bus b).state = .held)) →
      ∃ t, exec (.recall l (s.bus b).claim) s = .next t ∧ t.exchangeOut = s.exchangeOut ++ [.keep l (s.bus b).claim] ∧
        AnswerHeard l (s.bus b).claim s t ∧ OnlyChanges [.exchangeOut, .readHold, .begun] s t) ∧
    ((s.bus b).abort = none → (s.bus b).forced = false → (s.bus b).state = .seizing →
      ∃ t, exec (.recall l (s.bus b).claim) s = .next t ∧ t.bus b = { s.bus b with abort := some .recall } ∧ OtherBuses b s t ∧
        t.line l = { s.line l with yieldMark := true } ∧ OtherLines l s t ∧
        AnswerHeard l (s.bus b).claim s t ∧ OnlyChanges [.buses, .lines, .writerQueue, .readHold, .begun] s t) ∧
    (∀ e, (s.bus b).abort = none → (s.bus b).forced = false → (s.bus b).state = .waitHead → (s.bus b).test = some e →
      ∃ t, exec (.recall l (s.bus b).claim) s = .next t ∧
        t.newsEntries = s.newsEntries ++ s.finalEntries b .recalled none StepRecords.notRun ∧
        t.bus b = (s.bus b).sentOpen ∧ OtherBuses b s t ∧ t.program b = none ∧ OtherPrograms b s t ∧
        t.waitQueue = s.waitQueue.filter (fun x => x != b) ∧ t.matrixOut = s.matrixOut ++ [.opening b] ∧
        t.line l = { s.line l with yieldMark := true } ∧ OtherLines l s t ∧
        AnswerHeard l (s.bus b).claim s t ∧ Looked (e.cls = .sweep) s t ∧
        OnlyChanges [.news, .writerQueue, .readHold, .buses, .programs, .lines, .waitQueue, .matrixOut, .cancelSinceLook, .begun] s t) ∧
    (∀ h, (s.bus b).abort = none → (s.bus b).forced = false → (s.bus b).state = .measuring → HeadsOk s →
        (s.head h).bus = some b → (s.head h).state = .attached →
      ∃ t, exec (.recall l (s.bus b).claim) s = .next t ∧ t.bus b = { s.bus b with abort := some .recall } ∧ OtherBuses b s t ∧
        t.line l = { s.line l with yieldMark := true } ∧ OtherLines l s t ∧ t.headOut = s.headOut ++ [.abort h] ∧
        t.head h = { s.head h with state := .aborting, timer := some (.abort, 100), startedAt := 0 } ∧ OtherHeads h s t ∧
        AnswerHeard l (s.bus b).claim s t ∧ OnlyChanges [.buses, .lines, .heads, .headOut, .writerQueue, .readHold, .begun] s t) ∧
    ((s.bus b).abort = none → (s.bus b).forced = false → (s.bus b).state = .held →
      ∃ t, exec (.recall l (s.bus b).claim) s = .next t ∧
        t.bus b = { s.bus b with state := .releasing, command := some .opening, timer := some (.opening, 50), cause := none } ∧
        OtherBuses b s t ∧ t.matrixOut = s.matrixOut ++ [.opening b] ∧ FlagRaised .holdEnd s t ∧ OtherFlags [.holdEnd] s t ∧
        AnswerHeard l (s.bus b).claim s t ∧ OnlyChanges [.buses, .matrixOut, .flags, .writerQueue, .readHold, .begun] s t)

/-- RESYNC_END while resync is pending: every line still UNKNOWN becomes IDLE, resync ends, and LINK is raised if an anchor is in
force (R16). What it shows of the transmission of a RESYNC is the model's own record (log 10), and so is that the Test
Queue looks for a move (R89; log 31). -/
def Obligations.ResyncEnds : Prop :=
  ∀ s : State, s.resyncPending = true →
    ∃ t, exec .resyncEnd s = .next t ∧ t.resyncPending = false ∧
      (∀ l, (s.line l).supervision = .unknown → t.line l = { s.line l with supervision := .idle }) ∧
      (∀ l, (s.line l).supervision ≠ .unknown → t.line l = s.line l) ∧
      FlagRaised .link s t ∧ OtherFlags [.link] s t ∧ ResyncEndHeard s t ∧ Looked True s t ∧
      OnlyChanges [.lines, .resyncPending, .cancelSinceLook, .flags, .writerQueue, .readHold, .begun] s t

/-! ## The matrix link and the bus timers -/

/-- SETTLED for a bus in SEIZING with its CLOSE outstanding (R32, R57): without an abort pending it enters WAIT_HEAD, a DESK-class bus
behind the DESK-class buses and ahead of the others, a SWEEP-class bus last; with one the test ends and the bus releases.
OPENED for a bus in RELEASING with its OPEN outstanding: a bus that names a line sends RELEASE and the line loses its occupying
bus; a bus without one sends none; the bus enters IDLE (R34).
The model's choices in it: a pending abort is gone with the test it ended (log 14); what each reply shows of the transmission of the
command it answers is the model's own record (log 10), and so is the look for a move (R89; log 31). -/
def Obligations.MatrixAnswers : Prop :=
  (∀ (s : State) (b : BusNo) (e : TestEntry), (s.bus b).state = .seizing → (s.bus b).command = some .close →
    (s.bus b).test = some e →
    ((s.bus b).abort = none →
      ∃ t, exec (.settled b.val) s = .next t ∧
        t.bus b = { s.bus b with state := .waitHead, command := none, timer := none } ∧ OtherBuses b s t ∧
        (e.cls = .desk →
          t.waitQueue = s.waitQueue.filter s.busIsDesk ++ b :: s.waitQueue.filter (fun x => !s.busIsDesk x)) ∧
        (e.cls = .sweep → t.waitQueue = s.waitQueue ++ [b]) ∧
        SettledHeard b s t ∧ OnlyChanges [.buses, .waitQueue, .writerQueue, .readHold, .begun] s t) ∧
    ((s.bus b).abort ≠ none →
      ∃ t, exec (.settled b.val) s = .next t ∧
        t.newsEntries = s.newsEntries ++ s.finalEntries b (s.outcomeOn b .noHead) none StepRecords.notRun ∧
        t.bus b = (s.bus b).sentOpen ∧ OtherBuses b s t ∧ t.program b = none ∧ OtherPrograms b s t ∧
        t.matrixOut = s.matrixOut ++ [.opening b] ∧
        SettledHeard b s t ∧ Looked (e.cls = .sweep) s t ∧
        OnlyChanges [.news, .writerQueue, .readHold, .buses, .programs, .matrixOut, .cancelSinceLook, .begun] s t)) ∧
  (∀ (s : State) (b : BusNo), (s.bus b).state = .releasing → (s.bus b).command = some .opening →
    (∀ l, (s.bus b).line = some l →
      ∃ t, exec (.opened b.val) s = .next t ∧ t.bus b = Bus.idle ∧ OtherBuses b s t ∧
        t.exchangeOut = s.exchangeOut ++ [.release l (s.bus b).claim] ∧
        t.line l = { s.line l with occupying := none } ∧ OtherLines l s t ∧
        OpenedHeard b s t ∧ Looked True s t ∧
        OnlyChanges [.buses, .lines, .exchangeOut, .cancelSinceLook, .writerQueue, .readHold, .begun] s t) ∧
    ((s.bus b).line = none →
      ∃ t, exec (.opened b.val) s = .next t ∧ t.bus b = Bus.idle ∧ OtherBuses b s t ∧
        OpenedHeard b s t ∧ Looked True s t ∧ OnlyChanges [.buses, .cancelSinceLook, .writerQueue, .readHold, .begun] s t))

/-- A failed seizure: XP_FAULT for the CLOSE of a bus in SEIZING, or the expiry of its settle timer. The test ends XP_FAULT (or with
the pending reason's outcome), the bus releases, BUS is raised and an XP_FAULT event is handed on (R33).
A failed release: XP_FAULT for the OPEN of a bus in RELEASING, or the expiry of its open timer. The bus enters FAULTED with its
line, claim and a cause; BUS is raised and an XP_FAULT event handed on while an anchor is in force (R35).
The model's choices in it: the expiries act whatever time remains (log 4); the milliseconds elapsed are 50 less the time remaining, and
for the XP_FAULT of a seizure, which R33 says is less than 50, at most 49 (log 22); a pending abort is gone with the test it ended
(log 14); what an XP_FAULT shows of the transmission of the command it answers is the model's own record (log 10), and so is
the look for a move where a test of class SWEEP ends (R89; log 31). -/
def Obligations.MatrixCommandFails : Prop :=
  (∀ (s : State) (b : BusNo) (e : TestEntry) (c : Instr) (n ms : Nat), (s.bus b).state = .seizing →
    (s.bus b).command = some .close → (s.bus b).test = some e → (s.bus b).timer = some (.settle, n) →
    (c = .xpFault b.val ∧ ms = min 49 (50 - n)) ∨ (c = .settleTimerExpiry b ∧ ms = 50) →
    ∃ t, exec c s = .next t ∧
      t.newsEntries = s.newsEntries ++ s.finalEntries b (s.outcomeOn b .xpFault) none StepRecords.notRun ∧
      t.bus b = (s.bus b).sentOpen ∧ OtherBuses b s t ∧ t.program b = none ∧ OtherPrograms b s t ∧
      t.matrixOut = s.matrixOut ++ [.opening b] ∧
      EventHandedOver .xpFault
        { bus := some b, head := none, step := none, busState := some .seizing, headState := none, line := (s.bus b).line,
          claim := (s.bus b).claim, elapsed := ms } s t ∧
      FlagRaised .bus s t ∧ OtherFlags [.bus, .drop] s t ∧ (c = .xpFault b.val → XpFaultHeard b s t) ∧
      (c = .settleTimerExpiry b → t.begun = s.begun) ∧ Looked (e.cls = .sweep) s t ∧
      OnlyChanges [.news, .writerQueue, .readHold, .buses, .programs, .matrixOut, .flags, .outbox, .ticketSeq, .droppedBefore,
        .droppedTotal, .cancelSinceLook, .begun] s t) ∧
  (∀ (s : State) (b : BusNo) (c : Instr) (cause : FaultCause) (n ms : Nat), (s.bus b).state = .releasing →
    (s.bus b).command = some .opening → (s.bus b).timer = some (.opening, n) →
    (c = .xpFault b.val ∧ cause = .xpFault ∧ ms = 50 - n) ∨ (c = .openTimerExpiry b ∧ cause = .timeout ∧ ms = 50) →
    ∃ t, exec c s = .next t ∧
      t.bus b = { s.bus b with state := .faulted, command := none, timer := none, cause := some cause } ∧ OtherBuses b s t ∧
      EventHandedOver .xpFault
        { bus := some b, head := none, step := none, busState := some .releasing, headState := none, line := (s.bus b).line,
          claim := (s.bus b).claim, elapsed := ms } s t ∧
      FlagRaised .bus s t ∧ OtherFlags [.bus, .drop] s t ∧ (c = .xpFault b.val → XpFaultHeard b s t) ∧
      (c = .openTimerExpiry b → t.begun = s.begun) ∧
      OnlyChanges [.buses, .flags, .outbox, .ticketSeq, .droppedBefore, .droppedTotal, .writerQueue, .readHold, .begun] s t)

/-- HOLD_TIMER_EXPIRY: the bus sends OPEN, starts the open timer at 50 ms and enters RELEASING, and HOLD_END is raised. The command
acts whatever time remains on the timer (log 4). -/
def Obligations.HoldTimerExpires : Prop :=
  ∀ (s : State) (b : BusNo) (n : Nat), (s.bus b).state = .held → (s.bus b).timer = some (.hold, n) →
    ∃ t, exec (.holdTimerExpiry b) s = .next t ∧
      t.bus b = { s.bus b with state := .releasing, command := some .opening, timer := some (.opening, 50), cause := none } ∧
      OtherBuses b s t ∧ t.matrixOut = s.matrixOut ++ [.opening b] ∧ FlagRaised .holdEnd s t ∧ OtherFlags [.holdEnd] s t ∧
      OnlyChanges [.buses, .matrixOut, .flags, .writerQueue, .readHold] s t

/-! ## Selection -/

/-- What the selection moves (R22, R89, R90, R91), in both directions. It moves exactly what `Selects` says: only while buses are offered,
the oldest eligible DESK-class entry, or, where no DESK-class entry is eligible, the oldest SWEEP-class entry that does not wait, below the
sweep bus limit and with an IDLE bus. And it moves one whenever there is such an entry. The model's reading of R89 in it (log 31): a
SWEEP-class entry that a CANCEL has put there is not skipped until the next event at which the Test Queue looks for a move. A STATE that
changes a line's supervision state is such an event; the other statements say by `Looked` where their commands are. -/
def Obligations.SelectionOrder : Prop :=
  ∀ s : State,
    (∀ e m rest, s.selection = some (e, m, rest) ↔ Selects s e m rest) ∧
    (Offered s → (∃ e ∈ s.queue, ∃ m, DeskMoves s e m) → s.selection ≠ none) ∧
    (Offered s → (∀ e ∈ s.queue, ∀ m, ¬ DeskMoves s e m) → SweepConsidered s → (∃ e ∈ s.queue, ∃ m, SweepMoves s e m) →
      s.selection ≠ none) ∧
    ∀ l v, ∃ t, exec (.state l (some v)) s = .next t ∧ Looked ((s.line l).supervision ≠ v.supervision) s t

/-- ENTRY_TO_IDLE_BUS and ENTRY_TO_HELD_BUS: the entry leaves the queue and becomes the bus's test in progress. An IDLE bus sends
CLAIM with the counter's number and enters CLAIMING; a HELD bus enters WAIT_HEAD with its claim and its forced flag, behind the
DESK-class buses that wait (R21, R23, R47, R57, R92). The entry's leaving has a waiting TEST tested again (R86; what the
test asks of a slot rewritten to another kind is log 16). The line's occupying bus changing has the Test Queue look for a move (R89;
log 31). -/
def Obligations.EntryGivenToBus : Prop :=
  ∀ (s : State) (b : BusNo) (e : TestEntry) (rest : List TestEntry) (a : Anchor), s.anchor = some a →
    (s.selection = some (e, .toIdle b, rest) →
      ∃ t, exec .entryToIdleBus s = .next t ∧ t.queue = rest ∧
        t.bus b = { state := .claiming, line := some e.line, claim := s.claimCounter, forced := e.force, hold := e.hold,
                    test := some e, abort := none, command := none, timer := some (.claim, a.claimLimit), cause := none } ∧
        OtherBuses b s t ∧ t.line e.line = { s.line e.line with occupying := some b } ∧ OtherLines e.line s t ∧
        t.exchangeOut = s.exchangeOut ++ [.claim e.line s.claimCounter e.force] ∧ t.claimCounter = s.claimCounter + 1 ∧
        WaitTested True s t ∧ Looked True s t ∧
        OnlyChanges [.queue, .cancelSinceLook, .buses, .lines, .exchangeOut, .claimCounter, .testWaiting, .writerQueue, .readHold] s t) ∧
    (s.selection = some (e, .toHeld b, rest) → WaitQueueOk s →
      ∃ t, exec .entryToHeldBus s = .next t ∧ t.queue = rest ∧
        t.bus b = { s.bus b with state := .waitHead, test := some e, hold := e.hold, timer := none } ∧ OtherBuses b s t ∧
        t.waitQueue = s.waitQueue.filter s.busIsDesk ++ b :: s.waitQueue.filter (fun x => !s.busIsDesk x) ∧
        WaitTested True s t ∧ OnlyChanges [.queue, .buses, .waitQueue, .testWaiting, .writerQueue, .readHold] s t)

/-- SWEEP_ENTRY_SKIP: the SWEEP-class entry leaves the queue, which has a waiting TEST tested again, and its line is checked for a
standing loop (R86, R91, R112, R113). That the fresh issue attempt R113 has follow is a step of its own is log 27; what the
test asks of a waiting slot rewritten to another kind is log 16. -/
def Obligations.SweepEntrySkipped : Prop :=
  ∀ (s : State) (e : TestEntry) (rest : List TestEntry) (a : Anchor), s.anchor = some a →
    s.selection = some (e, .skip, rest) →
    ∃ t u, exec .sweepEntrySkip s = .next t ∧ LoopChecked a e.line s u ∧ t.queue = rest ∧ WaitTested True s t ∧
      OnlyChanges [.queue, .testWaiting, .writerQueue, .readHold] u t

/-! ## Heads and step programs -/

/-- The run order: position i of the full order holds (start + i) mod 8 or start XOR i; the kinds not in the mask are passed over; a
program runs as many steps as its mask has bits set. -/
def Obligations.RunOrderIs : Prop :=
  (∀ start i : StepKind,
    (runOrder 0xFF#8 start .sequential)[i.val]? = some (Fin.ofNat 8 ((start.val + i.val) % 8)) ∧
      (runOrder 0xFF#8 start .interleaved)[i.val]? = some (Fin.ofNat 8 (start.val ^^^ i.val))) ∧
  ∀ (mask : BitVec 8) (start : StepKind) (mode : OrderMode),
    runOrder mask start mode = (runOrder 0xFF#8 start mode).filter (fun k => mask.getLsbD k.val) ∧
      (runOrder mask start mode).length = (List.range 8).countP fun i => mask.getLsbD i

/-- HEAD_GRANT: the first bus of the head wait queue is granted the lowest-numbered FREE head; the bus enters MEASURING, its program
is built with every step NOT_RUN, and the first step is started with its watchdog (R58, R62, R63). -/
def Obligations.HeadGranted : Prop :=
  ∀ (s : State) (b : BusNo) (rest : List BusNo) (h : HeadNo) (e : TestEntry) (k : StepKind) (ks : List StepKind),
    s.waitQueue = b :: rest → (s.head h).state = .free → (∀ x, x < h → (s.head x).state ≠ .free) →
    (s.bus b).test = some e → runOrder e.mask e.start e.order = k :: ks →
    ∃ t, exec .headGrant s = .next t ∧ t.waitQueue = rest ∧
      t.bus b = { s.bus b with state := .measuring, timer := none } ∧ OtherBuses b s t ∧
      t.program b = some { order := k :: ks, position := 0, steps := StepRecords.notRun } ∧ OtherPrograms b s t ∧
      t.head h = { state := .attached, bus := some b, step := some k, timer := some (.watchdog, watchdogOf k), startedAt := 0 } ∧
      OtherHeads h s t ∧ t.headOut = s.headOut ++ [.start h b k] ∧
      OnlyChanges [.waitQueue, .buses, .programs, .heads, .headOut, .writerQueue, .readHold] s t

/-- A READING that is no hazard and does not end the program: the step is PASS or FAIL by its window, with its reading status and
comparison value, and the next step of the run order is started (R63, R64, R65). What it shows of the transmission of its START is the
model's own record (log 10). -/
def Obligations.ReadingAdvances : Prop :=
  ∀ (s : State) (h : HeadNo) (b : BusNo) (k k' : StepKind) (p : StepProgram) (a : Anchor) (st : ReadingStatus) (v c : BitVec 16)
      (x : StepStatus),
    s.anchor = some a → (s.head h).state = .attached → (s.head h).bus = some b → (s.head h).step = some k →
    s.program b = some p → p.order[p.position + 1]? = some k' → ComparisonIs k st v c → ¬ HazardFound k c a.hazardLimit →
    (InWindow k (entry a.limits k) c → x = .pass) → (¬ InWindow k (entry a.limits k) c → x = .fail) →
    ∃ t, exec (.reading h.val (some st) v) s = .next t ∧
      t.program b = some { order := p.order, position := p.position + 1,
                           steps := putEntry p.steps k { status := x, reading := some (st, c) } } ∧ OtherPrograms b s t ∧
      t.head h = { state := .attached, bus := some b, step := some k', timer := some (.watchdog, watchdogOf k'), startedAt := 0 } ∧
      OtherHeads h s t ∧ t.headOut = s.headOut ++ [.start h b k'] ∧ ReadingHeard h s t ∧
      OnlyChanges [.programs, .heads, .headOut, .writerQueue, .readHold, .begun] s t

/-- A READING that is no hazard and ends the program: the test ends COMPLETED with the verdict of its step records; with its hold flag
set the bus enters HELD with the hold limit (none running if it is 0), else it sends OPEN and enters RELEASING (R38, R39, R46, R68).
What the READING shows of the transmission of its START is the model's own record (log 10), and so is the look for a move where
the bus enters HELD or a test of class SWEEP ends (R89; log 31). -/
def Obligations.ReadingEndsProgram : Prop :=
  ∀ (s : State) (h : HeadNo) (b : BusNo) (k : StepKind) (p : StepProgram) (a : Anchor) (st : ReadingStatus) (v c : BitVec 16)
      (x : StepStatus) (e : TestEntry) (rs : StepRecords) (d : Verdict),
    s.anchor = some a → (s.head h).state = .attached → (s.head h).bus = some b → (s.head h).step = some k →
    s.program b = some p → p.order[p.position + 1]? = none → ComparisonIs k st v c → ¬ HazardFound k c a.hazardLimit →
    (InWindow k (entry a.limits k) c → x = .pass) → (¬ InWindow k (entry a.limits k) c → x = .fail) →
    (s.bus b).test = some e → (s.bus b).abort = none →
    rs = putEntry p.steps k { status := x, reading := some (st, c) } → VerdictIs rs d →
    ∃ t, exec (.reading h.val (some st) v) s = .next t ∧ t.program b = none ∧ OtherPrograms b s t ∧ OtherBuses b s t ∧
      ((s.bus b).hold = true →
        t.bus b = { s.bus b with state := .held, test := none,
                                 timer := if a.holdLimit = 0 then none else some (.hold, 1000 * a.holdLimit) } ∧
          t.matrixOut = s.matrixOut) ∧
      ((s.bus b).hold = false → t.bus b = (s.bus b).sentOpen ∧ t.matrixOut = s.matrixOut ++ [.opening b]) ∧
      ReadingHeard h s t ∧ Looked ((s.bus b).hold = true ∨ e.cls = .sweep) s t ∧
      OnlyChanges [.programs, .buses, .matrixOut, .cancelSinceLook, .writerQueue, .readHold, .begun] (s.testDone h b e d rs) t ∧
      t.newsEntries = (s.testDone h b e d rs).newsEntries

/-- A READING of an FV step that is a hazard stops the test at once: the step is FAIL, every other step already run but the FV ones is
SUSPECT with its reading, the test ends COMPLETED with HAZARD, HAZARD is raised, and the bus releases whatever its hold flag
(R39, R66, R67). What the READING shows of the transmission of its START is the model's own record (log 10), and so is the look for a move where a
test of class SWEEP ends (R89; log 31). -/
def Obligations.HazardStops : Prop :=
  ∀ (s : State) (h : HeadNo) (b : BusNo) (k : StepKind) (p : StepProgram) (a : Anchor) (st : ReadingStatus) (v c : BitVec 16)
      (e : TestEntry) (rs : StepRecords),
    s.anchor = some a → (s.head h).state = .attached → (s.head h).bus = some b → (s.head h).step = some k →
    s.program b = some p → ComparisonIs k st v c → HazardFound k c a.hazardLimit →
    (s.bus b).test = some e → (s.bus b).abort = none →
    entry rs k = { status := .fail, reading := some (st, c) } →
    (∀ j, j ≠ k → j.val < 2 ∨ (entry p.steps j).status = .notRun → entry rs j = entry p.steps j) →
    (∀ j, j ≠ k → 2 ≤ j.val → (entry p.steps j).status ≠ .notRun →
      entry rs j = { status := .suspect, reading := (entry p.steps j).reading }) →
    ∃ t, exec (.reading h.val (some st) v) s = .next t ∧ t.program b = none ∧ OtherPrograms b s t ∧
      t.bus b = (s.bus b).sentOpen ∧ OtherBuses b s t ∧ t.matrixOut = s.matrixOut ++ [.opening b] ∧
      FlagRaised .hazard (s.testDone h b e .hazard rs) t ∧ OtherFlags [.hazard] (s.testDone h b e .hazard rs) t ∧
      ReadingHeard h s t ∧ Looked (e.cls = .sweep) s t ∧
      OnlyChanges [.programs, .buses, .matrixOut, .cancelSinceLook, .flags, .writerQueue, .readHold, .begun] (s.testDone h b e .hazard rs) t ∧
      t.newsEntries = (s.testDone h b e .hazard rs).newsEntries

/-- An ABORTED or a READING of an ABORTING head ends the abort: the head is FREE, the aborted step has no reading, the test ends with
the pending reason's outcome and the bus releases (R74). READY and the expiry of the clear timer end a clear: the head is FREE or
SUSPECT, and HEAD is raised while an anchor is in force (R78).
The model's choices in it: the clear timer's expiry acts whatever time remains (log 4); the pending abort is gone with the test it ended
(log 14); the grant of a freed head is a step of its own (log 27); what a reply shows of the transmission of the command it answers is the
model's own record (log 10), and so is the look for a move where a test of class SWEEP ends or a head returns to service (R89; log 31). -/
def Obligations.AbortsAndClearsEnd : Prop :=
  (∀ (s : State) (h : HeadNo) (b : BusNo) (k : StepKind) (p : StepProgram) (e : TestEntry) (c : Instr),
    (s.head h).state = .aborting → (s.head h).bus = some b → (s.head h).step = some k → s.program b = some p →
    (s.bus b).test = some e → (s.bus b).abort ≠ none →
    c = .aborted h.val ∨ (∃ st v, c = .reading h.val (some st) v) →
    ∃ t, exec c s = .next t ∧ t.head h = Head.free ∧ OtherHeads h s t ∧
      t.newsEntries = s.newsEntries ++
        s.finalEntries b (s.outcomeOn b .cancelled) (some h) (putEntry p.steps k { status := .aborted, reading := none }) ∧
      t.bus b = (s.bus b).sentOpen ∧ OtherBuses b s t ∧ t.program b = none ∧ OtherPrograms b s t ∧
      t.matrixOut = s.matrixOut ++ [.opening b] ∧ (c = .aborted h.val → AbortedHeard h s t) ∧
      (c ≠ .aborted h.val → ReadingHeard h s t) ∧ Looked (e.cls = .sweep) s t ∧
      OnlyChanges [.heads, .news, .writerQueue, .readHold, .buses, .programs, .matrixOut, .cancelSinceLook, .begun] s t) ∧
  ∀ (s : State) (h : HeadNo), (s.head h).state = .clearing →
    (∃ t, exec (.ready h.val) s = .next t ∧ t.head h = Head.free ∧ OtherHeads h s t ∧ FlagRaised .head s t ∧
      OtherFlags [.head] s t ∧ ReadyHeard h s t ∧ Looked True s t ∧
      OnlyChanges [.heads, .flags, .cancelSinceLook, .writerQueue, .readHold, .begun] s t) ∧
    ∀ n, (s.head h).timer = some (.clear, n) →
      ∃ t, exec (.clearTimerExpiry h) s = .next t ∧ t.head h = Head.suspect ∧ OtherHeads h s t ∧ FlagRaised .head s t ∧
        OtherFlags [.head] s t ∧ OnlyChanges [.heads, .flags, .writerQueue, .readHold] s t

/-- A head fails while the other is in service, or while it clears (R69–R72, R75): the head is SUSPECT, its bus's test ends and the
bus releases; a head without a bus has no test; the event is handed on with its context and HEAD is raised.
The model's choices in it: the watchdog and abort timer expiries act whatever time remains (log 4); a pending abort is gone with the test
it ended (log 14); the milliseconds elapsed at a HEAD_ERROR are the head's `startedAt` count (log 22); the Test Queue looks for a move
where a test of class SWEEP ends (R89; log 31). -/
def Obligations.HeadFails : Prop :=
  (∀ (s : State) (h : HeadNo) (b : BusNo) (k : StepKind) (p : StepProgram) (e : TestEntry) (c : Instr) (kind : TicketKind)
      (o : TestOutcome) (ms : Nat),
    JoinedFailure s h c kind o ms → (s.head h).bus = some b → (s.head h).step = some k → s.program b = some p →
    (s.bus b).test = some e → (∃ x, x ≠ h ∧ (s.head x).state.inService = true) →
    ∃ t, exec c s = .next t ∧ t.head h = Head.suspect ∧ OtherHeads h s t ∧
      t.newsEntries = s.newsEntries ++
        s.finalEntries b (s.outcomeOn b o) (some h) (putEntry p.steps k { status := .aborted, reading := none }) ∧
      t.bus b = (s.bus b).sentOpen ∧ OtherBuses b s t ∧ t.program b = none ∧ OtherPrograms b s t ∧
      t.matrixOut = s.matrixOut ++ [.opening b] ∧ EventHandedOver kind (s.joinedContext h b k ms) s t ∧
      FlagRaised .head s t ∧ OtherFlags [.head, .drop] s t ∧ Looked (e.cls = .sweep) s t ∧
      OnlyChanges [.heads, .cancelSinceLook, .news, .writerQueue, .readHold, .buses, .programs, .matrixOut, .flags, .outbox, .ticketSeq,
        .droppedBefore, .droppedTotal] s t) ∧
  ∀ (s : State) (h : HeadNo) (ms : Nat), (s.head h).bus = none → (s.head h).step = none →
    ((s.head h).state = .free ∧ ms = 0 ∧ ∃ x, x ≠ h ∧ (s.head x).state.inService = true) ∨
      ((s.head h).state = .clearing ∧ ms = (s.head h).startedAt) →
    ∃ t, exec (.headError h.val) s = .next t ∧ t.head h = Head.suspect ∧ OtherHeads h s t ∧
      EventHandedOver .headError
        { bus := none, head := some h, step := none, busState := none, headState := some (s.head h).state, line := none, claim := 0,
          elapsed := ms } s t ∧
      FlagRaised .head s t ∧ OtherFlags [.head, .drop] s t ∧
      OnlyChanges [.heads, .flags, .outbox, .ticketSeq, .droppedBefore, .droppedTotal, .writerQueue, .readHold] s t

/-- The last head leaves service, joined to a bus or FREE (R45, R76): what `HeadFails` says of the head and its bus, and every waiting
bus's test ends NO_HEAD, every claiming or seizing bus without an abort pending takes NO_HEAD; no other bus is touched.
The model's choices in it: the waiting buses follow the failing head's bus, in their order (log 17); the expiries act whatever time
remains (log 4); a pending abort is gone with the test it ended (log 14); the milliseconds elapsed at a HEAD_ERROR are the head's
`startedAt` count (log 22); the Test Queue looks for a move where a test of class SWEEP ends (R89; log 31). -/
def Obligations.LastHeadLost : Prop :=
  ∀ (s : State) (h : HeadNo), WorkOk s → (∀ x, x ≠ h → (s.head x).state.inService = false) →
    (∀ (b : BusNo) (k : StepKind) (p : StepProgram) (c : Instr) (kind : TicketKind) (o : TestOutcome) (ms : Nat),
      JoinedFailure s h c kind o ms → (s.head h).bus = some b → (s.head h).step = some k → s.program b = some p →
      ∃ t, exec c s = .next t ∧ t.head h = Head.suspect ∧ OtherHeads h s t ∧
        LastHeadGone
          (s.finalEntries b (s.outcomeOn b o) (some h) (putEntry p.steps k { status := .aborted, reading := none }))
          [.opening b] s t ∧
        t.bus b = (s.bus b).sentOpen ∧ t.program b = none ∧
        (∀ x, x ≠ b → (s.bus x).state ≠ .waitHead → (s.bus x).state ≠ .claiming → (s.bus x).state ≠ .seizing →
          t.bus x = s.bus x ∧ t.program x = s.program x) ∧
        EventHandedOver kind (s.joinedContext h b k ms) s t ∧ FlagRaised .head s t ∧ OtherFlags [.head, .drop] s t ∧
        Looked (∃ x e, (x = b ∨ (s.bus x).state = .waitHead) ∧ (s.bus x).test = some e ∧ e.cls = .sweep) s t ∧
        OnlyChanges [.heads, .cancelSinceLook, .waitQueue, .news, .writerQueue, .readHold, .buses, .programs, .matrixOut, .flags, .outbox, .ticketSeq,
          .droppedBefore, .droppedTotal] s t) ∧
    ((s.head h).state = .free → (s.head h).step = none →
      ∃ t, exec (.headError h.val) s = .next t ∧ t.head h = Head.suspect ∧ OtherHeads h s t ∧ LastHeadGone [] [] s t ∧
        (∀ x, (s.bus x).state ≠ .waitHead → (s.bus x).state ≠ .claiming → (s.bus x).state ≠ .seizing →
          t.bus x = s.bus x ∧ t.program x = s.program x) ∧
        EventHandedOver .headError
          { bus := none, head := some h, step := none, busState := none, headState := some .free, line := none, claim := 0,
            elapsed := 0 } s t ∧
        FlagRaised .head s t ∧ OtherFlags [.head, .drop] s t ∧
        Looked (∃ x e, (s.bus x).state = .waitHead ∧ (s.bus x).test = some e ∧ e.cls = .sweep) s t ∧
        OnlyChanges [.heads, .cancelSinceLook, .waitQueue, .news, .writerQueue, .readHold, .buses, .programs, .matrixOut, .flags, .outbox, .ticketSeq,
          .droppedBefore, .droppedTotal] s t)

/-! ## Requests -/

/-- A slot that is taken and whose request fails a check is disposed with the first failing check's disposition and nothing else
happens, for every request kind; a kind that is none of the nine and an action that is none of the four are refused so (R18, R36,
R49, R77, R84, R93, R118, R152, R176, R177). A waiting slot rewritten to another kind is taken without the queue condition (log 16). -/
def Obligations.RequestsRefused : Prop :=
  ∀ (s : State) (a : Anchor) (r : Request) (c : Instr) (d : Disposition), BusLineOk s → Takes s a r →
    refusalOf s a r = some (c, d) →
    ∃ t, exec c s = .next t ∧ Disposed a [] d s t ∧
      OnlyChanges [.news, .writerQueue, .shadows, .takeIndex, .testWaiting, .readHold] s t

/-- A TEST that passes its checks is merged into the oldest entry that takes it, else added at the end of the queue, else left waiting
for room with its slot posted and the take index on it (R80, R85, R86, R88). A merge and a new entry have the Test Queue look
for a move (R89; log 31). -/
def Obligations.TestTaken : Prop :=
  ∀ (s : State) (a : Anchor) (r : Request), Takes s a r → r.kind = some .test → refusalOf s a r = none →
    (∀ before e after, s.queue = before ++ e :: after → (∀ x ∈ before, ¬ CanMerge r x) → CanMerge r e →
      ∃ t, exec .test s = .next t ∧
        t.queue = before ++ { e with mask := e.mask ||| r.mask, cls := .desk,
                                     slots := e.slots ++ [{ slot := r.slot, tag := r.tag, merged := true }] } :: after ∧
        Disposed a [.inProgress r.slot (s.inProgressOf r true)] .merged s t ∧
        Looked True s t ∧ OnlyChanges [.queue, .cancelSinceLook, .news, .writerQueue, .shadows, .takeIndex, .testWaiting, .readHold] s t) ∧
    ((∀ x ∈ s.queue, ¬ CanMerge r x) → s.queue.length < 16 →
      ∃ t, exec .test s = .next t ∧
        t.queue = s.queue ++ [{ line := r.line, cls := .desk, origin := .desk, mask := r.mask, start := r.start, order := r.order,
                                force := r.force, hold := r.hold,
                                slots := [{ slot := r.slot, tag := r.tag, merged := false }] }] ∧
        Disposed a [.inProgress r.slot (s.inProgressOf r false)] .accepted s t ∧
        Looked True s t ∧ OnlyChanges [.queue, .cancelSinceLook, .news, .writerQueue, .shadows, .takeIndex, .testWaiting, .readHold] s t) ∧
    ((∀ x ∈ s.queue, ¬ CanMerge r x) → 16 ≤ s.queue.length →
      ∃ t, exec .test s = .next t ∧ t.testWaiting = .waiting ∧ OnlyChanges [.testWaiting, .readHold] s t)

/-- A CANCEL of a slot in a queued entry: the slot is withdrawn and its CANCELLED record queued ahead of the DONE; an entry left with
no slot leaves the queue if of DESK origin and returns to class SWEEP if of SWEEP origin (R81, R94, R96). A CANCEL is none of R89's events: unless the
Test Queue has a move at hand, it looks for none until the next (the model's reading, log 31). -/
def Obligations.CancelInQueue : Prop :=
  ∀ (s : State) (a : Anchor) (r : Request) (before after : List TestEntry) (e : TestEntry) (m : SlotMember)
      (left : List SlotMember),
    SlotsOk s → Takes s a r → r.kind = some .cancel → r.slot < a.resultCount → s.queue = before ++ e :: after → m ∈ e.slots →
    m.slot = r.slot → left = e.slots.filter (fun x => x.slot != r.slot) →
    ∃ t, exec .cancel s = .next t ∧
      (left ≠ [] → t.queue = before ++ { e with slots := left } :: after) ∧
      (left = [] → e.origin = .desk → t.queue = before ++ after) ∧
      (left = [] → e.origin = .sweep → t.queue = before ++ { e with cls := .sweep, slots := [] } :: after) ∧
      Disposed a [.cancelled r.slot (s.cancelledOf m e.line none)] .done s t ∧
      ((∃ x y rest, Selects s x y rest) → t.cancelSinceLook = s.cancelSinceLook) ∧
      ((∀ x y rest, ¬ Selects s x y rest) → t.cancelSinceLook = true) ∧
      OnlyChanges [.queue, .cancelSinceLook, .news, .writerQueue, .shadows, .takeIndex, .testWaiting, .readHold] s t

/-- A CANCEL of a slot in a test on a bus (R44, R95, R96): with another slot left, or of SWEEP origin, the slot is withdrawn and the
test goes on; the last slot of a DESK-origin test orders the test to end by its bus's state. A test ended at once queues its final
record behind the DONE (log 25), and the Test Queue looks for a move if it was of class SWEEP (R89; log 31). -/
def Obligations.CancelOnBus : Prop :=
  ∀ (s : State) (a : Anchor) (r : Request) (b : BusNo) (e : TestEntry) (m : SlotMember) (left : List SlotMember),
    SlotsOk s → Takes s a r → r.kind = some .cancel → r.slot < a.resultCount → (s.bus b).test = some e → m ∈ e.slots →
    m.slot = r.slot → left = e.slots.filter (fun x => x.slot != r.slot) →
    (left ≠ [] ∨ e.origin = .sweep →
      ∃ t, exec .cancel s = .next t ∧ t.bus b = { s.bus b with test := some { e with slots := left } } ∧ OtherBuses b s t ∧
        Disposed a [.cancelled r.slot (s.cancelledOf m e.line (some b))] .done s t ∧
        OnlyChanges [.buses, .news, .writerQueue, .shadows, .takeIndex, .testWaiting, .readHold] s t) ∧
    (left = [] → e.origin = .desk →
      ((s.bus b).abort ≠ none →
        ∃ t, exec .cancel s = .next t ∧ Disposed a [] .done s t ∧
          OnlyChanges [.news, .writerQueue, .shadows, .takeIndex, .testWaiting, .readHold] s t) ∧
      ((s.bus b).abort = none → (s.bus b).state = .claiming ∨ (s.bus b).state = .seizing →
        ∃ t, exec .cancel s = .next t ∧ t.bus b = { s.bus b with abort := some .cancel } ∧ OtherBuses b s t ∧
          Disposed a [] .done s t ∧
          OnlyChanges [.buses, .news, .writerQueue, .shadows, .takeIndex, .testWaiting, .readHold] s t) ∧
      ((s.bus b).abort = none → (s.bus b).state = .waitHead →
        ∃ t, exec .cancel s = .next t ∧ t.bus b = (s.bus b).sentOpen ∧ OtherBuses b s t ∧ t.program b = none ∧
          OtherPrograms b s t ∧ t.waitQueue = s.waitQueue.filter (fun x => x != b) ∧
          t.matrixOut = s.matrixOut ++ [.opening b] ∧
          t.newsEntries = s.newsEntries ++ .disposition s.takeIndex .done false ::
            s.finalEntries b .cancelled none StepRecords.notRun ∧
          SlotPassed a s t ∧ Looked (e.cls = .sweep) s t ∧
          OnlyChanges [.buses, .programs, .cancelSinceLook, .waitQueue, .matrixOut, .news, .writerQueue, .shadows, .takeIndex, .testWaiting,
            .readHold] s t) ∧
      (∀ h, (s.bus b).abort = none → (s.bus b).state = .measuring → HeadsOk s → (s.head h).bus = some b →
          (s.head h).state = .attached →
        ∃ t, exec .cancel s = .next t ∧ t.bus b = { s.bus b with abort := some .cancel } ∧ OtherBuses b s t ∧
          t.head h = { s.head h with state := .aborting, timer := some (.abort, 100), startedAt := 0 } ∧ OtherHeads h s t ∧
          t.headOut = s.headOut ++ [.abort h] ∧ Disposed a [] .done s t ∧
          OnlyChanges [.buses, .heads, .headOut, .news, .writerQueue, .shadows, .takeIndex, .testWaiting, .readHold] s t))

/-- A FENCE is taken: it is pending with its slot's index, the slot is passed without a disposition and the coalescing register closes
(R97). A pending fence completes once no slot is in flight, no final record is pending and a general entry is empty: its DONE is queued
and taking resumes (R98). That the completion is a step of its own, also where a fence is taken with nothing in flight, is log 27. -/
def Obligations.FenceTakenAndCompleted : Prop :=
  (∀ (s : State) (a : Anchor) (r : Request), Takes s a r → r.kind = some .fence →
    ∃ t u, exec .fence s = .next t ∧ RegisterClosed s u ∧ t.fence = some s.takeIndex ∧ t.newsEntries = s.newsEntries ∧
      SlotPassed a s t ∧
      OnlyChanges [.fence, .shadows, .takeIndex, .testWaiting, .writerQueue, .readHold] u t) ∧
  ∀ (s : State) (i : Fin 64), s.fence = some i → s.inFlight = [] → (∀ e ∈ s.writerQueue, e.isFinal = false) →
    s.writerQueue.countP WriterEntry.isGeneral ≤ 3 →
    ∃ t, exec .fenceComplete s = .next t ∧ t.fence = none ∧ t.newsEntries = s.newsEntries ++ [.disposition i .done true] ∧
      OnlyChanges [.fence, .news, .writerQueue, .readHold] s t

/-- RELEASE_HOLD releases a HELD bus, and clears the hold flag of a bus on its way through a test (R49). BUS_RESET sends OPEN for a
FAULTED bus (R36). HEAD_RESET sends CLEAR to a SUSPECT head (R77). -/
def Obligations.ReleaseAndResetRequests : Prop :=
  ∀ (s : State) (a : Anchor) (r : Request), Takes s a r →
    (∀ b, BusLineOk s → r.kind = some .releaseHold → r.targetInstalled a = true → (s.bus b).line = some r.line →
      ((s.bus b).state = .held →
        ∃ t, exec .releaseHold s = .next t ∧
          t.bus b = { s.bus b with state := .releasing, command := some .opening, timer := some (.opening, 50), cause := none } ∧
          OtherBuses b s t ∧ t.matrixOut = s.matrixOut ++ [.opening b] ∧ Disposed a [] .done s t ∧
          OnlyChanges [.buses, .matrixOut, .news, .writerQueue, .shadows, .takeIndex, .testWaiting, .readHold] s t) ∧
      ((s.bus b).hold = true →
        (s.bus b).state = .claiming ∨ (s.bus b).state = .seizing ∨ (s.bus b).state = .waitHead ∨ (s.bus b).state = .measuring →
        ∃ t, exec .releaseHold s = .next t ∧ t.bus b = { s.bus b with hold := false } ∧ OtherBuses b s t ∧
          Disposed a [] .done s t ∧
          OnlyChanges [.buses, .news, .writerQueue, .shadows, .takeIndex, .testWaiting, .readHold] s t)) ∧
    (∀ b : BusNo, r.kind = some .busReset → r.target = b.val → (s.bus b).state = .faulted →
      ∃ t, exec .busReset s = .next t ∧
        t.bus b = { s.bus b with state := .releasing, command := some .opening, timer := some (.opening, 50), cause := none } ∧
        OtherBuses b s t ∧ t.matrixOut = s.matrixOut ++ [.opening b] ∧ Disposed a [] .done s t ∧
        OnlyChanges [.buses, .matrixOut, .news, .writerQueue, .shadows, .takeIndex, .testWaiting, .readHold] s t) ∧
    (∀ h : HeadNo, r.kind = some .headReset → r.target = h.val → (s.head h).state = .suspect →
      ∃ t, exec .headReset s = .next t ∧
        t.head h = { state := .clearing, bus := none, step := none, timer := some (.clear, 200), startedAt := 0 } ∧
        OtherHeads h s t ∧ t.headOut = s.headOut ++ [.clear h] ∧ Disposed a [] .accepted s t ∧
        OnlyChanges [.heads, .headOut, .news, .writerQueue, .shadows, .takeIndex, .testWaiting, .readHold] s t)

/-- START and STOP set the sweep state alone; RESTART clears every yield mark, sets the pointer to 0 and sets the sweep RUNNING (R119,
R120). That the issue attempt a START or a RESTART has follow is a step of its own is log 27. -/
def Obligations.SweepControlled : Prop :=
  ∀ (s : State) (a : Anchor) (r : Request), Takes s a r → r.kind = some .sweepControl →
    (r.action = some .start →
      ∃ t, exec .sweepStart s = .next t ∧ t.sweep = .running ∧ Disposed a [] .done s t ∧
        OnlyChanges [.sweep, .news, .writerQueue, .shadows, .takeIndex, .testWaiting, .readHold] s t) ∧
    (r.action = some .stop →
      ∃ t, exec .sweepStop s = .next t ∧ t.sweep = .stopped ∧ Disposed a [] .done s t ∧
        OnlyChanges [.sweep, .news, .writerQueue, .shadows, .takeIndex, .testWaiting, .readHold] s t) ∧
    (r.action = some .restart →
      ∃ t, exec .sweepRestart s = .next t ∧ t.sweep = .running ∧ t.pointer = 0 ∧
        (∀ l, t.line l = { s.line l with yieldMark := false }) ∧ Disposed a [] .done s t ∧
        OnlyChanges [.sweep, .pointer, .lines, .news, .writerQueue, .shadows, .takeIndex, .testWaiting, .readHold] s t)

/-- SEEK to an installed line sets the pointer to it and leaves the sweep state, the epoch, the focus list and the pacing timer as they
are. -/
def Obligations.SweepSeeks : Prop :=
  ∀ (s : State) (a : Anchor) (r : Request), Takes s a r → r.kind = some .sweepControl → r.action = some .seek →
    r.targetInstalled a = true →
    ∃ t, exec .sweepSeek s = .next t ∧ t.pointer = r.target % 4096 ∧ t.sweep = s.sweep ∧ t.epoch = s.epoch ∧ t.focus = s.focus ∧
      t.pacing = s.pacing ∧ Disposed a [] .done s t ∧
      OnlyChanges [.pointer, .news, .writerQueue, .shadows, .takeIndex, .testWaiting, .readHold] s t

/-- CLEAR_GROUP of an installed group: its counter is 0 and its alarm flag clear, it leaves the alarm list (which frees a place and
clears the overflow indication) and the focus list (R150, R152, R153). -/
def Obligations.GroupCleared : Prop :=
  ∀ (s : State) (a : Anchor) (r : Request) (g : GroupNo), Takes s a r → r.kind = some .clearGroup → r.target = g.val →
    g.val * 16 < a.installed →
    ∃ t, exec .clearGroup s = .next t ∧ t.group g = { counter := 0, alarm := false } ∧ (∀ x, x ≠ g → t.group x = s.group x) ∧
      t.alarmList = s.alarmList.filter (fun x => x != g) ∧
      t.alarmOverflow = (if g ∈ s.alarmList then false else s.alarmOverflow) ∧
      t.focus = s.focus.filter (fun f => f.group != g) ∧ Disposed a [] .done s t ∧
      OnlyChanges [.groups, .alarmList, .alarmOverflow, .focus, .news, .writerQueue, .shadows, .takeIndex, .testWaiting,
        .readHold] s t

/-- LINE_QUERY that passes its checks: a QUERY record with the whole line record as it stands is queued ahead of the DONE, and its slot
is not in flight for it (R19). -/
def Obligations.LineQueried : Prop :=
  ∀ (s : State) (a : Anchor) (r : Request), Takes s a r → r.kind = some .lineQuery → refusalOf s a r = none →
    ∃ t, exec .lineQuery s = .next t ∧
      Disposed a [.query r.slot { tag := r.tag, epoch := s.epoch, line := r.line, snapshot := s.line r.line }] .done s t ∧
      t.inFlight = s.inFlight ∧ OnlyChanges [.news, .writerQueue, .shadows, .takeIndex, .testWaiting, .readHold] s t

/-! ## The sweep, tickets and timers -/

/-- ISSUE_ATTEMPT under the conditions of an attempt: the candidates are taken as `Attempt` says until one is visited or a pass ends,
and the pacing timer restarts at the sweep interval (R106–R111, R115–R117). A visit may take the place that a waiting TEST was to take
(R87; log 16), and has the Test Queue look for a move (R89; log 31). That the attempt is a step of its own is log 27. -/
def Obligations.IssueAttemptRuns : Prop :=
  ∀ (s : State) (a : Anchor), MayAttempt s a → AnchorOk s → s.focus.length ≤ 4 →
    ∃ t u, exec .issueAttempt s = .next t ∧ Attempt a s u ∧ t.pacing = a.sweepInterval ∧
      OnlyChanges [.pacing, .writerQueue, .readHold] u t

/-- TICKET_MOVE: the oldest outbox ticket moves into a general writer entry for the ring slot of the produce index, with the
dropped-before count, which becomes 0 (R140, R141).
COALESCING_TIMER_EXPIRY closes the register into the outbox (R135). PACING_TIMER_EXPIRY leaves the pacing timer expired (R107).
Both act whatever time remains (log 4); the issue attempt that R106 has the pacing timer's expiry make is a step of its own (log 27). -/
def Obligations.TicketsMoveAndTimersExpire : Prop :=
  (∀ (s : State) (a : Anchor) (q : QueuedTicket) (qs : List QueuedTicket), s.anchor = some a → s.outbox = q :: qs →
    (∀ e ∈ s.writerQueue, e.isTicket = false) → (s.produce - s.consume).toNat < a.ticketSize →
    s.writerQueue.countP WriterEntry.isGeneral ≤ 1 →
    ∃ t, exec .ticketMove s = .next t ∧ t.outbox = qs ∧ t.droppedBefore = 0 ∧
      t.newsEntries = s.newsEntries ++ [.ticket s.produce q.sequence s.droppedBefore q.ticket] ∧
      OnlyChanges [.outbox, .droppedBefore, .news, .writerQueue, .readHold] s t) ∧
  ((∀ (s : State) (n : Nat), s.coalescing = some n →
    ∃ t u, exec .coalescingTimerExpiry s = .next t ∧ RegisterClosed s u ∧ OnlyChanges [.writerQueue, .readHold] u t ∧
      t.newsEntries = s.newsEntries) ∧
  ∀ s : State, ∃ t, exec .pacingTimerExpiry s = .next t ∧ t.pacing = 0 ∧ OnlyChanges [.pacing, .readHold] s t)

/-- What the Ticket Unit does with a verdict (R125–R128, R131–R134, R137–R139, R148–R150). That the mark is set before the ticket is
routed, so that a drop of the ticket which the new one closes may clear it (R139), is the model's choice (log 28). -/
def Obligations.VerdictTicketed : Prop :=
  ∀ (s : State) (a : Anchor) (l : LineNo) (cls : TestClass) (origin : TicketOrigin) (rs : StepRecords), s.anchor = some a →
    (cls = .desk ∧ origin = .desk) ∨ (cls = .sweep ∧ origin = .sweep) →
    PassTicketed a l origin rs s (takeVerdict l .pass cls rs s) ∧
    (∀ k, FaultTicketed a l k origin rs s (takeVerdict l (.fail k) cls rs s)) ∧
    FaultTicketed a l .hazard origin rs s (takeVerdict l .hazard cls rs s)

/-! ## The memory path -/

/-- A host write that may take the path is in memory when its access ends, and the starvation count follows (R156, R158, R163); one
made while the writer goes first waits, and one made while another is outstanding follows it (log 5). What the count does when an
entry is pending is log 6. Lane i of the byte enables is the byte at the word's address plus i (log 18), the low two bits of an address
are ignored (log 8), and the six rows that write are one host write (log 23). -/
def Obligations.HostWriteStored : Prop :=
  ∀ (s : State) (c : Instr) (addr : HostAddr) (data : Word) (be : BitVec 4), writeOf c = some (addr, data, be) →
    (PathOpen s → MemoryOk s →
      ∃ t, exec c s = .next t ∧ Stored (wordAddr addr) data be s t ∧ t.path = .free ∧ t.hostAccesses = [] ∧ t.readHold = none ∧
        t.starvation = (if s.writerQueue = [] then s.starvation else min 16 (s.starvation + 1)) ∧ t.readData = s.readData) ∧
    (s.hostAccesses = [] → WriterFirst s →
      ∃ t, exec c s = .next t ∧ t.hostAccesses = [.write addr data be] ∧ OnlyChanges [.hostAccesses] s t) ∧
    (s.hostAccesses ≠ [] →
      ∃ t, exec c s = .next t ∧ t.hostAccesses = s.hostAccesses ++ [.write addr data be] ∧ OnlyChanges [.hostAccesses] s t)

/-- What a performed host write does beside memory, by the window it falls in (R143, R157, R158, R169, R170, R175, R181): the anchor
block's staging copy, a request slot's shadow and posted indication, the acknowledge word, the consume index word; a partial write of
the last two and a write anywhere else does nothing more. A post word written POSTED has a waiting TEST tested again; another write of the
slot does not (R86; log 16). The lanes of a partial write are log 18, the low two bits of an address log 8, and the rows POST_WORD_POSTED,
POST_WORD_RETURNED, ACKNOWLEDGEMENT and CONSUME_INDEX_WRITE as full-word host writes log 23. -/
def Obligations.HostWriteHandedOver : Prop :=
  ∀ (s : State) (c : Instr) (addr : HostAddr) (data : Word) (be : BitVec 4) (w : Nat), writeOf c = some (addr, data, be) →
    wordAddr addr = w → PathOpen s → AnchorOk s →
    (∀ i : Fin 32, w = 0x200 + 4 * i.val →
      (i = 31 → be = 0xF#4 → data.toNat % 256 = 0 ∨ ∃ a, s.anchor = some a ∧ a.generation = data.toNat % 256) →
      ∃ t, exec c s = .next t ∧ Merged (entry s.staging i) data be (entry t.staging i) ∧
        (∀ j, j ≠ i → entry t.staging j = entry s.staging j) ∧ OnlyChanges (.staging :: accessFields) s t) ∧
    ((w < 0x200 ∨ 0x280 ≤ w) → s.anchor = none → ∃ t, exec c s = .next t ∧ OnlyChanges accessFields s t) ∧
    ∀ a, s.anchor = some a →
      (∀ (i : Fin 64) (j : Fin 4), i.val < a.ringSize → w = a.ringBase + 16 * i.val + 4 * j.val →
        ∃ t, exec c s = .next t ∧
          Merged (entry (s.shadow i).words j) data be (entry (t.shadow i).words j) ∧
          (∀ x, x ≠ j → entry (t.shadow i).words x = entry (s.shadow i).words x) ∧
          (j = 3 → be = 0xF#4 → data.toNat % 4 = 1 → (t.shadow i).posted = true) ∧
          (j = 3 → be = 0xF#4 → data.toNat % 4 = 2 → (t.shadow i).posted = false) ∧
          (j ≠ 3 ∨ be ≠ 0xF#4 ∨ (data.toNat % 4 ≠ 1 ∧ data.toNat % 4 ≠ 2) → (t.shadow i).posted = (s.shadow i).posted) ∧
          (∀ x, x ≠ i → t.shadow x = s.shadow x) ∧
          WaitTested (i = s.takeIndex ∧ j = 3 ∧ be = 0xF#4 ∧ data.toNat % 4 = 1) s t ∧
          OnlyChanges ([.shadows, .testWaiting] ++ accessFields) s t) ∧
      (w = a.statusBase + 8 → be = 0xF#4 →
        ∃ t, exec c s = .next t ∧
          (∀ f, (data.getLsbD f.position = true → t.flag f = .clear) ∧ (data.getLsbD f.position = false → t.flag f = s.flag f)) ∧
          StatusPending t ∧ OnlyChanges ([.flags, .writerQueue] ++ accessFields) s t) ∧
      (w = a.statusBase + 16 → be = 0xF#4 →
        ∃ t, exec c s = .next t ∧
          (((∀ e ∈ s.writerQueue, e.isTicket = false) ∧ (s.produce - data.setWidth 16).toNat ≤ a.ticketSize) ∨
              ((∃ e ∈ s.writerQueue, e.isTicket = true) ∧ (s.produce - data.setWidth 16).toNat ≤ a.ticketSize - 1) →
            t.consume = data.setWidth 16) ∧
          (¬ (((∀ e ∈ s.writerQueue, e.isTicket = false) ∧ (s.produce - data.setWidth 16).toNat ≤ a.ticketSize) ∨
              ((∃ e ∈ s.writerQueue, e.isTicket = true) ∧ (s.produce - data.setWidth 16).toNat ≤ a.ticketSize - 1)) →
            t.consume = s.consume) ∧
          OnlyChanges (.consume :: accessFields) s t) ∧
      ((w < 0x200 ∨ 0x280 ≤ w) → (w < a.ringBase ∨ a.ringBase + 16 * a.ringSize ≤ w) →
        ¬ (w = a.statusBase + 8 ∧ be = 0xF#4) → ¬ (w = a.statusBase + 16 ∧ be = 0xF#4) →
        ∃ t, exec c s = .next t ∧ OnlyChanges accessFields s t)

/-- A commit attempt (R122, R136, R154, R169–R174): the register closes first; the settings of the staging copy are checked in order.
Accepted, they are in force with everything R174 sets; refused, the anchor in force stays, and while one is in force the outcome is
shown and COMMIT raised. Either way the outcome becomes pending in the status entry. At an accepted
attempt the Test Queue looks for a move (R89; log 31). -/
def Obligations.CommitAttemptTaken : Prop :=
  ∀ (s : State) (c : Instr) (addr : HostAddr) (data : Word) (o : CommitOutcome) (a : Anchor),
    writeOf c = some (addr, data, 0xF#4) → wordAddr addr = 0x27C → PathOpen s → data.toNat % 256 ≠ 0 →
    (∀ x, s.anchor = some x → x.generation ≠ data.toNat % 256) →
    a = settings (putEntry s.staging 31 data) (data.toNat % 256) → OutcomeIs a s o →
    ∃ t, exec c s = .next t ∧ t.staging = putEntry s.staging 31 data ∧
      WriterEntry.status (some { generation := data.toNat % 256, outcome := o }) ∈ t.writerQueue ∧
      t.newsEntries = s.newsEntries ∧
      (o = .accepted →
        t.anchor = some a ∧ t.lastCommit = some { generation := data.toNat % 256, outcome := o } ∧
        (∀ i, t.shadow i = { words := Vector.replicate 4 0, posted := false }) ∧ t.takeIndex = 0 ∧ t.testWaiting = .absent ∧
        t.fence = none ∧ t.cancelSinceLook = false ∧ t.produce = 0 ∧ t.consume = 0 ∧ t.flag .commit = .raised ∧ (∀ f, f ≠ .commit → t.flag f = .clear) ∧
        (∀ g, t.group g = { counter := 0, alarm := false }) ∧ t.alarmList = [] ∧ t.alarmOverflow = false ∧ t.focus = [] ∧
        t.pointer = (if a.installed ≤ s.pointer then 0 else s.pointer) ∧
        OnlyChanges ([.staging, .anchor, .lastCommit, .shadows, .takeIndex, .testWaiting, .fence, .cancelSinceLook, .produce, .consume, .flags, .groups,
          .alarmList, .alarmOverflow, .focus, .pointer, .writerQueue] ++ accessFields) s t) ∧
      (o ≠ .accepted →
        ∃ u, RegisterClosed s u ∧
          (s.anchor ≠ none →
            t.lastCommit = some { generation := data.toNat % 256, outcome := o } ∧ FlagRaised .commit u t ∧
              OtherFlags [.commit] u t) ∧
          (s.anchor = none → t.lastCommit = s.lastCommit ∧ ∀ f, t.flag f = u.flag f) ∧
          OnlyChanges ([.staging, .lastCommit, .flags, .writerQueue] ++ accessFields) u t)

/-- A host read (R156, R157, R163, R165, R166): of a word that no pending entry covers and whose slot is not in flight it returns what
memory holds; a covered word is held; a word of a slot in flight is held with the result hold limit running; while the writer goes
first an unheld read waits; one made while another access is outstanding follows it (log 5). A covered word of a slot in flight takes the
pending-write hold first, and a read has the result hold once (log 15). The lanes are log 18, the low two bits of an address log 8. -/
def Obligations.HostReadAnswered : Prop :=
  ∀ (s : State) (addr : HostAddr) (be : BitVec 4),
    (PathOpen s → (∀ a, s.anchor = some a → ¬ Covered s a (wordAddr addr) ∧
        (InFlightWord s a (wordAddr addr) → a.resultHoldLimit = 0)) →
      ∃ t, exec (.hostRead addr be) s = .next t ∧ Returned addr be s t ∧ t.hostAccesses = [] ∧ t.readHold = none ∧
        OnlyChanges [.readData, .starvation, .readHold, .resultHoldSpent] s t) ∧
    (s.hostAccesses = [] → ∀ a, s.anchor = some a → Covered s a (wordAddr addr) →
      ∃ t, exec (.hostRead addr be) s = .next t ∧ t.hostAccesses = [.read addr be] ∧ t.readHold = some .pendingWrite ∧
        OnlyChanges [.hostAccesses, .readHold] s t) ∧
    (s.hostAccesses = [] → s.readHold = none → s.resultHoldSpent = false → ∀ a, s.anchor = some a →
        ¬ Covered s a (wordAddr addr) → InFlightWord s a (wordAddr addr) → a.resultHoldLimit ≠ 0 →
      ∃ t, exec (.hostRead addr be) s = .next t ∧ t.hostAccesses = [.read addr be] ∧
        t.readHold = some (.result a.resultHoldLimit) ∧ OnlyChanges [.hostAccesses, .readHold] s t) ∧
    (s.hostAccesses = [] → WriterFirst s → (∀ a, s.anchor = some a → ¬ Covered s a (wordAddr addr) ∧
        (InFlightWord s a (wordAddr addr) → a.resultHoldLimit = 0)) →
      ∃ t, exec (.hostRead addr be) s = .next t ∧ t.hostAccesses = [.read addr be] ∧ t.readHold = none ∧
        OnlyChanges [.hostAccesses, .readHold] s t) ∧
    (s.hostAccesses ≠ [] →
      ∃ t, exec (.hostRead addr be) s = .next t ∧ t.hostAccesses = s.hostAccesses ++ [.read addr be] ∧
        OnlyChanges [.hostAccesses] s t)

/-- RESULT_HOLD_EXPIRY: the held read completes from memory, unless its word is covered by then or the writer goes first (R166); its
result hold does not start again (log 15). The command acts whatever time remains (log 4). The lanes are log 18, the low two bits of an
address log 8. -/
def Obligations.ResultHoldExpires : Prop :=
  ∀ (s : State) (a : Anchor) (addr : HostAddr) (be : BitVec 4) (n : Nat), s.anchor = some a →
    s.hostAccesses = [.read addr be] → s.readHold = some (.result n) →
    (¬ Covered s a (wordAddr addr) → s.path = .free → s.writerQueue = [] ∨ s.starvation < 16 →
      ∃ t, exec .resultHoldExpiry s = .next t ∧ Returned addr be s t ∧ t.hostAccesses = [] ∧ t.readHold = none ∧
        OnlyChanges [.readData, .hostAccesses, .starvation, .readHold, .resultHoldSpent] s t) ∧
    (¬ Covered s a (wordAddr addr) → WriterFirst s →
      ∃ t, exec .resultHoldExpiry s = .next t ∧ t.readHold = none ∧ t.resultHoldSpent = true ∧
        OnlyChanges [.readHold, .resultHoldSpent] s t) ∧
    (Covered s a (wordAddr addr) →
      ∃ t, exec .resultHoldExpiry s = .next t ∧ t.readHold = some .pendingWrite ∧ t.resultHoldSpent = true ∧
        OnlyChanges [.readHold, .resultHoldSpent] s t)

/-- The writer takes a FREE path for the first pending entry while no host access is presented and not held, or when the starvation
count has reached 16, or while no anchor is in force; the count becomes 0; a status entry latches the flags RAISED (R160, R163, R164,
R179). A count below 16 keeps the writer waiting behind a presented access. -/
def Obligations.WriterTakesPath : Prop :=
  ∀ (s : State) (e : WriterEntry) (es : List WriterEntry), s.path = .free → s.writerQueue = e :: es →
    (s.hostAccesses = [] ∨ s.readHold ≠ none ∨ 16 ≤ s.starvation ∨ s.anchor = none →
      ∃ t fs, exec .writerTakesPath s = .next t ∧ t.path = .writer { words := entryWords s e, flags := fs } ∧
        (∀ f, f ∈ fs ↔ e.isStatus = true ∧ s.flag f = .raised) ∧ t.starvation = 0 ∧ OnlyChanges [.path, .starvation] s t) ∧
    (s.starvation = 16 →
      ∃ t fs, exec .starvationCountFull s = .next t ∧ t.path = .writer { words := entryWords s e, flags := fs } ∧
        (∀ f, f ∈ fs ↔ e.isStatus = true ∧ s.flag f = .raised) ∧ t.starvation = 0 ∧ OnlyChanges [.path, .starvation] s t) ∧
    (s.hostAccesses ≠ [] → s.readHold = none → s.starvation < 16 → s.anchor ≠ none →
      ∃ t, exec .writerTakesPath s = .next t ∧ OnlyChanges [] s t)

/-- RECORD_WRITTEN (R86, R98, R162, R163, R165, R166, R179): the record's words are in memory and the path is FREE. A bus entry with
further slots stays pending for the next; any other is empty, and raises RESULT for a final, CANCELLED or QUERY record, REFUSED for a
refusal, FENCE for a fence's DONE, TICKET with the produce index for a ticket; a status write shows the flags it carried. A general entry
that becomes empty has a waiting TEST tested again (log 16); a bus entry performed has the Test Queue look for a move (R89; log 31). The starvation count becomes 0 with the last pending entry.
An outstanding host access is then looked at again in the same event (log 5), as if made in the state `u` that the record leaves: a write
that waited is performed and handed to the owner of its window; a held read keeps or takes the hold that now applies (the result hold
starts where a pending-write hold ends, section 8.7, log 15) or, released, completes. Lanes and low address bits are logs 18 and 8. -/
def Obligations.RecordWritten : Prop :=
  ∀ (s : State) (r : Transfer) (e : WriterEntry) (es : List WriterEntry), s.path = .writer r → s.writerQueue = e :: es →
    (s.hostAccesses = [] →
      ∃ t, exec .recordWritten s = .next t ∧ t.path = .free ∧ t.mem = Memory.writeWords s.mem r.words ∧
        (MemoryOk s → ∀ x, (∀ w ∈ r.words, x < w.1 ∨ w.1 + 4 ≤ x) → Memory.read t.mem x = Memory.read s.mem x) ∧
        (∀ b rec m m' ms, e = .bus b rec (m :: m' :: ms) →
          t.newsEntries = .bus b rec (m' :: ms) :: es.filter (fun x => !x.isStatus) ∧ OtherFlags [] s t ∧
            t.starvation = s.starvation) ∧
        ((∀ b rec m m' ms, e ≠ .bus b rec (m :: m' :: ms)) →
          t.newsEntries = es.filter (fun x => !x.isStatus) ∧ t.starvation = if es = [] then 0 else s.starvation) ∧
        ((∃ b rec m, e = .bus b rec [m]) ∨ (∃ i rec, e = .cancelled i rec) ∨ (∃ i rec, e = .query i rec) →
          FlagRaised .result s t ∧ OtherFlags [.result] s t) ∧
        ((∃ i rec, e = .inProgress i rec) → OtherFlags [] s t) ∧
        (∀ i d f, e = .disposition i d f →
          (d.isRefusal = true → FlagRaised .refused s t ∧ OtherFlags [.refused] s t) ∧
          (d.isRefusal = false → f = true → FlagRaised .fence s t ∧ OtherFlags [.fence] s t) ∧
          (d.isRefusal = false → f = false → OtherFlags [] s t)) ∧
        (∀ i n d k, e = .ticket i n d k → t.produce = s.produce + 1 ∧ FlagRaised .ticket s t ∧ OtherFlags [.ticket] s t) ∧
        (e.isTicket = false → t.produce = s.produce) ∧
        (∀ o, e = .status o → ∀ f,
          (f ∈ r.flags → s.flag f ≠ .clear → t.flag f = .shown) ∧ (f ∉ r.flags ∨ s.flag f = .clear → t.flag f = s.flag f)) ∧
        (e.isGeneral = true → WaitTested True s t) ∧ (e.isGeneral = false → t.testWaiting = s.testWaiting) ∧
        Looked (∃ b rec ms, e = .bus b rec ms ∧ ms.length ≤ 1) s t ∧
        OnlyChanges [.mem, .path, .news, .writerQueue, .starvation, .flags, .produce, .testWaiting, .cancelSinceLook, .readHold] s t) ∧
    (∀ addr data be, s.hostAccesses = [.write addr data be] →
      (∃ u, exec .recordWritten { s with hostAccesses := [] } = .next u ∧
        exec .recordWritten s = exec (.hostWrite addr data be) u) ∧
      (s.anchor ≠ none → s.starvation < 16 → MemoryOk s →
        ∃ t, exec .recordWritten s = .next t ∧ t.path = .free ∧ t.hostAccesses = [] ∧
          Stored (wordAddr addr) data be { s with mem := Memory.writeWords s.mem r.words } t)) ∧
    (∀ addr be, s.hostAccesses = [.read addr be] →
      ∃ t u, exec .recordWritten { s with hostAccesses := [] } = .next u ∧ exec .recordWritten s = .next t ∧
        exec (.hostRead addr be) u = .next t ∧
        ∀ a, s.anchor = some a →
          (Covered u a (wordAddr addr) →
            t.hostAccesses = [.read addr be] ∧ t.readHold = some .pendingWrite ∧ OnlyChanges [.hostAccesses, .readHold] u t) ∧
          (¬ Covered u a (wordAddr addr) → InFlightWord u a (wordAddr addr) → a.resultHoldLimit ≠ 0 →
              s.resultHoldSpent = false →
            t.hostAccesses = [.read addr be] ∧ (∀ n, s.readHold = some (.result n) → t.readHold = some (.result n)) ∧
              ((∀ n, s.readHold ≠ some (.result n)) → t.readHold = some (.result a.resultHoldLimit)) ∧
              OnlyChanges [.hostAccesses, .readHold] u t) ∧
          (¬ Covered u a (wordAddr addr) →
              (InFlightWord u a (wordAddr addr) → a.resultHoldLimit = 0 ∨ s.resultHoldSpent = true) →
            (u.writerQueue = [] ∨ u.starvation < 16 →
              Returned addr be u t ∧ t.hostAccesses = [] ∧ t.readHold = none ∧
                OnlyChanges [.readData, .starvation, .readHold, .resultHoldSpent] u t) ∧
            (u.writerQueue ≠ [] → 16 ≤ u.starvation →
              t.hostAccesses = [.read addr be] ∧ t.readHold = none ∧ OnlyChanges [.hostAccesses, .readHold] u t)))

/-- The layouts of what the part writes (R177, R183, Tables 10-2 to 10-7): a TEST record, alone or as a bus entry's record for a slot
(R100), a QUERY record, a ticket record, a disposition, the status block (R178) and the outcome word; the codes of the enumerations; and
the fields of the request slot and of the anchor block that it reads (Tables 10-1 and 10-2, R182). The held-back reason while a
SWEEP-class entry waits is QUEUE (Table 5-2), the model's choice between the spec's texts (log 30). -/
def Obligations.RecordsLaidOut : Prop :=
  (∀ (a : Anchor) (s : State), s.anchor = some a →
    (∀ i r, Written s (.inProgress i r) (a.resultBase + 64 * i) (List.range 16) (testLayout r) ∧
      Written s (.cancelled i r) (a.resultBase + 64 * i) (List.range 16) (testLayout r)) ∧
    (∀ b r m ms, Written s (.bus b r (m :: ms)) (a.resultBase + 64 * m.slot) (List.range 16)
      (testLayout { r with tag := m.tag, merged := m.merged })) ∧
    (∀ i r, Written s (.query i r) (a.resultBase + 64 * i) (List.range 16) (queryLayout r)) ∧
    (∀ (i n : Count16) d k, d < 256 → (∀ c, k.detail = .context c → c.elapsed < 65536) →
      Written s (.ticket i n d k) (a.ticketBase + 64 * (i.toNat % a.ticketSize)) (List.range 16) (ticketLayout n d k)) ∧
    (∀ (i : Fin 64) d f, Written s (.disposition i d f) (a.ringBase + 16 * i.val) [3] [[(0, 2, 2), (8, 4, d.code)]]) ∧
    (a.generation < 256 → (∀ c, s.lastCommit = some c → c.generation < 256) → s.queue.length ≤ 16 → s.droppedTotal ≤ 65535 →
        s.pointer < 4096 → s.alarmList.length ≤ 8 →
      Written s (.status none) a.statusBase statusNumbers (statusLayout a s) ∧
      ∀ c : CommitRecord, c.generation < 256 →
        ∃ w ws, WordIs w [(0, 8, c.generation), (8, 4, c.outcome.code)] ∧ List.Forall₂ WordIs ws (statusLayout a s) ∧
          entryWords s (.status (some c)) = (0x278, w) :: (statusNumbers.map fun i => a.statusBase + 4 * i).zip ws)) ∧
  (∀ (s : State) (c : CommitRecord), s.anchor = none → c.generation < 256 →
    Written s (.status (some c)) 0x278 [0] [[(0, 8, c.generation), (8, 4, c.outcome.code)]]) ∧
  CodesAssigned ∧ (∀ x : Shadow, RequestRead x) ∧ ∀ (v : Vector Word 32) (g : Nat), SettingsRead v g (settings v g)

/-! ## Attention and the status block -/

/-- The ATTN level and URGENT (R180): the highest class level in force among the classes with a SHOWN flag whose source is enabled, 0
where there is none; URGENT while HAZARD is RAISED or SHOWN, whatever the enables. -/
def Obligations.AttentionLevel : Prop :=
  ∀ s : State,
    (s.urgent = true ↔ s.flag .hazard = .raised ∨ s.flag .hazard = .shown) ∧
    (s.anchor = none → s.attn = 0) ∧
    ∀ a, s.anchor = some a →
      (∀ f c, f.cls = some c → s.flag f = .shown → a.enables.getLsbD f.position = true →
        a.levels.toNat / 4 ^ c % 4 ≤ s.attn) ∧
      (s.attn = 0 ∨ ∃ f c, f.cls = some c ∧ s.flag f = .shown ∧ a.enables.getLsbD f.position = true ∧
        s.attn = a.levels.toNat / 4 ^ c % 4) ∧
      s.attn ≤ 3

/-- Every change of the status image while an anchor is in force leaves the status entry pending and not yet begun (R161, R178; at the
end of the event, log 13). The image shows the reason QUEUE once an attempt has queued a visit (log 30). -/
def Obligations.StatusMarked : Prop :=
  ∀ (c : Instr) (s t : State), exec c s = .next t → t.anchor ≠ none → t.statusImage ≠ s.statusImage →
    (s.path.isWriter = true → s.writerQueue ≠ []) → StatusPending t

/-! ## Invariants every step keeps -/

/-- Desk memory keeps its canonical form. -/
def Obligations.MemoryKept : Prop := ∀ s t : State, MemoryOk s → step s = .next t → MemoryOk t

/-- A bus and the line it names know each other (R12, R20, R22). -/
def Obligations.BusLineKept : Prop := ∀ s t : State, BusLineOk s → step s = .next t → BusLineOk t

/-- The law of alarm flags, counters and focus. -/
def Obligations.GroupsKept : Prop := ∀ s t : State, GroupsOk s → step s = .next t → GroupsOk t

/-- Every capacity of the Test Queue, the slot lists, the nine writer entries, the outbox, the lines of a ticket, the alarm list, the
focus list, the starvation count and the drop counts (Table 0-3, R22, R82, R114, R133, R137, R138, R150, R159, R163), and that a bus entry
is filled only while it is empty. The head wait queue's is in `WorkKept`, the ticket ring's is `RingKept`. -/
def Obligations.CapacityKept : Prop := ∀ s t : State, CapacityOk s → step s = .next t → CapacityOk t

/-- A result slot is in at most one slot list (R83). -/
def Obligations.SlotsKept : Prop := ∀ s t : State, SlotsOk s → step s = .next t → SlotsOk t

/-- The ticket ring never holds more than its size (R141, R143). -/
def Obligations.RingKept : Prop := ∀ s t : State, RingOk s → step s = .next t → RingOk t

/-- Settings in force, tests, buses, heads and the wait queue, of at most four buses, hold together (R57, R58, R91, R102, R169, R171). -/
def Obligations.WorkKept : Prop := ∀ s t : State, WorkOk s → step s = .next t → WorkOk t

/-- Until the first accepted commit nothing is queued, pending or raised but the outcome word (R52, R164, R179). -/
def Obligations.BeforeCommitKept : Prop :=
  ∀ s t : State, BusLineOk s → BeforeCommitOk s → step s = .next t → BeforeCommitOk t
end

