-- ==== Sys2Proof/Laws/Table.lean ====
section
/-!
SUPPORT. Lemmas of the tables of Machine/Table.lean: what an entry is after a table was made, changed at one place or mapped, and
what `takeFirst` answers.
-/

namespace Sys2Proof.Machine

@[simp] theorem entry_putEntry_self {α : Type} {n : Nat} (v : Vector α n) (i : Fin n) (x : α) : entry (putEntry v i x) i = x := by
  simp [entry, putEntry]

theorem entry_putEntry_ne {α : Type} {n : Nat} (v : Vector α n) {i j : Fin n} (x : α) (h : i ≠ j) :
    entry (putEntry v i x) j = entry v j := by
  have hv : i.val ≠ j.val := fun e => h (Fin.ext e)
  simp [entry, putEntry, Vector.getElem_set_ne, hv]

theorem entry_putEntry {α : Type} {n : Nat} (v : Vector α n) (i j : Fin n) (x : α) :
    entry (putEntry v i x) j = if i = j then x else entry v j := by
  split
  · subst_vars; simp
  · exact entry_putEntry_ne v x ‹_›

@[simp] theorem entry_mapEntries {α β : Type} {n : Nat} (f : α → β) (v : Vector α n) (i : Fin n) :
    entry (mapEntries f v) i = f (entry v i) := by
  obtain ⟨⟨l⟩, h⟩ := v
  simp [entry, mapEntries]

@[simp] theorem entry_replicate {α : Type} {n : Nat} (x : α) (i : Fin n) : entry (Vector.replicate n x) i = x := by
  simp [entry]

/-- Two tables with the same entries are the same table. -/
theorem eq_of_entries {α : Type} {n : Nat} {v w : Vector α n} (h : ∀ i, entry v i = entry w i) : v = w := by
  apply Vector.ext
  intro i hi
  exact h ⟨i, hi⟩

/-- `takeFirst` answers an element of the list that the function accepts, with the function's answer, and the list without that one
place. -/
theorem takeFirst_spec {α β : Type} {p : α → Option β} {l rest : List α} {x : α} {b : β}
    (h : takeFirst p l = some (x, b, rest)) :
    p x = some b ∧ ∃ before after, l = before ++ x :: after ∧ rest = before ++ after ∧ ∀ y ∈ before, p y = none := by
  induction l generalizing rest x b with
  | nil => simp [takeFirst] at h
  | cons y ys ih =>
    unfold takeFirst at h
    split at h
    · rename_i b' hb
      cases h
      exact ⟨hb, [], ys, rfl, rfl, by simp⟩
    · rename_i hn
      split at h
      · rename_i y' b' ys' hr
        cases h
        obtain ⟨hp, before, after, hl, hrest, hbefore⟩ := ih hr
        refine ⟨hp, y :: before, after, by simp [hl], by simp [hrest], ?_⟩
        intro z hz
        cases List.mem_cons.mp hz with
        | inl e => subst e; exact hn
        | inr m => exact hbefore z m
      · cases h

/-- `takeFirst` answers nothing exactly when the function accepts no element. -/
theorem takeFirst_none {α β : Type} {p : α → Option β} {l : List α} : takeFirst p l = none ↔ ∀ x ∈ l, p x = none := by
  induction l with
  | nil => simp [takeFirst]
  | cons y ys ih =>
    unfold takeFirst
    split
    · rename_i b hb
      simp [hb]
    · rename_i hn
      split
      · rename_i r hr
        have : ¬ takeFirst p ys = none := by simp [hr]
        simp only [reduceCtorEq, false_iff, List.mem_cons, forall_eq_or_imp, not_and]
        intro _ hall
        exact this (ih.mpr hall)
      · rename_i hr
        simpa [hn] using ih.mp hr

end Sys2Proof.Machine
end

