-- ==== Sys2Proof/Laws/State.lean ====
section
/-!
SUPPORT. One lemma per field per update of the state: what `look` and each of the twelve setters of Ops.lean and Flags.lean do to every field
of State and to every view of a record, so that no proof unfolds a record update.
-/

namespace Sys2Proof.Machine.State

/-! ## look -/

@[simp] theorem look_pending (s : State) (p : Bool) : (s.look p).pending = s.pending := rfl
@[simp] theorem look_freeIndex (s : State) (p : Bool) : (s.look p).freeIndex = s.freeIndex := rfl
@[simp] theorem look_mem (s : State) (p : Bool) : (s.look p).mem = s.mem := rfl
@[simp] theorem look_path (s : State) (p : Bool) : (s.look p).path = s.path := rfl
@[simp] theorem look_writerQueue (s : State) (p : Bool) : (s.look p).writerQueue = s.writerQueue := rfl
@[simp] theorem look_starvation (s : State) (p : Bool) : (s.look p).starvation = s.starvation := rfl
@[simp] theorem look_hostAccesses (s : State) (p : Bool) : (s.look p).hostAccesses = s.hostAccesses := rfl
@[simp] theorem look_readHold (s : State) (p : Bool) : (s.look p).readHold = s.readHold := rfl
@[simp] theorem look_resultHoldSpent (s : State) (p : Bool) : (s.look p).resultHoldSpent = s.resultHoldSpent := rfl
@[simp] theorem look_readData (s : State) (p : Bool) : (s.look p).readData = s.readData := rfl
@[simp] theorem look_staging (s : State) (p : Bool) : (s.look p).staging = s.staging := rfl
@[simp] theorem look_anchor (s : State) (p : Bool) : (s.look p).anchor = s.anchor := rfl
@[simp] theorem look_lastCommit (s : State) (p : Bool) : (s.look p).lastCommit = s.lastCommit := rfl
@[simp] theorem look_flags (s : State) (p : Bool) : (s.look p).flags = s.flags := rfl
@[simp] theorem look_shadows (s : State) (p : Bool) : (s.look p).shadows = s.shadows := rfl
@[simp] theorem look_takeIndex (s : State) (p : Bool) : (s.look p).takeIndex = s.takeIndex := rfl
@[simp] theorem look_testWaiting (s : State) (p : Bool) : (s.look p).testWaiting = s.testWaiting := rfl
@[simp] theorem look_fence (s : State) (p : Bool) : (s.look p).fence = s.fence := rfl
@[simp] theorem look_queue (s : State) (p : Bool) : (s.look p).queue = s.queue := rfl
@[simp] theorem look_cancelSinceLook (s : State) (p : Bool) : (s.look p).cancelSinceLook = (s.cancelSinceLook && !p) := rfl
@[simp] theorem look_buses (s : State) (p : Bool) : (s.look p).buses = s.buses := rfl
@[simp] theorem look_claimCounter (s : State) (p : Bool) : (s.look p).claimCounter = s.claimCounter := rfl
@[simp] theorem look_resyncPending (s : State) (p : Bool) : (s.look p).resyncPending = s.resyncPending := rfl
@[simp] theorem look_heads (s : State) (p : Bool) : (s.look p).heads = s.heads := rfl
@[simp] theorem look_waitQueue (s : State) (p : Bool) : (s.look p).waitQueue = s.waitQueue := rfl
@[simp] theorem look_programs (s : State) (p : Bool) : (s.look p).programs = s.programs := rfl
@[simp] theorem look_lines (s : State) (p : Bool) : (s.look p).lines = s.lines := rfl
@[simp] theorem look_sweep (s : State) (p : Bool) : (s.look p).sweep = s.sweep := rfl
@[simp] theorem look_pointer (s : State) (p : Bool) : (s.look p).pointer = s.pointer := rfl
@[simp] theorem look_epoch (s : State) (p : Bool) : (s.look p).epoch = s.epoch := rfl
@[simp] theorem look_pacing (s : State) (p : Bool) : (s.look p).pacing = s.pacing := rfl
@[simp] theorem look_focus (s : State) (p : Bool) : (s.look p).focus = s.focus := rfl
@[simp] theorem look_register (s : State) (p : Bool) : (s.look p).register = s.register := rfl
@[simp] theorem look_coalescing (s : State) (p : Bool) : (s.look p).coalescing = s.coalescing := rfl
@[simp] theorem look_outbox (s : State) (p : Bool) : (s.look p).outbox = s.outbox := rfl
@[simp] theorem look_ticketSeq (s : State) (p : Bool) : (s.look p).ticketSeq = s.ticketSeq := rfl
@[simp] theorem look_produce (s : State) (p : Bool) : (s.look p).produce = s.produce := rfl
@[simp] theorem look_consume (s : State) (p : Bool) : (s.look p).consume = s.consume := rfl
@[simp] theorem look_droppedBefore (s : State) (p : Bool) : (s.look p).droppedBefore = s.droppedBefore := rfl
@[simp] theorem look_droppedTotal (s : State) (p : Bool) : (s.look p).droppedTotal = s.droppedTotal := rfl
@[simp] theorem look_groups (s : State) (p : Bool) : (s.look p).groups = s.groups := rfl
@[simp] theorem look_alarmList (s : State) (p : Bool) : (s.look p).alarmList = s.alarmList := rfl
@[simp] theorem look_alarmOverflow (s : State) (p : Bool) : (s.look p).alarmOverflow = s.alarmOverflow := rfl
@[simp] theorem look_exchangeOut (s : State) (p : Bool) : (s.look p).exchangeOut = s.exchangeOut := rfl
@[simp] theorem look_matrixOut (s : State) (p : Bool) : (s.look p).matrixOut = s.matrixOut := rfl
@[simp] theorem look_headOut (s : State) (p : Bool) : (s.look p).headOut = s.headOut := rfl
@[simp] theorem look_begun (s : State) (p : Bool) : (s.look p).begun = s.begun := rfl
@[simp] theorem look_view_bus (s : State) (p : Bool) (x : BusNo) : (s.look p).bus x = s.bus x := rfl
@[simp] theorem look_view_head (s : State) (p : Bool) (x : HeadNo) : (s.look p).head x = s.head x := rfl
@[simp] theorem look_view_program (s : State) (p : Bool) (x : BusNo) : (s.look p).program x = s.program x := rfl
@[simp] theorem look_view_line (s : State) (p : Bool) (x : LineNo) : (s.look p).line x = s.line x := rfl
@[simp] theorem look_view_group (s : State) (p : Bool) (x : GroupNo) : (s.look p).group x = s.group x := rfl
@[simp] theorem look_view_shadow (s : State) (p : Bool) (x : Fin 64) : (s.look p).shadow x = s.shadow x := rfl
@[simp] theorem look_view_flag (s : State) (p : Bool) (x : Flag) : (s.look p).flag x = s.flag x := rfl

/-! ## setBus -/

@[simp] theorem setBus_pending (s : State) (b : BusNo) (r : Bus) : (s.setBus b r).pending = s.pending := rfl
@[simp] theorem setBus_freeIndex (s : State) (b : BusNo) (r : Bus) : (s.setBus b r).freeIndex = s.freeIndex := rfl
@[simp] theorem setBus_mem (s : State) (b : BusNo) (r : Bus) : (s.setBus b r).mem = s.mem := rfl
@[simp] theorem setBus_path (s : State) (b : BusNo) (r : Bus) : (s.setBus b r).path = s.path := rfl
@[simp] theorem setBus_writerQueue (s : State) (b : BusNo) (r : Bus) : (s.setBus b r).writerQueue = s.writerQueue := rfl
@[simp] theorem setBus_starvation (s : State) (b : BusNo) (r : Bus) : (s.setBus b r).starvation = s.starvation := rfl
@[simp] theorem setBus_hostAccesses (s : State) (b : BusNo) (r : Bus) : (s.setBus b r).hostAccesses = s.hostAccesses := rfl
@[simp] theorem setBus_readHold (s : State) (b : BusNo) (r : Bus) : (s.setBus b r).readHold = s.readHold := rfl
@[simp] theorem setBus_resultHoldSpent (s : State) (b : BusNo) (r : Bus) : (s.setBus b r).resultHoldSpent = s.resultHoldSpent := rfl
@[simp] theorem setBus_readData (s : State) (b : BusNo) (r : Bus) : (s.setBus b r).readData = s.readData := rfl
@[simp] theorem setBus_staging (s : State) (b : BusNo) (r : Bus) : (s.setBus b r).staging = s.staging := rfl
@[simp] theorem setBus_anchor (s : State) (b : BusNo) (r : Bus) : (s.setBus b r).anchor = s.anchor := rfl
@[simp] theorem setBus_lastCommit (s : State) (b : BusNo) (r : Bus) : (s.setBus b r).lastCommit = s.lastCommit := rfl
@[simp] theorem setBus_flags (s : State) (b : BusNo) (r : Bus) : (s.setBus b r).flags = s.flags := rfl
@[simp] theorem setBus_shadows (s : State) (b : BusNo) (r : Bus) : (s.setBus b r).shadows = s.shadows := rfl
@[simp] theorem setBus_takeIndex (s : State) (b : BusNo) (r : Bus) : (s.setBus b r).takeIndex = s.takeIndex := rfl
@[simp] theorem setBus_testWaiting (s : State) (b : BusNo) (r : Bus) : (s.setBus b r).testWaiting = s.testWaiting := rfl
@[simp] theorem setBus_fence (s : State) (b : BusNo) (r : Bus) : (s.setBus b r).fence = s.fence := rfl
@[simp] theorem setBus_queue (s : State) (b : BusNo) (r : Bus) : (s.setBus b r).queue = s.queue := rfl
@[simp] theorem setBus_cancelSinceLook (s : State) (b : BusNo) (r : Bus) : (s.setBus b r).cancelSinceLook = s.cancelSinceLook := rfl
@[simp] theorem setBus_buses (s : State) (b : BusNo) (r : Bus) : (s.setBus b r).buses = putEntry s.buses b r := rfl
@[simp] theorem setBus_claimCounter (s : State) (b : BusNo) (r : Bus) : (s.setBus b r).claimCounter = s.claimCounter := rfl
@[simp] theorem setBus_resyncPending (s : State) (b : BusNo) (r : Bus) : (s.setBus b r).resyncPending = s.resyncPending := rfl
@[simp] theorem setBus_heads (s : State) (b : BusNo) (r : Bus) : (s.setBus b r).heads = s.heads := rfl
@[simp] theorem setBus_waitQueue (s : State) (b : BusNo) (r : Bus) : (s.setBus b r).waitQueue = s.waitQueue := rfl
@[simp] theorem setBus_programs (s : State) (b : BusNo) (r : Bus) : (s.setBus b r).programs = s.programs := rfl
@[simp] theorem setBus_lines (s : State) (b : BusNo) (r : Bus) : (s.setBus b r).lines = s.lines := rfl
@[simp] theorem setBus_sweep (s : State) (b : BusNo) (r : Bus) : (s.setBus b r).sweep = s.sweep := rfl
@[simp] theorem setBus_pointer (s : State) (b : BusNo) (r : Bus) : (s.setBus b r).pointer = s.pointer := rfl
@[simp] theorem setBus_epoch (s : State) (b : BusNo) (r : Bus) : (s.setBus b r).epoch = s.epoch := rfl
@[simp] theorem setBus_pacing (s : State) (b : BusNo) (r : Bus) : (s.setBus b r).pacing = s.pacing := rfl
@[simp] theorem setBus_focus (s : State) (b : BusNo) (r : Bus) : (s.setBus b r).focus = s.focus := rfl
@[simp] theorem setBus_register (s : State) (b : BusNo) (r : Bus) : (s.setBus b r).register = s.register := rfl
@[simp] theorem setBus_coalescing (s : State) (b : BusNo) (r : Bus) : (s.setBus b r).coalescing = s.coalescing := rfl
@[simp] theorem setBus_outbox (s : State) (b : BusNo) (r : Bus) : (s.setBus b r).outbox = s.outbox := rfl
@[simp] theorem setBus_ticketSeq (s : State) (b : BusNo) (r : Bus) : (s.setBus b r).ticketSeq = s.ticketSeq := rfl
@[simp] theorem setBus_produce (s : State) (b : BusNo) (r : Bus) : (s.setBus b r).produce = s.produce := rfl
@[simp] theorem setBus_consume (s : State) (b : BusNo) (r : Bus) : (s.setBus b r).consume = s.consume := rfl
@[simp] theorem setBus_droppedBefore (s : State) (b : BusNo) (r : Bus) : (s.setBus b r).droppedBefore = s.droppedBefore := rfl
@[simp] theorem setBus_droppedTotal (s : State) (b : BusNo) (r : Bus) : (s.setBus b r).droppedTotal = s.droppedTotal := rfl
@[simp] theorem setBus_groups (s : State) (b : BusNo) (r : Bus) : (s.setBus b r).groups = s.groups := rfl
@[simp] theorem setBus_alarmList (s : State) (b : BusNo) (r : Bus) : (s.setBus b r).alarmList = s.alarmList := rfl
@[simp] theorem setBus_alarmOverflow (s : State) (b : BusNo) (r : Bus) : (s.setBus b r).alarmOverflow = s.alarmOverflow := rfl
@[simp] theorem setBus_exchangeOut (s : State) (b : BusNo) (r : Bus) : (s.setBus b r).exchangeOut = s.exchangeOut := rfl
@[simp] theorem setBus_matrixOut (s : State) (b : BusNo) (r : Bus) : (s.setBus b r).matrixOut = s.matrixOut := rfl
@[simp] theorem setBus_headOut (s : State) (b : BusNo) (r : Bus) : (s.setBus b r).headOut = s.headOut := rfl
@[simp] theorem setBus_begun (s : State) (b : BusNo) (r : Bus) : (s.setBus b r).begun = s.begun := rfl
@[simp] theorem setBus_view_head (s : State) (b : BusNo) (r : Bus) (x : HeadNo) : (s.setBus b r).head x = s.head x := rfl
@[simp] theorem setBus_view_program (s : State) (b : BusNo) (r : Bus) (x : BusNo) : (s.setBus b r).program x = s.program x := rfl
@[simp] theorem setBus_view_line (s : State) (b : BusNo) (r : Bus) (x : LineNo) : (s.setBus b r).line x = s.line x := rfl
@[simp] theorem setBus_view_group (s : State) (b : BusNo) (r : Bus) (x : GroupNo) : (s.setBus b r).group x = s.group x := rfl
@[simp] theorem setBus_view_shadow (s : State) (b : BusNo) (r : Bus) (x : Fin 64) : (s.setBus b r).shadow x = s.shadow x := rfl
@[simp] theorem setBus_view_flag (s : State) (b : BusNo) (r : Bus) (x : Flag) : (s.setBus b r).flag x = s.flag x := rfl

/-! ## setHead -/

@[simp] theorem setHead_pending (s : State) (h : HeadNo) (r : Head) : (s.setHead h r).pending = s.pending := rfl
@[simp] theorem setHead_freeIndex (s : State) (h : HeadNo) (r : Head) : (s.setHead h r).freeIndex = s.freeIndex := rfl
@[simp] theorem setHead_mem (s : State) (h : HeadNo) (r : Head) : (s.setHead h r).mem = s.mem := rfl
@[simp] theorem setHead_path (s : State) (h : HeadNo) (r : Head) : (s.setHead h r).path = s.path := rfl
@[simp] theorem setHead_writerQueue (s : State) (h : HeadNo) (r : Head) : (s.setHead h r).writerQueue = s.writerQueue := rfl
@[simp] theorem setHead_starvation (s : State) (h : HeadNo) (r : Head) : (s.setHead h r).starvation = s.starvation := rfl
@[simp] theorem setHead_hostAccesses (s : State) (h : HeadNo) (r : Head) : (s.setHead h r).hostAccesses = s.hostAccesses := rfl
@[simp] theorem setHead_readHold (s : State) (h : HeadNo) (r : Head) : (s.setHead h r).readHold = s.readHold := rfl
@[simp] theorem setHead_resultHoldSpent (s : State) (h : HeadNo) (r : Head) : (s.setHead h r).resultHoldSpent = s.resultHoldSpent := rfl
@[simp] theorem setHead_readData (s : State) (h : HeadNo) (r : Head) : (s.setHead h r).readData = s.readData := rfl
@[simp] theorem setHead_staging (s : State) (h : HeadNo) (r : Head) : (s.setHead h r).staging = s.staging := rfl
@[simp] theorem setHead_anchor (s : State) (h : HeadNo) (r : Head) : (s.setHead h r).anchor = s.anchor := rfl
@[simp] theorem setHead_lastCommit (s : State) (h : HeadNo) (r : Head) : (s.setHead h r).lastCommit = s.lastCommit := rfl
@[simp] theorem setHead_flags (s : State) (h : HeadNo) (r : Head) : (s.setHead h r).flags = s.flags := rfl
@[simp] theorem setHead_shadows (s : State) (h : HeadNo) (r : Head) : (s.setHead h r).shadows = s.shadows := rfl
@[simp] theorem setHead_takeIndex (s : State) (h : HeadNo) (r : Head) : (s.setHead h r).takeIndex = s.takeIndex := rfl
@[simp] theorem setHead_testWaiting (s : State) (h : HeadNo) (r : Head) : (s.setHead h r).testWaiting = s.testWaiting := rfl
@[simp] theorem setHead_fence (s : State) (h : HeadNo) (r : Head) : (s.setHead h r).fence = s.fence := rfl
@[simp] theorem setHead_queue (s : State) (h : HeadNo) (r : Head) : (s.setHead h r).queue = s.queue := rfl
@[simp] theorem setHead_cancelSinceLook (s : State) (h : HeadNo) (r : Head) : (s.setHead h r).cancelSinceLook = s.cancelSinceLook := rfl
@[simp] theorem setHead_buses (s : State) (h : HeadNo) (r : Head) : (s.setHead h r).buses = s.buses := rfl
@[simp] theorem setHead_claimCounter (s : State) (h : HeadNo) (r : Head) : (s.setHead h r).claimCounter = s.claimCounter := rfl
@[simp] theorem setHead_resyncPending (s : State) (h : HeadNo) (r : Head) : (s.setHead h r).resyncPending = s.resyncPending := rfl
@[simp] theorem setHead_heads (s : State) (h : HeadNo) (r : Head) : (s.setHead h r).heads = putEntry s.heads h r := rfl
@[simp] theorem setHead_waitQueue (s : State) (h : HeadNo) (r : Head) : (s.setHead h r).waitQueue = s.waitQueue := rfl
@[simp] theorem setHead_programs (s : State) (h : HeadNo) (r : Head) : (s.setHead h r).programs = s.programs := rfl
@[simp] theorem setHead_lines (s : State) (h : HeadNo) (r : Head) : (s.setHead h r).lines = s.lines := rfl
@[simp] theorem setHead_sweep (s : State) (h : HeadNo) (r : Head) : (s.setHead h r).sweep = s.sweep := rfl
@[simp] theorem setHead_pointer (s : State) (h : HeadNo) (r : Head) : (s.setHead h r).pointer = s.pointer := rfl
@[simp] theorem setHead_epoch (s : State) (h : HeadNo) (r : Head) : (s.setHead h r).epoch = s.epoch := rfl
@[simp] theorem setHead_pacing (s : State) (h : HeadNo) (r : Head) : (s.setHead h r).pacing = s.pacing := rfl
@[simp] theorem setHead_focus (s : State) (h : HeadNo) (r : Head) : (s.setHead h r).focus = s.focus := rfl
@[simp] theorem setHead_register (s : State) (h : HeadNo) (r : Head) : (s.setHead h r).register = s.register := rfl
@[simp] theorem setHead_coalescing (s : State) (h : HeadNo) (r : Head) : (s.setHead h r).coalescing = s.coalescing := rfl
@[simp] theorem setHead_outbox (s : State) (h : HeadNo) (r : Head) : (s.setHead h r).outbox = s.outbox := rfl
@[simp] theorem setHead_ticketSeq (s : State) (h : HeadNo) (r : Head) : (s.setHead h r).ticketSeq = s.ticketSeq := rfl
@[simp] theorem setHead_produce (s : State) (h : HeadNo) (r : Head) : (s.setHead h r).produce = s.produce := rfl
@[simp] theorem setHead_consume (s : State) (h : HeadNo) (r : Head) : (s.setHead h r).consume = s.consume := rfl
@[simp] theorem setHead_droppedBefore (s : State) (h : HeadNo) (r : Head) : (s.setHead h r).droppedBefore = s.droppedBefore := rfl
@[simp] theorem setHead_droppedTotal (s : State) (h : HeadNo) (r : Head) : (s.setHead h r).droppedTotal = s.droppedTotal := rfl
@[simp] theorem setHead_groups (s : State) (h : HeadNo) (r : Head) : (s.setHead h r).groups = s.groups := rfl
@[simp] theorem setHead_alarmList (s : State) (h : HeadNo) (r : Head) : (s.setHead h r).alarmList = s.alarmList := rfl
@[simp] theorem setHead_alarmOverflow (s : State) (h : HeadNo) (r : Head) : (s.setHead h r).alarmOverflow = s.alarmOverflow := rfl
@[simp] theorem setHead_exchangeOut (s : State) (h : HeadNo) (r : Head) : (s.setHead h r).exchangeOut = s.exchangeOut := rfl
@[simp] theorem setHead_matrixOut (s : State) (h : HeadNo) (r : Head) : (s.setHead h r).matrixOut = s.matrixOut := rfl
@[simp] theorem setHead_headOut (s : State) (h : HeadNo) (r : Head) : (s.setHead h r).headOut = s.headOut := rfl
@[simp] theorem setHead_begun (s : State) (h : HeadNo) (r : Head) : (s.setHead h r).begun = s.begun := rfl
@[simp] theorem setHead_view_bus (s : State) (h : HeadNo) (r : Head) (x : BusNo) : (s.setHead h r).bus x = s.bus x := rfl
@[simp] theorem setHead_view_program (s : State) (h : HeadNo) (r : Head) (x : BusNo) : (s.setHead h r).program x = s.program x := rfl
@[simp] theorem setHead_view_line (s : State) (h : HeadNo) (r : Head) (x : LineNo) : (s.setHead h r).line x = s.line x := rfl
@[simp] theorem setHead_view_group (s : State) (h : HeadNo) (r : Head) (x : GroupNo) : (s.setHead h r).group x = s.group x := rfl
@[simp] theorem setHead_view_shadow (s : State) (h : HeadNo) (r : Head) (x : Fin 64) : (s.setHead h r).shadow x = s.shadow x := rfl
@[simp] theorem setHead_view_flag (s : State) (h : HeadNo) (r : Head) (x : Flag) : (s.setHead h r).flag x = s.flag x := rfl

/-! ## setProgram -/

@[simp] theorem setProgram_pending (s : State) (b : BusNo) (p : Option StepProgram) : (s.setProgram b p).pending = s.pending := rfl
@[simp] theorem setProgram_freeIndex (s : State) (b : BusNo) (p : Option StepProgram) : (s.setProgram b p).freeIndex = s.freeIndex := rfl
@[simp] theorem setProgram_mem (s : State) (b : BusNo) (p : Option StepProgram) : (s.setProgram b p).mem = s.mem := rfl
@[simp] theorem setProgram_path (s : State) (b : BusNo) (p : Option StepProgram) : (s.setProgram b p).path = s.path := rfl
@[simp] theorem setProgram_writerQueue (s : State) (b : BusNo) (p : Option StepProgram) : (s.setProgram b p).writerQueue = s.writerQueue := rfl
@[simp] theorem setProgram_starvation (s : State) (b : BusNo) (p : Option StepProgram) : (s.setProgram b p).starvation = s.starvation := rfl
@[simp] theorem setProgram_hostAccesses (s : State) (b : BusNo) (p : Option StepProgram) : (s.setProgram b p).hostAccesses = s.hostAccesses := rfl
@[simp] theorem setProgram_readHold (s : State) (b : BusNo) (p : Option StepProgram) : (s.setProgram b p).readHold = s.readHold := rfl
@[simp] theorem setProgram_resultHoldSpent (s : State) (b : BusNo) (p : Option StepProgram) : (s.setProgram b p).resultHoldSpent = s.resultHoldSpent := rfl
@[simp] theorem setProgram_readData (s : State) (b : BusNo) (p : Option StepProgram) : (s.setProgram b p).readData = s.readData := rfl
@[simp] theorem setProgram_staging (s : State) (b : BusNo) (p : Option StepProgram) : (s.setProgram b p).staging = s.staging := rfl
@[simp] theorem setProgram_anchor (s : State) (b : BusNo) (p : Option StepProgram) : (s.setProgram b p).anchor = s.anchor := rfl
@[simp] theorem setProgram_lastCommit (s : State) (b : BusNo) (p : Option StepProgram) : (s.setProgram b p).lastCommit = s.lastCommit := rfl
@[simp] theorem setProgram_flags (s : State) (b : BusNo) (p : Option StepProgram) : (s.setProgram b p).flags = s.flags := rfl
@[simp] theorem setProgram_shadows (s : State) (b : BusNo) (p : Option StepProgram) : (s.setProgram b p).shadows = s.shadows := rfl
@[simp] theorem setProgram_takeIndex (s : State) (b : BusNo) (p : Option StepProgram) : (s.setProgram b p).takeIndex = s.takeIndex := rfl
@[simp] theorem setProgram_testWaiting (s : State) (b : BusNo) (p : Option StepProgram) : (s.setProgram b p).testWaiting = s.testWaiting := rfl
@[simp] theorem setProgram_fence (s : State) (b : BusNo) (p : Option StepProgram) : (s.setProgram b p).fence = s.fence := rfl
@[simp] theorem setProgram_queue (s : State) (b : BusNo) (p : Option StepProgram) : (s.setProgram b p).queue = s.queue := rfl
@[simp] theorem setProgram_cancelSinceLook (s : State) (b : BusNo) (p : Option StepProgram) : (s.setProgram b p).cancelSinceLook = s.cancelSinceLook := rfl
@[simp] theorem setProgram_buses (s : State) (b : BusNo) (p : Option StepProgram) : (s.setProgram b p).buses = s.buses := rfl
@[simp] theorem setProgram_claimCounter (s : State) (b : BusNo) (p : Option StepProgram) : (s.setProgram b p).claimCounter = s.claimCounter := rfl
@[simp] theorem setProgram_resyncPending (s : State) (b : BusNo) (p : Option StepProgram) : (s.setProgram b p).resyncPending = s.resyncPending := rfl
@[simp] theorem setProgram_heads (s : State) (b : BusNo) (p : Option StepProgram) : (s.setProgram b p).heads = s.heads := rfl
@[simp] theorem setProgram_waitQueue (s : State) (b : BusNo) (p : Option StepProgram) : (s.setProgram b p).waitQueue = s.waitQueue := rfl
@[simp] theorem setProgram_programs (s : State) (b : BusNo) (p : Option StepProgram) : (s.setProgram b p).programs = putEntry s.programs b p := rfl
@[simp] theorem setProgram_lines (s : State) (b : BusNo) (p : Option StepProgram) : (s.setProgram b p).lines = s.lines := rfl
@[simp] theorem setProgram_sweep (s : State) (b : BusNo) (p : Option StepProgram) : (s.setProgram b p).sweep = s.sweep := rfl
@[simp] theorem setProgram_pointer (s : State) (b : BusNo) (p : Option StepProgram) : (s.setProgram b p).pointer = s.pointer := rfl
@[simp] theorem setProgram_epoch (s : State) (b : BusNo) (p : Option StepProgram) : (s.setProgram b p).epoch = s.epoch := rfl
@[simp] theorem setProgram_pacing (s : State) (b : BusNo) (p : Option StepProgram) : (s.setProgram b p).pacing = s.pacing := rfl
@[simp] theorem setProgram_focus (s : State) (b : BusNo) (p : Option StepProgram) : (s.setProgram b p).focus = s.focus := rfl
@[simp] theorem setProgram_register (s : State) (b : BusNo) (p : Option StepProgram) : (s.setProgram b p).register = s.register := rfl
@[simp] theorem setProgram_coalescing (s : State) (b : BusNo) (p : Option StepProgram) : (s.setProgram b p).coalescing = s.coalescing := rfl
@[simp] theorem setProgram_outbox (s : State) (b : BusNo) (p : Option StepProgram) : (s.setProgram b p).outbox = s.outbox := rfl
@[simp] theorem setProgram_ticketSeq (s : State) (b : BusNo) (p : Option StepProgram) : (s.setProgram b p).ticketSeq = s.ticketSeq := rfl
@[simp] theorem setProgram_produce (s : State) (b : BusNo) (p : Option StepProgram) : (s.setProgram b p).produce = s.produce := rfl
@[simp] theorem setProgram_consume (s : State) (b : BusNo) (p : Option StepProgram) : (s.setProgram b p).consume = s.consume := rfl
@[simp] theorem setProgram_droppedBefore (s : State) (b : BusNo) (p : Option StepProgram) : (s.setProgram b p).droppedBefore = s.droppedBefore := rfl
@[simp] theorem setProgram_droppedTotal (s : State) (b : BusNo) (p : Option StepProgram) : (s.setProgram b p).droppedTotal = s.droppedTotal := rfl
@[simp] theorem setProgram_groups (s : State) (b : BusNo) (p : Option StepProgram) : (s.setProgram b p).groups = s.groups := rfl
@[simp] theorem setProgram_alarmList (s : State) (b : BusNo) (p : Option StepProgram) : (s.setProgram b p).alarmList = s.alarmList := rfl
@[simp] theorem setProgram_alarmOverflow (s : State) (b : BusNo) (p : Option StepProgram) : (s.setProgram b p).alarmOverflow = s.alarmOverflow := rfl
@[simp] theorem setProgram_exchangeOut (s : State) (b : BusNo) (p : Option StepProgram) : (s.setProgram b p).exchangeOut = s.exchangeOut := rfl
@[simp] theorem setProgram_matrixOut (s : State) (b : BusNo) (p : Option StepProgram) : (s.setProgram b p).matrixOut = s.matrixOut := rfl
@[simp] theorem setProgram_headOut (s : State) (b : BusNo) (p : Option StepProgram) : (s.setProgram b p).headOut = s.headOut := rfl
@[simp] theorem setProgram_begun (s : State) (b : BusNo) (p : Option StepProgram) : (s.setProgram b p).begun = s.begun := rfl
@[simp] theorem setProgram_view_bus (s : State) (b : BusNo) (p : Option StepProgram) (x : BusNo) : (s.setProgram b p).bus x = s.bus x := rfl
@[simp] theorem setProgram_view_head (s : State) (b : BusNo) (p : Option StepProgram) (x : HeadNo) : (s.setProgram b p).head x = s.head x := rfl
@[simp] theorem setProgram_view_line (s : State) (b : BusNo) (p : Option StepProgram) (x : LineNo) : (s.setProgram b p).line x = s.line x := rfl
@[simp] theorem setProgram_view_group (s : State) (b : BusNo) (p : Option StepProgram) (x : GroupNo) : (s.setProgram b p).group x = s.group x := rfl
@[simp] theorem setProgram_view_shadow (s : State) (b : BusNo) (p : Option StepProgram) (x : Fin 64) : (s.setProgram b p).shadow x = s.shadow x := rfl
@[simp] theorem setProgram_view_flag (s : State) (b : BusNo) (p : Option StepProgram) (x : Flag) : (s.setProgram b p).flag x = s.flag x := rfl

/-! ## setLine -/

@[simp] theorem setLine_pending (s : State) (l : LineNo) (r : LineRecord) : (s.setLine l r).pending = s.pending := rfl
@[simp] theorem setLine_freeIndex (s : State) (l : LineNo) (r : LineRecord) : (s.setLine l r).freeIndex = s.freeIndex := rfl
@[simp] theorem setLine_mem (s : State) (l : LineNo) (r : LineRecord) : (s.setLine l r).mem = s.mem := rfl
@[simp] theorem setLine_path (s : State) (l : LineNo) (r : LineRecord) : (s.setLine l r).path = s.path := rfl
@[simp] theorem setLine_writerQueue (s : State) (l : LineNo) (r : LineRecord) : (s.setLine l r).writerQueue = s.writerQueue := rfl
@[simp] theorem setLine_starvation (s : State) (l : LineNo) (r : LineRecord) : (s.setLine l r).starvation = s.starvation := rfl
@[simp] theorem setLine_hostAccesses (s : State) (l : LineNo) (r : LineRecord) : (s.setLine l r).hostAccesses = s.hostAccesses := rfl
@[simp] theorem setLine_readHold (s : State) (l : LineNo) (r : LineRecord) : (s.setLine l r).readHold = s.readHold := rfl
@[simp] theorem setLine_resultHoldSpent (s : State) (l : LineNo) (r : LineRecord) : (s.setLine l r).resultHoldSpent = s.resultHoldSpent := rfl
@[simp] theorem setLine_readData (s : State) (l : LineNo) (r : LineRecord) : (s.setLine l r).readData = s.readData := rfl
@[simp] theorem setLine_staging (s : State) (l : LineNo) (r : LineRecord) : (s.setLine l r).staging = s.staging := rfl
@[simp] theorem setLine_anchor (s : State) (l : LineNo) (r : LineRecord) : (s.setLine l r).anchor = s.anchor := rfl
@[simp] theorem setLine_lastCommit (s : State) (l : LineNo) (r : LineRecord) : (s.setLine l r).lastCommit = s.lastCommit := rfl
@[simp] theorem setLine_flags (s : State) (l : LineNo) (r : LineRecord) : (s.setLine l r).flags = s.flags := rfl
@[simp] theorem setLine_shadows (s : State) (l : LineNo) (r : LineRecord) : (s.setLine l r).shadows = s.shadows := rfl
@[simp] theorem setLine_takeIndex (s : State) (l : LineNo) (r : LineRecord) : (s.setLine l r).takeIndex = s.takeIndex := rfl
@[simp] theorem setLine_testWaiting (s : State) (l : LineNo) (r : LineRecord) : (s.setLine l r).testWaiting = s.testWaiting := rfl
@[simp] theorem setLine_fence (s : State) (l : LineNo) (r : LineRecord) : (s.setLine l r).fence = s.fence := rfl
@[simp] theorem setLine_queue (s : State) (l : LineNo) (r : LineRecord) : (s.setLine l r).queue = s.queue := rfl
@[simp] theorem setLine_cancelSinceLook (s : State) (l : LineNo) (r : LineRecord) : (s.setLine l r).cancelSinceLook = s.cancelSinceLook := rfl
@[simp] theorem setLine_buses (s : State) (l : LineNo) (r : LineRecord) : (s.setLine l r).buses = s.buses := rfl
@[simp] theorem setLine_claimCounter (s : State) (l : LineNo) (r : LineRecord) : (s.setLine l r).claimCounter = s.claimCounter := rfl
@[simp] theorem setLine_resyncPending (s : State) (l : LineNo) (r : LineRecord) : (s.setLine l r).resyncPending = s.resyncPending := rfl
@[simp] theorem setLine_heads (s : State) (l : LineNo) (r : LineRecord) : (s.setLine l r).heads = s.heads := rfl
@[simp] theorem setLine_waitQueue (s : State) (l : LineNo) (r : LineRecord) : (s.setLine l r).waitQueue = s.waitQueue := rfl
@[simp] theorem setLine_programs (s : State) (l : LineNo) (r : LineRecord) : (s.setLine l r).programs = s.programs := rfl
@[simp] theorem setLine_lines (s : State) (l : LineNo) (r : LineRecord) : (s.setLine l r).lines = putEntry s.lines l r := rfl
@[simp] theorem setLine_sweep (s : State) (l : LineNo) (r : LineRecord) : (s.setLine l r).sweep = s.sweep := rfl
@[simp] theorem setLine_pointer (s : State) (l : LineNo) (r : LineRecord) : (s.setLine l r).pointer = s.pointer := rfl
@[simp] theorem setLine_epoch (s : State) (l : LineNo) (r : LineRecord) : (s.setLine l r).epoch = s.epoch := rfl
@[simp] theorem setLine_pacing (s : State) (l : LineNo) (r : LineRecord) : (s.setLine l r).pacing = s.pacing := rfl
@[simp] theorem setLine_focus (s : State) (l : LineNo) (r : LineRecord) : (s.setLine l r).focus = s.focus := rfl
@[simp] theorem setLine_register (s : State) (l : LineNo) (r : LineRecord) : (s.setLine l r).register = s.register := rfl
@[simp] theorem setLine_coalescing (s : State) (l : LineNo) (r : LineRecord) : (s.setLine l r).coalescing = s.coalescing := rfl
@[simp] theorem setLine_outbox (s : State) (l : LineNo) (r : LineRecord) : (s.setLine l r).outbox = s.outbox := rfl
@[simp] theorem setLine_ticketSeq (s : State) (l : LineNo) (r : LineRecord) : (s.setLine l r).ticketSeq = s.ticketSeq := rfl
@[simp] theorem setLine_produce (s : State) (l : LineNo) (r : LineRecord) : (s.setLine l r).produce = s.produce := rfl
@[simp] theorem setLine_consume (s : State) (l : LineNo) (r : LineRecord) : (s.setLine l r).consume = s.consume := rfl
@[simp] theorem setLine_droppedBefore (s : State) (l : LineNo) (r : LineRecord) : (s.setLine l r).droppedBefore = s.droppedBefore := rfl
@[simp] theorem setLine_droppedTotal (s : State) (l : LineNo) (r : LineRecord) : (s.setLine l r).droppedTotal = s.droppedTotal := rfl
@[simp] theorem setLine_groups (s : State) (l : LineNo) (r : LineRecord) : (s.setLine l r).groups = s.groups := rfl
@[simp] theorem setLine_alarmList (s : State) (l : LineNo) (r : LineRecord) : (s.setLine l r).alarmList = s.alarmList := rfl
@[simp] theorem setLine_alarmOverflow (s : State) (l : LineNo) (r : LineRecord) : (s.setLine l r).alarmOverflow = s.alarmOverflow := rfl
@[simp] theorem setLine_exchangeOut (s : State) (l : LineNo) (r : LineRecord) : (s.setLine l r).exchangeOut = s.exchangeOut := rfl
@[simp] theorem setLine_matrixOut (s : State) (l : LineNo) (r : LineRecord) : (s.setLine l r).matrixOut = s.matrixOut := rfl
@[simp] theorem setLine_headOut (s : State) (l : LineNo) (r : LineRecord) : (s.setLine l r).headOut = s.headOut := rfl
@[simp] theorem setLine_begun (s : State) (l : LineNo) (r : LineRecord) : (s.setLine l r).begun = s.begun := rfl
@[simp] theorem setLine_view_bus (s : State) (l : LineNo) (r : LineRecord) (x : BusNo) : (s.setLine l r).bus x = s.bus x := rfl
@[simp] theorem setLine_view_head (s : State) (l : LineNo) (r : LineRecord) (x : HeadNo) : (s.setLine l r).head x = s.head x := rfl
@[simp] theorem setLine_view_program (s : State) (l : LineNo) (r : LineRecord) (x : BusNo) : (s.setLine l r).program x = s.program x := rfl
@[simp] theorem setLine_view_group (s : State) (l : LineNo) (r : LineRecord) (x : GroupNo) : (s.setLine l r).group x = s.group x := rfl
@[simp] theorem setLine_view_shadow (s : State) (l : LineNo) (r : LineRecord) (x : Fin 64) : (s.setLine l r).shadow x = s.shadow x := rfl
@[simp] theorem setLine_view_flag (s : State) (l : LineNo) (r : LineRecord) (x : Flag) : (s.setLine l r).flag x = s.flag x := rfl

/-! ## mapLines -/

@[simp] theorem mapLines_pending (s : State) (f : LineRecord → LineRecord) : (s.mapLines f).pending = s.pending := rfl
@[simp] theorem mapLines_freeIndex (s : State) (f : LineRecord → LineRecord) : (s.mapLines f).freeIndex = s.freeIndex := rfl
@[simp] theorem mapLines_mem (s : State) (f : LineRecord → LineRecord) : (s.mapLines f).mem = s.mem := rfl
@[simp] theorem mapLines_path (s : State) (f : LineRecord → LineRecord) : (s.mapLines f).path = s.path := rfl
@[simp] theorem mapLines_writerQueue (s : State) (f : LineRecord → LineRecord) : (s.mapLines f).writerQueue = s.writerQueue := rfl
@[simp] theorem mapLines_starvation (s : State) (f : LineRecord → LineRecord) : (s.mapLines f).starvation = s.starvation := rfl
@[simp] theorem mapLines_hostAccesses (s : State) (f : LineRecord → LineRecord) : (s.mapLines f).hostAccesses = s.hostAccesses := rfl
@[simp] theorem mapLines_readHold (s : State) (f : LineRecord → LineRecord) : (s.mapLines f).readHold = s.readHold := rfl
@[simp] theorem mapLines_resultHoldSpent (s : State) (f : LineRecord → LineRecord) : (s.mapLines f).resultHoldSpent = s.resultHoldSpent := rfl
@[simp] theorem mapLines_readData (s : State) (f : LineRecord → LineRecord) : (s.mapLines f).readData = s.readData := rfl
@[simp] theorem mapLines_staging (s : State) (f : LineRecord → LineRecord) : (s.mapLines f).staging = s.staging := rfl
@[simp] theorem mapLines_anchor (s : State) (f : LineRecord → LineRecord) : (s.mapLines f).anchor = s.anchor := rfl
@[simp] theorem mapLines_lastCommit (s : State) (f : LineRecord → LineRecord) : (s.mapLines f).lastCommit = s.lastCommit := rfl
@[simp] theorem mapLines_flags (s : State) (f : LineRecord → LineRecord) : (s.mapLines f).flags = s.flags := rfl
@[simp] theorem mapLines_shadows (s : State) (f : LineRecord → LineRecord) : (s.mapLines f).shadows = s.shadows := rfl
@[simp] theorem mapLines_takeIndex (s : State) (f : LineRecord → LineRecord) : (s.mapLines f).takeIndex = s.takeIndex := rfl
@[simp] theorem mapLines_testWaiting (s : State) (f : LineRecord → LineRecord) : (s.mapLines f).testWaiting = s.testWaiting := rfl
@[simp] theorem mapLines_fence (s : State) (f : LineRecord → LineRecord) : (s.mapLines f).fence = s.fence := rfl
@[simp] theorem mapLines_queue (s : State) (f : LineRecord → LineRecord) : (s.mapLines f).queue = s.queue := rfl
@[simp] theorem mapLines_cancelSinceLook (s : State) (f : LineRecord → LineRecord) : (s.mapLines f).cancelSinceLook = s.cancelSinceLook := rfl
@[simp] theorem mapLines_buses (s : State) (f : LineRecord → LineRecord) : (s.mapLines f).buses = s.buses := rfl
@[simp] theorem mapLines_claimCounter (s : State) (f : LineRecord → LineRecord) : (s.mapLines f).claimCounter = s.claimCounter := rfl
@[simp] theorem mapLines_resyncPending (s : State) (f : LineRecord → LineRecord) : (s.mapLines f).resyncPending = s.resyncPending := rfl
@[simp] theorem mapLines_heads (s : State) (f : LineRecord → LineRecord) : (s.mapLines f).heads = s.heads := rfl
@[simp] theorem mapLines_waitQueue (s : State) (f : LineRecord → LineRecord) : (s.mapLines f).waitQueue = s.waitQueue := rfl
@[simp] theorem mapLines_programs (s : State) (f : LineRecord → LineRecord) : (s.mapLines f).programs = s.programs := rfl
@[simp] theorem mapLines_lines (s : State) (f : LineRecord → LineRecord) : (s.mapLines f).lines = mapEntries f s.lines := rfl
@[simp] theorem mapLines_sweep (s : State) (f : LineRecord → LineRecord) : (s.mapLines f).sweep = s.sweep := rfl
@[simp] theorem mapLines_pointer (s : State) (f : LineRecord → LineRecord) : (s.mapLines f).pointer = s.pointer := rfl
@[simp] theorem mapLines_epoch (s : State) (f : LineRecord → LineRecord) : (s.mapLines f).epoch = s.epoch := rfl
@[simp] theorem mapLines_pacing (s : State) (f : LineRecord → LineRecord) : (s.mapLines f).pacing = s.pacing := rfl
@[simp] theorem mapLines_focus (s : State) (f : LineRecord → LineRecord) : (s.mapLines f).focus = s.focus := rfl
@[simp] theorem mapLines_register (s : State) (f : LineRecord → LineRecord) : (s.mapLines f).register = s.register := rfl
@[simp] theorem mapLines_coalescing (s : State) (f : LineRecord → LineRecord) : (s.mapLines f).coalescing = s.coalescing := rfl
@[simp] theorem mapLines_outbox (s : State) (f : LineRecord → LineRecord) : (s.mapLines f).outbox = s.outbox := rfl
@[simp] theorem mapLines_ticketSeq (s : State) (f : LineRecord → LineRecord) : (s.mapLines f).ticketSeq = s.ticketSeq := rfl
@[simp] theorem mapLines_produce (s : State) (f : LineRecord → LineRecord) : (s.mapLines f).produce = s.produce := rfl
@[simp] theorem mapLines_consume (s : State) (f : LineRecord → LineRecord) : (s.mapLines f).consume = s.consume := rfl
@[simp] theorem mapLines_droppedBefore (s : State) (f : LineRecord → LineRecord) : (s.mapLines f).droppedBefore = s.droppedBefore := rfl
@[simp] theorem mapLines_droppedTotal (s : State) (f : LineRecord → LineRecord) : (s.mapLines f).droppedTotal = s.droppedTotal := rfl
@[simp] theorem mapLines_groups (s : State) (f : LineRecord → LineRecord) : (s.mapLines f).groups = s.groups := rfl
@[simp] theorem mapLines_alarmList (s : State) (f : LineRecord → LineRecord) : (s.mapLines f).alarmList = s.alarmList := rfl
@[simp] theorem mapLines_alarmOverflow (s : State) (f : LineRecord → LineRecord) : (s.mapLines f).alarmOverflow = s.alarmOverflow := rfl
@[simp] theorem mapLines_exchangeOut (s : State) (f : LineRecord → LineRecord) : (s.mapLines f).exchangeOut = s.exchangeOut := rfl
@[simp] theorem mapLines_matrixOut (s : State) (f : LineRecord → LineRecord) : (s.mapLines f).matrixOut = s.matrixOut := rfl
@[simp] theorem mapLines_headOut (s : State) (f : LineRecord → LineRecord) : (s.mapLines f).headOut = s.headOut := rfl
@[simp] theorem mapLines_begun (s : State) (f : LineRecord → LineRecord) : (s.mapLines f).begun = s.begun := rfl
@[simp] theorem mapLines_view_bus (s : State) (f : LineRecord → LineRecord) (x : BusNo) : (s.mapLines f).bus x = s.bus x := rfl
@[simp] theorem mapLines_view_head (s : State) (f : LineRecord → LineRecord) (x : HeadNo) : (s.mapLines f).head x = s.head x := rfl
@[simp] theorem mapLines_view_program (s : State) (f : LineRecord → LineRecord) (x : BusNo) : (s.mapLines f).program x = s.program x := rfl
@[simp] theorem mapLines_view_group (s : State) (f : LineRecord → LineRecord) (x : GroupNo) : (s.mapLines f).group x = s.group x := rfl
@[simp] theorem mapLines_view_shadow (s : State) (f : LineRecord → LineRecord) (x : Fin 64) : (s.mapLines f).shadow x = s.shadow x := rfl
@[simp] theorem mapLines_view_flag (s : State) (f : LineRecord → LineRecord) (x : Flag) : (s.mapLines f).flag x = s.flag x := rfl

/-! ## setGroup -/

@[simp] theorem setGroup_pending (s : State) (g : GroupNo) (r : GroupRecord) : (s.setGroup g r).pending = s.pending := rfl
@[simp] theorem setGroup_freeIndex (s : State) (g : GroupNo) (r : GroupRecord) : (s.setGroup g r).freeIndex = s.freeIndex := rfl
@[simp] theorem setGroup_mem (s : State) (g : GroupNo) (r : GroupRecord) : (s.setGroup g r).mem = s.mem := rfl
@[simp] theorem setGroup_path (s : State) (g : GroupNo) (r : GroupRecord) : (s.setGroup g r).path = s.path := rfl
@[simp] theorem setGroup_writerQueue (s : State) (g : GroupNo) (r : GroupRecord) : (s.setGroup g r).writerQueue = s.writerQueue := rfl
@[simp] theorem setGroup_starvation (s : State) (g : GroupNo) (r : GroupRecord) : (s.setGroup g r).starvation = s.starvation := rfl
@[simp] theorem setGroup_hostAccesses (s : State) (g : GroupNo) (r : GroupRecord) : (s.setGroup g r).hostAccesses = s.hostAccesses := rfl
@[simp] theorem setGroup_readHold (s : State) (g : GroupNo) (r : GroupRecord) : (s.setGroup g r).readHold = s.readHold := rfl
@[simp] theorem setGroup_resultHoldSpent (s : State) (g : GroupNo) (r : GroupRecord) : (s.setGroup g r).resultHoldSpent = s.resultHoldSpent := rfl
@[simp] theorem setGroup_readData (s : State) (g : GroupNo) (r : GroupRecord) : (s.setGroup g r).readData = s.readData := rfl
@[simp] theorem setGroup_staging (s : State) (g : GroupNo) (r : GroupRecord) : (s.setGroup g r).staging = s.staging := rfl
@[simp] theorem setGroup_anchor (s : State) (g : GroupNo) (r : GroupRecord) : (s.setGroup g r).anchor = s.anchor := rfl
@[simp] theorem setGroup_lastCommit (s : State) (g : GroupNo) (r : GroupRecord) : (s.setGroup g r).lastCommit = s.lastCommit := rfl
@[simp] theorem setGroup_flags (s : State) (g : GroupNo) (r : GroupRecord) : (s.setGroup g r).flags = s.flags := rfl
@[simp] theorem setGroup_shadows (s : State) (g : GroupNo) (r : GroupRecord) : (s.setGroup g r).shadows = s.shadows := rfl
@[simp] theorem setGroup_takeIndex (s : State) (g : GroupNo) (r : GroupRecord) : (s.setGroup g r).takeIndex = s.takeIndex := rfl
@[simp] theorem setGroup_testWaiting (s : State) (g : GroupNo) (r : GroupRecord) : (s.setGroup g r).testWaiting = s.testWaiting := rfl
@[simp] theorem setGroup_fence (s : State) (g : GroupNo) (r : GroupRecord) : (s.setGroup g r).fence = s.fence := rfl
@[simp] theorem setGroup_queue (s : State) (g : GroupNo) (r : GroupRecord) : (s.setGroup g r).queue = s.queue := rfl
@[simp] theorem setGroup_cancelSinceLook (s : State) (g : GroupNo) (r : GroupRecord) : (s.setGroup g r).cancelSinceLook = s.cancelSinceLook := rfl
@[simp] theorem setGroup_buses (s : State) (g : GroupNo) (r : GroupRecord) : (s.setGroup g r).buses = s.buses := rfl
@[simp] theorem setGroup_claimCounter (s : State) (g : GroupNo) (r : GroupRecord) : (s.setGroup g r).claimCounter = s.claimCounter := rfl
@[simp] theorem setGroup_resyncPending (s : State) (g : GroupNo) (r : GroupRecord) : (s.setGroup g r).resyncPending = s.resyncPending := rfl
@[simp] theorem setGroup_heads (s : State) (g : GroupNo) (r : GroupRecord) : (s.setGroup g r).heads = s.heads := rfl
@[simp] theorem setGroup_waitQueue (s : State) (g : GroupNo) (r : GroupRecord) : (s.setGroup g r).waitQueue = s.waitQueue := rfl
@[simp] theorem setGroup_programs (s : State) (g : GroupNo) (r : GroupRecord) : (s.setGroup g r).programs = s.programs := rfl
@[simp] theorem setGroup_lines (s : State) (g : GroupNo) (r : GroupRecord) : (s.setGroup g r).lines = s.lines := rfl
@[simp] theorem setGroup_sweep (s : State) (g : GroupNo) (r : GroupRecord) : (s.setGroup g r).sweep = s.sweep := rfl
@[simp] theorem setGroup_pointer (s : State) (g : GroupNo) (r : GroupRecord) : (s.setGroup g r).pointer = s.pointer := rfl
@[simp] theorem setGroup_epoch (s : State) (g : GroupNo) (r : GroupRecord) : (s.setGroup g r).epoch = s.epoch := rfl
@[simp] theorem setGroup_pacing (s : State) (g : GroupNo) (r : GroupRecord) : (s.setGroup g r).pacing = s.pacing := rfl
@[simp] theorem setGroup_focus (s : State) (g : GroupNo) (r : GroupRecord) : (s.setGroup g r).focus = s.focus := rfl
@[simp] theorem setGroup_register (s : State) (g : GroupNo) (r : GroupRecord) : (s.setGroup g r).register = s.register := rfl
@[simp] theorem setGroup_coalescing (s : State) (g : GroupNo) (r : GroupRecord) : (s.setGroup g r).coalescing = s.coalescing := rfl
@[simp] theorem setGroup_outbox (s : State) (g : GroupNo) (r : GroupRecord) : (s.setGroup g r).outbox = s.outbox := rfl
@[simp] theorem setGroup_ticketSeq (s : State) (g : GroupNo) (r : GroupRecord) : (s.setGroup g r).ticketSeq = s.ticketSeq := rfl
@[simp] theorem setGroup_produce (s : State) (g : GroupNo) (r : GroupRecord) : (s.setGroup g r).produce = s.produce := rfl
@[simp] theorem setGroup_consume (s : State) (g : GroupNo) (r : GroupRecord) : (s.setGroup g r).consume = s.consume := rfl
@[simp] theorem setGroup_droppedBefore (s : State) (g : GroupNo) (r : GroupRecord) : (s.setGroup g r).droppedBefore = s.droppedBefore := rfl
@[simp] theorem setGroup_droppedTotal (s : State) (g : GroupNo) (r : GroupRecord) : (s.setGroup g r).droppedTotal = s.droppedTotal := rfl
@[simp] theorem setGroup_groups (s : State) (g : GroupNo) (r : GroupRecord) : (s.setGroup g r).groups = putEntry s.groups g r := rfl
@[simp] theorem setGroup_alarmList (s : State) (g : GroupNo) (r : GroupRecord) : (s.setGroup g r).alarmList = s.alarmList := rfl
@[simp] theorem setGroup_alarmOverflow (s : State) (g : GroupNo) (r : GroupRecord) : (s.setGroup g r).alarmOverflow = s.alarmOverflow := rfl
@[simp] theorem setGroup_exchangeOut (s : State) (g : GroupNo) (r : GroupRecord) : (s.setGroup g r).exchangeOut = s.exchangeOut := rfl
@[simp] theorem setGroup_matrixOut (s : State) (g : GroupNo) (r : GroupRecord) : (s.setGroup g r).matrixOut = s.matrixOut := rfl
@[simp] theorem setGroup_headOut (s : State) (g : GroupNo) (r : GroupRecord) : (s.setGroup g r).headOut = s.headOut := rfl
@[simp] theorem setGroup_begun (s : State) (g : GroupNo) (r : GroupRecord) : (s.setGroup g r).begun = s.begun := rfl
@[simp] theorem setGroup_view_bus (s : State) (g : GroupNo) (r : GroupRecord) (x : BusNo) : (s.setGroup g r).bus x = s.bus x := rfl
@[simp] theorem setGroup_view_head (s : State) (g : GroupNo) (r : GroupRecord) (x : HeadNo) : (s.setGroup g r).head x = s.head x := rfl
@[simp] theorem setGroup_view_program (s : State) (g : GroupNo) (r : GroupRecord) (x : BusNo) : (s.setGroup g r).program x = s.program x := rfl
@[simp] theorem setGroup_view_line (s : State) (g : GroupNo) (r : GroupRecord) (x : LineNo) : (s.setGroup g r).line x = s.line x := rfl
@[simp] theorem setGroup_view_shadow (s : State) (g : GroupNo) (r : GroupRecord) (x : Fin 64) : (s.setGroup g r).shadow x = s.shadow x := rfl
@[simp] theorem setGroup_view_flag (s : State) (g : GroupNo) (r : GroupRecord) (x : Flag) : (s.setGroup g r).flag x = s.flag x := rfl

/-! ## setShadow -/

@[simp] theorem setShadow_pending (s : State) (i : Fin 64) (r : Shadow) : (s.setShadow i r).pending = s.pending := rfl
@[simp] theorem setShadow_freeIndex (s : State) (i : Fin 64) (r : Shadow) : (s.setShadow i r).freeIndex = s.freeIndex := rfl
@[simp] theorem setShadow_mem (s : State) (i : Fin 64) (r : Shadow) : (s.setShadow i r).mem = s.mem := rfl
@[simp] theorem setShadow_path (s : State) (i : Fin 64) (r : Shadow) : (s.setShadow i r).path = s.path := rfl
@[simp] theorem setShadow_writerQueue (s : State) (i : Fin 64) (r : Shadow) : (s.setShadow i r).writerQueue = s.writerQueue := rfl
@[simp] theorem setShadow_starvation (s : State) (i : Fin 64) (r : Shadow) : (s.setShadow i r).starvation = s.starvation := rfl
@[simp] theorem setShadow_hostAccesses (s : State) (i : Fin 64) (r : Shadow) : (s.setShadow i r).hostAccesses = s.hostAccesses := rfl
@[simp] theorem setShadow_readHold (s : State) (i : Fin 64) (r : Shadow) : (s.setShadow i r).readHold = s.readHold := rfl
@[simp] theorem setShadow_resultHoldSpent (s : State) (i : Fin 64) (r : Shadow) : (s.setShadow i r).resultHoldSpent = s.resultHoldSpent := rfl
@[simp] theorem setShadow_readData (s : State) (i : Fin 64) (r : Shadow) : (s.setShadow i r).readData = s.readData := rfl
@[simp] theorem setShadow_staging (s : State) (i : Fin 64) (r : Shadow) : (s.setShadow i r).staging = s.staging := rfl
@[simp] theorem setShadow_anchor (s : State) (i : Fin 64) (r : Shadow) : (s.setShadow i r).anchor = s.anchor := rfl
@[simp] theorem setShadow_lastCommit (s : State) (i : Fin 64) (r : Shadow) : (s.setShadow i r).lastCommit = s.lastCommit := rfl
@[simp] theorem setShadow_flags (s : State) (i : Fin 64) (r : Shadow) : (s.setShadow i r).flags = s.flags := rfl
@[simp] theorem setShadow_shadows (s : State) (i : Fin 64) (r : Shadow) : (s.setShadow i r).shadows = putEntry s.shadows i r := rfl
@[simp] theorem setShadow_takeIndex (s : State) (i : Fin 64) (r : Shadow) : (s.setShadow i r).takeIndex = s.takeIndex := rfl
@[simp] theorem setShadow_testWaiting (s : State) (i : Fin 64) (r : Shadow) : (s.setShadow i r).testWaiting = s.testWaiting := rfl
@[simp] theorem setShadow_fence (s : State) (i : Fin 64) (r : Shadow) : (s.setShadow i r).fence = s.fence := rfl
@[simp] theorem setShadow_queue (s : State) (i : Fin 64) (r : Shadow) : (s.setShadow i r).queue = s.queue := rfl
@[simp] theorem setShadow_cancelSinceLook (s : State) (i : Fin 64) (r : Shadow) : (s.setShadow i r).cancelSinceLook = s.cancelSinceLook := rfl
@[simp] theorem setShadow_buses (s : State) (i : Fin 64) (r : Shadow) : (s.setShadow i r).buses = s.buses := rfl
@[simp] theorem setShadow_claimCounter (s : State) (i : Fin 64) (r : Shadow) : (s.setShadow i r).claimCounter = s.claimCounter := rfl
@[simp] theorem setShadow_resyncPending (s : State) (i : Fin 64) (r : Shadow) : (s.setShadow i r).resyncPending = s.resyncPending := rfl
@[simp] theorem setShadow_heads (s : State) (i : Fin 64) (r : Shadow) : (s.setShadow i r).heads = s.heads := rfl
@[simp] theorem setShadow_waitQueue (s : State) (i : Fin 64) (r : Shadow) : (s.setShadow i r).waitQueue = s.waitQueue := rfl
@[simp] theorem setShadow_programs (s : State) (i : Fin 64) (r : Shadow) : (s.setShadow i r).programs = s.programs := rfl
@[simp] theorem setShadow_lines (s : State) (i : Fin 64) (r : Shadow) : (s.setShadow i r).lines = s.lines := rfl
@[simp] theorem setShadow_sweep (s : State) (i : Fin 64) (r : Shadow) : (s.setShadow i r).sweep = s.sweep := rfl
@[simp] theorem setShadow_pointer (s : State) (i : Fin 64) (r : Shadow) : (s.setShadow i r).pointer = s.pointer := rfl
@[simp] theorem setShadow_epoch (s : State) (i : Fin 64) (r : Shadow) : (s.setShadow i r).epoch = s.epoch := rfl
@[simp] theorem setShadow_pacing (s : State) (i : Fin 64) (r : Shadow) : (s.setShadow i r).pacing = s.pacing := rfl
@[simp] theorem setShadow_focus (s : State) (i : Fin 64) (r : Shadow) : (s.setShadow i r).focus = s.focus := rfl
@[simp] theorem setShadow_register (s : State) (i : Fin 64) (r : Shadow) : (s.setShadow i r).register = s.register := rfl
@[simp] theorem setShadow_coalescing (s : State) (i : Fin 64) (r : Shadow) : (s.setShadow i r).coalescing = s.coalescing := rfl
@[simp] theorem setShadow_outbox (s : State) (i : Fin 64) (r : Shadow) : (s.setShadow i r).outbox = s.outbox := rfl
@[simp] theorem setShadow_ticketSeq (s : State) (i : Fin 64) (r : Shadow) : (s.setShadow i r).ticketSeq = s.ticketSeq := rfl
@[simp] theorem setShadow_produce (s : State) (i : Fin 64) (r : Shadow) : (s.setShadow i r).produce = s.produce := rfl
@[simp] theorem setShadow_consume (s : State) (i : Fin 64) (r : Shadow) : (s.setShadow i r).consume = s.consume := rfl
@[simp] theorem setShadow_droppedBefore (s : State) (i : Fin 64) (r : Shadow) : (s.setShadow i r).droppedBefore = s.droppedBefore := rfl
@[simp] theorem setShadow_droppedTotal (s : State) (i : Fin 64) (r : Shadow) : (s.setShadow i r).droppedTotal = s.droppedTotal := rfl
@[simp] theorem setShadow_groups (s : State) (i : Fin 64) (r : Shadow) : (s.setShadow i r).groups = s.groups := rfl
@[simp] theorem setShadow_alarmList (s : State) (i : Fin 64) (r : Shadow) : (s.setShadow i r).alarmList = s.alarmList := rfl
@[simp] theorem setShadow_alarmOverflow (s : State) (i : Fin 64) (r : Shadow) : (s.setShadow i r).alarmOverflow = s.alarmOverflow := rfl
@[simp] theorem setShadow_exchangeOut (s : State) (i : Fin 64) (r : Shadow) : (s.setShadow i r).exchangeOut = s.exchangeOut := rfl
@[simp] theorem setShadow_matrixOut (s : State) (i : Fin 64) (r : Shadow) : (s.setShadow i r).matrixOut = s.matrixOut := rfl
@[simp] theorem setShadow_headOut (s : State) (i : Fin 64) (r : Shadow) : (s.setShadow i r).headOut = s.headOut := rfl
@[simp] theorem setShadow_begun (s : State) (i : Fin 64) (r : Shadow) : (s.setShadow i r).begun = s.begun := rfl
@[simp] theorem setShadow_view_bus (s : State) (i : Fin 64) (r : Shadow) (x : BusNo) : (s.setShadow i r).bus x = s.bus x := rfl
@[simp] theorem setShadow_view_head (s : State) (i : Fin 64) (r : Shadow) (x : HeadNo) : (s.setShadow i r).head x = s.head x := rfl
@[simp] theorem setShadow_view_program (s : State) (i : Fin 64) (r : Shadow) (x : BusNo) : (s.setShadow i r).program x = s.program x := rfl
@[simp] theorem setShadow_view_line (s : State) (i : Fin 64) (r : Shadow) (x : LineNo) : (s.setShadow i r).line x = s.line x := rfl
@[simp] theorem setShadow_view_group (s : State) (i : Fin 64) (r : Shadow) (x : GroupNo) : (s.setShadow i r).group x = s.group x := rfl
@[simp] theorem setShadow_view_flag (s : State) (i : Fin 64) (r : Shadow) (x : Flag) : (s.setShadow i r).flag x = s.flag x := rfl

/-! ## sendExchange -/

@[simp] theorem sendExchange_pending (s : State) (m : ExchangeMessage) : (s.sendExchange m).pending = s.pending := rfl
@[simp] theorem sendExchange_freeIndex (s : State) (m : ExchangeMessage) : (s.sendExchange m).freeIndex = s.freeIndex := rfl
@[simp] theorem sendExchange_mem (s : State) (m : ExchangeMessage) : (s.sendExchange m).mem = s.mem := rfl
@[simp] theorem sendExchange_path (s : State) (m : ExchangeMessage) : (s.sendExchange m).path = s.path := rfl
@[simp] theorem sendExchange_writerQueue (s : State) (m : ExchangeMessage) : (s.sendExchange m).writerQueue = s.writerQueue := rfl
@[simp] theorem sendExchange_starvation (s : State) (m : ExchangeMessage) : (s.sendExchange m).starvation = s.starvation := rfl
@[simp] theorem sendExchange_hostAccesses (s : State) (m : ExchangeMessage) : (s.sendExchange m).hostAccesses = s.hostAccesses := rfl
@[simp] theorem sendExchange_readHold (s : State) (m : ExchangeMessage) : (s.sendExchange m).readHold = s.readHold := rfl
@[simp] theorem sendExchange_resultHoldSpent (s : State) (m : ExchangeMessage) : (s.sendExchange m).resultHoldSpent = s.resultHoldSpent := rfl
@[simp] theorem sendExchange_readData (s : State) (m : ExchangeMessage) : (s.sendExchange m).readData = s.readData := rfl
@[simp] theorem sendExchange_staging (s : State) (m : ExchangeMessage) : (s.sendExchange m).staging = s.staging := rfl
@[simp] theorem sendExchange_anchor (s : State) (m : ExchangeMessage) : (s.sendExchange m).anchor = s.anchor := rfl
@[simp] theorem sendExchange_lastCommit (s : State) (m : ExchangeMessage) : (s.sendExchange m).lastCommit = s.lastCommit := rfl
@[simp] theorem sendExchange_flags (s : State) (m : ExchangeMessage) : (s.sendExchange m).flags = s.flags := rfl
@[simp] theorem sendExchange_shadows (s : State) (m : ExchangeMessage) : (s.sendExchange m).shadows = s.shadows := rfl
@[simp] theorem sendExchange_takeIndex (s : State) (m : ExchangeMessage) : (s.sendExchange m).takeIndex = s.takeIndex := rfl
@[simp] theorem sendExchange_testWaiting (s : State) (m : ExchangeMessage) : (s.sendExchange m).testWaiting = s.testWaiting := rfl
@[simp] theorem sendExchange_fence (s : State) (m : ExchangeMessage) : (s.sendExchange m).fence = s.fence := rfl
@[simp] theorem sendExchange_queue (s : State) (m : ExchangeMessage) : (s.sendExchange m).queue = s.queue := rfl
@[simp] theorem sendExchange_cancelSinceLook (s : State) (m : ExchangeMessage) : (s.sendExchange m).cancelSinceLook = s.cancelSinceLook := rfl
@[simp] theorem sendExchange_buses (s : State) (m : ExchangeMessage) : (s.sendExchange m).buses = s.buses := rfl
@[simp] theorem sendExchange_claimCounter (s : State) (m : ExchangeMessage) : (s.sendExchange m).claimCounter = s.claimCounter := rfl
@[simp] theorem sendExchange_resyncPending (s : State) (m : ExchangeMessage) : (s.sendExchange m).resyncPending = s.resyncPending := rfl
@[simp] theorem sendExchange_heads (s : State) (m : ExchangeMessage) : (s.sendExchange m).heads = s.heads := rfl
@[simp] theorem sendExchange_waitQueue (s : State) (m : ExchangeMessage) : (s.sendExchange m).waitQueue = s.waitQueue := rfl
@[simp] theorem sendExchange_programs (s : State) (m : ExchangeMessage) : (s.sendExchange m).programs = s.programs := rfl
@[simp] theorem sendExchange_lines (s : State) (m : ExchangeMessage) : (s.sendExchange m).lines = s.lines := rfl
@[simp] theorem sendExchange_sweep (s : State) (m : ExchangeMessage) : (s.sendExchange m).sweep = s.sweep := rfl
@[simp] theorem sendExchange_pointer (s : State) (m : ExchangeMessage) : (s.sendExchange m).pointer = s.pointer := rfl
@[simp] theorem sendExchange_epoch (s : State) (m : ExchangeMessage) : (s.sendExchange m).epoch = s.epoch := rfl
@[simp] theorem sendExchange_pacing (s : State) (m : ExchangeMessage) : (s.sendExchange m).pacing = s.pacing := rfl
@[simp] theorem sendExchange_focus (s : State) (m : ExchangeMessage) : (s.sendExchange m).focus = s.focus := rfl
@[simp] theorem sendExchange_register (s : State) (m : ExchangeMessage) : (s.sendExchange m).register = s.register := rfl
@[simp] theorem sendExchange_coalescing (s : State) (m : ExchangeMessage) : (s.sendExchange m).coalescing = s.coalescing := rfl
@[simp] theorem sendExchange_outbox (s : State) (m : ExchangeMessage) : (s.sendExchange m).outbox = s.outbox := rfl
@[simp] theorem sendExchange_ticketSeq (s : State) (m : ExchangeMessage) : (s.sendExchange m).ticketSeq = s.ticketSeq := rfl
@[simp] theorem sendExchange_produce (s : State) (m : ExchangeMessage) : (s.sendExchange m).produce = s.produce := rfl
@[simp] theorem sendExchange_consume (s : State) (m : ExchangeMessage) : (s.sendExchange m).consume = s.consume := rfl
@[simp] theorem sendExchange_droppedBefore (s : State) (m : ExchangeMessage) : (s.sendExchange m).droppedBefore = s.droppedBefore := rfl
@[simp] theorem sendExchange_droppedTotal (s : State) (m : ExchangeMessage) : (s.sendExchange m).droppedTotal = s.droppedTotal := rfl
@[simp] theorem sendExchange_groups (s : State) (m : ExchangeMessage) : (s.sendExchange m).groups = s.groups := rfl
@[simp] theorem sendExchange_alarmList (s : State) (m : ExchangeMessage) : (s.sendExchange m).alarmList = s.alarmList := rfl
@[simp] theorem sendExchange_alarmOverflow (s : State) (m : ExchangeMessage) : (s.sendExchange m).alarmOverflow = s.alarmOverflow := rfl
@[simp] theorem sendExchange_exchangeOut (s : State) (m : ExchangeMessage) : (s.sendExchange m).exchangeOut = s.exchangeOut ++ [m] := rfl
@[simp] theorem sendExchange_matrixOut (s : State) (m : ExchangeMessage) : (s.sendExchange m).matrixOut = s.matrixOut := rfl
@[simp] theorem sendExchange_headOut (s : State) (m : ExchangeMessage) : (s.sendExchange m).headOut = s.headOut := rfl
@[simp] theorem sendExchange_begun (s : State) (m : ExchangeMessage) : (s.sendExchange m).begun = s.begun := rfl
@[simp] theorem sendExchange_view_bus (s : State) (m : ExchangeMessage) (x : BusNo) : (s.sendExchange m).bus x = s.bus x := rfl
@[simp] theorem sendExchange_view_head (s : State) (m : ExchangeMessage) (x : HeadNo) : (s.sendExchange m).head x = s.head x := rfl
@[simp] theorem sendExchange_view_program (s : State) (m : ExchangeMessage) (x : BusNo) : (s.sendExchange m).program x = s.program x := rfl
@[simp] theorem sendExchange_view_line (s : State) (m : ExchangeMessage) (x : LineNo) : (s.sendExchange m).line x = s.line x := rfl
@[simp] theorem sendExchange_view_group (s : State) (m : ExchangeMessage) (x : GroupNo) : (s.sendExchange m).group x = s.group x := rfl
@[simp] theorem sendExchange_view_shadow (s : State) (m : ExchangeMessage) (x : Fin 64) : (s.sendExchange m).shadow x = s.shadow x := rfl
@[simp] theorem sendExchange_view_flag (s : State) (m : ExchangeMessage) (x : Flag) : (s.sendExchange m).flag x = s.flag x := rfl

/-! ## sendMatrix -/

@[simp] theorem sendMatrix_pending (s : State) (m : MatrixMessage) : (s.sendMatrix m).pending = s.pending := rfl
@[simp] theorem sendMatrix_freeIndex (s : State) (m : MatrixMessage) : (s.sendMatrix m).freeIndex = s.freeIndex := rfl
@[simp] theorem sendMatrix_mem (s : State) (m : MatrixMessage) : (s.sendMatrix m).mem = s.mem := rfl
@[simp] theorem sendMatrix_path (s : State) (m : MatrixMessage) : (s.sendMatrix m).path = s.path := rfl
@[simp] theorem sendMatrix_writerQueue (s : State) (m : MatrixMessage) : (s.sendMatrix m).writerQueue = s.writerQueue := rfl
@[simp] theorem sendMatrix_starvation (s : State) (m : MatrixMessage) : (s.sendMatrix m).starvation = s.starvation := rfl
@[simp] theorem sendMatrix_hostAccesses (s : State) (m : MatrixMessage) : (s.sendMatrix m).hostAccesses = s.hostAccesses := rfl
@[simp] theorem sendMatrix_readHold (s : State) (m : MatrixMessage) : (s.sendMatrix m).readHold = s.readHold := rfl
@[simp] theorem sendMatrix_resultHoldSpent (s : State) (m : MatrixMessage) : (s.sendMatrix m).resultHoldSpent = s.resultHoldSpent := rfl
@[simp] theorem sendMatrix_readData (s : State) (m : MatrixMessage) : (s.sendMatrix m).readData = s.readData := rfl
@[simp] theorem sendMatrix_staging (s : State) (m : MatrixMessage) : (s.sendMatrix m).staging = s.staging := rfl
@[simp] theorem sendMatrix_anchor (s : State) (m : MatrixMessage) : (s.sendMatrix m).anchor = s.anchor := rfl
@[simp] theorem sendMatrix_lastCommit (s : State) (m : MatrixMessage) : (s.sendMatrix m).lastCommit = s.lastCommit := rfl
@[simp] theorem sendMatrix_flags (s : State) (m : MatrixMessage) : (s.sendMatrix m).flags = s.flags := rfl
@[simp] theorem sendMatrix_shadows (s : State) (m : MatrixMessage) : (s.sendMatrix m).shadows = s.shadows := rfl
@[simp] theorem sendMatrix_takeIndex (s : State) (m : MatrixMessage) : (s.sendMatrix m).takeIndex = s.takeIndex := rfl
@[simp] theorem sendMatrix_testWaiting (s : State) (m : MatrixMessage) : (s.sendMatrix m).testWaiting = s.testWaiting := rfl
@[simp] theorem sendMatrix_fence (s : State) (m : MatrixMessage) : (s.sendMatrix m).fence = s.fence := rfl
@[simp] theorem sendMatrix_queue (s : State) (m : MatrixMessage) : (s.sendMatrix m).queue = s.queue := rfl
@[simp] theorem sendMatrix_cancelSinceLook (s : State) (m : MatrixMessage) : (s.sendMatrix m).cancelSinceLook = s.cancelSinceLook := rfl
@[simp] theorem sendMatrix_buses (s : State) (m : MatrixMessage) : (s.sendMatrix m).buses = s.buses := rfl
@[simp] theorem sendMatrix_claimCounter (s : State) (m : MatrixMessage) : (s.sendMatrix m).claimCounter = s.claimCounter := rfl
@[simp] theorem sendMatrix_resyncPending (s : State) (m : MatrixMessage) : (s.sendMatrix m).resyncPending = s.resyncPending := rfl
@[simp] theorem sendMatrix_heads (s : State) (m : MatrixMessage) : (s.sendMatrix m).heads = s.heads := rfl
@[simp] theorem sendMatrix_waitQueue (s : State) (m : MatrixMessage) : (s.sendMatrix m).waitQueue = s.waitQueue := rfl
@[simp] theorem sendMatrix_programs (s : State) (m : MatrixMessage) : (s.sendMatrix m).programs = s.programs := rfl
@[simp] theorem sendMatrix_lines (s : State) (m : MatrixMessage) : (s.sendMatrix m).lines = s.lines := rfl
@[simp] theorem sendMatrix_sweep (s : State) (m : MatrixMessage) : (s.sendMatrix m).sweep = s.sweep := rfl
@[simp] theorem sendMatrix_pointer (s : State) (m : MatrixMessage) : (s.sendMatrix m).pointer = s.pointer := rfl
@[simp] theorem sendMatrix_epoch (s : State) (m : MatrixMessage) : (s.sendMatrix m).epoch = s.epoch := rfl
@[simp] theorem sendMatrix_pacing (s : State) (m : MatrixMessage) : (s.sendMatrix m).pacing = s.pacing := rfl
@[simp] theorem sendMatrix_focus (s : State) (m : MatrixMessage) : (s.sendMatrix m).focus = s.focus := rfl
@[simp] theorem sendMatrix_register (s : State) (m : MatrixMessage) : (s.sendMatrix m).register = s.register := rfl
@[simp] theorem sendMatrix_coalescing (s : State) (m : MatrixMessage) : (s.sendMatrix m).coalescing = s.coalescing := rfl
@[simp] theorem sendMatrix_outbox (s : State) (m : MatrixMessage) : (s.sendMatrix m).outbox = s.outbox := rfl
@[simp] theorem sendMatrix_ticketSeq (s : State) (m : MatrixMessage) : (s.sendMatrix m).ticketSeq = s.ticketSeq := rfl
@[simp] theorem sendMatrix_produce (s : State) (m : MatrixMessage) : (s.sendMatrix m).produce = s.produce := rfl
@[simp] theorem sendMatrix_consume (s : State) (m : MatrixMessage) : (s.sendMatrix m).consume = s.consume := rfl
@[simp] theorem sendMatrix_droppedBefore (s : State) (m : MatrixMessage) : (s.sendMatrix m).droppedBefore = s.droppedBefore := rfl
@[simp] theorem sendMatrix_droppedTotal (s : State) (m : MatrixMessage) : (s.sendMatrix m).droppedTotal = s.droppedTotal := rfl
@[simp] theorem sendMatrix_groups (s : State) (m : MatrixMessage) : (s.sendMatrix m).groups = s.groups := rfl
@[simp] theorem sendMatrix_alarmList (s : State) (m : MatrixMessage) : (s.sendMatrix m).alarmList = s.alarmList := rfl
@[simp] theorem sendMatrix_alarmOverflow (s : State) (m : MatrixMessage) : (s.sendMatrix m).alarmOverflow = s.alarmOverflow := rfl
@[simp] theorem sendMatrix_exchangeOut (s : State) (m : MatrixMessage) : (s.sendMatrix m).exchangeOut = s.exchangeOut := rfl
@[simp] theorem sendMatrix_matrixOut (s : State) (m : MatrixMessage) : (s.sendMatrix m).matrixOut = s.matrixOut ++ [m] := rfl
@[simp] theorem sendMatrix_headOut (s : State) (m : MatrixMessage) : (s.sendMatrix m).headOut = s.headOut := rfl
@[simp] theorem sendMatrix_begun (s : State) (m : MatrixMessage) : (s.sendMatrix m).begun = s.begun := rfl
@[simp] theorem sendMatrix_view_bus (s : State) (m : MatrixMessage) (x : BusNo) : (s.sendMatrix m).bus x = s.bus x := rfl
@[simp] theorem sendMatrix_view_head (s : State) (m : MatrixMessage) (x : HeadNo) : (s.sendMatrix m).head x = s.head x := rfl
@[simp] theorem sendMatrix_view_program (s : State) (m : MatrixMessage) (x : BusNo) : (s.sendMatrix m).program x = s.program x := rfl
@[simp] theorem sendMatrix_view_line (s : State) (m : MatrixMessage) (x : LineNo) : (s.sendMatrix m).line x = s.line x := rfl
@[simp] theorem sendMatrix_view_group (s : State) (m : MatrixMessage) (x : GroupNo) : (s.sendMatrix m).group x = s.group x := rfl
@[simp] theorem sendMatrix_view_shadow (s : State) (m : MatrixMessage) (x : Fin 64) : (s.sendMatrix m).shadow x = s.shadow x := rfl
@[simp] theorem sendMatrix_view_flag (s : State) (m : MatrixMessage) (x : Flag) : (s.sendMatrix m).flag x = s.flag x := rfl

/-! ## sendHead -/

@[simp] theorem sendHead_pending (s : State) (m : HeadMessage) : (s.sendHead m).pending = s.pending := rfl
@[simp] theorem sendHead_freeIndex (s : State) (m : HeadMessage) : (s.sendHead m).freeIndex = s.freeIndex := rfl
@[simp] theorem sendHead_mem (s : State) (m : HeadMessage) : (s.sendHead m).mem = s.mem := rfl
@[simp] theorem sendHead_path (s : State) (m : HeadMessage) : (s.sendHead m).path = s.path := rfl
@[simp] theorem sendHead_writerQueue (s : State) (m : HeadMessage) : (s.sendHead m).writerQueue = s.writerQueue := rfl
@[simp] theorem sendHead_starvation (s : State) (m : HeadMessage) : (s.sendHead m).starvation = s.starvation := rfl
@[simp] theorem sendHead_hostAccesses (s : State) (m : HeadMessage) : (s.sendHead m).hostAccesses = s.hostAccesses := rfl
@[simp] theorem sendHead_readHold (s : State) (m : HeadMessage) : (s.sendHead m).readHold = s.readHold := rfl
@[simp] theorem sendHead_resultHoldSpent (s : State) (m : HeadMessage) : (s.sendHead m).resultHoldSpent = s.resultHoldSpent := rfl
@[simp] theorem sendHead_readData (s : State) (m : HeadMessage) : (s.sendHead m).readData = s.readData := rfl
@[simp] theorem sendHead_staging (s : State) (m : HeadMessage) : (s.sendHead m).staging = s.staging := rfl
@[simp] theorem sendHead_anchor (s : State) (m : HeadMessage) : (s.sendHead m).anchor = s.anchor := rfl
@[simp] theorem sendHead_lastCommit (s : State) (m : HeadMessage) : (s.sendHead m).lastCommit = s.lastCommit := rfl
@[simp] theorem sendHead_flags (s : State) (m : HeadMessage) : (s.sendHead m).flags = s.flags := rfl
@[simp] theorem sendHead_shadows (s : State) (m : HeadMessage) : (s.sendHead m).shadows = s.shadows := rfl
@[simp] theorem sendHead_takeIndex (s : State) (m : HeadMessage) : (s.sendHead m).takeIndex = s.takeIndex := rfl
@[simp] theorem sendHead_testWaiting (s : State) (m : HeadMessage) : (s.sendHead m).testWaiting = s.testWaiting := rfl
@[simp] theorem sendHead_fence (s : State) (m : HeadMessage) : (s.sendHead m).fence = s.fence := rfl
@[simp] theorem sendHead_queue (s : State) (m : HeadMessage) : (s.sendHead m).queue = s.queue := rfl
@[simp] theorem sendHead_cancelSinceLook (s : State) (m : HeadMessage) : (s.sendHead m).cancelSinceLook = s.cancelSinceLook := rfl
@[simp] theorem sendHead_buses (s : State) (m : HeadMessage) : (s.sendHead m).buses = s.buses := rfl
@[simp] theorem sendHead_claimCounter (s : State) (m : HeadMessage) : (s.sendHead m).claimCounter = s.claimCounter := rfl
@[simp] theorem sendHead_resyncPending (s : State) (m : HeadMessage) : (s.sendHead m).resyncPending = s.resyncPending := rfl
@[simp] theorem sendHead_heads (s : State) (m : HeadMessage) : (s.sendHead m).heads = s.heads := rfl
@[simp] theorem sendHead_waitQueue (s : State) (m : HeadMessage) : (s.sendHead m).waitQueue = s.waitQueue := rfl
@[simp] theorem sendHead_programs (s : State) (m : HeadMessage) : (s.sendHead m).programs = s.programs := rfl
@[simp] theorem sendHead_lines (s : State) (m : HeadMessage) : (s.sendHead m).lines = s.lines := rfl
@[simp] theorem sendHead_sweep (s : State) (m : HeadMessage) : (s.sendHead m).sweep = s.sweep := rfl
@[simp] theorem sendHead_pointer (s : State) (m : HeadMessage) : (s.sendHead m).pointer = s.pointer := rfl
@[simp] theorem sendHead_epoch (s : State) (m : HeadMessage) : (s.sendHead m).epoch = s.epoch := rfl
@[simp] theorem sendHead_pacing (s : State) (m : HeadMessage) : (s.sendHead m).pacing = s.pacing := rfl
@[simp] theorem sendHead_focus (s : State) (m : HeadMessage) : (s.sendHead m).focus = s.focus := rfl
@[simp] theorem sendHead_register (s : State) (m : HeadMessage) : (s.sendHead m).register = s.register := rfl
@[simp] theorem sendHead_coalescing (s : State) (m : HeadMessage) : (s.sendHead m).coalescing = s.coalescing := rfl
@[simp] theorem sendHead_outbox (s : State) (m : HeadMessage) : (s.sendHead m).outbox = s.outbox := rfl
@[simp] theorem sendHead_ticketSeq (s : State) (m : HeadMessage) : (s.sendHead m).ticketSeq = s.ticketSeq := rfl
@[simp] theorem sendHead_produce (s : State) (m : HeadMessage) : (s.sendHead m).produce = s.produce := rfl
@[simp] theorem sendHead_consume (s : State) (m : HeadMessage) : (s.sendHead m).consume = s.consume := rfl
@[simp] theorem sendHead_droppedBefore (s : State) (m : HeadMessage) : (s.sendHead m).droppedBefore = s.droppedBefore := rfl
@[simp] theorem sendHead_droppedTotal (s : State) (m : HeadMessage) : (s.sendHead m).droppedTotal = s.droppedTotal := rfl
@[simp] theorem sendHead_groups (s : State) (m : HeadMessage) : (s.sendHead m).groups = s.groups := rfl
@[simp] theorem sendHead_alarmList (s : State) (m : HeadMessage) : (s.sendHead m).alarmList = s.alarmList := rfl
@[simp] theorem sendHead_alarmOverflow (s : State) (m : HeadMessage) : (s.sendHead m).alarmOverflow = s.alarmOverflow := rfl
@[simp] theorem sendHead_exchangeOut (s : State) (m : HeadMessage) : (s.sendHead m).exchangeOut = s.exchangeOut := rfl
@[simp] theorem sendHead_matrixOut (s : State) (m : HeadMessage) : (s.sendHead m).matrixOut = s.matrixOut := rfl
@[simp] theorem sendHead_headOut (s : State) (m : HeadMessage) : (s.sendHead m).headOut = s.headOut ++ [m] := rfl
@[simp] theorem sendHead_begun (s : State) (m : HeadMessage) : (s.sendHead m).begun = s.begun := rfl
@[simp] theorem sendHead_view_bus (s : State) (m : HeadMessage) (x : BusNo) : (s.sendHead m).bus x = s.bus x := rfl
@[simp] theorem sendHead_view_head (s : State) (m : HeadMessage) (x : HeadNo) : (s.sendHead m).head x = s.head x := rfl
@[simp] theorem sendHead_view_program (s : State) (m : HeadMessage) (x : BusNo) : (s.sendHead m).program x = s.program x := rfl
@[simp] theorem sendHead_view_line (s : State) (m : HeadMessage) (x : LineNo) : (s.sendHead m).line x = s.line x := rfl
@[simp] theorem sendHead_view_group (s : State) (m : HeadMessage) (x : GroupNo) : (s.sendHead m).group x = s.group x := rfl
@[simp] theorem sendHead_view_shadow (s : State) (m : HeadMessage) (x : Fin 64) : (s.sendHead m).shadow x = s.shadow x := rfl
@[simp] theorem sendHead_view_flag (s : State) (m : HeadMessage) (x : Flag) : (s.sendHead m).flag x = s.flag x := rfl

/-! ## pushEntry -/

@[simp] theorem pushEntry_pending (s : State) (e : WriterEntry) : (s.pushEntry e).pending = s.pending := rfl
@[simp] theorem pushEntry_freeIndex (s : State) (e : WriterEntry) : (s.pushEntry e).freeIndex = s.freeIndex := rfl
@[simp] theorem pushEntry_mem (s : State) (e : WriterEntry) : (s.pushEntry e).mem = s.mem := rfl
@[simp] theorem pushEntry_path (s : State) (e : WriterEntry) : (s.pushEntry e).path = s.path := rfl
@[simp] theorem pushEntry_writerQueue (s : State) (e : WriterEntry) : (s.pushEntry e).writerQueue = s.writerQueue ++ [e] := rfl
@[simp] theorem pushEntry_starvation (s : State) (e : WriterEntry) : (s.pushEntry e).starvation = s.starvation := rfl
@[simp] theorem pushEntry_hostAccesses (s : State) (e : WriterEntry) : (s.pushEntry e).hostAccesses = s.hostAccesses := rfl
@[simp] theorem pushEntry_readHold (s : State) (e : WriterEntry) : (s.pushEntry e).readHold = s.readHold := rfl
@[simp] theorem pushEntry_resultHoldSpent (s : State) (e : WriterEntry) : (s.pushEntry e).resultHoldSpent = s.resultHoldSpent := rfl
@[simp] theorem pushEntry_readData (s : State) (e : WriterEntry) : (s.pushEntry e).readData = s.readData := rfl
@[simp] theorem pushEntry_staging (s : State) (e : WriterEntry) : (s.pushEntry e).staging = s.staging := rfl
@[simp] theorem pushEntry_anchor (s : State) (e : WriterEntry) : (s.pushEntry e).anchor = s.anchor := rfl
@[simp] theorem pushEntry_lastCommit (s : State) (e : WriterEntry) : (s.pushEntry e).lastCommit = s.lastCommit := rfl
@[simp] theorem pushEntry_flags (s : State) (e : WriterEntry) : (s.pushEntry e).flags = s.flags := rfl
@[simp] theorem pushEntry_shadows (s : State) (e : WriterEntry) : (s.pushEntry e).shadows = s.shadows := rfl
@[simp] theorem pushEntry_takeIndex (s : State) (e : WriterEntry) : (s.pushEntry e).takeIndex = s.takeIndex := rfl
@[simp] theorem pushEntry_testWaiting (s : State) (e : WriterEntry) : (s.pushEntry e).testWaiting = s.testWaiting := rfl
@[simp] theorem pushEntry_fence (s : State) (e : WriterEntry) : (s.pushEntry e).fence = s.fence := rfl
@[simp] theorem pushEntry_queue (s : State) (e : WriterEntry) : (s.pushEntry e).queue = s.queue := rfl
@[simp] theorem pushEntry_cancelSinceLook (s : State) (e : WriterEntry) : (s.pushEntry e).cancelSinceLook = s.cancelSinceLook := rfl
@[simp] theorem pushEntry_buses (s : State) (e : WriterEntry) : (s.pushEntry e).buses = s.buses := rfl
@[simp] theorem pushEntry_claimCounter (s : State) (e : WriterEntry) : (s.pushEntry e).claimCounter = s.claimCounter := rfl
@[simp] theorem pushEntry_resyncPending (s : State) (e : WriterEntry) : (s.pushEntry e).resyncPending = s.resyncPending := rfl
@[simp] theorem pushEntry_heads (s : State) (e : WriterEntry) : (s.pushEntry e).heads = s.heads := rfl
@[simp] theorem pushEntry_waitQueue (s : State) (e : WriterEntry) : (s.pushEntry e).waitQueue = s.waitQueue := rfl
@[simp] theorem pushEntry_programs (s : State) (e : WriterEntry) : (s.pushEntry e).programs = s.programs := rfl
@[simp] theorem pushEntry_lines (s : State) (e : WriterEntry) : (s.pushEntry e).lines = s.lines := rfl
@[simp] theorem pushEntry_sweep (s : State) (e : WriterEntry) : (s.pushEntry e).sweep = s.sweep := rfl
@[simp] theorem pushEntry_pointer (s : State) (e : WriterEntry) : (s.pushEntry e).pointer = s.pointer := rfl
@[simp] theorem pushEntry_epoch (s : State) (e : WriterEntry) : (s.pushEntry e).epoch = s.epoch := rfl
@[simp] theorem pushEntry_pacing (s : State) (e : WriterEntry) : (s.pushEntry e).pacing = s.pacing := rfl
@[simp] theorem pushEntry_focus (s : State) (e : WriterEntry) : (s.pushEntry e).focus = s.focus := rfl
@[simp] theorem pushEntry_register (s : State) (e : WriterEntry) : (s.pushEntry e).register = s.register := rfl
@[simp] theorem pushEntry_coalescing (s : State) (e : WriterEntry) : (s.pushEntry e).coalescing = s.coalescing := rfl
@[simp] theorem pushEntry_outbox (s : State) (e : WriterEntry) : (s.pushEntry e).outbox = s.outbox := rfl
@[simp] theorem pushEntry_ticketSeq (s : State) (e : WriterEntry) : (s.pushEntry e).ticketSeq = s.ticketSeq := rfl
@[simp] theorem pushEntry_produce (s : State) (e : WriterEntry) : (s.pushEntry e).produce = s.produce := rfl
@[simp] theorem pushEntry_consume (s : State) (e : WriterEntry) : (s.pushEntry e).consume = s.consume := rfl
@[simp] theorem pushEntry_droppedBefore (s : State) (e : WriterEntry) : (s.pushEntry e).droppedBefore = s.droppedBefore := rfl
@[simp] theorem pushEntry_droppedTotal (s : State) (e : WriterEntry) : (s.pushEntry e).droppedTotal = s.droppedTotal := rfl
@[simp] theorem pushEntry_groups (s : State) (e : WriterEntry) : (s.pushEntry e).groups = s.groups := rfl
@[simp] theorem pushEntry_alarmList (s : State) (e : WriterEntry) : (s.pushEntry e).alarmList = s.alarmList := rfl
@[simp] theorem pushEntry_alarmOverflow (s : State) (e : WriterEntry) : (s.pushEntry e).alarmOverflow = s.alarmOverflow := rfl
@[simp] theorem pushEntry_exchangeOut (s : State) (e : WriterEntry) : (s.pushEntry e).exchangeOut = s.exchangeOut := rfl
@[simp] theorem pushEntry_matrixOut (s : State) (e : WriterEntry) : (s.pushEntry e).matrixOut = s.matrixOut := rfl
@[simp] theorem pushEntry_headOut (s : State) (e : WriterEntry) : (s.pushEntry e).headOut = s.headOut := rfl
@[simp] theorem pushEntry_begun (s : State) (e : WriterEntry) : (s.pushEntry e).begun = s.begun := rfl
@[simp] theorem pushEntry_view_bus (s : State) (e : WriterEntry) (x : BusNo) : (s.pushEntry e).bus x = s.bus x := rfl
@[simp] theorem pushEntry_view_head (s : State) (e : WriterEntry) (x : HeadNo) : (s.pushEntry e).head x = s.head x := rfl
@[simp] theorem pushEntry_view_program (s : State) (e : WriterEntry) (x : BusNo) : (s.pushEntry e).program x = s.program x := rfl
@[simp] theorem pushEntry_view_line (s : State) (e : WriterEntry) (x : LineNo) : (s.pushEntry e).line x = s.line x := rfl
@[simp] theorem pushEntry_view_group (s : State) (e : WriterEntry) (x : GroupNo) : (s.pushEntry e).group x = s.group x := rfl
@[simp] theorem pushEntry_view_shadow (s : State) (e : WriterEntry) (x : Fin 64) : (s.pushEntry e).shadow x = s.shadow x := rfl
@[simp] theorem pushEntry_view_flag (s : State) (e : WriterEntry) (x : Flag) : (s.pushEntry e).flag x = s.flag x := rfl

/-! ## setFlag -/

@[simp] theorem setFlag_pending (s : State) (f : Flag) (c : FlagCondition) : (s.setFlag f c).pending = s.pending := rfl
@[simp] theorem setFlag_freeIndex (s : State) (f : Flag) (c : FlagCondition) : (s.setFlag f c).freeIndex = s.freeIndex := rfl
@[simp] theorem setFlag_mem (s : State) (f : Flag) (c : FlagCondition) : (s.setFlag f c).mem = s.mem := rfl
@[simp] theorem setFlag_path (s : State) (f : Flag) (c : FlagCondition) : (s.setFlag f c).path = s.path := rfl
@[simp] theorem setFlag_writerQueue (s : State) (f : Flag) (c : FlagCondition) : (s.setFlag f c).writerQueue = s.writerQueue := rfl
@[simp] theorem setFlag_starvation (s : State) (f : Flag) (c : FlagCondition) : (s.setFlag f c).starvation = s.starvation := rfl
@[simp] theorem setFlag_hostAccesses (s : State) (f : Flag) (c : FlagCondition) : (s.setFlag f c).hostAccesses = s.hostAccesses := rfl
@[simp] theorem setFlag_readHold (s : State) (f : Flag) (c : FlagCondition) : (s.setFlag f c).readHold = s.readHold := rfl
@[simp] theorem setFlag_resultHoldSpent (s : State) (f : Flag) (c : FlagCondition) : (s.setFlag f c).resultHoldSpent = s.resultHoldSpent := rfl
@[simp] theorem setFlag_readData (s : State) (f : Flag) (c : FlagCondition) : (s.setFlag f c).readData = s.readData := rfl
@[simp] theorem setFlag_staging (s : State) (f : Flag) (c : FlagCondition) : (s.setFlag f c).staging = s.staging := rfl
@[simp] theorem setFlag_anchor (s : State) (f : Flag) (c : FlagCondition) : (s.setFlag f c).anchor = s.anchor := rfl
@[simp] theorem setFlag_lastCommit (s : State) (f : Flag) (c : FlagCondition) : (s.setFlag f c).lastCommit = s.lastCommit := rfl
@[simp] theorem setFlag_flags (s : State) (f : Flag) (c : FlagCondition) : (s.setFlag f c).flags = putEntry s.flags f.index c := rfl
@[simp] theorem setFlag_shadows (s : State) (f : Flag) (c : FlagCondition) : (s.setFlag f c).shadows = s.shadows := rfl
@[simp] theorem setFlag_takeIndex (s : State) (f : Flag) (c : FlagCondition) : (s.setFlag f c).takeIndex = s.takeIndex := rfl
@[simp] theorem setFlag_testWaiting (s : State) (f : Flag) (c : FlagCondition) : (s.setFlag f c).testWaiting = s.testWaiting := rfl
@[simp] theorem setFlag_fence (s : State) (f : Flag) (c : FlagCondition) : (s.setFlag f c).fence = s.fence := rfl
@[simp] theorem setFlag_queue (s : State) (f : Flag) (c : FlagCondition) : (s.setFlag f c).queue = s.queue := rfl
@[simp] theorem setFlag_cancelSinceLook (s : State) (f : Flag) (c : FlagCondition) : (s.setFlag f c).cancelSinceLook = s.cancelSinceLook := rfl
@[simp] theorem setFlag_buses (s : State) (f : Flag) (c : FlagCondition) : (s.setFlag f c).buses = s.buses := rfl
@[simp] theorem setFlag_claimCounter (s : State) (f : Flag) (c : FlagCondition) : (s.setFlag f c).claimCounter = s.claimCounter := rfl
@[simp] theorem setFlag_resyncPending (s : State) (f : Flag) (c : FlagCondition) : (s.setFlag f c).resyncPending = s.resyncPending := rfl
@[simp] theorem setFlag_heads (s : State) (f : Flag) (c : FlagCondition) : (s.setFlag f c).heads = s.heads := rfl
@[simp] theorem setFlag_waitQueue (s : State) (f : Flag) (c : FlagCondition) : (s.setFlag f c).waitQueue = s.waitQueue := rfl
@[simp] theorem setFlag_programs (s : State) (f : Flag) (c : FlagCondition) : (s.setFlag f c).programs = s.programs := rfl
@[simp] theorem setFlag_lines (s : State) (f : Flag) (c : FlagCondition) : (s.setFlag f c).lines = s.lines := rfl
@[simp] theorem setFlag_sweep (s : State) (f : Flag) (c : FlagCondition) : (s.setFlag f c).sweep = s.sweep := rfl
@[simp] theorem setFlag_pointer (s : State) (f : Flag) (c : FlagCondition) : (s.setFlag f c).pointer = s.pointer := rfl
@[simp] theorem setFlag_epoch (s : State) (f : Flag) (c : FlagCondition) : (s.setFlag f c).epoch = s.epoch := rfl
@[simp] theorem setFlag_pacing (s : State) (f : Flag) (c : FlagCondition) : (s.setFlag f c).pacing = s.pacing := rfl
@[simp] theorem setFlag_focus (s : State) (f : Flag) (c : FlagCondition) : (s.setFlag f c).focus = s.focus := rfl
@[simp] theorem setFlag_register (s : State) (f : Flag) (c : FlagCondition) : (s.setFlag f c).register = s.register := rfl
@[simp] theorem setFlag_coalescing (s : State) (f : Flag) (c : FlagCondition) : (s.setFlag f c).coalescing = s.coalescing := rfl
@[simp] theorem setFlag_outbox (s : State) (f : Flag) (c : FlagCondition) : (s.setFlag f c).outbox = s.outbox := rfl
@[simp] theorem setFlag_ticketSeq (s : State) (f : Flag) (c : FlagCondition) : (s.setFlag f c).ticketSeq = s.ticketSeq := rfl
@[simp] theorem setFlag_produce (s : State) (f : Flag) (c : FlagCondition) : (s.setFlag f c).produce = s.produce := rfl
@[simp] theorem setFlag_consume (s : State) (f : Flag) (c : FlagCondition) : (s.setFlag f c).consume = s.consume := rfl
@[simp] theorem setFlag_droppedBefore (s : State) (f : Flag) (c : FlagCondition) : (s.setFlag f c).droppedBefore = s.droppedBefore := rfl
@[simp] theorem setFlag_droppedTotal (s : State) (f : Flag) (c : FlagCondition) : (s.setFlag f c).droppedTotal = s.droppedTotal := rfl
@[simp] theorem setFlag_groups (s : State) (f : Flag) (c : FlagCondition) : (s.setFlag f c).groups = s.groups := rfl
@[simp] theorem setFlag_alarmList (s : State) (f : Flag) (c : FlagCondition) : (s.setFlag f c).alarmList = s.alarmList := rfl
@[simp] theorem setFlag_alarmOverflow (s : State) (f : Flag) (c : FlagCondition) : (s.setFlag f c).alarmOverflow = s.alarmOverflow := rfl
@[simp] theorem setFlag_exchangeOut (s : State) (f : Flag) (c : FlagCondition) : (s.setFlag f c).exchangeOut = s.exchangeOut := rfl
@[simp] theorem setFlag_matrixOut (s : State) (f : Flag) (c : FlagCondition) : (s.setFlag f c).matrixOut = s.matrixOut := rfl
@[simp] theorem setFlag_headOut (s : State) (f : Flag) (c : FlagCondition) : (s.setFlag f c).headOut = s.headOut := rfl
@[simp] theorem setFlag_begun (s : State) (f : Flag) (c : FlagCondition) : (s.setFlag f c).begun = s.begun := rfl
@[simp] theorem setFlag_view_bus (s : State) (f : Flag) (c : FlagCondition) (x : BusNo) : (s.setFlag f c).bus x = s.bus x := rfl
@[simp] theorem setFlag_view_head (s : State) (f : Flag) (c : FlagCondition) (x : HeadNo) : (s.setFlag f c).head x = s.head x := rfl
@[simp] theorem setFlag_view_program (s : State) (f : Flag) (c : FlagCondition) (x : BusNo) : (s.setFlag f c).program x = s.program x := rfl
@[simp] theorem setFlag_view_line (s : State) (f : Flag) (c : FlagCondition) (x : LineNo) : (s.setFlag f c).line x = s.line x := rfl
@[simp] theorem setFlag_view_group (s : State) (f : Flag) (c : FlagCondition) (x : GroupNo) : (s.setFlag f c).group x = s.group x := rfl
@[simp] theorem setFlag_view_shadow (s : State) (f : Flag) (c : FlagCondition) (x : Fin 64) : (s.setFlag f c).shadow x = s.shadow x := rfl

/-! ## A record after its own update -/

theorem setBus_view_bus (s : State) (b : BusNo) (r : Bus) (x : BusNo) : (s.setBus b r).bus x = if b = x then r else s.bus x :=
  entry_putEntry _ _ _ _
@[simp] theorem setBus_view_bus_self (s : State) (b : BusNo) (r : Bus) : (s.setBus b r).bus b = r := entry_putEntry_self _ _ _
theorem setHead_view_head (s : State) (h : HeadNo) (r : Head) (x : HeadNo) :
    (s.setHead h r).head x = if h = x then r else s.head x :=
  entry_putEntry _ _ _ _
@[simp] theorem setHead_view_head_self (s : State) (h : HeadNo) (r : Head) : (s.setHead h r).head h = r :=
  entry_putEntry_self _ _ _
theorem setProgram_view_program (s : State) (b : BusNo) (p : Option StepProgram) (x : BusNo) :
    (s.setProgram b p).program x = if b = x then p else s.program x :=
  entry_putEntry _ _ _ _
@[simp] theorem setProgram_view_program_self (s : State) (b : BusNo) (p : Option StepProgram) :
    (s.setProgram b p).program b = p := entry_putEntry_self _ _ _
theorem setLine_view_line (s : State) (l : LineNo) (r : LineRecord) (x : LineNo) :
    (s.setLine l r).line x = if l = x then r else s.line x :=
  entry_putEntry _ _ _ _
@[simp] theorem setLine_view_line_self (s : State) (l : LineNo) (r : LineRecord) : (s.setLine l r).line l = r :=
  entry_putEntry_self _ _ _
@[simp] theorem mapLines_view_line (s : State) (f : LineRecord → LineRecord) (x : LineNo) :
    (s.mapLines f).line x = f (s.line x) := entry_mapEntries _ _ _
theorem setGroup_view_group (s : State) (g : GroupNo) (r : GroupRecord) (x : GroupNo) :
    (s.setGroup g r).group x = if g = x then r else s.group x :=
  entry_putEntry _ _ _ _
@[simp] theorem setGroup_view_group_self (s : State) (g : GroupNo) (r : GroupRecord) : (s.setGroup g r).group g = r :=
  entry_putEntry_self _ _ _
theorem setShadow_view_shadow (s : State) (i : Fin 64) (r : Shadow) (x : Fin 64) :
    (s.setShadow i r).shadow x = if i = x then r else s.shadow x :=
  entry_putEntry _ _ _ _
@[simp] theorem setShadow_view_shadow_self (s : State) (i : Fin 64) (r : Shadow) : (s.setShadow i r).shadow i = r :=
  entry_putEntry_self _ _ _

/-- Every flag has a place of its own in the flag table. -/
theorem Flag.index_injective {f g : Flag} (h : f.index = g.index) : f = g := by
  cases f <;> cases g <;> first | rfl | (exact absurd h (by decide))

theorem setFlag_view_flag (s : State) (f : Flag) (c : FlagCondition) (x : Flag) :
    (s.setFlag f c).flag x = if f = x then c else s.flag x := by
  show entry (putEntry s.flags f.index c) x.index = _
  rw [entry_putEntry]
  by_cases h : f = x
  · simp [h]
  · rw [if_neg (fun e => h (Flag.index_injective e)), if_neg h]
    rfl
@[simp] theorem setFlag_view_flag_self (s : State) (f : Flag) (c : FlagCondition) : (s.setFlag f c).flag f = c :=
  entry_putEntry_self _ _ _

end Sys2Proof.Machine.State
end

