-- ==== Sys2Proof/Laws/Frames.lean ====
section
/-!
SUPPORT. What each shared operation can change, said once: one lemma `<operation>_only` per operation. A proof about a command cites
these, composes them with `OnlyChanges.comp`, and reads a field off with `OnlyChanges.get`.
-/

namespace Sys2Proof.Machine

namespace OnlyChanges

theorem refl (fs : List Field) (s : State) : OnlyChanges fs s s := by
  intro f _
  cases f <;> first | rfl | exact ⟨rfl, fun _ => rfl⟩

theorem trans {fs : List Field} {s t u : State} (h : OnlyChanges fs s t) (k : OnlyChanges fs t u) : OnlyChanges fs s u := by
  intro f hf
  have a := h f hf
  have b := k f hf
  cases f <;> first | exact Eq.trans b a | exact ⟨b.1.trans a.1, fun x => (b.2 x).trans (a.2 x)⟩

theorem weaken {fs gs : List Field} {s t : State} (h : OnlyChanges fs s t) (sub : ∀ f ∈ fs, f ∈ gs) : OnlyChanges gs s t :=
  fun f hf => h f fun m => hf (sub f m)

/-- Two changes one after the other. -/
theorem comp {fs gs hs : List Field} {s t u : State} (h : OnlyChanges fs s t) (k : OnlyChanges gs t u)
    (sub : (fs ++ gs).all (fun f => decide (f ∈ hs)) = true) : OnlyChanges hs s u := by
  have m : ∀ f ∈ fs ++ gs, f ∈ hs := fun f hf => of_decide_eq_true (List.all_eq_true.mp sub f hf)
  exact (h.weaken fun f hf => m f (List.mem_append_left _ hf)).trans (k.weaken fun f hf => m f (List.mem_append_right _ hf))

/-- A field that is not named is the same. -/
theorem get {fs : List Field} {s t : State} (h : OnlyChanges fs s t) (f : Field) (hf : decide (f ∈ fs) = false) : f.same s t :=
  h f (of_decide_eq_false hf)

/-! A record of a table that is not named is the same. -/

theorem bus {fs : List Field} {s t : State} (h : OnlyChanges fs s t) (hf : decide (Field.buses ∈ fs) = false) (x : BusNo) :
    t.bus x = s.bus x := by
  unfold State.bus
  rw [h.get .buses hf]

theorem head {fs : List Field} {s t : State} (h : OnlyChanges fs s t) (hf : decide (Field.heads ∈ fs) = false) (x : HeadNo) :
    t.head x = s.head x := by
  unfold State.head
  rw [h.get .heads hf]

theorem program {fs : List Field} {s t : State} (h : OnlyChanges fs s t) (hf : decide (Field.programs ∈ fs) = false) (x : BusNo) :
    t.program x = s.program x := by
  unfold State.program
  rw [h.get .programs hf]

theorem line {fs : List Field} {s t : State} (h : OnlyChanges fs s t) (hf : decide (Field.lines ∈ fs) = false) (x : LineNo) :
    t.line x = s.line x := by
  unfold State.line
  rw [h.get .lines hf]

theorem group {fs : List Field} {s t : State} (h : OnlyChanges fs s t) (hf : decide (Field.groups ∈ fs) = false) (x : GroupNo) :
    t.group x = s.group x := by
  unfold State.group
  rw [h.get .groups hf]

theorem shadow {fs : List Field} {s t : State} (h : OnlyChanges fs s t) (hf : decide (Field.shadows ∈ fs) = false) (x : Fin 64) :
    t.shadow x = s.shadow x := by
  unfold State.shadow
  rw [h.get .shadows hf]

theorem flag {fs : List Field} {s t : State} (h : OnlyChanges fs s t) (hf : decide (Field.flags ∈ fs) = false) (x : Flag) :
    t.flag x = s.flag x := by
  unfold State.flag
  rw [h.get .flags hf]

end OnlyChanges

/-! ## Setters -/

theorem setBus_only (b : BusNo) (r : Bus) (s : State) : OnlyChanges [.buses] s (s.setBus b r) := by
  intro f hf; cases f <;> first | rfl | exact ⟨rfl, fun _ => rfl⟩ | simp at hf

theorem setHead_only (h : HeadNo) (r : Head) (s : State) : OnlyChanges [.heads] s (s.setHead h r) := by
  intro f hf; cases f <;> first | rfl | exact ⟨rfl, fun _ => rfl⟩ | simp at hf

theorem setProgram_only (b : BusNo) (p : Option StepProgram) (s : State) :
    OnlyChanges [.programs]
      s (s.setProgram b p) := by
  intro f hf; cases f <;> first | rfl | exact ⟨rfl, fun _ => rfl⟩ | simp at hf

theorem setLine_only (l : LineNo) (r : LineRecord) (s : State) : OnlyChanges [.lines] s (s.setLine l r) := by
  intro f hf; cases f <;> first | rfl | exact ⟨rfl, fun _ => rfl⟩ | simp at hf

theorem mapLines_only (f : LineRecord → LineRecord) (s : State) : OnlyChanges [.lines] s (s.mapLines f) := by
  intro x hf; cases x <;> first | rfl | exact ⟨rfl, fun _ => rfl⟩ | simp at hf

theorem setGroup_only (g : GroupNo) (r : GroupRecord) (s : State) : OnlyChanges [.groups] s (s.setGroup g r) := by
  intro f hf; cases f <;> first | rfl | exact ⟨rfl, fun _ => rfl⟩ | simp at hf

theorem setShadow_only (i : Fin 64) (r : Shadow) (s : State) : OnlyChanges [.shadows] s (s.setShadow i r) := by
  intro f hf; cases f <;> first | rfl | exact ⟨rfl, fun _ => rfl⟩ | simp at hf

theorem sendExchange_only (m : ExchangeMessage) (s : State) : OnlyChanges [.exchangeOut] s (s.sendExchange m) := by
  intro f hf; cases f <;> first | rfl | exact ⟨rfl, fun _ => rfl⟩ | simp at hf

theorem sendMatrix_only (m : MatrixMessage) (s : State) : OnlyChanges [.matrixOut] s (s.sendMatrix m) := by
  intro f hf; cases f <;> first | rfl | exact ⟨rfl, fun _ => rfl⟩ | simp at hf

theorem sendHead_only (m : HeadMessage) (s : State) : OnlyChanges [.headOut] s (s.sendHead m) := by
  intro f hf; cases f <;> first | rfl | exact ⟨rfl, fun _ => rfl⟩ | simp at hf

theorem showExchange_only (n : Nat) (s : State) : OnlyChanges [.begun] s (s.showExchange n) := by
  intro f hf; cases f <;> first | rfl | exact ⟨rfl, fun _ => rfl⟩ | simp at hf

theorem showMatrix_only (n : Nat) (s : State) : OnlyChanges [.begun] s (s.showMatrix n) := by
  intro f hf; cases f <;> first | rfl | exact ⟨rfl, fun _ => rfl⟩ | simp at hf

theorem showHead_only (n : Nat) (s : State) : OnlyChanges [.begun] s (s.showHead n) := by
  intro f hf; cases f <;> first | rfl | exact ⟨rfl, fun _ => rfl⟩ | simp at hf

theorem pushEntry_only (e : WriterEntry) (s : State) : OnlyChanges [.news, .writerQueue] s (s.pushEntry e) := by
  intro f hf; cases f <;> first | rfl | exact ⟨rfl, fun _ => rfl⟩ | simp at hf

theorem look_only (p : Bool) (s : State) : OnlyChanges [.cancelSinceLook] s (s.look p) := by
  intro f hf; cases f <;> first | rfl | exact ⟨rfl, fun _ => rfl⟩ | simp at hf

/-- What a look for a move does (R89; log 31). -/
theorem looked_look {event : Prop} {p : Bool} (h : p = true ↔ event) (s : State) : Looked event s (s.look p) := by
  unfold Looked
  rw [← h]
  cases p <;> simp

theorem setFlag_only (g : Flag) (c : FlagCondition) (s : State) : OnlyChanges [.flags] s (s.setFlag g c) := by
  intro f hf; cases f <;> first | rfl | exact ⟨rfl, fun _ => rfl⟩ | simp at hf

/-! ## What a reply shows -/

theorem heardAnswer_only (l : LineNo) (c : ClaimNo) (s : State) : OnlyChanges [.begun] s (heardAnswer l c s) :=
  showExchange_only _ s

theorem heardResyncEnd_only (s : State) : OnlyChanges [.begun] s (heardResyncEnd s) := by
  intro f hf; cases f <;> first | rfl | exact ⟨rfl, fun _ => rfl⟩ | simp at hf

theorem heardSettled_only (b : BusNo) (s : State) : OnlyChanges [.begun] s (heardSettled b s) := showMatrix_only _ s

theorem heardOpened_only (b : BusNo) (s : State) : OnlyChanges [.begun] s (heardOpened b s) := showMatrix_only _ s

theorem heardXpFault_only (b : BusNo) (s : State) : OnlyChanges [.begun] s (heardXpFault b s) := by
  unfold heardXpFault
  split <;> exact showMatrix_only _ s

theorem heardReading_only (h : HeadNo) (s : State) : OnlyChanges [.begun] s (heardReading h s) := showHead_only _ s

theorem heardAborted_only (h : HeadNo) (s : State) : OnlyChanges [.begun] s (heardAborted h s) := showHead_only _ s

theorem heardReady_only (h : HeadNo) (s : State) : OnlyChanges [.begun] s (heardReady h s) := showHead_only _ s

/-! ## Flags -/

theorem raiseFlag_only (g : Flag) (s : State) : OnlyChanges [.flags] s (s.raiseFlag g) := by
  unfold State.raiseFlag
  split
  · exact setFlag_only _ _ s
  · exact .refl _ s

theorem foldl_only {α : Type} {fs : List Field} {step : State → α → State} (h : ∀ x s, OnlyChanges fs s (step s x)) (l : List α)
    (s : State) : OnlyChanges fs s (l.foldl step s) := by
  induction l generalizing s with
  | nil => exact .refl _ s
  | cons x l ih => exact (h x s).trans (ih (step s x))

theorem acknowledgeFlags_only (data : Word) (s : State) : OnlyChanges [.flags] s (s.acknowledgeFlags data) := by
  refine foldl_only (fun g s => ?_) _ s
  split
  · exact setFlag_only _ _ s
  · exact .refl _ s

theorem showFlags_only (fs : List Flag) (s : State) : OnlyChanges [.flags] s (s.showFlags fs) := by
  refine foldl_only (fun g s => ?_) _ s
  split
  · exact .refl _ s
  · exact setFlag_only _ _ s

/-! ## Groups -/

theorem offerFocus_only (g : GroupNo) (s : State) : OnlyChanges [.focus] s (offerFocus g s) := by
  unfold offerFocus
  split
  · intro f hf; cases f <;> first | rfl | exact ⟨rfl, fun _ => rfl⟩ | simp at hf
  · exact .refl _ s

theorem listAlarm_only (g : GroupNo) (s : State) : OnlyChanges [.alarmList, .alarmOverflow] s (listAlarm g s) := by
  unfold listAlarm
  split <;> (intro f hf; cases f <;> first | rfl | exact ⟨rfl, fun _ => rfl⟩ | simp at hf)

theorem raiseAlarm_only (g : GroupNo) (n : Nat) (s : State) :
    OnlyChanges [.groups, .alarmList, .alarmOverflow, .focus, .flags]
      s (raiseAlarm g n s) := by
  exact ((setGroup_only g _ s).comp (listAlarm_only g _) (hs := [.groups, .alarmList, .alarmOverflow]) rfl).comp
    ((offerFocus_only g _).comp (raiseFlag_only .groupAlarm _) (hs := [.focus, .flags]) rfl) rfl

theorem countLine_only (l : LineNo) (s : State) :
    OnlyChanges [.groups, .alarmList, .alarmOverflow, .focus, .flags]
      s (countLine l s) := by
  unfold countLine
  dsimp only
  split
  · exact (setGroup_only _ _ s).weaken (by simp)
  · split
    · exact raiseAlarm_only _ _ s
    · exact .refl _ s

theorem decayGroups_only (s : State) : OnlyChanges [.groups] s (decayGroups s) := by
  intro f hf; cases f <;> first | rfl | exact ⟨rfl, fun _ => rfl⟩ | simp at hf

theorem unlistAlarm_only (g : GroupNo) (s : State) : OnlyChanges [.alarmList, .alarmOverflow] s (unlistAlarm g s) := by
  unfold unlistAlarm
  split
  · intro f hf; cases f <;> first | rfl | exact ⟨rfl, fun _ => rfl⟩ | simp at hf
  · exact .refl _ s

theorem clearGroupRecord_only (g : GroupNo) (s : State) :
    OnlyChanges [.groups, .alarmList, .alarmOverflow, .focus]
      s (clearGroupRecord g s) := by
  refine ((setGroup_only g GroupRecord.zero s).comp (unlistAlarm_only g _) (hs := [.groups, .alarmList, .alarmOverflow]) rfl).comp
    (gs := [.focus]) ?_ rfl
  intro f hf; cases f <;> first | rfl | exact ⟨rfl, fun _ => rfl⟩ | simp at hf

theorem clearAllGroups_only (s : State) :
    OnlyChanges [.groups, .alarmList, .alarmOverflow, .focus]
      s (clearAllGroups s) := by
  intro f hf; cases f <;> first | rfl | exact ⟨rfl, fun _ => rfl⟩ | simp at hf

/-! ## The end of an event -/

theorem markStatus_news (o : Option CommitRecord) (l : List WriterEntry) :
    (markStatus o l).filter (fun e => !e.isStatus) = l.filter fun e => !e.isStatus := by
  induction l with
  | nil => rfl
  | cons e l ih =>
    unfold markStatus
    split
    · rename_i he
      cases o with
      | none => rfl
      | some c =>
        have hc : (WriterEntry.status (some c)).isStatus = true := rfl
        simp [he, hc]
    · rename_i he
      simp [he, ih]

/-- Marking the status entry leaves every other entry pending, in order (R161). -/
theorem markDirty_news (s : State) (o : Option CommitRecord) : (s.markDirty o).newsEntries = s.newsEntries := by
  unfold State.markDirty State.newsEntries
  split
  · split
    · rename_i h
      rw [h]
      rfl
    · rename_i e es h
      rw [h]
      simp only [List.filter_cons]
      rw [markStatus_news]
  · exact markStatus_news _ _

theorem markDirty_only (o : Option CommitRecord) (s : State) : OnlyChanges [.writerQueue] s (s.markDirty o) := by
  have key : ∃ q, s.markDirty o = { s with writerQueue := q } := by
    unfold State.markDirty
    split
    · split <;> exact ⟨_, rfl⟩
    · exact ⟨_, rfl⟩
  obtain ⟨q, hq⟩ := key
  intro f hf
  cases f with
  | news => exact markDirty_news s o
  | _ => rw [hq]; first | rfl | exact ⟨rfl, fun _ => rfl⟩ | simp at hf

theorem markIfChanged_only (before s : State) : OnlyChanges [.writerQueue] s (State.markIfChanged before s) := by
  unfold State.markIfChanged
  split
  · exact markDirty_only _ s
  · exact .refl _ s

theorem retestHold_only (s : State) : OnlyChanges [.readHold] s (s.retestHold) := by
  unfold State.retestHold
  split
  · split
    · intro f hf; cases f <;> first | rfl | exact ⟨rfl, fun _ => rfl⟩ | simp at hf
    · exact .refl _ s
  · exact .refl _ s

/-- The end of an event touches the status entry and the read hold alone: no other entry becomes pending or leaves. -/
theorem finish_only (before s : State) : OnlyChanges [.writerQueue, .readHold] s (finish before s) := (markIfChanged_only before s).comp (retestHold_only _) rfl

/-! ## Tickets -/

theorem clearMark_only (k : FaultKind) (l : LineNo) (s : State) : OnlyChanges [.lines] s (clearMark k s l) := by
  unfold clearMark
  split
  · exact setLine_only _ _ s
  · exact .refl _ s

theorem cleanMarks_only (t : Ticket) (s : State) : OnlyChanges [.lines] s (cleanMarks t s) := by
  unfold cleanMarks
  split
  · exact foldl_only (fun l s => clearMark_only _ l s) _ s
  all_goals exact .refl _ s

theorem dropTicket_only (t : Ticket) (s : State) :
    OnlyChanges [.droppedBefore, .droppedTotal, .flags, .lines]
      s (dropTicket t s) := by
  have h : OnlyChanges [.droppedBefore, .droppedTotal] s
      { s with droppedBefore := min 255 (s.droppedBefore + 1), droppedTotal := min 65535 (s.droppedTotal + 1) } := by
    intro f hf; cases f <;> first | rfl | exact ⟨rfl, fun _ => rfl⟩ | simp at hf
  exact (h.comp (raiseFlag_only .drop _) (hs := [.droppedBefore, .droppedTotal, .flags]) rfl).comp (cleanMarks_only t _) rfl

theorem enterOutbox_only (t : Ticket) (s : State) :
    OnlyChanges [.outbox, .ticketSeq, .droppedBefore, .droppedTotal, .flags, .lines]
      s (enterOutbox t s) := by
  unfold enterOutbox
  split
  · intro f hf; cases f <;> first | rfl | exact ⟨rfl, fun _ => rfl⟩ | simp at hf
  · exact (dropTicket_only t s).weaken (by simp)

theorem closeRegister_only (s : State) :
    OnlyChanges [.outbox, .ticketSeq, .droppedBefore, .droppedTotal, .flags, .lines, .register, .coalescing]
      s (closeRegister s) := by
  unfold closeRegister
  split
  · have h : OnlyChanges [.register, .coalescing] s { s with register := none, coalescing := none } := by
      intro f hf; cases f <;> first | rfl | exact ⟨rfl, fun _ => rfl⟩ | simp at hf
    exact h.comp (enterOutbox_only _ _) rfl
  · exact .refl _ s

theorem openRegister_only (t : Ticket) (s : State) : OnlyChanges [.register, .coalescing] s (openRegister t s) := by
  intro f hf; cases f <;> first | rfl | exact ⟨rfl, fun _ => rfl⟩ | simp at hf

theorem reachRegister_only (t : Ticket) (s : State) :
    OnlyChanges [.outbox, .ticketSeq, .droppedBefore, .droppedTotal, .flags, .lines, .register, .coalescing]
      s (reachRegister t s) := by
  unfold reachRegister
  split
  · exact (openRegister_only t s).weaken (by simp)
  · split
    · exact (openRegister_only _ s).weaken (by simp)
    · exact (closeRegister_only s).comp (openRegister_only t _) rfl

theorem routeTicket_only (t : Ticket) (s : State) :
    OnlyChanges [.outbox, .ticketSeq, .droppedBefore, .droppedTotal, .flags, .lines, .register, .coalescing]
      s (routeTicket t s) := by
  unfold routeTicket
  split
  · exact reachRegister_only t s
  · exact (enterOutbox_only t s).weaken (by simp)

theorem formLineFault_only (l : LineNo) (k : FaultKind) (c : TestClass) (rs : StepRecords) (s : State) :
    OnlyChanges [.outbox, .ticketSeq, .droppedBefore, .droppedTotal, .flags, .lines, .register, .coalescing, .groups,
        .alarmList, .alarmOverflow, .focus]
      s (formLineFault l k c rs s) := by
  unfold formLineFault
  split
  · exact .refl _ s
  · exact ((setLine_only l _ s).comp (countLine_only l _)
      (hs := [.lines, .groups, .alarmList, .alarmOverflow, .focus, .flags]) rfl).comp (routeTicket_only _ _) rfl

theorem formRestored_only (l : LineNo) (c : TestClass) (rs : StepRecords) (s : State) :
    OnlyChanges [.outbox, .ticketSeq, .droppedBefore, .droppedTotal, .flags, .lines, .register, .coalescing]
      s (formRestored l c rs s) := by
  unfold formRestored
  split
  · exact (setLine_only l _ s).comp (routeTicket_only _ _) rfl
  · exact .refl _ s

theorem takeVerdict_only (l : LineNo) (v : Verdict) (c : TestClass) (rs : StepRecords) (s : State) :
    OnlyChanges [.outbox, .ticketSeq, .droppedBefore, .droppedTotal, .flags, .lines, .register, .coalescing, .groups,
        .alarmList, .alarmOverflow, .focus]
      s (takeVerdict l v c rs s) := by
  unfold takeVerdict
  split
  · exact (formRestored_only l c rs s).weaken (by simp)
  · exact formLineFault_only l _ c rs s
  · exact formLineFault_only l _ c rs s

theorem formStandingLoop_only (l : LineNo) (age : BitVec 8) (s : State) :
    OnlyChanges [.outbox, .ticketSeq, .droppedBefore, .droppedTotal, .flags, .lines, .register, .coalescing]
      s (formStandingLoop l age s) := (setLine_only l _ s).comp (routeTicket_only _ _) rfl

theorem equipmentEvent_only (k : TicketKind) (c : EventContext) (s : State) :
    OnlyChanges [.outbox, .ticketSeq, .droppedBefore, .droppedTotal, .flags, .lines, .register, .coalescing]
      s (equipmentEvent k c s) := by
  unfold equipmentEvent
  split
  · exact routeTicket_only _ s
  · exact .refl _ s

theorem moveTicket_only (s : State) : OnlyChanges [.outbox, .droppedBefore, .news, .writerQueue] s (moveTicket s) := by
  unfold moveTicket
  split
  · exact .refl _ s
  · split
    · intro f hf; cases f <;> first | rfl | exact ⟨rfl, fun _ => rfl⟩ | simp at hf
    · exact .refl _ s

theorem offerConsume_only (a : Anchor) (data : Word) (s : State) : OnlyChanges [.consume] s (offerConsume a data s) := by
  unfold offerConsume
  dsimp only
  repeat' split
  all_goals first | exact .refl _ s | (intro f hf; cases f <;> first | rfl | exact ⟨rfl, fun _ => rfl⟩ | simp at hf)

/-! ## Buses -/

theorem setOccupying_only (l : LineNo) (o : Option BusNo) (s : State) : OnlyChanges [.lines] s (setOccupying l o s) := setLine_only _ _ s

theorem enterIdle_only (b : BusNo) (s : State) : OnlyChanges [.lines, .buses, .cancelSinceLook] s (enterIdle b s) := by
  unfold enterIdle
  split
  · exact ((setOccupying_only _ _ s).comp (setBus_only b _ _) (hs := [.lines, .buses]) rfl).comp (look_only true _) rfl
  · exact (setBus_only b _ s).comp (look_only true _) rfl

theorem startRelease_only (b : BusNo) (s : State) : OnlyChanges [.matrixOut, .buses] s (startRelease b s) := (sendMatrix_only _ s).comp (setBus_only b _ _) rfl

theorem queueFinal_only (b : BusNo) (e : TestEntry) (o : TestOutcome) (h : Option HeadNo) (rs : StepRecords) (s : State) :
    OnlyChanges [.news, .writerQueue]
      s (queueFinal b e o h rs s) := by
  unfold queueFinal
  split
  · exact .refl _ s
  · exact pushEntry_only _ s

theorem handOnVerdict_only (e : TestEntry) (o : TestOutcome) (rs : StepRecords) (s : State) :
    OnlyChanges [.outbox, .ticketSeq, .droppedBefore, .droppedTotal, .flags, .lines, .register, .coalescing, .groups,
        .alarmList, .alarmOverflow, .focus]
      s (handOnVerdict e o rs s) := by
  unfold handOnVerdict
  split
  · exact (setLine_only _ _ s).comp (takeVerdict_only _ _ _ _ _) rfl
  · exact .refl _ s

theorem dropTest_only (b : BusNo) (s : State) : OnlyChanges [.buses, .programs] s (dropTest b s) := (setBus_only b _ s).comp (setProgram_only b _ _) rfl

theorem endTest_only (b : BusNo) (o : TestOutcome) (h : Option HeadNo) (rs : StepRecords) (s : State) :
    OnlyChanges [.news, .writerQueue, .outbox, .ticketSeq, .droppedBefore, .droppedTotal, .flags, .lines, .register,
        .coalescing, .groups, .alarmList, .alarmOverflow, .focus, .buses, .programs, .cancelSinceLook]
      s (endTest b o h rs s) := by
  unfold endTest
  split
  · exact (((queueFinal_only b _ _ h rs s).comp (handOnVerdict_only _ _ rs _)
      (hs := [.news, .writerQueue, .outbox, .ticketSeq, .droppedBefore, .droppedTotal, .flags, .lines, .register,
        .coalescing, .groups, .alarmList, .alarmOverflow, .focus]) rfl).comp (dropTest_only b _)
      (hs := [.news, .writerQueue, .outbox, .ticketSeq, .droppedBefore, .droppedTotal, .flags, .lines, .register,
        .coalescing, .groups, .alarmList, .alarmOverflow, .focus, .buses, .programs]) rfl).comp (look_only _ _) rfl
  · exact .refl _ s

theorem endTestEarly_only (b : BusNo) (o : TestOutcome) (s : State) :
    OnlyChanges [.news, .writerQueue, .outbox, .ticketSeq, .droppedBefore, .droppedTotal, .flags, .lines, .register,
        .coalescing, .groups, .alarmList, .alarmOverflow, .focus, .buses, .programs, .cancelSinceLook]
      s (endTestEarly b o s) := endTest_only b o none _ s

theorem joinWait_only (b : BusNo) (s : State) : OnlyChanges [.waitQueue] s (joinWait b s) := by
  intro f hf; cases f <;> first | rfl | exact ⟨rfl, fun _ => rfl⟩ | simp at hf

theorem leaveWait_only (b : BusNo) (s : State) : OnlyChanges [.waitQueue] s (leaveWait b s) := by
  intro f hf; cases f <;> first | rfl | exact ⟨rfl, fun _ => rfl⟩ | simp at hf

theorem endWaiting_only (b : BusNo) (o : TestOutcome) (s : State) :
    OnlyChanges [.news, .writerQueue, .outbox, .ticketSeq, .droppedBefore, .droppedTotal, .flags, .lines, .register,
        .coalescing, .groups, .alarmList, .alarmOverflow, .focus, .buses, .programs, .cancelSinceLook, .matrixOut, .waitQueue]
      s (endWaiting b o s) := ((leaveWait_only b s).comp (endTestEarly_only b o _)
    (hs := [.waitQueue, .news, .writerQueue, .outbox, .ticketSeq, .droppedBefore, .droppedTotal, .flags, .lines,
      .register, .coalescing, .groups, .alarmList, .alarmOverflow, .focus, .buses, .programs, .cancelSinceLook]) rfl).comp
    (startRelease_only b _) rfl

theorem setAbort_only (b : BusNo) (r : AbortReason) (s : State) : OnlyChanges [.buses] s (setAbort b r s) := setBus_only b _ s

theorem abortStep_only (b : BusNo) (s : State) : OnlyChanges [.headOut, .heads] s (abortStep b s) := by
  unfold abortStep
  split
  · split
    · exact (sendHead_only _ s).comp (setHead_only _ _ _) rfl
    · exact .refl _ s
  · exact .refl _ s

theorem cancelOnBus_only (b : BusNo) (s : State) :
    OnlyChanges [.news, .writerQueue, .outbox, .ticketSeq, .droppedBefore, .droppedTotal, .flags, .lines, .register,
        .coalescing, .groups, .alarmList, .alarmOverflow, .focus, .buses, .programs, .cancelSinceLook, .matrixOut, .waitQueue,
        .headOut, .heads]
      s (cancelOnBus b s) := by
  unfold cancelOnBus
  split
  · exact .refl _ s
  · split
    · exact (setAbort_only b _ s).weaken (by simp)
    · exact (setAbort_only b _ s).weaken (by simp)
    · exact (endWaiting_only b _ s).weaken (by simp)
    · exact (setAbort_only b _ s).comp (abortStep_only b _) rfl
    all_goals exact .refl _ s

theorem loseHeadOnBus_only (b : BusNo) (s : State) : OnlyChanges [.buses] s (loseHeadOnBus s b) := by
  unfold loseHeadOnBus
  split
  · exact setAbort_only b _ s
  · exact .refl _ s

theorem lossOfLastHead_only (s : State) :
    OnlyChanges [.news, .writerQueue, .outbox, .ticketSeq, .droppedBefore, .droppedTotal, .flags, .lines, .register,
        .coalescing, .groups, .alarmList, .alarmOverflow, .focus, .buses, .programs, .cancelSinceLook, .matrixOut, .waitQueue]
      s (lossOfLastHead s) := by
  unfold lossOfLastHead
  split
  · exact .refl _ s
  · exact (foldl_only (fun b s => endWaiting_only b .noHead s) s.waitQueue s).comp
      (foldl_only (fun b s => loseHeadOnBus_only b s) allBuses _) rfl

theorem freeHead_only (h : HeadNo) (s : State) : OnlyChanges [.heads] s (freeHead h s) := setHead_only h _ s

theorem suspectHead_only (h : HeadNo) (s : State) : OnlyChanges [.heads] s (suspectHead h s) := setHead_only h _ s

/-! ## Heads and the sweep -/

theorem startStep_only (h : HeadNo) (b : BusNo) (k : StepKind) (s : State) :
    OnlyChanges [.headOut, .heads]
      s (startStep h b k s) := (sendHead_only _ s).comp (setHead_only _ _ _) rfl

theorem holdBus_only (b : BusNo) (s : State) : OnlyChanges [.buses, .cancelSinceLook] s (holdBus b s) :=
  (setBus_only b _ s).comp (look_only true _) rfl

theorem completeTest_only (h : HeadNo) (b : BusNo) (v : Verdict) (rs : StepRecords) (s : State) :
    OnlyChanges [.news, .writerQueue, .outbox, .ticketSeq, .droppedBefore, .droppedTotal, .flags, .lines, .register,
        .coalescing, .groups, .alarmList, .alarmOverflow, .focus, .buses, .programs, .cancelSinceLook, .heads, .matrixOut]
      s (completeTest h b v rs s) := by
  have k : OnlyChanges [.news, .writerQueue, .outbox, .ticketSeq, .droppedBefore, .droppedTotal, .flags, .lines, .register,
      .coalescing, .groups, .alarmList, .alarmOverflow, .focus, .buses, .programs, .cancelSinceLook, .heads] s
      (endTest b (.completed v) (some h) rs (freeHead h s)) := (freeHead_only h s).comp (endTest_only b _ _ rs _) rfl
  unfold completeTest
  dsimp only
  split
  · exact k.comp (holdBus_only b _) rfl
  · exact k.comp (startRelease_only b _) rfl

theorem startClear_only (h : HeadNo) (s : State) : OnlyChanges [.headOut, .heads] s (startClear h s) := (sendHead_only _ s).comp (setHead_only _ _ _) rfl

theorem standingLoopCheck_only (l : LineNo) (s : State) :
    OnlyChanges [.outbox, .ticketSeq, .droppedBefore, .droppedTotal, .flags, .lines, .register, .coalescing]
      s (standingLoopCheck l s) := by
  unfold standingLoopCheck
  dsimp only
  split
  · split
    · exact formStandingLoop_only l _ s
    · exact .refl _ s
  · exact .refl _ s

theorem passStart_only (s : State) : OnlyChanges [.lines, .pointer] s (passStart s) := by
  intro f hf; cases f <;> first | rfl | exact ⟨rfl, fun _ => rfl⟩ | simp at hf

theorem passEnd_only (s : State) :
    OnlyChanges [.lines, .pointer, .epoch, .outbox, .ticketSeq, .droppedBefore, .droppedTotal, .flags, .register,
        .coalescing, .groups]
      s (passEnd s) := by
  have h : OnlyChanges [.epoch, .groups] s (decayGroups { s with epoch := s.epoch + 1 }) := by
    intro f hf; cases f <;> first | rfl | exact ⟨rfl, fun _ => rfl⟩ | simp at hf
  have k := (h.comp (closeRegister_only _) (hs := [.epoch, .groups, .outbox, .ticketSeq, .droppedBefore, .droppedTotal, .flags, .lines, .register, .coalescing])
    rfl).comp (raiseFlag_only .passEnd _) (hs := [.epoch, .groups, .outbox, .ticketSeq, .droppedBefore, .droppedTotal, .flags, .lines, .register, .coalescing]) rfl
  exact k.comp (passStart_only _) rfl

theorem advanceFocus_only (s : State) : OnlyChanges [.focus] s (advanceFocus s) := by
  unfold advanceFocus
  split
  · exact .refl _ s
  · split <;> (intro f hf; cases f <;> first | rfl | exact ⟨rfl, fun _ => rfl⟩ | simp at hf)

theorem advancePointer_only (s : State) :
    OnlyChanges [.lines, .pointer, .epoch, .outbox, .ticketSeq, .droppedBefore, .droppedTotal, .flags, .register,
        .coalescing, .groups]
      s (advancePointer s) := by
  unfold advancePointer
  split
  · exact passEnd_only s
  · intro f hf; cases f <;> first | rfl | exact ⟨rfl, fun _ => rfl⟩ | simp at hf

theorem retestWaiting_only (moment : Bool) (s : State) : OnlyChanges [.testWaiting] s (retestWaiting moment s) := by
  unfold retestWaiting
  split <;> (intro f hf; cases f <;> first | rfl | exact ⟨rfl, fun _ => rfl⟩ | simp at hf)

theorem leaveQueue_only (rest : List TestEntry) (s : State) : OnlyChanges [.queue, .testWaiting] s (leaveQueue rest s) := by
  refine OnlyChanges.comp (fs := [.queue]) ?_ (retestWaiting_only true _) rfl
  intro f hf; cases f <;> first | rfl | exact ⟨rfl, fun _ => rfl⟩ | simp at hf

theorem issueVisit_only (a : Anchor) (l : LineNo) (s : State) : OnlyChanges [.queue, .cancelSinceLook, .testWaiting] s (issueVisit a l s) := by
  refine OnlyChanges.comp (fs := [.queue, .cancelSinceLook]) ?_ (retestWaiting_only false _) rfl
  intro f hf; cases f <;> first | rfl | exact ⟨rfl, fun _ => rfl⟩ | simp at hf

theorem walk_only (a : Anchor) (n : Nat) (s : State) :
    OnlyChanges [.lines, .pointer, .epoch, .outbox, .ticketSeq, .droppedBefore, .droppedTotal, .flags, .register,
        .coalescing, .groups, .focus, .queue, .cancelSinceLook, .testWaiting]
      s (walk a n s) := by
  induction n generalizing s with
  | zero => exact .refl _ s
  | succ n ih =>
    unfold walk
    split
    · split
      · exact (issueVisit_only a _ s).comp (advanceFocus_only _) rfl
      · exact ((standingLoopCheck_only _ s).comp (advanceFocus_only _)
          (hs := [.outbox, .ticketSeq, .droppedBefore, .droppedTotal, .flags, .lines, .register, .coalescing, .focus]) rfl).comp
          (ih _) rfl
    · split
      · exact (issueVisit_only a _ s).comp (advancePointer_only _) rfl
      · split
        · exact (standingLoopCheck_only _ s).comp (passEnd_only _) rfl
        · exact ((standingLoopCheck_only _ s).comp (advancePointer_only _)
            (hs := [.lines, .pointer, .epoch, .outbox, .ticketSeq, .droppedBefore, .droppedTotal, .flags, .register,
              .coalescing, .groups]) rfl).comp (ih _) rfl

/-! ## Intake, commit and the path -/

theorem passSlot_only (a : Anchor) (s : State) : OnlyChanges [.shadows, .takeIndex, .testWaiting] s (passSlot a s) := by
  intro f hf; cases f <;> first | rfl | exact ⟨rfl, fun _ => rfl⟩ | simp at hf

theorem dispose_only (a : Anchor) (d : Disposition) (s : State) :
    OnlyChanges [.news, .writerQueue, .shadows, .takeIndex, .testWaiting]
      s (dispose a d s) := (pushEntry_only _ s).comp (passSlot_only a _) rfl

theorem cancelledQueue_only (q : List TestEntry) (s : State) :
    OnlyChanges [.queue, .cancelSinceLook] s (cancelledQueue q s) := by
  intro f hf; cases f <;> first | rfl | exact ⟨rfl, fun _ => rfl⟩ | simp at hf

theorem acceptCommit_only (a : Anchor) (s : State) :
    OnlyChanges [.anchor, .shadows, .takeIndex, .testWaiting, .fence, .cancelSinceLook, .produce, .consume, .flags, .lastCommit,
        .pointer, .groups, .alarmList, .alarmOverflow, .focus]
      s (acceptCommit a s) := by
  refine OnlyChanges.comp (fs := [.anchor, .shadows, .takeIndex, .testWaiting, .fence, .cancelSinceLook, .produce, .consume, .flags,
    .lastCommit, .pointer, .groups, .alarmList, .alarmOverflow, .focus]) ?_ (raiseFlag_only .commit _) rfl
  intro f hf; cases f <;> first | rfl | exact ⟨rfl, fun _ => rfl⟩ | simp at hf

theorem refuseCommit_only (c : CommitRecord) (s : State) : OnlyChanges [.lastCommit, .flags] s (refuseCommit c s) := by
  unfold refuseCommit
  split
  · have h : OnlyChanges [.lastCommit] s { s with lastCommit := some c } := by
      intro f hf; cases f <;> first | rfl | exact ⟨rfl, fun _ => rfl⟩ | simp at hf
    exact h.comp (raiseFlag_only .commit _) rfl
  · exact .refl _ s

theorem takePath_only (s : State) : OnlyChanges [.path, .starvation] s (takePath s) := by
  unfold takePath
  split
  · exact .refl _ s
  · intro f hf; cases f <;> first | rfl | exact ⟨rfl, fun _ => rfl⟩ | simp at hf

theorem endAccess_only (rest : List HostAccess) (s : State) :
    OnlyChanges [.path, .hostAccesses, .readHold, .resultHoldSpent, .starvation]
      s (endAccess rest s) := by
  intro f hf; cases f <;> first | rfl | exact ⟨rfl, fun _ => rfl⟩ | simp at hf

end Sys2Proof.Machine
end

