-- ==== Sys2Proof/Laws/Effects.lean ====
section
/-!
SUPPORT. What the shared operations do, as equations and as the terms of Safety.lean: the fields the end of an event and a raised flag
leave alone, the end of a test that hands no verdict on, a ticket that reaches the outbox, the closing of the register.
-/

namespace Sys2Proof.Machine

/-! ## The end of an event -/

@[simp] theorem finish_pending (before s : State) : (finish before s).pending = s.pending :=
  (finish_only before s).get .pending rfl
@[simp] theorem finish_freeIndex (before s : State) : (finish before s).freeIndex = s.freeIndex :=
  (finish_only before s).get .freeIndex rfl
@[simp] theorem finish_mem (before s : State) : (finish before s).mem = s.mem :=
  ((finish_only before s).get .mem rfl).1
@[simp] theorem finish_path (before s : State) : (finish before s).path = s.path :=
  (finish_only before s).get .path rfl
@[simp] theorem finish_starvation (before s : State) : (finish before s).starvation = s.starvation :=
  (finish_only before s).get .starvation rfl
@[simp] theorem finish_hostAccesses (before s : State) : (finish before s).hostAccesses = s.hostAccesses :=
  (finish_only before s).get .hostAccesses rfl
@[simp] theorem finish_resultHoldSpent (before s : State) : (finish before s).resultHoldSpent = s.resultHoldSpent :=
  (finish_only before s).get .resultHoldSpent rfl
@[simp] theorem finish_readData (before s : State) : (finish before s).readData = s.readData :=
  (finish_only before s).get .readData rfl
@[simp] theorem finish_staging (before s : State) : (finish before s).staging = s.staging :=
  (finish_only before s).get .staging rfl
@[simp] theorem finish_anchor (before s : State) : (finish before s).anchor = s.anchor :=
  (finish_only before s).get .anchor rfl
@[simp] theorem finish_lastCommit (before s : State) : (finish before s).lastCommit = s.lastCommit :=
  (finish_only before s).get .lastCommit rfl
@[simp] theorem finish_flags (before s : State) : (finish before s).flags = s.flags :=
  (finish_only before s).get .flags rfl
@[simp] theorem finish_shadows (before s : State) : (finish before s).shadows = s.shadows :=
  (finish_only before s).get .shadows rfl
@[simp] theorem finish_takeIndex (before s : State) : (finish before s).takeIndex = s.takeIndex :=
  (finish_only before s).get .takeIndex rfl
@[simp] theorem finish_testWaiting (before s : State) : (finish before s).testWaiting = s.testWaiting :=
  (finish_only before s).get .testWaiting rfl
@[simp] theorem finish_fence (before s : State) : (finish before s).fence = s.fence :=
  (finish_only before s).get .fence rfl
@[simp] theorem finish_queue (before s : State) : (finish before s).queue = s.queue :=
  (finish_only before s).get .queue rfl
@[simp] theorem finish_cancelSinceLook (before s : State) : (finish before s).cancelSinceLook = s.cancelSinceLook :=
  (finish_only before s).get .cancelSinceLook rfl
@[simp] theorem finish_buses (before s : State) : (finish before s).buses = s.buses :=
  (finish_only before s).get .buses rfl
@[simp] theorem finish_claimCounter (before s : State) : (finish before s).claimCounter = s.claimCounter :=
  (finish_only before s).get .claimCounter rfl
@[simp] theorem finish_resyncPending (before s : State) : (finish before s).resyncPending = s.resyncPending :=
  (finish_only before s).get .resyncPending rfl
@[simp] theorem finish_heads (before s : State) : (finish before s).heads = s.heads :=
  (finish_only before s).get .heads rfl
@[simp] theorem finish_waitQueue (before s : State) : (finish before s).waitQueue = s.waitQueue :=
  (finish_only before s).get .waitQueue rfl
@[simp] theorem finish_programs (before s : State) : (finish before s).programs = s.programs :=
  (finish_only before s).get .programs rfl
@[simp] theorem finish_lines (before s : State) : (finish before s).lines = s.lines :=
  (finish_only before s).get .lines rfl
@[simp] theorem finish_sweep (before s : State) : (finish before s).sweep = s.sweep :=
  (finish_only before s).get .sweep rfl
@[simp] theorem finish_pointer (before s : State) : (finish before s).pointer = s.pointer :=
  (finish_only before s).get .pointer rfl
@[simp] theorem finish_epoch (before s : State) : (finish before s).epoch = s.epoch :=
  (finish_only before s).get .epoch rfl
@[simp] theorem finish_pacing (before s : State) : (finish before s).pacing = s.pacing :=
  (finish_only before s).get .pacing rfl
@[simp] theorem finish_focus (before s : State) : (finish before s).focus = s.focus :=
  (finish_only before s).get .focus rfl
@[simp] theorem finish_register (before s : State) : (finish before s).register = s.register :=
  (finish_only before s).get .register rfl
@[simp] theorem finish_coalescing (before s : State) : (finish before s).coalescing = s.coalescing :=
  (finish_only before s).get .coalescing rfl
@[simp] theorem finish_outbox (before s : State) : (finish before s).outbox = s.outbox :=
  (finish_only before s).get .outbox rfl
@[simp] theorem finish_ticketSeq (before s : State) : (finish before s).ticketSeq = s.ticketSeq :=
  (finish_only before s).get .ticketSeq rfl
@[simp] theorem finish_produce (before s : State) : (finish before s).produce = s.produce :=
  (finish_only before s).get .produce rfl
@[simp] theorem finish_consume (before s : State) : (finish before s).consume = s.consume :=
  (finish_only before s).get .consume rfl
@[simp] theorem finish_droppedBefore (before s : State) : (finish before s).droppedBefore = s.droppedBefore :=
  (finish_only before s).get .droppedBefore rfl
@[simp] theorem finish_droppedTotal (before s : State) : (finish before s).droppedTotal = s.droppedTotal :=
  (finish_only before s).get .droppedTotal rfl
@[simp] theorem finish_groups (before s : State) : (finish before s).groups = s.groups :=
  (finish_only before s).get .groups rfl
@[simp] theorem finish_alarmList (before s : State) : (finish before s).alarmList = s.alarmList :=
  (finish_only before s).get .alarmList rfl
@[simp] theorem finish_alarmOverflow (before s : State) : (finish before s).alarmOverflow = s.alarmOverflow :=
  (finish_only before s).get .alarmOverflow rfl
@[simp] theorem finish_exchangeOut (before s : State) : (finish before s).exchangeOut = s.exchangeOut :=
  (finish_only before s).get .exchangeOut rfl
@[simp] theorem finish_matrixOut (before s : State) : (finish before s).matrixOut = s.matrixOut :=
  (finish_only before s).get .matrixOut rfl
@[simp] theorem finish_headOut (before s : State) : (finish before s).headOut = s.headOut :=
  (finish_only before s).get .headOut rfl
@[simp] theorem finish_begun (before s : State) : (finish before s).begun = s.begun :=
  (finish_only before s).get .begun rfl
@[simp] theorem finish_view_bus (before s : State) (x : BusNo) : (finish before s).bus x = s.bus x := by
  unfold State.bus
  rw [finish_buses]
@[simp] theorem finish_view_head (before s : State) (x : HeadNo) : (finish before s).head x = s.head x := by
  unfold State.head
  rw [finish_heads]
@[simp] theorem finish_view_program (before s : State) (x : BusNo) : (finish before s).program x = s.program x := by
  unfold State.program
  rw [finish_programs]
@[simp] theorem finish_view_line (before s : State) (x : LineNo) : (finish before s).line x = s.line x := by
  unfold State.line
  rw [finish_lines]
@[simp] theorem finish_view_group (before s : State) (x : GroupNo) : (finish before s).group x = s.group x := by
  unfold State.group
  rw [finish_groups]
@[simp] theorem finish_view_shadow (before s : State) (x : Fin 64) : (finish before s).shadow x = s.shadow x := by
  unfold State.shadow
  rw [finish_shadows]
@[simp] theorem finish_view_flag (before s : State) (x : Flag) : (finish before s).flag x = s.flag x := by
  unfold State.flag
  rw [finish_flags]
@[simp] theorem finish_news (before s : State) : (finish before s).newsEntries = s.newsEntries := (finish_only before s).get .news rfl

/-- An event that leaves the status image as it was marks no status entry (R161). -/
theorem finish_of_image {before s : State} (h : s.statusImage = before.statusImage) : finish before s = s.retestHold := by
  unfold finish State.markIfChanged
  rw [if_neg]
  simp [h]

theorem finish_only_of_image {before s : State} (h : s.statusImage = before.statusImage) :
    OnlyChanges [.readHold] s (finish before s) := by
  rw [finish_of_image h]
  exact retestHold_only s

/-! ## Flags -/

@[simp] theorem raiseFlag_pending (g : Flag) (s : State) : (s.raiseFlag g).pending = s.pending :=
  (raiseFlag_only g s).get .pending rfl
@[simp] theorem raiseFlag_freeIndex (g : Flag) (s : State) : (s.raiseFlag g).freeIndex = s.freeIndex :=
  (raiseFlag_only g s).get .freeIndex rfl
@[simp] theorem raiseFlag_mem (g : Flag) (s : State) : (s.raiseFlag g).mem = s.mem :=
  ((raiseFlag_only g s).get .mem rfl).1
@[simp] theorem raiseFlag_path (g : Flag) (s : State) : (s.raiseFlag g).path = s.path :=
  (raiseFlag_only g s).get .path rfl
@[simp] theorem raiseFlag_writerQueue (g : Flag) (s : State) : (s.raiseFlag g).writerQueue = s.writerQueue :=
  (raiseFlag_only g s).get .writerQueue rfl
@[simp] theorem raiseFlag_starvation (g : Flag) (s : State) : (s.raiseFlag g).starvation = s.starvation :=
  (raiseFlag_only g s).get .starvation rfl
@[simp] theorem raiseFlag_hostAccesses (g : Flag) (s : State) : (s.raiseFlag g).hostAccesses = s.hostAccesses :=
  (raiseFlag_only g s).get .hostAccesses rfl
@[simp] theorem raiseFlag_readHold (g : Flag) (s : State) : (s.raiseFlag g).readHold = s.readHold :=
  (raiseFlag_only g s).get .readHold rfl
@[simp] theorem raiseFlag_resultHoldSpent (g : Flag) (s : State) : (s.raiseFlag g).resultHoldSpent = s.resultHoldSpent :=
  (raiseFlag_only g s).get .resultHoldSpent rfl
@[simp] theorem raiseFlag_readData (g : Flag) (s : State) : (s.raiseFlag g).readData = s.readData :=
  (raiseFlag_only g s).get .readData rfl
@[simp] theorem raiseFlag_staging (g : Flag) (s : State) : (s.raiseFlag g).staging = s.staging :=
  (raiseFlag_only g s).get .staging rfl
@[simp] theorem raiseFlag_anchor (g : Flag) (s : State) : (s.raiseFlag g).anchor = s.anchor :=
  (raiseFlag_only g s).get .anchor rfl
@[simp] theorem raiseFlag_lastCommit (g : Flag) (s : State) : (s.raiseFlag g).lastCommit = s.lastCommit :=
  (raiseFlag_only g s).get .lastCommit rfl
@[simp] theorem raiseFlag_shadows (g : Flag) (s : State) : (s.raiseFlag g).shadows = s.shadows :=
  (raiseFlag_only g s).get .shadows rfl
@[simp] theorem raiseFlag_takeIndex (g : Flag) (s : State) : (s.raiseFlag g).takeIndex = s.takeIndex :=
  (raiseFlag_only g s).get .takeIndex rfl
@[simp] theorem raiseFlag_testWaiting (g : Flag) (s : State) : (s.raiseFlag g).testWaiting = s.testWaiting :=
  (raiseFlag_only g s).get .testWaiting rfl
@[simp] theorem raiseFlag_fence (g : Flag) (s : State) : (s.raiseFlag g).fence = s.fence :=
  (raiseFlag_only g s).get .fence rfl
@[simp] theorem raiseFlag_queue (g : Flag) (s : State) : (s.raiseFlag g).queue = s.queue :=
  (raiseFlag_only g s).get .queue rfl
@[simp] theorem raiseFlag_cancelSinceLook (g : Flag) (s : State) : (s.raiseFlag g).cancelSinceLook = s.cancelSinceLook :=
  (raiseFlag_only g s).get .cancelSinceLook rfl
@[simp] theorem raiseFlag_buses (g : Flag) (s : State) : (s.raiseFlag g).buses = s.buses :=
  (raiseFlag_only g s).get .buses rfl
@[simp] theorem raiseFlag_claimCounter (g : Flag) (s : State) : (s.raiseFlag g).claimCounter = s.claimCounter :=
  (raiseFlag_only g s).get .claimCounter rfl
@[simp] theorem raiseFlag_resyncPending (g : Flag) (s : State) : (s.raiseFlag g).resyncPending = s.resyncPending :=
  (raiseFlag_only g s).get .resyncPending rfl
@[simp] theorem raiseFlag_heads (g : Flag) (s : State) : (s.raiseFlag g).heads = s.heads :=
  (raiseFlag_only g s).get .heads rfl
@[simp] theorem raiseFlag_waitQueue (g : Flag) (s : State) : (s.raiseFlag g).waitQueue = s.waitQueue :=
  (raiseFlag_only g s).get .waitQueue rfl
@[simp] theorem raiseFlag_programs (g : Flag) (s : State) : (s.raiseFlag g).programs = s.programs :=
  (raiseFlag_only g s).get .programs rfl
@[simp] theorem raiseFlag_lines (g : Flag) (s : State) : (s.raiseFlag g).lines = s.lines :=
  (raiseFlag_only g s).get .lines rfl
@[simp] theorem raiseFlag_sweep (g : Flag) (s : State) : (s.raiseFlag g).sweep = s.sweep :=
  (raiseFlag_only g s).get .sweep rfl
@[simp] theorem raiseFlag_pointer (g : Flag) (s : State) : (s.raiseFlag g).pointer = s.pointer :=
  (raiseFlag_only g s).get .pointer rfl
@[simp] theorem raiseFlag_epoch (g : Flag) (s : State) : (s.raiseFlag g).epoch = s.epoch :=
  (raiseFlag_only g s).get .epoch rfl
@[simp] theorem raiseFlag_pacing (g : Flag) (s : State) : (s.raiseFlag g).pacing = s.pacing :=
  (raiseFlag_only g s).get .pacing rfl
@[simp] theorem raiseFlag_focus (g : Flag) (s : State) : (s.raiseFlag g).focus = s.focus :=
  (raiseFlag_only g s).get .focus rfl
@[simp] theorem raiseFlag_register (g : Flag) (s : State) : (s.raiseFlag g).register = s.register :=
  (raiseFlag_only g s).get .register rfl
@[simp] theorem raiseFlag_coalescing (g : Flag) (s : State) : (s.raiseFlag g).coalescing = s.coalescing :=
  (raiseFlag_only g s).get .coalescing rfl
@[simp] theorem raiseFlag_outbox (g : Flag) (s : State) : (s.raiseFlag g).outbox = s.outbox :=
  (raiseFlag_only g s).get .outbox rfl
@[simp] theorem raiseFlag_ticketSeq (g : Flag) (s : State) : (s.raiseFlag g).ticketSeq = s.ticketSeq :=
  (raiseFlag_only g s).get .ticketSeq rfl
@[simp] theorem raiseFlag_produce (g : Flag) (s : State) : (s.raiseFlag g).produce = s.produce :=
  (raiseFlag_only g s).get .produce rfl
@[simp] theorem raiseFlag_consume (g : Flag) (s : State) : (s.raiseFlag g).consume = s.consume :=
  (raiseFlag_only g s).get .consume rfl
@[simp] theorem raiseFlag_droppedBefore (g : Flag) (s : State) : (s.raiseFlag g).droppedBefore = s.droppedBefore :=
  (raiseFlag_only g s).get .droppedBefore rfl
@[simp] theorem raiseFlag_droppedTotal (g : Flag) (s : State) : (s.raiseFlag g).droppedTotal = s.droppedTotal :=
  (raiseFlag_only g s).get .droppedTotal rfl
@[simp] theorem raiseFlag_groups (g : Flag) (s : State) : (s.raiseFlag g).groups = s.groups :=
  (raiseFlag_only g s).get .groups rfl
@[simp] theorem raiseFlag_alarmList (g : Flag) (s : State) : (s.raiseFlag g).alarmList = s.alarmList :=
  (raiseFlag_only g s).get .alarmList rfl
@[simp] theorem raiseFlag_alarmOverflow (g : Flag) (s : State) : (s.raiseFlag g).alarmOverflow = s.alarmOverflow :=
  (raiseFlag_only g s).get .alarmOverflow rfl
@[simp] theorem raiseFlag_exchangeOut (g : Flag) (s : State) : (s.raiseFlag g).exchangeOut = s.exchangeOut :=
  (raiseFlag_only g s).get .exchangeOut rfl
@[simp] theorem raiseFlag_matrixOut (g : Flag) (s : State) : (s.raiseFlag g).matrixOut = s.matrixOut :=
  (raiseFlag_only g s).get .matrixOut rfl
@[simp] theorem raiseFlag_headOut (g : Flag) (s : State) : (s.raiseFlag g).headOut = s.headOut :=
  (raiseFlag_only g s).get .headOut rfl
@[simp] theorem raiseFlag_begun (g : Flag) (s : State) : (s.raiseFlag g).begun = s.begun :=
  (raiseFlag_only g s).get .begun rfl
@[simp] theorem raiseFlag_view_bus (g : Flag) (s : State) (x : BusNo) : (s.raiseFlag g).bus x = s.bus x := by
  unfold State.bus
  rw [raiseFlag_buses]
@[simp] theorem raiseFlag_view_head (g : Flag) (s : State) (x : HeadNo) : (s.raiseFlag g).head x = s.head x := by
  unfold State.head
  rw [raiseFlag_heads]
@[simp] theorem raiseFlag_view_program (g : Flag) (s : State) (x : BusNo) : (s.raiseFlag g).program x = s.program x := by
  unfold State.program
  rw [raiseFlag_programs]
@[simp] theorem raiseFlag_view_line (g : Flag) (s : State) (x : LineNo) : (s.raiseFlag g).line x = s.line x := by
  unfold State.line
  rw [raiseFlag_lines]
@[simp] theorem raiseFlag_view_group (g : Flag) (s : State) (x : GroupNo) : (s.raiseFlag g).group x = s.group x := by
  unfold State.group
  rw [raiseFlag_groups]
@[simp] theorem raiseFlag_view_shadow (g : Flag) (s : State) (x : Fin 64) : (s.raiseFlag g).shadow x = s.shadow x := by
  unfold State.shadow
  rw [raiseFlag_shadows]
@[simp] theorem raiseFlag_news (g : Flag) (s : State) : (s.raiseFlag g).newsEntries = s.newsEntries :=
  (raiseFlag_only g s).get .news rfl

/-- R179. -/
theorem raiseFlag_view_flag (g : Flag) (s : State) (x : Flag) :
    (s.raiseFlag g).flag x = if g = x ∧ s.anchor.isSome = true ∧ s.flag g = .clear then .raised else s.flag x := by
  unfold State.raiseFlag
  by_cases h : s.anchor.isSome = true ∧ s.flag g = .clear
  · rw [if_pos (by simp [h.1, h.2]), State.setFlag_view_flag]
    by_cases e : g = x
    · rw [if_pos e, if_pos ⟨e, h⟩]
    · rw [if_neg e, if_neg (fun k => e k.1)]
  · rw [if_neg (by simpa using h), if_neg (fun k => h k.2)]

theorem flagRaised_raiseFlag (g : Flag) (s : State) : FlagRaised g s (s.raiseFlag g) := by
  unfold FlagRaised
  rw [raiseFlag_view_flag]
  simp

theorem otherFlags_raiseFlag (g : Flag) (s : State) : OtherFlags [g] s (s.raiseFlag g) := by
  intro f hf
  rw [raiseFlag_view_flag, if_neg]
  rintro ⟨h, -⟩
  exact hf (by simp [h])

/-- A flag raised in a state that agrees on the anchor and on the flag. -/
theorem FlagRaised.of_eq {g : Flag} {s s' t t' : State} (h : FlagRaised g s t) (ha : s'.anchor = s.anchor)
    (hf : s'.flag g = s.flag g) (ht : t'.flag g = t.flag g) : FlagRaised g s' t' := by
  unfold FlagRaised at *
  rw [ht, ha, hf]
  exact h

/-! ## The end of a test -/

theorem endOutcome_eq (s : State) (b : BusNo) (o : TestOutcome) : (s.bus b).endOutcome o = s.outcomeOn b o := by
  unfold Bus.endOutcome State.outcomeOn
  cases (s.bus b).abort with
  | none => rfl
  | some r => cases r <;> rfl

theorem AbortReason.outcome_verdict (r : AbortReason) : r.outcome.verdict = none := by cases r <;> rfl

/-- A pending reason hands no verdict on, whatever ended the test. -/
theorem outcomeOn_verdict {s : State} {b : BusNo} {o : TestOutcome} (h : (s.bus b).abort ≠ none ∨ o.verdict = none) :
    (s.outcomeOn b o).verdict = none := by
  unfold State.outcomeOn
  split <;> simp_all [TestOutcome.verdict]

/-- An outcome with no verdict reaches neither the Line Table nor the Ticket Unit (R38). -/
theorem endTest_of_noVerdict {s : State} {b : BusNo} {o : TestOutcome} {e : TestEntry} (h : Option HeadNo) (rs : StepRecords)
    (ht : (s.bus b).test = some e) (hv : (s.outcomeOn b o).verdict = none) :
    endTest b o h rs s = (dropTest b (queueFinal b e (s.outcomeOn b o) h rs s)).look (e.cls == .sweep) := by
  unfold endTest
  rw [ht]
  dsimp only
  rw [endOutcome_eq]
  unfold handOnVerdict
  rw [hv]

theorem queueFinal_news {s : State} {b : BusNo} {e : TestEntry} (o : TestOutcome) (h : Option HeadNo) (rs : StepRecords)
    (ht : (s.bus b).test = some e) : (queueFinal b e o h rs s).newsEntries = s.newsEntries ++ s.finalEntries b o h rs := by
  unfold queueFinal State.finalEntries
  rw [ht]
  dsimp only
  by_cases hs : e.slots = []
  · rw [if_pos (by simp [hs]), if_pos hs, List.append_nil]
  · rw [if_neg (by simpa using hs), if_neg hs]
    simp [State.newsEntries, State.pushEntry, WriterEntry.isStatus, finalRecord]

@[simp] theorem queueFinal_pending (b : BusNo) (e : TestEntry) (o : TestOutcome) (h : Option HeadNo) (rs : StepRecords) (s : State) :
    (queueFinal b e o h rs s).pending = s.pending :=
  (queueFinal_only b e o h rs s).get .pending rfl
@[simp] theorem queueFinal_freeIndex (b : BusNo) (e : TestEntry) (o : TestOutcome) (h : Option HeadNo) (rs : StepRecords) (s : State) :
    (queueFinal b e o h rs s).freeIndex = s.freeIndex :=
  (queueFinal_only b e o h rs s).get .freeIndex rfl
@[simp] theorem queueFinal_mem (b : BusNo) (e : TestEntry) (o : TestOutcome) (h : Option HeadNo) (rs : StepRecords) (s : State) :
    (queueFinal b e o h rs s).mem = s.mem :=
  ((queueFinal_only b e o h rs s).get .mem rfl).1
@[simp] theorem queueFinal_path (b : BusNo) (e : TestEntry) (o : TestOutcome) (h : Option HeadNo) (rs : StepRecords) (s : State) :
    (queueFinal b e o h rs s).path = s.path :=
  (queueFinal_only b e o h rs s).get .path rfl
@[simp] theorem queueFinal_starvation (b : BusNo) (e : TestEntry) (o : TestOutcome) (h : Option HeadNo) (rs : StepRecords) (s : State) :
    (queueFinal b e o h rs s).starvation = s.starvation :=
  (queueFinal_only b e o h rs s).get .starvation rfl
@[simp] theorem queueFinal_hostAccesses (b : BusNo) (e : TestEntry) (o : TestOutcome) (h : Option HeadNo) (rs : StepRecords) (s : State) :
    (queueFinal b e o h rs s).hostAccesses = s.hostAccesses :=
  (queueFinal_only b e o h rs s).get .hostAccesses rfl
@[simp] theorem queueFinal_readHold (b : BusNo) (e : TestEntry) (o : TestOutcome) (h : Option HeadNo) (rs : StepRecords) (s : State) :
    (queueFinal b e o h rs s).readHold = s.readHold :=
  (queueFinal_only b e o h rs s).get .readHold rfl
@[simp] theorem queueFinal_resultHoldSpent (b : BusNo) (e : TestEntry) (o : TestOutcome) (h : Option HeadNo) (rs : StepRecords) (s : State) :
    (queueFinal b e o h rs s).resultHoldSpent = s.resultHoldSpent :=
  (queueFinal_only b e o h rs s).get .resultHoldSpent rfl
@[simp] theorem queueFinal_readData (b : BusNo) (e : TestEntry) (o : TestOutcome) (h : Option HeadNo) (rs : StepRecords) (s : State) :
    (queueFinal b e o h rs s).readData = s.readData :=
  (queueFinal_only b e o h rs s).get .readData rfl
@[simp] theorem queueFinal_staging (b : BusNo) (e : TestEntry) (o : TestOutcome) (h : Option HeadNo) (rs : StepRecords) (s : State) :
    (queueFinal b e o h rs s).staging = s.staging :=
  (queueFinal_only b e o h rs s).get .staging rfl
@[simp] theorem queueFinal_anchor (b : BusNo) (e : TestEntry) (o : TestOutcome) (h : Option HeadNo) (rs : StepRecords) (s : State) :
    (queueFinal b e o h rs s).anchor = s.anchor :=
  (queueFinal_only b e o h rs s).get .anchor rfl
@[simp] theorem queueFinal_lastCommit (b : BusNo) (e : TestEntry) (o : TestOutcome) (h : Option HeadNo) (rs : StepRecords) (s : State) :
    (queueFinal b e o h rs s).lastCommit = s.lastCommit :=
  (queueFinal_only b e o h rs s).get .lastCommit rfl
@[simp] theorem queueFinal_flags (b : BusNo) (e : TestEntry) (o : TestOutcome) (h : Option HeadNo) (rs : StepRecords) (s : State) :
    (queueFinal b e o h rs s).flags = s.flags :=
  (queueFinal_only b e o h rs s).get .flags rfl
@[simp] theorem queueFinal_shadows (b : BusNo) (e : TestEntry) (o : TestOutcome) (h : Option HeadNo) (rs : StepRecords) (s : State) :
    (queueFinal b e o h rs s).shadows = s.shadows :=
  (queueFinal_only b e o h rs s).get .shadows rfl
@[simp] theorem queueFinal_takeIndex (b : BusNo) (e : TestEntry) (o : TestOutcome) (h : Option HeadNo) (rs : StepRecords) (s : State) :
    (queueFinal b e o h rs s).takeIndex = s.takeIndex :=
  (queueFinal_only b e o h rs s).get .takeIndex rfl
@[simp] theorem queueFinal_testWaiting (b : BusNo) (e : TestEntry) (o : TestOutcome) (h : Option HeadNo) (rs : StepRecords) (s : State) :
    (queueFinal b e o h rs s).testWaiting = s.testWaiting :=
  (queueFinal_only b e o h rs s).get .testWaiting rfl
@[simp] theorem queueFinal_fence (b : BusNo) (e : TestEntry) (o : TestOutcome) (h : Option HeadNo) (rs : StepRecords) (s : State) :
    (queueFinal b e o h rs s).fence = s.fence :=
  (queueFinal_only b e o h rs s).get .fence rfl
@[simp] theorem queueFinal_queue (b : BusNo) (e : TestEntry) (o : TestOutcome) (h : Option HeadNo) (rs : StepRecords) (s : State) :
    (queueFinal b e o h rs s).queue = s.queue :=
  (queueFinal_only b e o h rs s).get .queue rfl
@[simp] theorem queueFinal_cancelSinceLook (b : BusNo) (e : TestEntry) (o : TestOutcome) (h : Option HeadNo) (rs : StepRecords) (s : State) :
    (queueFinal b e o h rs s).cancelSinceLook = s.cancelSinceLook :=
  (queueFinal_only b e o h rs s).get .cancelSinceLook rfl
@[simp] theorem queueFinal_buses (b : BusNo) (e : TestEntry) (o : TestOutcome) (h : Option HeadNo) (rs : StepRecords) (s : State) :
    (queueFinal b e o h rs s).buses = s.buses :=
  (queueFinal_only b e o h rs s).get .buses rfl
@[simp] theorem queueFinal_claimCounter (b : BusNo) (e : TestEntry) (o : TestOutcome) (h : Option HeadNo) (rs : StepRecords) (s : State) :
    (queueFinal b e o h rs s).claimCounter = s.claimCounter :=
  (queueFinal_only b e o h rs s).get .claimCounter rfl
@[simp] theorem queueFinal_resyncPending (b : BusNo) (e : TestEntry) (o : TestOutcome) (h : Option HeadNo) (rs : StepRecords) (s : State) :
    (queueFinal b e o h rs s).resyncPending = s.resyncPending :=
  (queueFinal_only b e o h rs s).get .resyncPending rfl
@[simp] theorem queueFinal_heads (b : BusNo) (e : TestEntry) (o : TestOutcome) (h : Option HeadNo) (rs : StepRecords) (s : State) :
    (queueFinal b e o h rs s).heads = s.heads :=
  (queueFinal_only b e o h rs s).get .heads rfl
@[simp] theorem queueFinal_waitQueue (b : BusNo) (e : TestEntry) (o : TestOutcome) (h : Option HeadNo) (rs : StepRecords) (s : State) :
    (queueFinal b e o h rs s).waitQueue = s.waitQueue :=
  (queueFinal_only b e o h rs s).get .waitQueue rfl
@[simp] theorem queueFinal_programs (b : BusNo) (e : TestEntry) (o : TestOutcome) (h : Option HeadNo) (rs : StepRecords) (s : State) :
    (queueFinal b e o h rs s).programs = s.programs :=
  (queueFinal_only b e o h rs s).get .programs rfl
@[simp] theorem queueFinal_lines (b : BusNo) (e : TestEntry) (o : TestOutcome) (h : Option HeadNo) (rs : StepRecords) (s : State) :
    (queueFinal b e o h rs s).lines = s.lines :=
  (queueFinal_only b e o h rs s).get .lines rfl
@[simp] theorem queueFinal_sweep (b : BusNo) (e : TestEntry) (o : TestOutcome) (h : Option HeadNo) (rs : StepRecords) (s : State) :
    (queueFinal b e o h rs s).sweep = s.sweep :=
  (queueFinal_only b e o h rs s).get .sweep rfl
@[simp] theorem queueFinal_pointer (b : BusNo) (e : TestEntry) (o : TestOutcome) (h : Option HeadNo) (rs : StepRecords) (s : State) :
    (queueFinal b e o h rs s).pointer = s.pointer :=
  (queueFinal_only b e o h rs s).get .pointer rfl
@[simp] theorem queueFinal_epoch (b : BusNo) (e : TestEntry) (o : TestOutcome) (h : Option HeadNo) (rs : StepRecords) (s : State) :
    (queueFinal b e o h rs s).epoch = s.epoch :=
  (queueFinal_only b e o h rs s).get .epoch rfl
@[simp] theorem queueFinal_pacing (b : BusNo) (e : TestEntry) (o : TestOutcome) (h : Option HeadNo) (rs : StepRecords) (s : State) :
    (queueFinal b e o h rs s).pacing = s.pacing :=
  (queueFinal_only b e o h rs s).get .pacing rfl
@[simp] theorem queueFinal_focus (b : BusNo) (e : TestEntry) (o : TestOutcome) (h : Option HeadNo) (rs : StepRecords) (s : State) :
    (queueFinal b e o h rs s).focus = s.focus :=
  (queueFinal_only b e o h rs s).get .focus rfl
@[simp] theorem queueFinal_register (b : BusNo) (e : TestEntry) (o : TestOutcome) (h : Option HeadNo) (rs : StepRecords) (s : State) :
    (queueFinal b e o h rs s).register = s.register :=
  (queueFinal_only b e o h rs s).get .register rfl
@[simp] theorem queueFinal_coalescing (b : BusNo) (e : TestEntry) (o : TestOutcome) (h : Option HeadNo) (rs : StepRecords) (s : State) :
    (queueFinal b e o h rs s).coalescing = s.coalescing :=
  (queueFinal_only b e o h rs s).get .coalescing rfl
@[simp] theorem queueFinal_outbox (b : BusNo) (e : TestEntry) (o : TestOutcome) (h : Option HeadNo) (rs : StepRecords) (s : State) :
    (queueFinal b e o h rs s).outbox = s.outbox :=
  (queueFinal_only b e o h rs s).get .outbox rfl
@[simp] theorem queueFinal_ticketSeq (b : BusNo) (e : TestEntry) (o : TestOutcome) (h : Option HeadNo) (rs : StepRecords) (s : State) :
    (queueFinal b e o h rs s).ticketSeq = s.ticketSeq :=
  (queueFinal_only b e o h rs s).get .ticketSeq rfl
@[simp] theorem queueFinal_produce (b : BusNo) (e : TestEntry) (o : TestOutcome) (h : Option HeadNo) (rs : StepRecords) (s : State) :
    (queueFinal b e o h rs s).produce = s.produce :=
  (queueFinal_only b e o h rs s).get .produce rfl
@[simp] theorem queueFinal_consume (b : BusNo) (e : TestEntry) (o : TestOutcome) (h : Option HeadNo) (rs : StepRecords) (s : State) :
    (queueFinal b e o h rs s).consume = s.consume :=
  (queueFinal_only b e o h rs s).get .consume rfl
@[simp] theorem queueFinal_droppedBefore (b : BusNo) (e : TestEntry) (o : TestOutcome) (h : Option HeadNo) (rs : StepRecords) (s : State) :
    (queueFinal b e o h rs s).droppedBefore = s.droppedBefore :=
  (queueFinal_only b e o h rs s).get .droppedBefore rfl
@[simp] theorem queueFinal_droppedTotal (b : BusNo) (e : TestEntry) (o : TestOutcome) (h : Option HeadNo) (rs : StepRecords) (s : State) :
    (queueFinal b e o h rs s).droppedTotal = s.droppedTotal :=
  (queueFinal_only b e o h rs s).get .droppedTotal rfl
@[simp] theorem queueFinal_groups (b : BusNo) (e : TestEntry) (o : TestOutcome) (h : Option HeadNo) (rs : StepRecords) (s : State) :
    (queueFinal b e o h rs s).groups = s.groups :=
  (queueFinal_only b e o h rs s).get .groups rfl
@[simp] theorem queueFinal_alarmList (b : BusNo) (e : TestEntry) (o : TestOutcome) (h : Option HeadNo) (rs : StepRecords) (s : State) :
    (queueFinal b e o h rs s).alarmList = s.alarmList :=
  (queueFinal_only b e o h rs s).get .alarmList rfl
@[simp] theorem queueFinal_alarmOverflow (b : BusNo) (e : TestEntry) (o : TestOutcome) (h : Option HeadNo) (rs : StepRecords) (s : State) :
    (queueFinal b e o h rs s).alarmOverflow = s.alarmOverflow :=
  (queueFinal_only b e o h rs s).get .alarmOverflow rfl
@[simp] theorem queueFinal_exchangeOut (b : BusNo) (e : TestEntry) (o : TestOutcome) (h : Option HeadNo) (rs : StepRecords) (s : State) :
    (queueFinal b e o h rs s).exchangeOut = s.exchangeOut :=
  (queueFinal_only b e o h rs s).get .exchangeOut rfl
@[simp] theorem queueFinal_matrixOut (b : BusNo) (e : TestEntry) (o : TestOutcome) (h : Option HeadNo) (rs : StepRecords) (s : State) :
    (queueFinal b e o h rs s).matrixOut = s.matrixOut :=
  (queueFinal_only b e o h rs s).get .matrixOut rfl
@[simp] theorem queueFinal_headOut (b : BusNo) (e : TestEntry) (o : TestOutcome) (h : Option HeadNo) (rs : StepRecords) (s : State) :
    (queueFinal b e o h rs s).headOut = s.headOut :=
  (queueFinal_only b e o h rs s).get .headOut rfl
@[simp] theorem queueFinal_begun (b : BusNo) (e : TestEntry) (o : TestOutcome) (h : Option HeadNo) (rs : StepRecords) (s : State) :
    (queueFinal b e o h rs s).begun = s.begun :=
  (queueFinal_only b e o h rs s).get .begun rfl
@[simp] theorem queueFinal_view_bus (b : BusNo) (e : TestEntry) (o : TestOutcome) (h : Option HeadNo) (rs : StepRecords) (s : State)
    (x : BusNo) : (queueFinal b e o h rs s).bus x = s.bus x := by
  unfold State.bus
  rw [queueFinal_buses]
@[simp] theorem queueFinal_view_head (b : BusNo) (e : TestEntry) (o : TestOutcome) (h : Option HeadNo) (rs : StepRecords) (s : State)
    (x : HeadNo) : (queueFinal b e o h rs s).head x = s.head x := by
  unfold State.head
  rw [queueFinal_heads]
@[simp] theorem queueFinal_view_program (b : BusNo) (e : TestEntry) (o : TestOutcome) (h : Option HeadNo) (rs : StepRecords) (s : State)
    (x : BusNo) : (queueFinal b e o h rs s).program x = s.program x := by
  unfold State.program
  rw [queueFinal_programs]
@[simp] theorem queueFinal_view_line (b : BusNo) (e : TestEntry) (o : TestOutcome) (h : Option HeadNo) (rs : StepRecords) (s : State)
    (x : LineNo) : (queueFinal b e o h rs s).line x = s.line x := by
  unfold State.line
  rw [queueFinal_lines]
@[simp] theorem queueFinal_view_group (b : BusNo) (e : TestEntry) (o : TestOutcome) (h : Option HeadNo) (rs : StepRecords) (s : State)
    (x : GroupNo) : (queueFinal b e o h rs s).group x = s.group x := by
  unfold State.group
  rw [queueFinal_groups]
@[simp] theorem queueFinal_view_shadow (b : BusNo) (e : TestEntry) (o : TestOutcome) (h : Option HeadNo) (rs : StepRecords) (s : State)
    (x : Fin 64) : (queueFinal b e o h rs s).shadow x = s.shadow x := by
  unfold State.shadow
  rw [queueFinal_shadows]
@[simp] theorem queueFinal_view_flag (b : BusNo) (e : TestEntry) (o : TestOutcome) (h : Option HeadNo) (rs : StepRecords) (s : State)
    (x : Flag) : (queueFinal b e o h rs s).flag x = s.flag x := by
  unfold State.flag
  rw [queueFinal_flags]

/-! ## Tickets -/

theorem cleanMarks_of_noFault {k : Ticket} (h : ∀ f, k.kind ≠ .lineFault f) (s : State) : cleanMarks k s = s := by
  unfold cleanMarks
  split
  · rename_i f hf
    exact absurd hf (h f)
  all_goals rfl

/-- R137, R138. -/
theorem enterOutbox_entered (k : Ticket) (s : State) : TicketEntered k s (enterOutbox k s) := by
  unfold TicketEntered enterOutbox
  by_cases h : s.outbox.length < 8
  · rw [if_pos h, if_pos h]
    exact ⟨rfl, rfl, rfl, rfl, rfl⟩
  · rw [if_neg h, if_neg h]
    unfold dropTicket
    have c := cleanMarks_only k
      ({ s with droppedBefore := min 255 (s.droppedBefore + 1), droppedTotal := min 65535 (s.droppedTotal + 1) }.raiseFlag .drop)
    refine ⟨(c.get .outbox rfl).trans (by simp), (c.get .ticketSeq rfl).trans (by simp), (c.get .droppedBefore rfl).trans (by simp),
      (c.get .droppedTotal rfl).trans (by simp), ?_⟩
    refine (flagRaised_raiseFlag .drop _).of_eq (s := { s with
      droppedBefore := min 255 (s.droppedBefore + 1), droppedTotal := min 65535 (s.droppedTotal + 1) }) rfl rfl ?_
    unfold State.flag
    rw [c.get .flags rfl]

theorem enterOutbox_otherFlags (k : Ticket) (s : State) : OtherFlags [.drop] s (enterOutbox k s) := by
  intro f hf
  unfold enterOutbox
  split
  · rfl
  · unfold dropTicket
    have c := cleanMarks_only k
      ({ s with droppedBefore := min 255 (s.droppedBefore + 1), droppedTotal := min 65535 (s.droppedTotal + 1) }.raiseFlag .drop)
    have e : ∀ t : State, t.flag f = entry t.flags f.index := fun _ => rfl
    rw [e, c.get .flags rfl, ← e]
    exact otherFlags_raiseFlag .drop _ f hf

theorem clearMark_view_line (k : FaultKind) (s : State) (x l : LineNo) :
    (clearMark k s x).line l =
      if x = l ∧ (s.line l).ticketMark = some k then { s.line l with ticketMark := none } else s.line l := by
  unfold clearMark
  by_cases h : (s.line x).ticketMark = some k
  · rw [if_pos h, State.setLine_view_line]
    by_cases e : x = l
    · subst e
      rw [if_pos rfl, if_pos ⟨rfl, h⟩]
    · rw [if_neg e, if_neg (fun c => e c.1)]
  · rw [if_neg h, if_neg]
    rintro ⟨rfl, h'⟩
    exact h h'

theorem foldl_clearMark_view_line (k : FaultKind) (ls : List LineNo) (s : State) (l : LineNo) :
    (ls.foldl (clearMark k) s).line l =
      if l ∈ ls ∧ (s.line l).ticketMark = some k then { s.line l with ticketMark := none } else s.line l := by
  induction ls generalizing s with
  | nil => simp
  | cons x xs ih =>
    rw [List.foldl_cons, ih, clearMark_view_line]
    by_cases h : (s.line l).ticketMark = some k
    · by_cases e : x = l
      · subst e
        simp [h]
      · have e' : l ≠ x := fun c => e c.symm
        simp [h, e, e']
    · simp [h]

/-- R139. -/
theorem cleanMarks_cleaned {s u : State} (k : Ticket) (h : ∀ l, u.line l = s.line l) : MarksCleaned k s (cleanMarks k u) := by
  intro l
  unfold cleanMarks
  cases hk : k.kind with
  | lineFault f =>
    dsimp only
    rw [foldl_clearMark_view_line, h]
    refine ⟨?_, fun n => if_neg fun c => n ⟨c.1, f, rfl, c.2⟩⟩
    rintro ⟨hm, g, hg, hs⟩
    cases hg
    rw [if_pos ⟨hm, hs⟩]
  | _ =>
    dsimp only
    refine ⟨?_, fun _ => h l⟩
    rintro ⟨-, g, hg, -⟩
    cases hg

theorem dropTicket_cleaned (k : Ticket) (s : State) : MarksCleaned k s (dropTicket k s) :=
  cleanMarks_cleaned k fun _ => raiseFlag_view_line _ _ _

theorem enterOutbox_reached (k : Ticket) (s : State) : OutboxReached k s (enterOutbox k s) := by
  refine ⟨enterOutbox_entered k s, enterOutbox_otherFlags k s, ?_, ?_, enterOutbox_only k s⟩
  · intro h l
    unfold enterOutbox
    rw [if_pos h]
    rfl
  · intro h
    unfold enterOutbox
    rw [if_neg (by omega)]
    exact dropTicket_cleaned k s

/-- A ticket without a line fault leaves every line alone. -/
theorem enterOutbox_only_of_noFault {k : Ticket} (h : ∀ f, k.kind ≠ .lineFault f) (s : State) :
    OnlyChanges outboxFields s (enterOutbox k s) := by
  unfold enterOutbox
  split
  · intro f hf; cases f <;> first | rfl | exact ⟨rfl, fun _ => rfl⟩ | simp [outboxFields] at hf
  · unfold dropTicket
    rw [cleanMarks_of_noFault h]
    have a : OnlyChanges [.droppedBefore, .droppedTotal] s
        { s with droppedBefore := min 255 (s.droppedBefore + 1), droppedTotal := min 65535 (s.droppedTotal + 1) } := by
      intro f hf; cases f <;> first | rfl | exact ⟨rfl, fun _ => rfl⟩ | simp at hf
    exact a.comp (raiseFlag_only .drop _) rfl

/-- The tickets of two states that agree on what a handed-over event reads. -/
theorem EventHandedOver.of_eq {kind : TicketKind} {c : EventContext} {s s' t t' : State} (h : EventHandedOver kind c s t)
    (ha : s'.anchor = s.anchor) (he : s'.epoch = s.epoch) (ho : s'.outbox = s.outbox) (hq : s'.ticketSeq = s.ticketSeq)
    (hb : s'.droppedBefore = s.droppedBefore) (hd : s'.droppedTotal = s.droppedTotal) (hf : s'.flag .drop = s.flag .drop)
    (ho' : t'.outbox = t.outbox) (hq' : t'.ticketSeq = t.ticketSeq) (hb' : t'.droppedBefore = t.droppedBefore)
    (hd' : t'.droppedTotal = t.droppedTotal) (hf' : t'.flag .drop = t.flag .drop) : EventHandedOver kind c s' t' := by
  unfold EventHandedOver TicketEntered FlagRaised at *
  rw [ha, he, ho, hq, hb, hd, hf, ho', hq', hb', hd', hf']
  exact h

/-- R130. -/
theorem equipmentEvent_handedOver {kind : TicketKind} (hk : kind.mergeable = false) (c : EventContext) (s : State) :
    EventHandedOver kind c s (equipmentEvent kind c s) := by
  unfold EventHandedOver equipmentEvent
  split
  · unfold routeTicket
    rw [if_neg (by simp [hk])]
    exact enterOutbox_entered _ s
  · exact ⟨rfl, rfl, rfl, rfl, rfl⟩

theorem equipmentEvent_otherFlags {kind : TicketKind} (hk : kind.mergeable = false) (c : EventContext) (s : State) :
    OtherFlags [.drop] s (equipmentEvent kind c s) := by
  unfold equipmentEvent
  split
  · unfold routeTicket
    rw [if_neg (by simp [hk])]
    exact enterOutbox_otherFlags _ s
  · exact fun _ _ => rfl

theorem equipmentEvent_only_outbox {kind : TicketKind} (hk : kind.mergeable = false) (hf : ∀ f, kind ≠ .lineFault f)
    (c : EventContext) (s : State) : OnlyChanges outboxFields s (equipmentEvent kind c s) := by
  unfold equipmentEvent
  split
  · unfold routeTicket
    rw [if_neg (by simp [hk])]
    exact enterOutbox_only_of_noFault hf s
  · exact .refl _ s

/-- An equipment event's kind (Table 6-1): none merges and none is a line fault. -/
def TicketKind.isEquipment (k : TicketKind) : Bool :=
  k == .headTimeout || k == .headError || k == .xpFault || k == .linkTimeout

theorem TicketKind.isEquipment_spec {k : TicketKind} (h : k.isEquipment = true) :
    k.mergeable = false ∧ ∀ f, k ≠ .lineFault f := by
  cases k <;> first | exact ⟨rfl, fun f e => by cases e⟩ | (exact absurd h (by decide)) | (rename_i f; cases f <;> exact absurd h (by decide))

/-- A flag is raised and an equipment event handed on, after a change that left tickets and flags alone. -/
theorem raise_event_view {kind : TicketKind} (hk : kind.isEquipment = true) {g : Flag} (hg : g ≠ .drop) (c : EventContext)
    {fs : List Field} {s u : State} (h : OnlyChanges fs s u)
    (hn : (Field.anchor :: .epoch :: .flags :: outboxFields).all (fun f => decide (f ∉ fs)) = true) :
    EventHandedOver kind c s (equipmentEvent kind c (u.raiseFlag g)) ∧
      FlagRaised g s (equipmentEvent kind c (u.raiseFlag g)) ∧
      OtherFlags [g, .drop] s (equipmentEvent kind c (u.raiseFlag g)) ∧
      OnlyChanges outboxFields u (equipmentEvent kind c (u.raiseFlag g)) := by
  obtain ⟨k1, k2⟩ := TicketKind.isEquipment_spec hk
  have nm : ∀ f ∈ (Field.anchor :: .epoch :: .flags :: outboxFields), decide (f ∈ fs) = false := fun f hf =>
    decide_eq_false (of_decide_eq_true (List.all_eq_true.mp hn f hf))
  have fl : ∀ x, u.flag x = s.flag x := h.flag (nm .flags (by simp))
  refine ⟨?_, ?_, ?_, ?_⟩
  · refine (equipmentEvent_handedOver k1 c (u.raiseFlag g)).of_eq ?_ ?_ ?_ ?_ ?_ ?_ ?_ rfl rfl rfl rfl rfl
    · exact ((raiseFlag_anchor g u).trans (h.get .anchor (nm _ (by simp)))).symm
    · exact ((raiseFlag_epoch g u).trans (h.get .epoch (nm _ (by simp)))).symm
    · exact ((raiseFlag_outbox g u).trans (h.get .outbox (nm _ (by simp [outboxFields])))).symm
    · exact ((raiseFlag_ticketSeq g u).trans (h.get .ticketSeq (nm _ (by simp [outboxFields])))).symm
    · exact ((raiseFlag_droppedBefore g u).trans (h.get .droppedBefore (nm _ (by simp [outboxFields])))).symm
    · exact ((raiseFlag_droppedTotal g u).trans (h.get .droppedTotal (nm _ (by simp [outboxFields])))).symm
    · rw [raiseFlag_view_flag, if_neg (fun e => hg e.1), fl]
  · refine (flagRaised_raiseFlag g u).of_eq (h.get .anchor (nm _ (by simp))).symm (fl g).symm ?_
    exact equipmentEvent_otherFlags k1 c _ g (by simpa using hg)
  · intro f hf
    rw [equipmentEvent_otherFlags k1 c _ f (by simp at hf ⊢; exact hf.2),
      otherFlags_raiseFlag g u f (by simp at hf ⊢; exact hf.1), fl]
  · exact (raiseFlag_only g u).comp (equipmentEvent_only_outbox k1 k2 c _) rfl

/-- The same with the flag raised after the event. -/
theorem event_raise_view {kind : TicketKind} (hk : kind.isEquipment = true) {g : Flag} (hg : g ≠ .drop) (c : EventContext)
    {fs : List Field} {s u : State} (h : OnlyChanges fs s u)
    (hn : (Field.anchor :: .epoch :: .flags :: outboxFields).all (fun f => decide (f ∉ fs)) = true) :
    EventHandedOver kind c s ((equipmentEvent kind c u).raiseFlag g) ∧
      FlagRaised g s ((equipmentEvent kind c u).raiseFlag g) ∧
      OtherFlags [g, .drop] s ((equipmentEvent kind c u).raiseFlag g) ∧
      OnlyChanges outboxFields u ((equipmentEvent kind c u).raiseFlag g) := by
  obtain ⟨k1, k2⟩ := TicketKind.isEquipment_spec hk
  have nm : ∀ f ∈ (Field.anchor :: .epoch :: .flags :: outboxFields), decide (f ∈ fs) = false := fun f hf =>
    decide_eq_false (of_decide_eq_true (List.all_eq_true.mp hn f hf))
  have fl : ∀ x, u.flag x = s.flag x := h.flag (nm .flags (by simp))
  have ev := equipmentEvent_only_outbox k1 k2 c u
  refine ⟨?_, ?_, ?_, ?_⟩
  · refine (equipmentEvent_handedOver k1 c u).of_eq ?_ ?_ ?_ ?_ ?_ ?_ ?_ (by simp) (by simp) (by simp) (by simp) ?_
    · exact (h.get .anchor (nm _ (by simp))).symm
    · exact (h.get .epoch (nm _ (by simp))).symm
    · exact (h.get .outbox (nm _ (by simp [outboxFields]))).symm
    · exact (h.get .ticketSeq (nm _ (by simp [outboxFields]))).symm
    · exact (h.get .droppedBefore (nm _ (by simp [outboxFields]))).symm
    · exact (h.get .droppedTotal (nm _ (by simp [outboxFields]))).symm
    · exact (fl .drop).symm
    · rw [raiseFlag_view_flag, if_neg (fun e => hg e.1)]
  · refine (flagRaised_raiseFlag g (equipmentEvent kind c u)).of_eq ?_ ?_ rfl
    · exact ((ev.get .anchor rfl).trans (h.get .anchor (nm _ (by simp)))).symm
    · rw [equipmentEvent_otherFlags k1 c u g (by simpa using hg), fl]
  · intro f hf
    rw [otherFlags_raiseFlag g _ f (by simp at hf ⊢; exact hf.1),
      equipmentEvent_otherFlags k1 c u f (by simp at hf ⊢; exact hf.2), fl]
  · exact ev.comp (raiseFlag_only g _) rfl

/-- R135, R136. -/
theorem closeRegister_closed (s : State) : RegisterClosed s (closeRegister s) := by
  unfold RegisterClosed closeRegister
  cases hr : s.register with
  | none => exact .refl _ s
  | some k =>
    dsimp only
    refine ⟨{ enterOutbox k { s with register := none, coalescing := none } with
      register := some k, coalescing := s.coalescing }, ?_, ?_, ?_, ?_⟩
    · have h := enterOutbox_reached k { s with register := none, coalescing := none }
      refine ⟨h.1, h.2.1, h.2.2.1, h.2.2.2.1, ?_⟩
      intro f hf
      have g := h.2.2.2.2 f hf
      cases f <;> first | exact g | exact hr.symm | rfl
    · exact (enterOutbox_only k _).get .register rfl
    · exact (enterOutbox_only k _).get .coalescing rfl
    · intro f hf
      cases f <;> first | rfl | exact ⟨rfl, fun _ => rfl⟩ | simp at hf

end Sys2Proof.Machine
end

