-- ==== Sys2Proof/Laws/Buses.lean ====
section
/-!
SUPPORT. The bus a message or a request names, and what the operations on a bus's test and line come to.
-/

namespace Sys2Proof.Machine

theorem mem_allBuses (b : BusNo) : b ∈ allBuses := by
  revert b
  decide

theorem mem_allHeads (h : HeadNo) : h ∈ allHeads := by
  revert h
  decide

/-! ## Matching (R25) -/

theorem matchBus_none {s : State} {l : LineNo} {c : ClaimNo} :
    s.matchBus l c = none ↔ ∀ b, ¬ ((s.bus b).state ≠ .idle ∧ (s.bus b).line = some l ∧ (s.bus b).claim = c) := by
  unfold State.matchBus
  rw [List.find?_eq_none]
  refine ⟨fun h b hb => ?_, fun h b _ hb => h b ?_⟩
  · exact h b (mem_allBuses b) (by simp [hb.1, hb.2.1, hb.2.2])
  · simpa [and_assoc] using hb

/-- A bus that names a line is not IDLE. -/
theorem BusLineOk.not_idle {s : State} (h : BusLineOk s) {b : BusNo} {l : LineNo} (hl : (s.bus b).line = some l) :
    (s.bus b).state ≠ .idle := by
  intro hi
  rw [h.1 b hi] at hl
  cases hl

/-- No two buses name one line. -/
theorem BusLineOk.unique {s : State} (h : BusLineOk s) {b x : BusNo} {l : LineNo} (hb : (s.bus b).line = some l)
    (hx : (s.bus x).line = some l) : x = b := by
  have p := h.2.1 b l hb
  rw [h.2.1 x l hx] at p
  exact Option.some.inj p

theorem matchBus_some {s : State} {b : BusNo} {l : LineNo} (h : BusLineOk s) (hl : (s.bus b).line = some l) :
    s.matchBus l (s.bus b).claim = some b := by
  cases hm : s.matchBus l (s.bus b).claim with
  | none => exact absurd ⟨h.not_idle hl, hl, rfl⟩ (matchBus_none.mp hm b)
  | some x =>
    have k := List.find?_some hm
    simp only [Bool.and_eq_true, bne_iff_ne, beq_iff_eq] at k
    rw [h.unique hl k.1.2]

theorem busOfLine_some {s : State} {b : BusNo} {l : LineNo} (h : BusLineOk s) (hl : (s.bus b).line = some l) :
    s.busOfLine l = some b := by
  unfold State.busOfLine
  cases hm : allBuses.find? fun x => (s.bus x).state != .idle && (s.bus x).line == some l with
  | none =>
    have k := List.find?_eq_none.mp hm b (mem_allBuses b)
    simp [hl, h.not_idle hl] at k
  | some x =>
    have k := List.find?_some hm
    simp only [Bool.and_eq_true, bne_iff_ne, beq_iff_eq] at k
    rw [h.unique hl k.2]

/-! ## The end of a test, and what the bus does next -/

/-- A test that hands no verdict on ends (R38). -/
theorem endTest_view {s : State} {b : BusNo} {o : TestOutcome} {e : TestEntry} (h : Option HeadNo) (rs : StepRecords)
    (ht : (s.bus b).test = some e) (hv : (s.outcomeOn b o).verdict = none) :
    (endTest b o h rs s).bus b = { s.bus b with test := none, abort := none } ∧ OtherBuses b s (endTest b o h rs s) ∧
      (endTest b o h rs s).program b = none ∧ OtherPrograms b s (endTest b o h rs s) ∧
      (endTest b o h rs s).newsEntries = s.newsEntries ++ s.finalEntries b (s.outcomeOn b o) h rs ∧
      Looked (e.cls = .sweep) s (endTest b o h rs s) ∧
      OnlyChanges [.news, .writerQueue, .buses, .programs, .cancelSinceLook] s (endTest b o h rs s) := by
  rw [endTest_of_noVerdict h rs ht hv]
  have d := (queueFinal_only b e (s.outcomeOn b o) h rs s).comp (dropTest_only b _) (hs := [.news, .writerQueue, .buses, .programs]) rfl
  refine ⟨?_, ?_, ?_, ?_, ?_, ?_, d.comp (look_only _ _) rfl⟩
  · simp [dropTest]
  · intro x hx
    simp [dropTest, State.setBus_view_bus, hx.symm]
  · simp [dropTest]
  · intro x hx
    simp [dropTest, State.setProgram_view_program, hx.symm]
  · rw [← queueFinal_news _ h rs ht]
    exact (dropTest_only b _).get .news rfl
  · have k := looked_look (event := e.cls = .sweep) (p := e.cls == .sweep) (by simp) (dropTest b (queueFinal b e (s.outcomeOn b o) h rs s))
    exact ⟨k.1, fun n => (k.2 n).trans (d.get .cancelSinceLook rfl)⟩

/-- The bus sends OPEN (R32). -/
theorem startRelease_view (b : BusNo) (s : State) :
    (startRelease b s).bus b =
        { s.bus b with state := .releasing, command := some .opening, timer := some (.opening, 50), cause := none } ∧
      OtherBuses b s (startRelease b s) ∧ (startRelease b s).matrixOut = s.matrixOut ++ [.opening b] := by
  refine ⟨?_, ?_, ?_⟩
  · simp [startRelease]
  · intro x hx
    simp [startRelease, State.setBus_view_bus, hx.symm]
  · simp [startRelease]

/-- A test that hands no verdict on ends and its bus sends OPEN (R32, R33, R42, R69, R74). -/
theorem endTest_startRelease_view {s : State} {b : BusNo} {o : TestOutcome} {e : TestEntry} (h : Option HeadNo) (rs : StepRecords)
    (ht : (s.bus b).test = some e) (hv : (s.outcomeOn b o).verdict = none) :
    (startRelease b (endTest b o h rs s)).bus b = (s.bus b).sentOpen ∧ OtherBuses b s (startRelease b (endTest b o h rs s)) ∧
      (startRelease b (endTest b o h rs s)).program b = none ∧ OtherPrograms b s (startRelease b (endTest b o h rs s)) ∧
      (startRelease b (endTest b o h rs s)).matrixOut = s.matrixOut ++ [.opening b] ∧
      (startRelease b (endTest b o h rs s)).newsEntries = s.newsEntries ++ s.finalEntries b (s.outcomeOn b o) h rs ∧
      Looked (e.cls = .sweep) s (startRelease b (endTest b o h rs s)) ∧
      OnlyChanges [.news, .writerQueue, .buses, .programs, .cancelSinceLook, .matrixOut] s (startRelease b (endTest b o h rs s)) := by
  obtain ⟨v1, v2, v3, v4, v5, v6, v7⟩ := endTest_view h rs ht hv
  obtain ⟨w1, w2, w3⟩ := startRelease_view b (endTest b o h rs s)
  have r := startRelease_only b (endTest b o h rs s)
  have p : ∀ x, (startRelease b (endTest b o h rs s)).program x = (endTest b o h rs s).program x := fun x =>
    congrArg (fun ps => entry ps x) (r.get .programs rfl)
  refine ⟨?_, ?_, ?_, ?_, ?_, ?_, v6, v7.comp r rfl⟩
  · rw [w1, v1]
    rfl
  · intro x hx
    rw [w2 x hx, v2 x hx]
  · rw [p, v3]
  · intro x hx
    rw [p, v4 x hx]
  · rw [w3, v7.get .matrixOut rfl]
  · rw [← v5]
    exact r.get .news rfl

/-- The bus enters IDLE and its line loses its occupying bus, at which the Test Queue looks for a move (R12, R20, R89). -/
theorem enterIdle_view {s : State} {b : BusNo} {l : LineNo} (hl : (s.bus b).line = some l) :
    (enterIdle b s).bus b = Bus.idle ∧ OtherBuses b s (enterIdle b s) ∧
      (enterIdle b s).line l = { s.line l with occupying := none } ∧ OtherLines l s (enterIdle b s) ∧
      Looked True s (enterIdle b s) := by
  unfold enterIdle
  rw [hl]
  refine ⟨?_, ?_, ?_, ?_, ?_⟩
  · simp
  · intro x hx
    simp [State.setBus_view_bus, hx.symm, setOccupying]
  · simp [setOccupying]
  · intro x hx
    simp [setOccupying, State.setLine_view_line, hx.symm]
  · simp [Looked]

/-- The head joined to a bus. -/
theorem headOfBus_some {s : State} {b : BusNo} {h : HeadNo} (hb : (s.head h).bus = some b)
    (hu : ¬ ((s.head 0).bus = some b ∧ (s.head 1).bus = some b)) : s.headOfBus b = some h := by
  unfold State.headOfBus allHeads
  rcases (by decide : ∀ h : HeadNo, h = 0 ∨ h = 1) h with rfl | rfl
  · simp [hb]
  · have n : (s.head 0).bus ≠ some b := fun c => hu ⟨c, hb⟩
    simp [hb, n]

/-- The abort of an ATTACHED head's step (R73). -/
theorem abortStep_view {s : State} {b : BusNo} {h : HeadNo} (hb : s.headOfBus b = some h) (ha : (s.head h).state = .attached) :
    (abortStep b s).head h = { s.head h with state := .aborting, timer := some (.abort, 100), startedAt := 0 } ∧
      OtherHeads h s (abortStep b s) ∧ (abortStep b s).headOut = s.headOut ++ [.abort h] := by
  unfold abortStep
  rw [hb]
  dsimp only
  rw [if_pos ha]
  refine ⟨?_, ?_, ?_⟩
  · simp
  · intro x hx
    simp [State.setHead_view_head, hx.symm]
  · simp

end Sys2Proof.Machine
end

