-- ==== Sys2Proof/Laws/Memory.lean ====
section
/-!
SUPPORT. Lemmas of desk memory: every write keeps the canonical form, and what a byte reads as after a write.
-/

namespace Sys2Proof.Machine.Memory

theorem wf_cons {c : Host.Cell} {m : List Host.Cell} : wf (c :: m) = true ↔ (∀ d ∈ m, c.1 < d.1) ∧ wf m = true := by
  induction m generalizing c with
  | nil => simp [wf]
  | cons d m ih =>
    simp only [wf, Bool.and_eq_true, decide_eq_true_eq, List.mem_cons, forall_eq_or_imp]
    constructor
    · rintro ⟨h, hw⟩
      exact ⟨⟨h, fun x hx => Nat.lt_trans h ((ih.mp hw).1 x hx)⟩, hw⟩
    · rintro ⟨⟨h, _⟩, hw⟩
      exact ⟨h, hw⟩

@[simp] theorem wf_nil : wf [] = true := rfl

theorem mem_write {m : List Host.Cell} {a : Nat} {b : Byte} {d : Host.Cell} (h : d ∈ write m a b) : d = (a, b) ∨ d ∈ m := by
  induction m with
  | nil => simpa [write] using h
  | cons c m ih =>
    unfold write at h
    split at h
    · simpa using h
    · split at h
      · rcases List.mem_cons.mp h with e | e
        · exact Or.inl e
        · exact Or.inr (List.mem_cons_of_mem _ e)
      · rcases List.mem_cons.mp h with e | e
        · exact Or.inr (by simp [e])
        · rcases ih e with e | e
          · exact Or.inl e
          · exact Or.inr (List.mem_cons_of_mem _ e)

/-- Writing a byte keeps the canonical form. -/
theorem wf_write {m : List Host.Cell} (a : Nat) (b : Byte) (h : wf m = true) : wf (write m a b) = true := by
  induction m with
  | nil => rfl
  | cons c m ih =>
    obtain ⟨hlt, hw⟩ := wf_cons.mp h
    unfold write
    split
    · rename_i hac
      refine wf_cons.mpr ⟨?_, h⟩
      intro d hd
      rcases List.mem_cons.mp hd with e | e
      · subst e; exact hac
      · exact Nat.lt_trans hac (hlt d e)
    · split
      · rename_i heq
        refine wf_cons.mpr ⟨?_, hw⟩
        intro d hd
        exact heq ▸ hlt d hd
      · rename_i hna hne
        refine wf_cons.mpr ⟨?_, ih hw⟩
        intro d hd
        rcases mem_write hd with e | e
        · subst e; omega
        · exact hlt d e

/-- What a byte reads as after one byte was written. -/
theorem read_write {m : List Host.Cell} (a x : Nat) (b : Byte) (h : wf m = true) :
    read (write m a b) x = if x = a then some b else read m x := by
  induction m with
  | nil => simp only [write, read, eq_comm]
  | cons c m ih =>
    obtain ⟨hlt, hw⟩ := wf_cons.mp h
    unfold write
    split
    · simp only [read]
      by_cases e : x = a
      · simp [e]
      · simp [e, Ne.symm e]
    · split
      · rename_i heq
        simp only [read]
        by_cases e : x = a
        · simp [e]
        · have : c.1 ≠ x := by omega
          simp [e, Ne.symm e, this]
      · rename_i hna hne
        simp only [read]
        by_cases e : c.1 = x
        · have : x ≠ a := by omega
          simp [e, this]
        · simp [e, ih hw]

theorem wf_writeLane {m : List Host.Cell} (a : Nat) (data : Word) (be : BitVec 4) (i : Nat) (h : wf m = true) :
    wf (writeLane m a data be i) = true := by
  unfold writeLane
  split
  · exact wf_write _ _ h
  · exact h

theorem read_writeLane {m : List Host.Cell} (a x : Nat) (data : Word) (be : BitVec 4) (i : Nat) (h : wf m = true) :
    read (writeLane m a data be i) x = if be.getLsbD i = true ∧ x = a + i then some (lane data i) else read m x := by
  unfold writeLane
  split
  · rename_i hb
    rw [read_write _ _ _ h]
    simp [hb]
  · rename_i hb
    simp [hb]

/-- Writing a word under byte enables keeps the canonical form. -/
theorem wf_writeLanes {m : List Host.Cell} (a : Nat) (data : Word) (be : BitVec 4) (h : wf m = true) :
    wf (writeLanes m a data be) = true :=
  wf_writeLane _ _ _ _ (wf_writeLane _ _ _ _ (wf_writeLane _ _ _ _ (wf_writeLane _ _ _ _ h)))

/-- What a byte reads as after a word was written under byte enables: lane i of the data where enable i is active, else as before. -/
theorem read_writeLanes {m : List Host.Cell} (a x : Nat) (data : Word) (be : BitVec 4) (h : wf m = true) :
    read (writeLanes m a data be) x =
      if a ≤ x ∧ x < a + 4 ∧ be.getLsbD (x - a) = true then some (lane data (x - a)) else read m x := by
  have h0 := wf_writeLane a data be 0 h
  have h1 := wf_writeLane a data be 1 h0
  have h2 := wf_writeLane a data be 2 h1
  unfold writeLanes
  rw [read_writeLane _ _ _ _ _ h2, read_writeLane _ _ _ _ _ h1, read_writeLane _ _ _ _ _ h0, read_writeLane _ _ _ _ _ h]
  by_cases hx : a ≤ x ∧ x < a + 4
  · have : x = a ∨ x = a + 1 ∨ x = a + 2 ∨ x = a + 3 := by omega
    rcases this with e | e | e | e <;> subst e <;> simp
  · have e0 : x ≠ a := by omega
    have e1 : x ≠ a + 1 := by omega
    have e2 : x ≠ a + 2 := by omega
    have e3 : x ≠ a + 3 := by omega
    have : ¬ (a ≤ x ∧ x < a + 4 ∧ be.getLsbD (x - a) = true) := fun hh => hx ⟨hh.1, hh.2.1⟩
    simp [e0, e1, e2, e3, this]

theorem wf_writeWord {m : List Host.Cell} (a : Nat) (data : Word) (h : wf m = true) : wf (writeWord m a data) = true :=
  wf_writeLanes _ _ _ h

/-- What a byte reads as after a full word was written. -/
theorem read_writeWord {m : List Host.Cell} (a x : Nat) (data : Word) (h : wf m = true) :
    read (writeWord m a data) x = if a ≤ x ∧ x < a + 4 then some (lane data (x - a)) else read m x := by
  unfold writeWord
  rw [read_writeLanes _ _ _ _ h]
  by_cases hx : a ≤ x ∧ x < a + 4
  · have : x - a = 0 ∨ x - a = 1 ∨ x - a = 2 ∨ x - a = 3 := by omega
    have hb : BitVec.getLsbD 0xF#4 (x - a) = true := by rcases this with e | e | e | e <;> rw [e] <;> rfl
    simp [hx, hb]
  · have : ¬ (a ≤ x ∧ x < a + 4 ∧ BitVec.getLsbD 0xF#4 (x - a) = true) := fun hh => hx ⟨hh.1, hh.2.1⟩
    rw [if_neg this, if_neg hx]

/-- Writing several words keeps the canonical form. -/
theorem wf_writeWords {m : List Host.Cell} (ws : List (Nat × Word)) (h : wf m = true) : wf (writeWords m ws) = true := by
  induction ws generalizing m with
  | nil => exact h
  | cons w ws ih => exact ih (wf_writeWord _ _ h)

/-- A byte outside every word written reads as before. -/
theorem read_writeWords_of_outside {m : List Host.Cell} (ws : List (Nat × Word)) (x : Nat) (h : wf m = true)
    (hx : ∀ w ∈ ws, ¬ (w.1 ≤ x ∧ x < w.1 + 4)) : read (writeWords m ws) x = read m x := by
  induction ws generalizing m with
  | nil => rfl
  | cons w ws ih =>
    simp only [writeWords]
    rw [ih (wf_writeWord _ _ h) (fun w' hw' => hx w' (List.mem_cons_of_mem _ hw')), read_writeWord _ _ _ h,
      if_neg (hx w List.mem_cons_self)]

end Sys2Proof.Machine.Memory
end

