-- ==== Sys2Proof/Laws/Path.lean ====
section
/-!
SUPPORT. The memory path: what serving the host's accesses comes to when none or one is outstanding, and when the writer and the host
may take the path.
-/

namespace Sys2Proof.Machine

theorem serveAll_nil {s : State} (h : s.hostAccesses = []) : serveAll s = s := by
  unfold serveAll
  rw [h]
  rfl

theorem serveAll_write {s : State} {addr : HostAddr} {data : Word} {be : BitVec 4}
    (h : s.hostAccesses = [.write addr data be]) :
    serveAll s = if s.hostMayTake = true then performWrite addr data be [] s else s := by
  unfold serveAll
  rw [h]
  show serveHost 1 s = _
  unfold serveHost
  rw [h]
  rfl

theorem serveAll_read {s : State} {addr : HostAddr} {be : BitVec 4} (h : s.hostAccesses = [.read addr be]) :
    serveAll s =
      match s.holdOf (wordAddr addr) with
      | some x => { s with readHold := some x }
      | none => if s.hostMayTake = true then performRead addr be [] s else { s with readHold := none } := by
  unfold serveAll
  rw [h]
  show serveHost 1 s = _
  unfold serveHost
  rw [h]
  rfl

theorem hostMayTake_iff (s : State) :
    s.hostMayTake = true ↔ s.path = .free ∧ (s.writerQueue = [] ∨ (s.anchor.isSome = true ∧ s.starvation < 16)) := by
  unfold State.hostMayTake
  cases s.path <;> simp

theorem writerMayTake_iff (s : State) :
    s.writerMayTake = true ↔ s.path = .free ∧ s.writerQueue ≠ [] ∧
      (s.hostAccesses = [] ∨ s.readHold ≠ none ∨ 16 ≤ s.starvation ∨ s.anchor = none) := by
  unfold State.writerMayTake State.hostPresented
  cases s.path <;> simp [or_assoc, Option.isSome_iff_ne_none]

/-- A first access is presented and looked at. -/
theorem present_first {s : State} (x : HostAccess) (h : s.hostAccesses = []) :
    present x s = serveAll { s with hostAccesses := [x] } := by
  unfold present
  rw [if_pos (by simp [h])]

/-- A further access follows those outstanding (log 5). -/
theorem present_next {s : State} (x : HostAccess) (h : s.hostAccesses ≠ []) :
    present x s = { s with hostAccesses := s.hostAccesses ++ [x] } := by
  unfold present
  rw [if_neg (by simpa using h)]

/-- The seven commands that write are one host write (R158). -/
theorem exec_of_writeOf {c : Instr} {addr : HostAddr} {data : Word} {be : BitVec 4} (h : writeOf c = some (addr, data, be))
    (s : State) : exec c s = .next (present (.write addr data be) s) := by
  cases c <;> simp only [writeOf, Option.some.injEq, Prod.mk.injEq, reduceCtorEq] at h
  all_goals
    obtain ⟨rfl, rfl, rfl⟩ := h
    rfl

/-- A host write that may take the path is performed. -/
theorem present_write_open {s : State} {addr : HostAddr} {data : Word} {be : BitVec 4} (h : PathOpen s) :
    present (.write addr data be) s = performWrite addr data be [] { s with hostAccesses := [.write addr data be] } := by
  rw [present_first _ h.1, serveAll_write rfl, if_pos]
  exact (hostMayTake_iff _).mpr h.2

/-! ## What a performed access does -/

/-- What handing a write to the owner of its window may change. -/
def ownerFields : List Field :=
  [.staging, .anchor, .lastCommit, .shadows, .takeIndex, .testWaiting, .fence, .cancelSinceLook, .produce, .consume, .flags, .groups,
    .alarmList, .alarmOverflow, .focus, .pointer, .writerQueue, .outbox, .ticketSeq, .droppedBefore, .droppedTotal, .lines, .register, .coalescing]

theorem mergeStaging_only (i : Fin 32) (data : Word) (be : BitVec 4) (s : State) :
    OnlyChanges [.staging] s (mergeStaging i data be s) := by (intro f hf; cases f <;> first | rfl | exact ⟨rfl, fun _ => rfl⟩ | simp at hf)

theorem writeShadow_only (i : Fin 64) (j : Fin 4) (data : Word) (be : BitVec 4) (s : State) :
    OnlyChanges [.shadows, .testWaiting] s (writeShadow i j data be s) :=
  (setShadow_only _ _ _).comp (retestWaiting_only _ _) rfl

theorem acknowledge_only (data : Word) (s : State) : OnlyChanges [.flags, .writerQueue] s (acknowledge data s) :=
  (acknowledgeFlags_only data s).comp (markDirty_only _ _) rfl

theorem commitAttempt_only (data : Word) (s : State) : OnlyChanges ownerFields s (commitAttempt data s) := by
  have h := closeRegister_only s
  have r : ∀ c : CommitRecord, OnlyChanges ownerFields s ((refuseCommit c (closeRegister s)).markDirty (some c)) := fun c =>
    (h.comp (refuseCommit_only c _) (hs := [.outbox, .ticketSeq, .droppedBefore, .droppedTotal, .flags, .lines, .register, .coalescing,
      .lastCommit]) rfl).comp (markDirty_only _ _) rfl
  unfold commitAttempt
  dsimp only
  split
  · exact (h.comp (acceptCommit_only _ _) (hs := [.outbox, .ticketSeq, .droppedBefore, .droppedTotal, .flags, .lines, .register, .coalescing,
      .anchor, .shadows, .takeIndex, .testWaiting, .fence, .cancelSinceLook, .produce, .consume, .lastCommit, .pointer, .groups, .alarmList, .alarmOverflow,
      .focus]) rfl).comp (markDirty_only _ _) rfl
  all_goals exact r _

theorem writeAnchorBlock_only (i : Fin 32) (data : Word) (be : BitVec 4) (s : State) :
    OnlyChanges ownerFields s (writeAnchorBlock i data be s) := by
  unfold writeAnchorBlock
  dsimp only
  split
  · exact (mergeStaging_only i data be s).comp (commitAttempt_only data _) rfl
  · exact (mergeStaging_only i data be s).weaken (by simp [ownerFields])

theorem writeStatusBlock_only (a : Anchor) (w : Nat) (data : Word) (be : BitVec 4) (s : State) :
    OnlyChanges [.flags, .writerQueue, .consume] s (writeStatusBlock a w data be s) := by
  unfold writeStatusBlock
  split
  · exact (acknowledge_only data s).weaken (by simp)
  · split
    · exact (offerConsume_only a data s).weaken (by simp)
    · exact .refl _ s

theorem handToOwner_only (w : Nat) (data : Word) (be : BitVec 4) (s : State) :
    OnlyChanges ownerFields s (handToOwner w data be s) := by
  unfold handToOwner
  split
  · exact writeAnchorBlock_only _ _ _ s
  · split
    · exact .refl _ s
    · split
      · exact (writeShadow_only _ _ _ _ s).weaken (by simp [ownerFields])
      · split
        · exact (writeStatusBlock_only _ _ _ _ s).weaken (by simp [ownerFields])
        · exact .refl _ s

def afterWrite (addr : HostAddr) (data : Word) (be : BitVec 4) (s : State) : State :=
  endAccess [] { s with mem := Memory.writeLanes s.mem (wordAddr addr) data be }

theorem afterWrite_only (addr : HostAddr) (data : Word) (be : BitVec 4) (s : State) (h : PathOpen s) :
    OnlyChanges accessFields s (afterWrite addr data be s) := by
  intro f hf
  obtain ⟨h1, h2, -⟩ := h
  cases f <;> first | rfl | exact ⟨rfl, fun _ => rfl⟩ | (exfalso; revert hf; simp [accessFields]; done) | exact h1.symm | exact h2.symm

theorem retestHold_of_nil {s : State} (h : s.hostAccesses = []) : s.retestHold = s := by
  unfold State.retestHold
  rw [h]
  cases s.readHold <;> first | rfl | (rename_i x; cases x <;> rfl)

theorem present_write_open_eq {s : State} {addr : HostAddr} {data : Word} {be : BitVec 4} (h : PathOpen s) :
    present (.write addr data be) s =
      State.markIfChanged (afterWrite addr data be s) (handToOwner (wordAddr addr) data be (afterWrite addr data be s)) := by
  rw [present_write_open h]
  show finish (afterWrite addr data be s) (handToOwner (wordAddr addr) data be (afterWrite addr data be s)) = _
  unfold finish
  apply retestHold_of_nil
  rw [(markIfChanged_only _ _).get .hostAccesses rfl, (handToOwner_only _ _ _ _).get .hostAccesses rfl]
  rfl

theorem writeLanes_stored (addr : HostAddr) (data : Word) (be : BitVec 4) {s t : State} (hm : MemoryOk s) (ht : t.mem = Memory.writeLanes s.mem (wordAddr addr) data be) :
    
    Stored (wordAddr addr) data be s t := by
  constructor
  · intro i hi hb
    rw [ht, Memory.read_writeLanes _ _ _ _ hm, if_pos]
    · simp [Memory.lane]
    · simp [hb, hi]
  · intro x hx
    rw [ht, Memory.read_writeLanes _ _ _ _ hm, if_neg]
    rintro ⟨h1, h2, h3⟩
    exact hx (x - wordAddr addr) (by omega) h3 (by omega)

theorem lane_getLsbD (w : Word) (k j : Nat) (hj : j < 8) : (Memory.lane w k).getLsbD j = w.getLsbD (8 * k + j) := by
  simp [Memory.lane, hj]

theorem mergeLanes_merged (old data : Word) (be : BitVec 4) : Merged old data be (mergeLanes old data be) := by
  intro i hi
  have pk : ∀ k j, j < 8 → (if be.getLsbD k then Memory.lane data k else Memory.lane old k).getLsbD j = if be.getLsbD k = true then data.getLsbD (8*k+j) else old.getLsbD (8*k+j) := by
    intro k j hj; split <;> exact lane_getLsbD _ _ _ hj
  unfold mergeLanes
  dsimp only
  simp only [BitVec.getLsbD_append]
  by_cases h0 : i < 8
  · rw [if_pos h0, pk 0 i h0, show i / 8 = 0 by omega]; simp
  · rw [if_neg h0]
    by_cases h1 : i - 8 < 8
    · rw [if_pos h1, pk 1 _ h1, show i / 8 = 1 by omega, show 8 * 1 + (i - 8) = i by omega]
    · rw [if_neg h1]
      by_cases h2 : i - 8 - 8 < 8
      · rw [if_pos h2, pk 2 _ h2, show i / 8 = 2 by omega, show 8 * 2 + (i - 8 - 8) = i by omega]
      · rw [if_neg h2, pk 3 _ (by omega), show i / 8 = 3 by omega, show 8 * 3 + (i - 8 - 8 - 8) = i by omega]

theorem field_zero (w : Word) (n : Nat) : field w 0 n = w.toNat % 2 ^ n := by simp [field]

theorem isFullWord_iff (be : BitVec 4) : isFullWord be = true ↔ be = 0xF#4 := by simp [isFullWord]

theorem markIfChanged_of_image {u v : State} (h : v.statusImage = u.statusImage) : State.markIfChanged u v = v := by
  unfold State.markIfChanged; rw [if_neg]; simp [h]

theorem foldl_clearFlag (data : Word) (l : List Flag) (hd : l.Nodup) (s : State) (f : Flag) :
    (l.foldl (fun t f => if data.getLsbD f.position then t.setFlag f .clear else t) s).flag f =
      if f ∈ l ∧ data.getLsbD f.position = true then .clear else s.flag f := by
  induction l generalizing s with
  | nil => simp
  | cons x l ih =>
    rw [List.foldl_cons, ih (List.nodup_cons.mp hd).2]
    by_cases hx : data.getLsbD x.position = true
    · rw [if_pos hx, State.setFlag_view_flag]
      by_cases e : x = f
      · subst e; simp [hx]
      · have : f ≠ x := fun h => e h.symm
        simp [e, this]
    · rw [if_neg hx]
      by_cases e : x = f
      · subst e; simp [hx]
      · have : f ≠ x := fun h => e h.symm
        simp [this]

theorem acknowledgeFlags_view_flag (data : Word) (s : State) (f : Flag) :
    (s.acknowledgeFlags data).flag f = if data.getLsbD f.position = true then .clear else s.flag f := by
  unfold State.acknowledgeFlags
  rw [foldl_clearFlag data allFlags (by decide) s f]
  have : f ∈ allFlags := by cases f <;> decide
  simp [this]

theorem markStatus_has (o : Option CommitRecord) (l : List WriterEntry) : ∃ e ∈ markStatus o l, e.isStatus = true := by
  induction l with
  | nil => exact ⟨_, List.mem_singleton.mpr rfl, rfl⟩
  | cons e l ih =>
    unfold markStatus
    split
    · split
      · exact ⟨_, List.mem_cons_self, rfl⟩
      · exact ⟨e, List.mem_cons_self, by assumption⟩
    · obtain ⟨x, hx, h⟩ := ih; exact ⟨x, List.mem_cons_of_mem _ hx, h⟩

theorem markDirty_pending (o : Option CommitRecord) (s : State) (h : s.path.isWriter = true → s.writerQueue ≠ []) :
    StatusPending (s.markDirty o) := by
  unfold StatusPending State.markDirty
  by_cases hp : s.path.isWriter = true
  · rw [if_pos hp]
    cases hq : s.writerQueue with
    | nil => exact absurd hq (h hp)
    | cons e es =>
      obtain ⟨x, hx, k⟩ := markStatus_has o es
      refine ⟨x, ?_, k⟩
      dsimp only
      rw [if_pos hp]; exact hx
  · rw [if_neg hp]
    obtain ⟨x, hx, k⟩ := markStatus_has o s.writerQueue
    refine ⟨x, ?_, k⟩
    dsimp only
    rw [if_neg hp]; exact hx

theorem markDirty_keep (s : State) (h : StatusPending s) : s.markDirty none = s := by
  have key : ∀ l : List WriterEntry, (∃ e ∈ l, e.isStatus = true) → markStatus none l = l := by
    intro l; induction l with
    | nil => rintro ⟨e, h, -⟩; simp at h
    | cons x l ih =>
      rintro ⟨e, he, k⟩
      unfold markStatus
      by_cases hx : x.isStatus = true
      · rw [if_pos hx]
      · rw [if_neg hx]
        congr 1
        apply ih
        refine ⟨e, ?_, k⟩
        rcases List.mem_cons.mp he with rfl | h
        · exact absurd k hx
        · exact h
  obtain ⟨e, he, k⟩ := h
  unfold State.markDirty
  by_cases hp : s.path.isWriter = true
  · rw [if_pos hp] at he ⊢
    cases hq : s.writerQueue with
    | nil => rw [hq] at he; simp at he
    | cons x es =>
      dsimp only
      rw [hq] at he
      rw [key es ⟨e, he, k⟩]
      rw [← hq]
  · rw [if_neg hp] at he ⊢
    rw [key _ ⟨e, he, k⟩]

theorem covered_iff_Covered (s : State) (a : Anchor) (w : Nat) : s.covered a w = true ↔ Covered s a w := by
  unfold State.covered Covered; rw [List.any_eq_true]

theorem wordInFlight_iff (s : State) (a : Anchor) (w : Nat) : s.wordInFlight a w = true ↔ InFlightWord s a w := by
  unfold State.wordInFlight Anchor.slotOfWord InFlightWord
  by_cases h : a.resultBase ≤ w ∧ w < a.resultBase + 64 * a.resultCount
  · rw [if_pos h]
    dsimp only
    rw [List.contains_iff_mem]
    constructor
    · intro k; exact ⟨_, by omega, by omega, by omega, k⟩
    · rintro ⟨i, h1, h2, h3, h4⟩
      have : (w - a.resultBase) / 64 = i := by omega
      rw [this]; exact h4
  · rw [if_neg h]
    constructor
    · intro k; simp at k
    · rintro ⟨i, h1, h2, h3, h4⟩; exfalso; apply h; constructor <;> omega

theorem readLanes_returned {s : State} {addr : HostAddr} {be : BitVec 4} {t : State} (h : t.readData = some { addr := addr, be := be, data := Memory.readLanes s.mem (wordAddr addr) be }) :
    
    Returned addr be s t := by
  refine ⟨_, h, ?_⟩
  intro i v hi hb hr
  have key : ∀ k, k < 4 → (Memory.readLanes s.mem (wordAddr addr) be).extractLsb' (8 * k) 8 = Memory.readLane s.mem (wordAddr addr) be k := by
    intro k hk
    unfold Memory.readLanes
    apply BitVec.eq_of_getLsbD_eq
    intro j hj
    simp only [BitVec.getLsbD_extractLsb', hj, decide_true, Bool.true_and, BitVec.getLsbD_append]
    interval_cases k
    · rw [if_pos (by omega)]; congr 1; omega
    · rw [if_neg (by omega), if_pos (by omega)]; congr 1; omega
    · rw [if_neg (by omega), if_neg (by omega), if_pos (by omega)]; congr 1; omega
    · rw [if_neg (by omega), if_neg (by omega), if_neg (by omega)]; congr 1; omega
  rw [key i hi]
  unfold Memory.readLane Memory.readByte
  rw [if_pos hb, hr]; rfl

theorem mem_raisedFlags (s : State) (f : Flag) : f ∈ s.raisedFlags ↔ s.flag f = .raised := by
  unfold State.raisedFlags
  have : f ∈ allFlags := by cases f <;> decide
  simp [this]

theorem performed_only (e : WriterEntry) (fs : List Flag) (s : State) : OnlyChanges [.flags, .produce, .cancelSinceLook] s (performed e fs s) := by
  unfold performed
  split
  · exact (look_only true s).comp (raiseFlag_only _ _) rfl
  · exact (raiseFlag_only _ s).weaken (by simp)
  · exact (raiseFlag_only _ s).weaken (by simp)
  · exact .refl _ s
  · split
    · exact (raiseFlag_only _ s).weaken (by simp)
    · split
      · exact (raiseFlag_only _ s).weaken (by simp)
      · exact .refl _ s
  · have h : OnlyChanges [.produce] s { s with produce := s.produce + 1 } := by (intro f hf; cases f <;> first | rfl | exact ⟨rfl, fun _ => rfl⟩ | simp at hf)
    exact h.comp (raiseFlag_only _ _) rfl
  · exact (showFlags_only _ s).weaken (by simp)

theorem foldl_showFlag (l : List Flag) (s : State) (f : Flag) :
    (l.foldl (fun t f => if t.flag f == .clear then t else t.setFlag f .shown) s).flag f =
      if f ∈ l ∧ s.flag f ≠ .clear then .shown else s.flag f := by
  induction l generalizing s with
  | nil => simp
  | cons x l ih =>
    rw [List.foldl_cons, ih]
    have step : (if (s.flag x == .clear) = true then s else s.setFlag x .shown).flag f = if x = f ∧ s.flag f ≠ .clear then .shown else s.flag f := by
      by_cases hx : s.flag x = .clear
      · rw [if_pos (by simp [hx])]
        by_cases e : x = f
        · subst e; simp [hx]
        · simp [e]
      · rw [if_neg (by simp [hx]), State.setFlag_view_flag]
        by_cases e : x = f
        · subst e; simp [hx]
        · simp [e]
    rw [step]
    by_cases e : x = f
    · subst e
      by_cases hx : s.flag x = .clear <;> simp [hx]
    · have : f ≠ x := fun h => e h.symm
      simp [e, this]

theorem entryWritten_more {s : State} {b rec m m' ms es} (fs) (h : s.writerQueue = .bus b rec (m :: m' :: ms) :: es) :
    entryWritten fs s = { s with writerQueue := .bus b rec (m' :: ms) :: es } := by
  unfold entryWritten; rw [h]

theorem entryWritten_done {s : State} {e es} (fs) (h : s.writerQueue = e :: es) (hn : ∀ b rec m m' ms, e ≠ .bus b rec (m :: m' :: ms)) :
    entryWritten fs s =
      if e.isGeneral = true then retestWaiting true (performed e fs { s with writerQueue := es })
      else performed e fs { s with writerQueue := es } := by
  unfold entryWritten; rw [h]
  cases e with
  | bus b rec l =>
    cases l with
    | nil => rfl
    | cons m l => cases l with
      | nil => rfl
      | cons m' ms => exact absurd rfl (hn b rec m m' ms)
  | _ => rfl

theorem resetStarvation_only (s : State) : OnlyChanges [.starvation] s (resetStarvation s) := by
  unfold resetStarvation; split
  · (intro f hf; cases f <;> first | rfl | exact ⟨rfl, fun _ => rfl⟩ | simp at hf)
  · exact .refl _ s

end Sys2Proof.Machine
end

