-- ==== Sys2Proof/Laws/Commit.lean ====
section
/-!
SUPPORT. The checks of a commit in the terms of Safety.lean.
-/

namespace Sys2Proof.Machine

theorem mergeLanes_full (old data : Word) : mergeLanes old data 0xF#4 = data := by
  apply BitVec.eq_of_getLsbD_eq
  intro i hi
  rw [mergeLanes_merged old data 0xF#4 i hi, if_pos]
  have : i / 8 < 4 := by omega
  interval_cases h : i / 8 <;> rfl

theorem rangeOk_iff (a : Anchor) : a.rangeOk = true ↔ InRange a := by
  unfold Anchor.rangeOk InRange within
  simp [and_assoc]

theorem layoutOk_iff (a : Anchor) : a.layoutOk = true ↔ LaidOut a := by
  unfold Anchor.layoutOk LaidOut Anchor.windows Apart
  simp only [pairwiseDisjoint, Machine.disjoint, List.all_cons, List.all_nil, Bool.and_eq_true, Bool.or_eq_true, decide_eq_true_eq, beq_iff_eq, Bool.and_true, List.pairwise_cons, List.mem_cons, List.not_mem_nil, or_false, forall_eq_or_imp, forall_eq, List.Pairwise.nil, and_true, Nat.mul_comm 16, Nat.mul_comm 64, and_assoc, false_imp_iff, implies_true]
  constructor
  · intro h; simp_all
  · intro h; simp_all

theorem limitsOk_iff (a : Anchor) : a.limitsOk = true ↔ LimitsInOrder a := by
  unfold Anchor.limitsOk LimitsInOrder boundsOk
  rw [List.all_eq_true]
  constructor
  · intro h k
    have := h k (by decide +revert)
    split at this <;> rename_i hk
    · rw [if_pos hk]; exact of_decide_eq_true this
    · rw [if_neg hk]; exact of_decide_eq_true this
  · intro h k _
    have := h k
    split at this <;> rename_i hk
    · rw [if_pos hk]; exact decide_eq_true this
    · rw [if_neg hk]; exact decide_eq_true this

theorem quiet_iff_Quiet (s : State) : s.quiet = true ↔ Quiet s := by
  unfold State.quiet Quiet
  have : (allBuses.all fun b => (s.bus b).state.settledDown) = true ↔ ∀ b, (s.bus b).state = .idle ∨ (s.bus b).state = .faulted := by
    rw [List.all_eq_true]
    constructor
    · intro h b; have := h b (mem_allBuses b); cases hb : (s.bus b).state <;> rw [hb] at this <;> simp_all [BusState.settledDown]
    · intro h b _; rcases h b with h | h <;> rw [h] <;> rfl
  simp only [Bool.and_eq_true, this, List.isEmpty_iff, List.all_eq_true, Option.isNone_iff_eq_none, and_assoc]

theorem enterOutbox_outbox_ne (k : Ticket) (s : State) : (enterOutbox k s).outbox ≠ [] := by
  have := enterOutbox_entered k s
  unfold TicketEntered at this
  split at this
  · rw [this.1]; simp
  · rw [this.1]; intro h; rename_i x; rw [h] at x; simp at x

end Sys2Proof.Machine
end

