-- ==== Sys2Proof/Laws/Links.lean ====
section
/-!
SUPPORT. What a reply shows of the messages issued, in the terms of Safety.lean.
-/

namespace Sys2Proof.Machine

theorem newestPlace_at {α : Type} (p : α → Bool) (ms : List α) : NewestAt (fun m => p m = true) ms (newestPlace p ms) := by
  induction ms with
  | nil => exact Or.inl ⟨rfl, by simp⟩
  | cons m ms ih =>
    unfold newestPlace
    rcases ih with ⟨h, k⟩ | ⟨before, x, after, h1, h2, h3, h4⟩
    · rw [h]
      by_cases hm : p m = true
      · exact Or.inr ⟨[], m, ms, rfl, hm, k, by simp [hm]⟩
      · refine Or.inl ⟨by simp [hm], fun y hy => ?_⟩
        rcases List.mem_cons.mp hy with rfl | hy
        · exact hm
        · exact k y hy
    · rw [h4]
      exact Or.inr ⟨m :: before, x, after, by rw [h1]; rfl, h2, h3, rfl⟩

theorem placeAfter_zero {n : Nat} (h : placeAfter n = 0) : n = 0 := by
  cases n with
  | zero => rfl
  | succ n => simp [placeAfter] at h

/-- The place of the message that has `k` of its kind before it. -/
theorem nthPlace_spec {α : Type} (p : α → Bool) (k : Nat) (ms : List α) :
    (nthPlace p k ms = 0 ∧ ms.countP p ≤ k) ∨
      ∃ before m after, ms = before ++ m :: after ∧ p m = true ∧ before.countP p = k ∧ nthPlace p k ms = before.length + 1 := by
  induction ms generalizing k with
  | nil =>
    refine Or.inl ⟨?_, by simp⟩
    cases k <;> rfl
  | cons m ms ih =>
    by_cases hm : p m = true
    · cases k with
      | zero => exact Or.inr ⟨[], m, ms, rfl, hm, rfl, by simp [nthPlace, hm]⟩
      | succ k =>
        have e : nthPlace p (k + 1) (m :: ms) = placeAfter (nthPlace p k ms) := by simp [nthPlace, hm]
        rcases ih k with ⟨h, c⟩ | ⟨before, x, after, h1, h2, h3, h4⟩
        · exact Or.inl ⟨by rw [e, h]; rfl, by simp [hm, c]⟩
        · exact Or.inr ⟨m :: before, x, after, by rw [h1]; rfl, h2, by simp [hm, h3], by rw [e, h4]; rfl⟩
    · have e : nthPlace p k (m :: ms) = placeAfter (nthPlace p k ms) := by cases k <;> simp [nthPlace, hm]
      rcases ih k with ⟨h, c⟩ | ⟨before, x, after, h1, h2, h3, h4⟩
      · exact Or.inl ⟨by rw [e, h]; rfl, by simp [hm, c]⟩
      · exact Or.inr ⟨m :: before, x, after, by rw [h1]; rfl, h2, by simp [hm, h3], by rw [e, h4]; rfl⟩

theorem oldestBehind_at {α : Type} (p : α → Bool) (n : Nat) (ms : List α) (hn : n ≤ ms.length) :
    OldestAt (fun m => p m = true) n ms (oldestBehind p n ms) := by
  unfold oldestBehind
  rcases nthPlace_spec p 0 (ms.drop n) with ⟨h, c⟩ | ⟨before, x, after, h1, h2, h3, h4⟩
  · rw [h]
    refine Or.inl ⟨rfl, fun m hm hp => ?_⟩
    have : 0 < (ms.drop n).countP p := List.countP_pos_iff.mpr ⟨m, hm, hp⟩
    omega
  · rw [h4]
    refine Or.inr ⟨ms.take n ++ before, x, after, ?_, ?_, h2, ?_, ?_⟩
    · rw [List.append_assoc, ← h1, List.take_append_drop]
    · simp
      omega
    · intro y hy hp
      have hl : (ms.take n).length = n := by simp [hn]
      rw [List.drop_append_of_le_length (by omega), List.drop_of_length_le (by omega), List.nil_append] at hy
      have : 0 < before.countP p := List.countP_pos_iff.mpr ⟨y, hy, hp⟩
      omega
    · simp [hn]
      omega

theorem newestPlace_le {α : Type} (p : α → Bool) (ms : List α) : newestPlace p ms ≤ ms.length := by
  rcases newestPlace_at p ms with ⟨h, -⟩ | ⟨before, m, after, h1, -, -, h4⟩
  · omega
  · rw [h4, h1]
    simp

theorem isClaim_iff (l : LineNo) (c : ClaimNo) (m : ExchangeMessage) : m.isClaim l c = true ↔ ∃ f, m = .claim l c f := by
  cases m <;> simp [ExchangeMessage.isClaim]

theorem isClose_iff (b : BusNo) (m : MatrixMessage) : m.isClose b = true ↔ ∃ l, m = .close b l := by
  cases m <;> simp [MatrixMessage.isClose]

theorem isOpen_iff (b : BusNo) (m : MatrixMessage) : m.isOpen b = true ↔ m = .opening b := by
  cases m <;> simp [MatrixMessage.isOpen]

theorem isStart_iff (h : HeadNo) (m : HeadMessage) : m.isStart h = true ↔ ∃ b k, m = .start h b k := by
  cases m <;> simp [HeadMessage.isStart]

theorem isAbort_iff (h : HeadNo) (m : HeadMessage) : m.isAbort h = true ↔ m = .abort h := by
  cases m <;> simp [HeadMessage.isAbort]

theorem isClear_iff (h : HeadNo) (m : HeadMessage) : m.isClear h = true ↔ m = .clear h := by
  cases m <;> simp [HeadMessage.isClear]

theorem heardAnswer_heard (l : LineNo) (c : ClaimNo) (s : State) : AnswerHeard l c s (heardAnswer l c s) := by
  refine ⟨newestPlace (ExchangeMessage.isClaim l c) s.exchangeOut, ?_, rfl⟩
  simpa only [isClaim_iff] using newestPlace_at (ExchangeMessage.isClaim l c) s.exchangeOut

theorem heardResyncEnd_heard (s : State) : ResyncEndHeard s (heardResyncEnd s) := by
  have e : ExchangeMessage.isResync = fun m => m == ExchangeMessage.resync := by
    funext m
    cases m <;> rfl
  refine ⟨nthPlace ExchangeMessage.isResync s.begun.resyncEnds s.exchangeOut, ?_, rfl⟩
  rcases nthPlace_spec ExchangeMessage.isResync s.begun.resyncEnds s.exchangeOut with ⟨h, k⟩ | ⟨before, m, after, h1, h2, h3, h4⟩
  · exact Or.inl ⟨h, by rw [e] at k; exact k⟩
  · refine Or.inr ⟨before, after, ?_, by rw [e] at h3; exact h3, h4⟩
    have : m = .resync := by cases m <;> simp [ExchangeMessage.isResync] at h2 ⊢
    rw [h1, this]

theorem heardSettled_heard (b : BusNo) (s : State) : SettledHeard b s (heardSettled b s) := by
  refine ⟨newestPlace (MatrixMessage.isClose b) s.matrixOut, ?_, rfl⟩
  simpa only [isClose_iff] using newestPlace_at (MatrixMessage.isClose b) s.matrixOut

theorem heardOpened_heard (b : BusNo) (s : State) : OpenedHeard b s (heardOpened b s) := by
  refine ⟨newestPlace (MatrixMessage.isClose b) s.matrixOut, oldestBehind (MatrixMessage.isOpen b) _ s.matrixOut, ?_, ?_, rfl⟩
  · simpa only [isClose_iff] using newestPlace_at (MatrixMessage.isClose b) s.matrixOut
  · simpa only [isOpen_iff] using oldestBehind_at (MatrixMessage.isOpen b) _ s.matrixOut (newestPlace_le _ _)

theorem heardXpFault_heard (b : BusNo) (s : State) : XpFaultHeard b s (heardXpFault b s) := by
  have c := newestPlace_at (MatrixMessage.isClose b) s.matrixOut
  simp only [isClose_iff] at c
  have o := oldestBehind_at (MatrixMessage.isOpen b) 0 s.matrixOut (by omega)
  simp only [isOpen_iff] at o
  have z : oldestBehind (MatrixMessage.isOpen b) 0 s.matrixOut = nthPlace (MatrixMessage.isOpen b) 0 s.matrixOut := by
    unfold oldestBehind
    rw [List.drop_zero]
    cases nthPlace (MatrixMessage.isOpen b) 0 s.matrixOut <;> simp
  unfold heardXpFault
  split
  · rename_i h
    exact ⟨_, nthPlace (MatrixMessage.isOpen b) 0 s.matrixOut, c, by simp [h], fun _ => z ▸ o, rfl⟩
  · rename_i n h
    exact ⟨_, n + 1, c, by simp [h], by simp [h], rfl⟩

theorem heardReading_heard (h : HeadNo) (s : State) : ReadingHeard h s (heardReading h s) := by
  refine ⟨newestPlace (HeadMessage.isStart h) s.headOut, ?_, rfl⟩
  simpa only [isStart_iff] using newestPlace_at (HeadMessage.isStart h) s.headOut

theorem heardAborted_heard (h : HeadNo) (s : State) : AbortedHeard h s (heardAborted h s) := by
  refine ⟨newestPlace (HeadMessage.isAbort h) s.headOut, ?_, rfl⟩
  simpa only [isAbort_iff] using newestPlace_at (HeadMessage.isAbort h) s.headOut

theorem heardReady_heard (h : HeadNo) (s : State) : ReadyHeard h s (heardReady h s) := by
  refine ⟨newestPlace (HeadMessage.isStart h) s.headOut, oldestBehind (HeadMessage.isClear h) _ s.headOut, ?_, ?_, rfl⟩
  · simpa only [isStart_iff] using newestPlace_at (HeadMessage.isStart h) s.headOut
  · simpa only [isClear_iff] using oldestBehind_at (HeadMessage.isClear h) _ s.headOut (newestPlace_le _ _)

end Sys2Proof.Machine
end

