-- ==== Sys2Proof/Laws/Records.lean ====
section
/-!
SUPPORT. Fields of words built with `place`, and the layout of a word put together from fields (`WordIs`).
-/

namespace Sys2Proof.Machine

theorem field_or (x y : Word) (lo len : Nat) : field (x ||| y) lo len = field x lo len ||| field y lo len := by
  unfold field
  apply Nat.eq_of_testBit_eq
  intro i
  simp only [Nat.testBit_mod_two_pow, Nat.testBit_shiftRight, BitVec.toNat_or, Nat.testBit_or]
  cases decide (i < len) <;> simp

theorem field_place (v lo len p q : Nat) : field (place v lo len) p q = ((v % 2 ^ len) <<< lo % 2 ^ 32) >>> p % 2 ^ q := by
  unfold field place; rw [BitVec.toNat_ofNat]

theorem field_place_testBit (v lo len p q i : Nat) :
    (field (place v lo len) p q).testBit i = (decide (i < q) && decide (p + i < 32) && decide (lo ≤ p + i) && decide (p + i - lo < len) && v.testBit (p + i - lo)) := by
  rw [field_place, Nat.testBit_mod_two_pow, Nat.testBit_shiftRight, Nat.testBit_mod_two_pow, Nat.testBit_shiftLeft, Nat.testBit_mod_two_pow]
  simp only [ge_iff_le, Bool.and_assoc]

theorem field_place_self (v lo len : Nat) (h : lo + len ≤ 32) : field (place v lo len) lo len = v % 2 ^ len := by
  apply Nat.eq_of_testBit_eq
  intro i
  rw [field_place_testBit, Nat.testBit_mod_two_pow]
  by_cases hi : i < len
  · simp [hi, show lo + i < 32 by omega]
  · simp [hi]

theorem field_place_other (v lo len p q : Nat) (h : lo + len ≤ p ∨ p + q ≤ lo) : field (place v lo len) p q = 0 := by
  apply Nat.eq_of_testBit_eq
  intro i
  rw [field_place_testBit, Nat.zero_testBit]
  by_cases hi : i < q
  · rcases h with h | h
    · simp [show ¬ (p + i - lo < len) by omega]
    · simp [show ¬ (lo ≤ p + i) by omega]
  · simp [hi]

/-! ## Words put together from fields -/

theorem wordIs_zero : WordIs 0 [] := ⟨by simp, by simp⟩

theorem wordIs_place {v lo len : Nat} (hv : v < 2 ^ len) (hl : lo + len ≤ 32) : WordIs (place v lo len) [(lo, len, v)] := by
  constructor
  · intro f hf
    obtain rfl := List.mem_singleton.mp hf
    have := field_place_self v lo len hl
    rw [field, Nat.shiftRight_eq_div_pow, Nat.mod_eq_of_lt hv] at this
    exact this
  · intro i hi hf
    have hf := hf _ (List.mem_singleton.mpr rfl)
    simp only at hf
    unfold place
    rw [BitVec.getLsbD_ofNat, Nat.testBit_shiftLeft, Nat.testBit_mod_two_pow]
    rcases hf with hf | hf
    · simp [show ¬ (lo ≤ i) by omega]
    · simp [show ¬ (i - lo < len) by omega]

theorem wordIs_placeBit (b : Bool) {i : Nat} (hi : i < 32) : WordIs (placeBit b i) [(i, 1, indication b)] := by
  unfold placeBit indication
  exact wordIs_place (by split <;> decide) (by omega)

/-- Two words whose fields do not meet. -/
theorem wordIs_or {x y : Word} {fs gs : List (Nat × Nat × Nat)} (hx : WordIs x fs) (hy : WordIs y gs)
    (h : ∀ f ∈ fs, ∀ g ∈ gs, f.1 + f.2.1 ≤ g.1 ∨ g.1 + g.2.1 ≤ f.1)
    (w : ∀ f ∈ fs ++ gs, f.1 + f.2.1 ≤ 32) : WordIs (x ||| y) (fs ++ gs) := by
  have bits : ∀ (z : Word) (f : Nat × Nat × Nat), (∀ i, f.1 ≤ i → i < f.1 + f.2.1 → z.getLsbD i = false) → field z f.1 f.2.1 = 0 := by
    intro z f hz
    apply Nat.eq_of_testBit_eq
    intro i
    unfold field
    rw [Nat.testBit_mod_two_pow, Nat.testBit_shiftRight, Nat.zero_testBit]
    by_cases hi : i < f.2.1
    · have := hz (f.1 + i) (by omega) (by omega)
      rw [BitVec.getLsbD] at this
      simp [this]
    · simp [hi]
  constructor
  · intro f hf
    have e : ∀ z : Word, z.toNat / 2 ^ f.1 % 2 ^ f.2.1 = field z f.1 f.2.1 := fun z => by rw [field, Nat.shiftRight_eq_div_pow]
    rw [e, field_or]
    rcases List.mem_append.mp hf with hf | hf
    · have a := hx.1 f hf
      rw [e] at a
      have b : field y f.1 f.2.1 = 0 := bits y f fun i h1 h2 => hy.2 i (by have := w f (by simp [hf]); omega) fun g hg => by
        have := h f hf g hg
        omega
      rw [a, b, Nat.or_zero]
    · have a := hy.1 f hf
      rw [e] at a
      have b : field x f.1 f.2.1 = 0 := bits x f fun i h1 h2 => hx.2 i (by have := w f (by simp [hf]); omega) fun g hg => by
        have := h g hg f hf
        omega
      rw [a, b, Nat.zero_or]
  · intro i hi hf
    rw [BitVec.getLsbD_or, hx.2 i hi fun f m => hf f (by simp [m]), hy.2 i hi fun f m => hf f (by simp [m])]
    rfl

/-- Further fields that fit and do not meet, put into a word. -/
theorem wordIs_foldl {x : Word} {gs : List (Nat × Nat × Nat)} (hx : WordIs x gs) (fs : List (Nat × Nat × Nat))
    (fit : ∀ f ∈ fs, f.2.2 < 2 ^ f.2.1) (low : ∀ f ∈ gs ++ fs, f.1 + f.2.1 ≤ 32)
    (apart : List.Pairwise (fun f g => f.1 + f.2.1 ≤ g.1 ∨ g.1 + g.2.1 ≤ f.1) (gs ++ fs)) :
    WordIs (fs.foldl (fun w f => w ||| place f.2.2 f.1 f.2.1) x) (gs ++ fs) := by
  induction fs generalizing x gs with
  | nil => rwa [List.append_nil]
  | cons f fs ih =>
    have e : gs ++ f :: fs = (gs ++ [f]) ++ fs := by simp
    have p := List.pairwise_append.mp apart
    rw [e] at low apart ⊢
    refine ih (wordIs_or hx (wordIs_place (fit f List.mem_cons_self) (low f (by simp))) ?_ ?_) ?_ low apart
    · intro y hy g hg
      rw [List.mem_singleton.mp hg]
      exact p.2.2 y hy f List.mem_cons_self
    · intro y hy
      exact low y (List.mem_append_left _ hy)
    · intro y hy
      exact fit y (List.mem_cons_of_mem _ hy)

/-- A word put together from fields that fit and do not meet. -/
theorem wordIs_fields (f : Nat × Nat × Nat) (fs : List (Nat × Nat × Nat)) (fit : ∀ g ∈ f :: fs, g.2.2 < 2 ^ g.2.1)
    (low : ∀ g ∈ f :: fs, g.1 + g.2.1 ≤ 32)
    (apart : List.Pairwise (fun f g => f.1 + f.2.1 ≤ g.1 ∨ g.1 + g.2.1 ≤ f.1) (f :: fs)) :
    WordIs (fs.foldl (fun w g => w ||| place g.2.2 g.1 g.2.1) (place f.2.2 f.1 f.2.1)) (f :: fs) :=
  wordIs_foldl (gs := [f]) (wordIs_place (fit f List.mem_cons_self) (low f List.mem_cons_self)) fs
    (fun g hg => fit g (List.mem_cons_of_mem _ hg)) low apart

end Sys2Proof.Machine
end

