-- ==== Sys2Proof/Laws/Waiting.lean ====
section
/-!
SUPPORT. A TEST that waits for queue space: the conditions of its retake in the terms of Safety.lean, and what an event does to it.
-/

namespace Sys2Proof.Machine

theorem mergesInto_iff (r : Request) (e : TestEntry) : r.mergesInto e = true ↔ CanMerge r e := by
  unfold Request.mergesInto CanMerge
  simp [and_assoc]

theorem queueTakes_iff (s : State) (r : Request) : s.queueTakes r = true ↔ RoomFor s r := by
  unfold State.queueTakes RoomFor
  simp [mergesInto_iff]

theorem freeGeneral_le_iff (s : State) (k : Nat) (hk : 1 ≤ k) (hk' : k ≤ 4) :
    k ≤ s.freeGeneral ↔ s.writerQueue.countP WriterEntry.isGeneral ≤ 4 - k := by
  unfold State.freeGeneral
  omega

/-- The conditions of R176 with the queue condition of a waiting TEST. -/
theorem canRetake_iff {s : State} (h : s.testWaiting ≠ .absent) :
    (s.anchor.isSome && s.intakeReady) = true ↔ CanRetake s := by
  unfold State.intakeReady CanRetake
  have f := freeGeneral_le_iff s 2 (by omega) (by omega)
  simp only [Bool.and_eq_true, Bool.or_eq_true, decide_eq_true_eq, beq_iff_eq, bne_iff_ne, Option.isNone_iff_eq_none, f,
    queueTakes_iff, h, false_or, Option.isSome_iff_ne_none]
  constructor
  · rintro ⟨a, ⟨⟨b, c⟩, d⟩, e⟩
    exact ⟨a, b, c, d, fun k => e.resolve_left fun n => n k⟩
  · rintro ⟨a, b, c, d, e⟩
    refine ⟨a, ⟨⟨b, c⟩, d⟩, ?_⟩
    by_cases k : (s.shadow s.takeIndex).request.kind = some .test
    · exact Or.inr (e k)
    · exact Or.inl k

/-- The slot at the take index is taken: the conditions and the request. -/
theorem takeable_of_takes {s : State} {a : Anchor} {r : Request} (h : Takes s a r) : s.takeable = some (a, r) := by
  obtain ⟨h1, h2, h3, h4, h5, h6, h7⟩ := h
  have f := freeGeneral_le_iff s 2 (by omega) (by omega)
  have ready : s.intakeReady = true := by
    unfold State.intakeReady
    simp only [Bool.and_eq_true, Bool.or_eq_true, decide_eq_true_eq, beq_iff_eq, bne_iff_ne, Option.isNone_iff_eq_none, f,
      queueTakes_iff]
    refine ⟨⟨⟨h2, h3⟩, h4⟩, ?_⟩
    cases hw : s.testWaiting with
    | absent => simp
    | waiting => exact absurd hw h6
    | retest =>
      by_cases k : (s.shadow s.takeIndex).request.kind = some .test
      · exact Or.inr (h5 ▸ h7 hw (h5 ▸ k))
      · exact Or.inl (Or.inr k)
  unfold State.takeable
  rw [h1]
  simp [ready, h5, h6]

theorem takes_of_takeable {s : State} {a : Anchor} {r : Request} (h : s.takeable = some (a, r)) : Takes s a r := by
  unfold State.takeable at h
  cases ha : s.anchor with
  | none =>
    rw [ha] at h
    simp at h
  | some x =>
    rw [ha] at h
    dsimp only at h
    split at h
    · rename_i k
      simp only [Option.some.injEq, Prod.mk.injEq] at h
      obtain ⟨rfl, rfl⟩ := h
      have f := freeGeneral_le_iff s 2 (by omega) (by omega)
      unfold State.intakeReady at k
      simp only [Bool.and_eq_true, Bool.or_eq_true, decide_eq_true_eq, beq_iff_eq, bne_iff_ne, Option.isNone_iff_eq_none, f,
        queueTakes_iff] at k
      obtain ⟨⟨⟨⟨k1, k2⟩, k3⟩, k4⟩, k5⟩ := k
      refine ⟨ha, k1, k2, k3, rfl, k5, fun w t => ?_⟩
      rcases k4 with (k4 | k4) | k4
      · rw [w] at k4
        cases k4
      · exact absurd t k4
      · exact k4
    · simp at h

/-- The status entry is none of the general ones. -/
theorem countP_general (q : List WriterEntry) :
    q.countP WriterEntry.isGeneral = (q.filter fun e => !e.isStatus).countP WriterEntry.isGeneral := by
  rw [List.countP_filter]
  refine List.countP_congr fun e _ => ?_
  cases e <;> simp [WriterEntry.isGeneral, WriterEntry.isStatus]

/-- What the conditions of a waiting TEST's retake read. -/
def retakeFields : List Field := [.anchor, .fence, .shadows, .takeIndex, .news, .queue]

/-- A change of anything else leaves the conditions of a retake as they are. -/
theorem CanRetake.of_only {fs : List Field} {s t : State} (h : OnlyChanges fs s t)
    (hf : retakeFields.all (fun f => decide (f ∉ fs)) = true) : CanRetake t ↔ CanRetake s := by
  have n : ∀ f ∈ retakeFields, f.same s t := fun f m => h f (of_decide_eq_true (List.all_eq_true.mp hf f m))
  have h1 : t.anchor = s.anchor := n .anchor (by simp [retakeFields])
  have h2 : t.fence = s.fence := n .fence (by simp [retakeFields])
  have h3 : t.shadows = s.shadows := n .shadows (by simp [retakeFields])
  have h4 : t.takeIndex = s.takeIndex := n .takeIndex (by simp [retakeFields])
  have h5 : t.newsEntries = s.newsEntries := n .news (by simp [retakeFields])
  have h6 : t.queue = s.queue := n .queue (by simp [retakeFields])
  unfold State.newsEntries at h5
  unfold CanRetake RoomFor State.shadow
  rw [h1, h2, h3, h4, countP_general t.writerQueue, h5, ← countP_general, h6]

/-- A retest after an event that leaves the indication as it is does what R86 and R87 say. -/
theorem retestWaiting_tested (moment : Bool) {s u : State} (h : u.testWaiting = s.testWaiting) :
    WaitTested (moment = true) s (retestWaiting moment u) := by
  have k : CanRetake (retestWaiting moment u) ↔ CanRetake u := CanRetake.of_only (retestWaiting_only moment u) rfl
  unfold WaitTested
  rw [k]
  unfold retestWaiting
  cases hw : s.testWaiting with
  | absent =>
    rw [hw] at h
    simp [h]
  | waiting =>
    rw [hw] at h
    have c := canRetake_iff (s := u) (by rw [h]; decide)
    rw [← c]
    cases moment <;> simp [h]
  | retest =>
    rw [hw] at h
    have c := canRetake_iff (s := u) (by rw [h]; decide)
    rw [← c]
    simp [h]

/-- Nothing that follows the test in the same event changes what it found. -/
theorem WaitTested.after {moment : Prop} {fs : List Field} {s t u : State} (h : WaitTested moment s t) (k : OnlyChanges fs t u)
    (hf : (.testWaiting :: retakeFields).all (fun f => decide (f ∉ fs)) = true) : WaitTested moment s u := by
  obtain ⟨h1, h2⟩ := Bool.and_eq_true_iff.mp (List.all_cons ▸ hf)
  have w : u.testWaiting = t.testWaiting := k .testWaiting (of_decide_eq_true h1)
  unfold WaitTested at h ⊢
  rw [w, CanRetake.of_only k h2]
  exact h

end Sys2Proof.Machine
end

