-- ==== Sys2Proof/Laws/Selection.lean ====
section
/-!
SUPPORT. The selection in the terms of Safety.lean: which bus is the lowest available IDLE one, which move an entry has, which entry
is taken.
-/

namespace Sys2Proof.Machine

/-- `takeFirst` answers exactly the first element that the function accepts. -/
theorem takeFirst_some {α β : Type} {p : α → Option β} {l : List α} {x : α} {y : β} {r : List α} :
    takeFirst p l = some (x, y, r) ↔
      ∃ before after, l = before ++ x :: after ∧ r = before ++ after ∧ p x = some y ∧ ∀ z ∈ before, p z = none := by
  constructor
  · intro h
    obtain ⟨h1, before, after, h2, h3, h4⟩ := takeFirst_spec h
    exact ⟨before, after, h2, h3, h1, h4⟩
  · rintro ⟨before, after, rfl, rfl, h1, h2⟩
    induction before with
    | nil => simp [takeFirst, h1]
    | cons c before ih =>
      have hc := h2 c List.mem_cons_self
      have ih := ih fun z hz => h2 z (List.mem_cons_of_mem _ hz)
      rw [List.cons_append, takeFirst, hc]
      dsimp only
      rw [ih]
      rfl

/-- The first bus in number order that a test accepts. -/
theorem find_bus_iff (p : BusNo → Bool) (b : BusNo) :
    allBuses.find? p = some b ↔ p b = true ∧ ∀ x, x < b → ¬ p x = true := by
  have four : ∀ b : BusNo, b = 0 ∨ b = 1 ∨ b = 2 ∨ b = 3 := by decide
  have all : ∀ P : BusNo → Prop, (∀ x, P x) ↔ (P 0 ∧ P 1 ∧ P 2 ∧ P 3) := fun P =>
    ⟨fun h => ⟨h 0, h 1, h 2, h 3⟩, fun h x => by rcases four x with rfl | rfl | rfl | rfl <;> simp [h]⟩
  rw [all]
  unfold allBuses
  cases h0 : p 0 <;> cases h1 : p 1 <;> cases h2 : p 2 <;> cases h3 : p 3 <;>
    rcases four b with rfl | rfl | rfl | rfl <;> simp [h0, h1, h2, h3]

/-- The lowest-numbered available IDLE bus. -/
theorem idleBus_iff (s : State) (b : BusNo) : s.idleBus = some b ↔ LowestIdleBus s b := by
  unfold State.idleBus LowestIdleBus
  rw [find_bus_iff]
  simp

/-- The move of a DESK-class entry. -/
theorem deskMove_iff (s : State) (e : TestEntry) (m : Move) : s.deskMove e = some m ↔ DeskMoves s e m := by
  unfold State.deskMove DeskMoves
  cases e.cls with
  | sweep => simp
  | desk =>
    dsimp only
    cases h : (s.line e.line).occupying with
    | none =>
      rw [Option.map_eq_some_iff]
      constructor
      · rintro ⟨b, h1, rfl⟩
        exact ⟨rfl, Or.inl ⟨rfl, b, (idleBus_iff s b).mp h1, rfl⟩⟩
      · rintro ⟨-, ⟨-, b, h1, rfl⟩ | ⟨b, h1, -⟩⟩
        · exact ⟨b, (idleBus_iff s b).mpr h1, rfl⟩
        · cases h1
    | some b =>
      simp only [Bool.and_eq_true, decide_eq_true_eq]
      split
      · rename_i k
        constructor
        · intro e
          cases e
          exact ⟨trivial, Or.inr ⟨b, rfl, k.1, k.2, rfl⟩⟩
        · rintro ⟨-, ⟨h, -⟩ | ⟨x, h, -, -, rfl⟩⟩
          · cases h
          · cases h
            rfl
      · rename_i k
        constructor
        · intro e
          cases e
        · rintro ⟨-, ⟨h, -⟩ | ⟨x, h, h1, h2, -⟩⟩
          · cases h
          · cases h
            exact absurd ⟨h1, h2⟩ k

/-- What becomes of a SWEEP-class entry, the lowest available IDLE bus given. -/
theorem sweepMove_iff (s : State) (i : BusNo) (hi : LowestIdleBus s i) (e : TestEntry) (m : Move) :
    s.sweepMove i e = some m ↔ SweepMoves s e m := by
  unfold State.sweepMove SweepMoves
  have uniq : ∀ b, LowestIdleBus s b ↔ b = i := by
    intro b; rw [← idleBus_iff, (idleBus_iff s i).mpr hi]; simp [eq_comm]
  cases e.cls with
  | desk => simp
  | sweep =>
    dsimp only
    cases h : (s.line e.line).occupying with
    | none =>
      by_cases k : (s.line e.line).supervision = .idle
      · simp [k, uniq, eq_comm]
      · simp [k, eq_comm]
    | some b =>
      by_cases k : (s.bus b).state = .held
      · simp [k, eq_comm]
      · simp [k]

/-- Whether buses are offered. -/
theorem offersBuses_iff (s : State) : s.offersBuses = true ↔ Offered s := by
  unfold State.offersBuses Offered State.headInService allHeads
  simp [Fin.exists_fin_two, and_assoc]

theorem none_iff {α β : Type} (f : α → Option β) (P : α → β → Prop) (h : ∀ a b, f a = some b ↔ P a b) (a : α) :
    f a = none ↔ ∀ b, ¬ P a b := by
  rw [Option.eq_none_iff_forall_ne_some]
  exact forall_congr' fun b => not_congr (h a b)

/-- The selection takes exactly the entry that R22 and R89 to R91 name. -/
theorem selection_iff (s : State) (e m rest) : s.selection = some (e, m, rest) ↔ Selects s e m rest := by
  unfold State.selection Selects
  by_cases ho : Offered s
  swap
  · rw [if_neg (by rw [offersBuses_iff]; exact ho)]
    simp [ho]
  rw [if_pos ((offersBuses_iff s).mpr ho)]
  have dn := none_iff s.deskMove (DeskMoves s) (deskMove_iff s)
  cases hd : takeFirst s.deskMove s.queue with
  | some t =>
    obtain ⟨e', m', r'⟩ := t
    dsimp only
    rw [← hd, takeFirst_some]
    constructor
    · rintro ⟨b, a, h1, h2, h3, h4⟩
      exact ⟨ho, b, a, h1, h2, Or.inl ⟨(deskMove_iff _ _ _).mp h3, fun x hx => (dn x).mp (h4 x hx)⟩⟩
    · rintro ⟨-, b, a, h1, h2, h | h⟩
      · exact ⟨b, a, h1, h2, (deskMove_iff _ _ _).mpr h.1, fun x hx => (dn x).mpr (h.2 x hx)⟩
      · have : takeFirst s.deskMove s.queue = none := takeFirst_none.mpr fun x hx => (dn x).mpr (h.2.1 x hx)
        rw [this] at hd
        cases hd
  | none =>
    dsimp only
    have nd : ∀ x ∈ s.queue, ∀ y, ¬ DeskMoves s x y := fun x hx => (dn x).mp (takeFirst_none.mp hd x hx)
    cases hi : s.idleBus with
    | none =>
      have ni : ¬ ∃ b, LowestIdleBus s b := by
        rintro ⟨b, hb⟩
        rw [(idleBus_iff s b).mpr hb] at hi
        cases hi
      simp only [reduceCtorEq, false_iff]
      rintro ⟨-, b, a, h1, h2, h | h⟩
      · exact nd e (by rw [h1]; simp) m h.1
      · exact ni h.2.2.2.1
    | some i =>
      have hi' := (idleBus_iff s i).mp hi
      have sn := none_iff (s.sweepMove i) (SweepMoves s) (sweepMove_iff s i hi')
      dsimp only
      have wait : s.skipWaits i = false ↔ (s.cancelSinceLook = false ∨ ∃ e ∈ s.queue, ∃ b, SweepMoves s e (.toIdle b)) := by
        have m : ∀ e, s.sweepMove i e = some (.toIdle i) ↔ ∃ b, SweepMoves s e (.toIdle b) := fun e => by
          rw [sweepMove_iff s i hi']
          refine ⟨fun h => ⟨i, h⟩, ?_⟩
          rintro ⟨b, h⟩
          have := (sweepMove_iff s i hi' e _).mpr h
          unfold State.sweepMove at this
          split at this
          · cases this
          · split at this
            · split at this <;> cases this
              exact h
            · split at this <;> cases this
        unfold State.skipWaits
        cases s.cancelSinceLook <;> simp [m]
      have lim : s.sweepOnBuses < s.limit Anchor.sweepBusLimit ↔ ∃ a, s.anchor = some a ∧ s.sweepOnBuses < a.sweepBusLimit := by
        unfold State.limit; cases s.anchor <;> simp
      by_cases hl : s.sweepOnBuses < s.limit Anchor.sweepBusLimit ∧ s.skipWaits i = false
      · rw [if_pos (by simpa using hl), takeFirst_some]
        constructor
        · rintro ⟨b, a, h1, h2, h3, h4⟩
          exact ⟨ho, b, a, h1, h2,
            Or.inr ⟨(sweepMove_iff s i hi' _ _).mp h3, nd, fun x hx => (sn x).mp (h4 x hx), ⟨i, hi'⟩, lim.mp hl.1, wait.mp hl.2⟩⟩
        · rintro ⟨-, b, a, h1, h2, h | h⟩
          · exact absurd h.1 (nd e (by rw [h1]; simp) m)
          · exact ⟨b, a, h1, h2, (sweepMove_iff s i hi' _ _).mpr h.1, fun x hx => (sn x).mpr (h.2.2.1 x hx)⟩
      · rw [if_neg (by simpa using hl)]
        simp only [reduceCtorEq, false_iff]
        rintro ⟨-, b, a, h1, h2, h | h⟩
        · exact nd e (by rw [h1]; simp) m h.1
        · exact hl ⟨lim.mpr h.2.2.2.2.1, wait.mpr h.2.2.2.2.2⟩

end Sys2Proof.Machine
end

