-- ==== Sys2Proof/Laws/Tickets.lean ====
section
/-!
SUPPORT. The Ticket Unit, the Group Counters and the sweep: what each shared operation does, once, in the terms of Safety.lean.
-/

namespace Sys2Proof.Machine

theorem closeRegister_some {s : State} {k} (h : s.register = some k) :
    closeRegister s = enterOutbox k { s with register := none, coalescing := none } := by
  unfold closeRegister; rw [h]

theorem closeRegister_none {s : State} (h : s.register = none) : closeRegister s = s := by
  unfold closeRegister; rw [h]

theorem advanceFocus_eq {s : State} {f fs} (h : s.focus = f :: fs) : advanceFocus s = { s with focus := focusAdvanced f fs } := by
  unfold advanceFocus focusAdvanced; rw [h]
  dsimp only
  by_cases k : f.cursor.val < 15
  · rw [dif_pos k, dif_pos (by omega)]
  · rw [dif_neg k, dif_neg (by omega)]

/-- Closing the register after the decay of a pass end: the decay can be taken out. -/
theorem closeRegister_decayed (s : State) :
    ∃ u, RegisterClosed s u ∧ (closeRegister (decayGroups { s with epoch := s.epoch + 1 })) = { u with epoch := s.epoch + 1, groups := mapEntries GroupRecord.decay s.groups } := by
  refine ⟨closeRegister s, closeRegister_closed s, ?_⟩
  have raise : ∀ (e g) (t : State) (f : Machine.Flag), State.raiseFlag { t with epoch := e, groups := g } f = { t.raiseFlag f with epoch := e, groups := g } := by
    intro e g t f
    unfold State.raiseFlag
    change (if t.anchor.isSome && t.flag f == .clear then _ else _) = _
    split <;> rfl
  have cm : ∀ (e g) (t : State) (k) (l), clearMark k { t with epoch := e, groups := g } l = { clearMark k t l with epoch := e, groups := g } := by
    intro e g t k l
    unfold clearMark
    change (if (t.line l).ticketMark = some k then _ else _) = _
    split <;> rfl
  have fo : ∀ (e g) (k) (ls : List LineNo) (t : State), ls.foldl (clearMark k) { t with epoch := e, groups := g } = { ls.foldl (clearMark k) t with epoch := e, groups := g } := by
    intro e g k ls
    induction ls with
    | nil => intro t; rfl
    | cons x l ih => intro t; rw [List.foldl_cons, cm, ih]; rfl
  have en : ∀ (e g) (t : State) (k : Ticket), enterOutbox k { t with epoch := e, groups := g } = { enterOutbox k t with epoch := e, groups := g } := by
    intro e g t k
    unfold enterOutbox
    change (if t.outbox.length < 8 then _ else _) = _
    split
    · rfl
    · unfold dropTicket
      have := raise e g { t with droppedBefore := min 255 (t.droppedBefore + 1), droppedTotal := min 65535 (t.droppedTotal + 1) } .drop
      unfold cleanMarks
      split
      · rw [← fo, ← this]
      all_goals exact this
  by_cases hr : s.register = none
  · have h2 : (decayGroups { s with epoch := s.epoch + 1 }).register = none := hr
    rw [closeRegister_none hr, closeRegister_none h2]; rfl
  · obtain ⟨k, hr⟩ := Option.ne_none_iff_exists'.mp hr
    have h2 : (decayGroups { s with epoch := s.epoch + 1 }).register = some k := hr
    rw [closeRegister_some hr, closeRegister_some h2]
    exact en (s.epoch + 1) (mapEntries GroupRecord.decay s.groups) { s with register := none, coalescing := none } k

/-- A pass end does what R116 and R117 say. -/
theorem passEnd_ended (s : State) : PassEnded s (passEnd s) := by
  obtain ⟨u, hu, e⟩ := closeRegister_decayed s
  refine ⟨u, hu, ?_⟩
  set y : State := { u with epoch := s.epoch + 1, groups := mapEntries GroupRecord.decay s.groups } with hy
  have pe : passEnd s = passStart (y.raiseFlag .passEnd) := by unfold passEnd; rw [e]
  rw [pe]
  have ps := passStart_only (y.raiseFlag .passEnd)
  have rf := raiseFlag_only .passEnd y
  refine ⟨?_, ?_, ?_, ?_, ?_, ?_, ?_⟩
  · rw [ps.get .epoch rfl, rf.get .epoch rfl]
  · intro g
    rw [ps.group rfl, rf.group rfl]
    have : y.group g = (s.group g).decay := by show entry (mapEntries _ _) g = _; rw [entry_mapEntries]; rfl
    rw [this]; unfold GroupRecord.decay
    exact ⟨fun h => if_pos h, fun h => if_neg (by simp [h])⟩
  · exact (flagRaised_raiseFlag .passEnd y).of_eq rfl rfl (ps.flag rfl _)
  · intro f hf; rw [ps.flag rfl]; exact otherFlags_raiseFlag _ y f hf
  · rfl
  · intro l
    show entry (mapEntries _ _) l = _
    rw [entry_mapEntries]
    have : entry (y.raiseFlag .passEnd).lines l = u.line l := by
      show (y.raiseFlag .passEnd).line l = _
      rw [rf.line rfl]; rfl
    rw [this]
  · have o1 : OnlyChanges [.epoch, .groups] u y := by (intro f hf; cases f <;> first | rfl | exact ⟨rfl, fun _ => rfl⟩ | simp at hf)
    exact (o1.comp rf (hs := [.epoch, .groups, .flags]) rfl).comp ps rfl

/-- The standing-loop check does what R112 says. -/
theorem standingLoopCheck_checked (a : Anchor) (l : LineNo) (s : State) (ha : s.anchor = some a) :
    LoopChecked a l s (standingLoopCheck l s) := by
  constructor
  · rintro stamp ⟨h1, h2, h3, h4⟩
    have e : standingLoopCheck l s = formStandingLoop l (s.epoch.setWidth 8 - stamp) s := by
      unfold standingLoopCheck
      simp [h1, h2, h3, State.limit, ha, offHookAge]
      intro h; simp at h4; omega
    rw [e]
    set X := s.setLine l { s.line l with loopMark := true } with hX
    set k := lineTicket X .standingLoop .sweep l (.age (s.epoch.setWidth 8 - stamp)) with hk
    have e2 : formStandingLoop l (s.epoch.setWidth 8 - stamp) s = enterOutbox k X := rfl
    rw [e2]
    have hk0 : ∀ f, k.kind ≠ .lineFault f := by intro f h; cases h
    have c := enterOutbox_only_of_noFault hk0 X
    refine ⟨?_, ?_, ?_, ?_, ?_⟩
    · rw [c.line rfl]; simp [hX]
    · intro x hx; rw [c.line rfl]; simp [hX, State.setLine_view_line, hx.symm]
    · exact enterOutbox_entered k X
    · exact enterOutbox_otherFlags k X
    · exact (setLine_only l _ s).comp c rfl
  · intro h
    have e : standingLoopCheck l s = s := by
      unfold standingLoopCheck
      dsimp only
      split
      · rename_i stamp h1 h2
        rw [if_neg]
        intro h3
        simp [State.limit, ha, offHookAge] at h3
        apply h stamp
        refine ⟨h1, h2, ?_, ?_⟩
        · exact h3.2
        · simpa using h3.1
      · rfl
    rw [e]; exact .refl _ _

/-- Counting a line does what R148 and R149 say. -/
theorem countLine_counted {s : State} {a : Anchor} (ha : s.anchor = some a) (l : LineNo) :
    LineCounted a (groupOf l) s (countLine l s) := by
  set g := groupOf l
  have hl : s.limit Anchor.alarmThreshold = a.alarmThreshold := by unfold State.limit; rw [ha]
  by_cases h1 : (s.group g).counter + 1 < a.alarmThreshold
  · have e : countLine l s = s.setGroup g { s.group g with counter := (s.group g).counter + 1 } := by
      unfold countLine; dsimp only; rw [hl, if_pos h1]
    rw [e]
    refine ⟨?_, fun _ => ⟨by simp, setGroup_only _ _ _⟩, fun h => by omega, fun h => by omega⟩
    intro x hx; simp [State.setGroup_view_group, hx.symm]
  · by_cases h2 : (s.group g).counter + 1 = a.alarmThreshold
    · have e : countLine l s = raiseAlarm g a.alarmThreshold s := by
        unfold countLine; dsimp only; rw [hl, if_neg h1, if_pos h2]
      rw [e]
      set u := s.setGroup g { counter := a.alarmThreshold, alarm := true } with hu
      set v := listAlarm g u with hv
      set w := offerFocus g v with hw
      have ov := listAlarm_only g u
      have ow := offerFocus_only g v
      rw [← hv] at ov; rw [← hw] at ow
      have e2 : raiseAlarm g a.alarmThreshold s = w.raiseFlag .groupAlarm := rfl
      have o : OnlyChanges [.groups, .alarmList, .alarmOverflow, .focus] s w := ((setGroup_only g _ s).comp ov (hs := [.groups, .alarmList, .alarmOverflow]) rfl).comp ow rfl
      have wg : ∀ x, w.group x = if g = x then { counter := a.alarmThreshold, alarm := true } else s.group x := by
        intro x; rw [ow.group rfl, ov.group rfl, hu, State.setGroup_view_group]
      rw [e2]
      refine ⟨?_, fun h => by omega, fun _ => ⟨?_, ?_, ?_, ?_, ?_, ?_, ?_, ?_⟩, fun h => by omega⟩
      · intro x hx; simp [wg, hx.symm]
      · simp [wg]
      · intro hlen
        have : v = { u with alarmList := u.alarmList ++ [g] } := by rw [hv]; unfold listAlarm; exact if_pos (show u.alarmList.length < 8 from hlen)
        rw [raiseFlag_alarmList, raiseFlag_alarmOverflow, show w.alarmList = v.alarmList from ow.get .alarmList rfl, show w.alarmOverflow = v.alarmOverflow from ow.get .alarmOverflow rfl, this]
        exact ⟨rfl, rfl⟩
      · intro hlen
        have : v = { u with alarmOverflow := true } := by rw [hv]; unfold listAlarm; exact if_neg (by show ¬ s.alarmList.length < 8; omega)
        rw [raiseFlag_alarmList, raiseFlag_alarmOverflow, show w.alarmList = v.alarmList from ow.get .alarmList rfl, show w.alarmOverflow = v.alarmOverflow from ow.get .alarmOverflow rfl, this]
        exact ⟨rfl, rfl⟩
      · rintro ⟨c1, c2⟩
        have vf : v.focus = s.focus := ov.get .focus rfl
        rw [raiseFlag_focus, hw]; unfold offerFocus; rw [vf, if_pos]
        simp [c1]; exact c2
      · intro c
        have vf : v.focus = s.focus := ov.get .focus rfl
        rw [raiseFlag_focus, hw]; unfold offerFocus; rw [vf, if_neg]
        · exact vf
        · intro c'; apply c; simpa using c'
      · exact (flagRaised_raiseFlag .groupAlarm w).of_eq (o.get .anchor rfl).symm (o.flag rfl _).symm rfl
      · intro f hf; exact (otherFlags_raiseFlag .groupAlarm w f hf).trans (o.flag rfl f)
      · exact o.comp (raiseFlag_only _ _) rfl
    · have e : countLine l s = s := by
        unfold countLine; dsimp only; rw [hl, if_neg h1, if_neg h2]
      rw [e]
      exact ⟨fun _ _ => rfl, fun h => by omega, fun h => by omega, fun _ => .refl _ _⟩

/-- A mergeable ticket reaches the register as R132 to R134 say. -/
theorem reachRegister_reached {s : State} {a : Anchor} (ha : s.anchor = some a) (k : Ticket) (l : LineNo) (hk : k.lines = [l]) :
    RegisterReached a k l s (reachRegister k s) := by
  have hlim : ∀ t : State, t.anchor = s.anchor → t.limit Anchor.coalescingWindow = a.coalescingWindow := by
    intro t h; unfold State.limit; rw [h, ha]
  unfold RegisterReached reachRegister
  cases hr : s.register with
  | none =>
    dsimp only
    exact ⟨congrArg some (hlim s rfl), rfl, openRegister_only k s⟩
  | some o =>
    dsimp only
    have hj : k.joins o = true ↔ Appends o k l := by
      unfold Ticket.joins Appends
      rw [hk]
      cases o.lines.getLast? <;> simp [and_assoc]
    by_cases h : Appends o k l
    · rw [if_pos (hj.mpr h)]
      refine ⟨congrArg some (hlim s rfl), fun _ => ⟨?_, openRegister_only _ s⟩, fun n => absurd h n⟩
      show some (o.append k) = _
      unfold Ticket.append
      rw [hk]; simp
    · rw [if_neg (fun e => h (hj.mp e))]
      refine ⟨congrArg some (hlim _ ((closeRegister_only s).get .anchor rfl)), fun n => absurd n h, fun _ => ⟨closeRegister s, closeRegister_closed s, rfl, openRegister_only k _⟩⟩

/-- A line ticket is routed as R125 and R131 say. -/
theorem routeTicket_routed {s : State} {a : Anchor} (ha : s.anchor = some a) (k : Ticket) (l : LineNo) (hk : k.lines = [l]) :
    Routed a k l s (routeTicket k s) := by
  unfold Routed routeTicket
  constructor
  · intro h
    rw [if_pos (by rcases h with h | h | h | h <;> rw [h] <;> rfl)]
    exact reachRegister_reached ha k l hk
  · intro h
    rw [if_neg (by rcases h with h | h | h | h | h <;> rw [h] <;> simp [TicketKind.mergeable])]
    exact enterOutbox_reached k s

/-! ## The lines of a ticket (R133) -/

/-- Lines that rise and are all of one group are at most 16. -/
theorem lines_length_le {ls : List LineNo} {g : Option GroupNo} (h : ls.Pairwise (· < ·)) (hg : ∀ l ∈ ls, g = some (groupOf l)) :
    ls.length ≤ 16 := by
  have n : (ls.map fun l => (Fin.ofNat 16 l.val)).Nodup := by
    refine List.Nodup.map_on ?_ (h.imp fun {a b} hab => Fin.ne_of_lt hab)
    intro x hx y hy e
    have p : groupOf x = groupOf y := Option.some.inj ((hg x hx).symm.trans (hg y hy))
    have p' : x.val / 16 = y.val / 16 := congrArg Fin.val p
    have e' : x.val % 16 = y.val % 16 := congrArg Fin.val e
    exact Fin.ext (by omega)
  have c := n.length_le_card
  simpa using c

/-- A ticket of one line. -/
theorem lineTicket_linesOk (s : State) (k : TicketKind) (o : TicketOrigin) (l : LineNo) (d : TicketDetail) :
    (lineTicket s k o l d).LinesOk := by
  simp [Ticket.LinesOk, lineTicket]

/-- A ticket of one line that joins the open ticket keeps its lines in order and in its group. -/
theorem append_linesOk {o t : Ticket} {l : LineNo} (ho : o.LinesOk) (hl : t.lines = [l]) (hg : t.group = some (groupOf l))
    (hj : t.joins o = true) : (o.append t).LinesOk := by
  obtain ⟨h1, h2, -⟩ := ho
  unfold Ticket.joins at hj
  rw [hl, hg] at hj
  simp only [Bool.and_eq_true, beq_iff_eq, List.head?_cons] at hj
  obtain ⟨⟨-, k2⟩, k3⟩ := hj
  have p : (o.append t).lines.Pairwise (· < ·) := by
    unfold Ticket.append
    rw [hl]
    refine List.pairwise_append.mpr ⟨h1, by simp, fun x hx y hy => ?_⟩
    rw [List.mem_singleton.mp hy]
    cases hL : o.lines.getLast? with
    | none =>
      rw [List.getLast?_eq_none_iff] at hL
      rw [hL] at hx
      cases hx
    | some last =>
      rw [hL] at k3
      have k3 := of_decide_eq_true k3
      obtain ⟨ini, hi⟩ := List.getLast?_eq_some_iff.mp hL
      rw [hi] at hx h1
      rcases List.mem_append.mp hx with hx | hx
      · exact lt_trans ((List.pairwise_append.mp h1).2.2 x hx last (by simp)) k3
      · rw [List.mem_singleton.mp hx]
        exact k3
  have g : ∀ x ∈ (o.append t).lines, (o.append t).group = some (groupOf x) := by
    intro x hx
    unfold Ticket.append at hx ⊢
    rcases List.mem_append.mp hx with hx | hx
    · exact h2 x hx
    · rw [hl] at hx
      rw [List.mem_singleton.mp hx]
      exact k2
  exact ⟨p, g, lines_length_le p g⟩

end Sys2Proof.Machine
end

