-- ==== Sys2Proof/WellFormed.lean ====
section
/-!
DEFINITION. Which commands are well formed: a host access addresses a word (spec/00: a word begins at a multiple of four; the
byte lanes are chosen by HBE), and a command named after what it writes carries it.
-/

namespace Sys2Proof

/-- The address begins a word (spec/00, "Memory units"). -/
def wordAligned (addr : HostAddr) : Bool := addr.toNat % 4 == 0

/-- Table 10-2: the owner field of a post word, bits 1-0. -/
def ownerField (data : Word) : Nat := data.toNat % 4

/-- The operands of a command lie where its row says. -/
def Instr.wellFormed : Instr → Bool
  | .hostWrite addr _ _ => wordAligned addr
  | .hostRead addr _ => wordAligned addr
  | .postWordPosted addr data => wordAligned addr && ownerField data == 1
  | .postWordReturned addr data => wordAligned addr && ownerField data == 2
  | .commitAttempt data => data.toNat % 256 != 0
  | .acknowledgement addr _ => wordAligned addr
  | .consumeIndexWrite addr _ => wordAligned addr
  | .coldReset | .warmReset | .test | .cancel | .fence | .releaseHold | .busReset | .headReset
  | .sweepStart | .sweepStop | .sweepRestart | .sweepSeek | .clearGroup | .lineQuery | .refusedKind | .fenceComplete
  | .state _ _ | .grant _ _ | .deny _ _ _ | .recall _ _ | .resyncEnd
  | .settled _ | .opened _ | .xpFault _ | .reading _ _ _ | .aborted _ | .ready _ | .headError _
  | .claimTimerExpiry _ | .settleTimerExpiry _ | .openTimerExpiry _ | .holdTimerExpiry _
  | .stepWatchdogExpiry _ | .abortTimerExpiry _ | .clearTimerExpiry _ | .pacingTimerExpiry | .coalescingTimerExpiry
  | .resultHoldExpiry | .starvationCountFull | .entryToIdleBus | .entryToHeldBus | .sweepEntrySkip | .headGrant
  | .issueAttempt | .ticketMove | .writerTakesPath | .recordWritten | .sweepControl => true

end Sys2Proof
end

