-- ==== Sys2Proof/Tests/Slice0.lean ====
section
/-!
SUPPORT. The model's own tests: ill-formed commands the check refuses; one step of each command on a small state; and for each
statement with hypotheses a state and operands that meet them (`met_<statement>`), clause by clause.
-/

namespace Sys2Proof.Tests

open Sys2Proof Sys2Proof.Machine

set_option Elab.async false

/-! ## WellFormed -/

theorem test_wellFormed_hostWrite : (Instr.hostWrite 0x201 0 0xF#4).wellFormed = false ∧
    (Instr.hostWrite 0x204 0 0x1#4).wellFormed = true := by decide

theorem test_wellFormed_hostRead : (Instr.hostRead 0x202 0xF#4).wellFormed = false ∧
    (Instr.hostRead 0xFFFFFC 0xF#4).wellFormed = true := by decide

theorem test_wellFormed_postWordPosted : (Instr.postWordPosted 0x100D 1).wellFormed = false ∧
    (Instr.postWordPosted 0x100C 2).wellFormed = false ∧ (Instr.postWordPosted 0x100C 0x101).wellFormed = true := by decide

theorem test_wellFormed_postWordReturned : (Instr.postWordReturned 0x100E 2).wellFormed = false ∧
    (Instr.postWordReturned 0x100C 1).wellFormed = false ∧ (Instr.postWordReturned 0x100C 6).wellFormed = true := by decide

theorem test_wellFormed_commitAttempt : (Instr.commitAttempt 0x300).wellFormed = false ∧
    (Instr.commitAttempt 0x2FF).wellFormed = true := by decide

theorem test_wellFormed_acknowledgement : (Instr.acknowledgement 0x6009 0).wellFormed = false ∧
    (Instr.acknowledgement 0x6008 0).wellFormed = true := by decide

theorem test_wellFormed_consumeIndexWrite : (Instr.consumeIndexWrite 0x6013 0).wellFormed = false ∧
    (Instr.consumeIndexWrite 0x6010 0).wellFormed = true := by decide

/-- The table's words spell no command (log 21). -/
theorem test_decodeTableWord : decodeTableWord 8 0 = none := rfl

/-! ## Small states -/

/-- The state a step answers. -/
def answer : Host.Outcome State Fault Refusal → State
  | .next t => t
  | .fault r => nomatch r
  | .refused _ => State.reset

/-- Settings that pass the checks of a commit: 4 slots, 8 result records, 8 ticket slots, 32 lines, threshold 2. -/
def anchor : Anchor :=
  { generation := 1, ringBase := 0x1000, ringSize := 4, resultBase := 0x2000, resultCount := 8, ticketBase := 0x4000,
    ticketSize := 8, statusBase := 0x6000, installed := 32, sweepMask := 0xFF#8, sweepStart := 0, sweepOrder := .sequential,
    sweepInterval := 10, sweepBusLimit := 4, standingLoopLimit := 3, alarmThreshold := 2, coalescingWindow := 20, holdLimit := 1,
    resultHoldLimit := 50, claimLimit := 50, hazardLimit := 500, enables := 0xFFF#12, levels := 0x6E5#12,
    limits := Vector.replicate 8 { low := 0, high := 100 } }

/-- The part at rest: recovered from its reset, no anchor in force. -/
def rest : State :=
  { State.reset with
    buses := Vector.replicate 4 Bus.idle, heads := Vector.replicate 2 Head.free, resyncPending := false, exchangeOut := [],
    matrixOut := [], headOut := [] }

/-- The part at rest with an anchor in force. -/
def desk : State := { rest with anchor := some anchor }

/-- A desk test of line 5 with one slot. -/
def entry5 : TestEntry :=
  { line := 5, cls := .desk, origin := .desk, mask := 0x0C#8, start := 0, order := .sequential, force := false, hold := false,
    slots := [{ slot := 2, tag := 9, merged := false }] }

/-- A routine visit of line 6. -/
def visit6 : TestEntry := { entry5 with line := 6, cls := .sweep, origin := .sweep, slots := [] }

/-- A bus of line 5 with claim number 7, in a state. -/
def bus5 (st : BusState) : Bus :=
  { Bus.idle with
    state := st, line := some 5, claim := 7,
    test := match st with
      | .claiming | .seizing | .waitHead | .measuring => some entry5
      | .idle | .held | .releasing | .faulted => none }

/-- A state with bus 0 on line 5, whose record is given. -/
def onLine (s : State) (r : Bus) (x : LineRecord) : State := (s.setBus 0 r).setLine 5 { x with occupying := some 0 }

/-- A state with bus 0 on line 5. -/
def withBus (s : State) (r : Bus) : State := onLine s r LineRecord.cold

/-- Head 0 joined to bus 0, on step 2, the program running steps 2 and 3. -/
def measuring (s : State) (r : Bus) (h : HeadState) (position : Nat) : State :=
  withBus ((s.setHead 0 { state := h, bus := some 0, step := some (if position = 0 then 2 else 3),
                          timer := some (if h = .aborting then .abort else .watchdog, 90), startedAt := 4 }).setProgram 0
    (some { order := [2, 3], position := position, steps := StepRecords.notRun })) r

/-- A request posted in the slot at the take index: words 0 and 1, tag 9. -/
def posted (s : State) (w0 w1 : Word) : State :=
  s.setShadow 0 { words := #v[w0, w1, 9, 1], posted := true }

theorem busLineOk_rest : BusLineOk rest := by
  have hb : ∀ b, rest.bus b = Bus.idle := fun b => entry_replicate _ _
  have hl : ∀ l, rest.line l = LineRecord.cold := fun l => entry_replicate _ _
  refine ⟨fun b _ => hb b, fun b l h => ?_, fun b l h => ?_⟩
  · rw [hb] at h; exact absurd h (by simp [Bus.idle])
  · rw [hl] at h; exact absurd h (by simp [LineRecord.cold])

/-- Bus 0 on line 5 and every other bus IDLE: the two know each other. -/
theorem busLineOk_onLine {s : State} {r : Bus} (x : LineRecord) (hb : ∀ b, s.bus b = Bus.idle) (hl : ∀ l, (s.line l).occupying = none)
    (hr : r.line = some 5) (hs : r.state ≠ .idle) : BusLineOk (onLine s r x) := by
  have vb : ∀ b, (onLine s r x).bus b = if 0 = b then r else Bus.idle := by
    intro b
    show ((s.setBus 0 r).setLine 5 _).bus b = _
    rw [State.setLine_view_bus, State.setBus_view_bus]
    split
    · rfl
    · exact hb b
  have vl : ∀ l, ((onLine s r x).line l).occupying = if 5 = l then some 0 else none := by
    intro l
    show (((s.setBus 0 r).setLine 5 _).line l).occupying = _
    rw [State.setLine_view_line]
    split
    · rfl
    · exact hl l
  refine ⟨fun b h => ?_, fun b l h => ?_, fun b l h => ?_⟩
  · rw [vb] at h ⊢
    split at h
    · exact absurd h hs
    · rename_i n; rw [if_neg n]
  · rw [vb] at h
    rw [vl]
    split at h
    · rename_i e
      rw [hr] at h
      cases h
      rw [if_pos rfl, e]
    · exact absurd h (by simp [Bus.idle])
  · rw [vl] at h
    rw [vb]
    split at h
    · rename_i e
      cases h
      rw [if_pos rfl, ← e]
      exact hr
    · cases h

theorem rest_bus (b : BusNo) : rest.bus b = Bus.idle := entry_replicate _ _

theorem rest_line (l : LineNo) : (rest.line l).occupying = none := congrArg LineRecord.occupying (entry_replicate _ _)

theorem desk_bus (b : BusNo) : desk.bus b = Bus.idle := rest_bus b

theorem desk_line (l : LineNo) : (desk.line l).occupying = none := rest_line l

theorem anchorOk_of {s : State} (ha : s.anchor = some anchor) (hp : s.pointer = 0) : AnchorOk s := by
  intro a h
  rw [ha] at h
  cases h
  rw [hp]
  decide +kernel

/-! ## One step of each command -/

theorem test_coldReset : (answer (exec .coldReset desk)).anchor = none ∧
    ((answer (exec .coldReset desk)).bus 3).state = .releasing ∧ (answer (exec .coldReset desk)).resyncPending = true := by
  decide +kernel

theorem test_warmReset : ((answer (exec .warmReset (withBus desk (bus5 .held)))).bus 0).line = some 5 ∧
    ((answer (exec .warmReset (withBus desk (bus5 .held)))).bus 1).state = .idle := by decide +kernel

theorem test_hostWrite : (answer (exec (.hostWrite 0x300 0x11223344 0x3#4) desk)).mem = [(0x300, 0x44), (0x301, 0x33)] := by
  decide +kernel

theorem test_hostRead :
    (answer (exec (.hostRead 0x300 0xF#4) { desk with mem := [(0x300, 1), (0x301, 2), (0x302, 3), (0x303, 4)] })).readData =
      some { addr := 0x300, be := 0xF#4, data := 0x04030201 } := by decide +kernel

theorem test_postWordPosted : ((answer (exec (.postWordPosted 0x101C 1) desk)).shadow 1).posted = true := by decide +kernel

theorem test_postWordReturned :
    ((answer (exec (.postWordReturned 0x100C 2) (posted desk 0 0))).shadow 0).posted = false := by decide +kernel

theorem test_commitAttempt_refused :
    (answer (exec (.commitAttempt 3) rest)).writerQueue = [.status (some { generation := 3, outcome := .refusedRange })] := by
  decide +kernel

theorem test_acknowledgement :
    (answer (exec (.acknowledgement 0x6008 0x3) (desk.setFlag .fence .shown))).flag .fence = .clear := by decide +kernel

theorem test_consumeIndexWrite :
    (answer (exec (.consumeIndexWrite 0x6010 2) { desk with produce := 3 })).consume = 2 ∧
      (answer (exec (.consumeIndexWrite 0x6010 4) { desk with produce := 3 })).consume = 0 := by decide +kernel

theorem test_test : (answer (exec .test (posted desk 0x00050201 0x0C))).queue = [entry5] := by decide +kernel

theorem test_test_refused : (answer (exec .test (posted desk 0x00200201 0x0C))).newsEntries =
    [.disposition 0 .refusedLine false] := by decide +kernel

theorem test_cancel : (answer (exec .cancel { posted desk 0x202 0 with queue := [entry5] })).queue = [] := by decide +kernel

theorem test_fence : (answer (exec .fence (posted desk 3 0))).fence = some 0 := by decide +kernel

theorem test_releaseHold :
    ((answer (exec .releaseHold (posted (withBus desk (bus5 .held)) 0x00050004 0))).bus 0).state = .releasing := by decide +kernel

theorem test_busReset :
    ((answer (exec .busReset (posted (withBus desk (bus5 .faulted)) 0x00000005 0))).bus 0).state = .releasing := by decide +kernel

theorem test_headReset :
    (answer (exec .headReset (posted (desk.setHead 1 Head.suspect) 0x00010006 0))).headOut = [.clear 1] := by decide +kernel

theorem test_sweepStart : (answer (exec .sweepStart (posted desk 7 0x01000000))).sweep = .running := by decide +kernel

theorem test_sweepStop : (answer (exec .sweepStop { posted desk 7 0x02000000 with sweep := .running })).sweep = .stopped := by
  decide +kernel

theorem test_sweepRestart : (answer (exec .sweepRestart { posted desk 7 0x03000000 with pointer := 9 })).pointer = 0 := by
  decide +kernel

theorem test_sweepSeek : (answer (exec .sweepSeek (posted desk 0x001F0007 0x04000000))).pointer = 31 := by decide +kernel

theorem test_sweepControl : (answer (exec .sweepControl (posted desk 7 0x05000000))).newsEntries =
    [.disposition 0 .refusedProgram false] := by decide +kernel

theorem test_clearGroup :
    (answer (exec .clearGroup { posted (desk.setGroup 1 { counter := 2, alarm := true }) 0x00010008 0 with alarmList := [1] })).alarmList =
      [] := by decide +kernel

theorem test_lineQuery : (answer (exec .lineQuery (posted desk 0x00050209 0))).newsEntries =
    [.query 2 { tag := 9, epoch := 0, line := 5, snapshot := LineRecord.cold }, .disposition 0 .done false] := by decide +kernel

theorem test_refusedKind : (answer (exec .refusedKind (posted desk 0xA 0))).newsEntries =
    [.disposition 0 .refusedKind false] := by decide +kernel

theorem test_fenceComplete : (answer (exec .fenceComplete { desk with fence := some 3 })).newsEntries =
    [.disposition 3 .done true] := by decide +kernel

theorem test_state : (answer (exec (.state 5 (some .offHook)) { desk with epoch := 0x102 })).line 5 =
    { LineRecord.cold with supervision := .offHook, stamp := some 2 } := by decide +kernel

theorem test_grant : (answer (exec (.grant 5 7) (withBus desk (bus5 .claiming)))).matrixOut = [.close 0 5] ∧
    (answer (exec (.grant 5 8) (withBus desk (bus5 .claiming)))).exchangeOut = [.release 5 8] := by decide +kernel

theorem test_deny : ((answer (exec (.deny 5 7 (some .busy)) (withBus desk (bus5 .claiming)))).line 5) =
    { LineRecord.cold with yieldMark := true } := by decide +kernel

theorem test_recall : (answer (exec (.recall 5 7) (withBus desk (bus5 .faulted)))).exchangeOut = [.keep 5 7] := by decide +kernel

theorem test_resyncEnd : ((answer (exec .resyncEnd { desk with resyncPending := true })).line 5).supervision = .idle := by
  decide +kernel

theorem test_settled :
    (answer (exec (.settled 0) (withBus desk { bus5 .seizing with command := some .close }))).waitQueue = [0] := by decide +kernel

theorem test_opened :
    (answer (exec (.opened 0) (withBus desk { bus5 .releasing with command := some .opening }))).exchangeOut = [.release 5 7] := by
  decide +kernel

theorem test_xpFault :
    ((answer (exec (.xpFault 0) (withBus desk { bus5 .releasing with command := some .opening, timer := some (.opening, 20) }))).bus
      0).state = .faulted := by decide +kernel

theorem test_reading :
    (answer (exec (.reading 0 (some .valid) 50) (measuring desk (bus5 .measuring) .attached 0))).headOut = [.start 0 0 3] := by
  decide +kernel

theorem test_reading_last :
    ((answer (exec (.reading 0 (some .valid) 200) (measuring desk (bus5 .measuring) .attached 1))).line 5).lastTest =
      some { verdict := .fail .ground, epoch := 0 } := by decide +kernel

theorem test_aborted :
    ((answer (exec (.aborted 0) (measuring desk { bus5 .measuring with abort := some .recall } .aborting 0))).head 0).state = .free := by
  decide +kernel

theorem test_ready : ((answer (exec (.ready 1) (desk.setHead 1 Head.clearing))).head 1).state = .free := by decide +kernel

theorem test_headError : ((answer (exec (.headError 1) desk)).outbox.map fun q => q.ticket.kind) = [.headError] := by decide +kernel

theorem test_claimTimerExpiry :
    ((answer (exec (.claimTimerExpiry 0) (withBus desk { bus5 .claiming with timer := some (.claim, 0) }))).bus 0) = Bus.idle := by
  decide +kernel

theorem test_settleTimerExpiry :
    ((answer (exec (.settleTimerExpiry 0) (withBus desk { bus5 .seizing with command := some .close, timer := some (.settle, 0) }))).bus
      0).state = .releasing := by decide +kernel

theorem test_openTimerExpiry :
    ((answer (exec (.openTimerExpiry 0)
        (withBus desk { bus5 .releasing with command := some .opening, timer := some (.opening, 0) }))).bus 0).cause =
      some .timeout := by decide +kernel

theorem test_holdTimerExpiry :
    (answer (exec (.holdTimerExpiry 0) (withBus desk { bus5 .held with timer := some (.hold, 0) }))).flag .holdEnd = .raised := by
  decide +kernel

theorem test_stepWatchdogExpiry :
    ((answer (exec (.stepWatchdogExpiry 0) (measuring desk (bus5 .measuring) .attached 0))).head 0).state = .suspect := by
  decide +kernel

theorem test_abortTimerExpiry :
    ((answer (exec (.abortTimerExpiry 0) (measuring desk { bus5 .measuring with abort := some .cancel } .aborting 0))).head 0).state =
      .suspect := by decide +kernel

theorem test_clearTimerExpiry : ((answer (exec (.clearTimerExpiry 0) (desk.setHead 0 Head.clearing))).head 0).state = .suspect := by
  decide +kernel

theorem test_pacingTimerExpiry : (answer (exec .pacingTimerExpiry { desk with pacing := 7 })).pacing = 0 := by decide +kernel

/-- A ticket of one line. -/
def ticket (k : TicketKind) (ls : List LineNo) : Ticket :=
  { kind := k, origin := .desk, epoch := 0, group := some 0, lines := ls, detail := .age 0 }

theorem test_coalescingTimerExpiry :
    (answer (exec .coalescingTimerExpiry { desk with register := some (ticket .restored [5]), coalescing := some 0 })).outbox =
      [{ sequence := 0, ticket := ticket .restored [5] }] := by decide +kernel

/-- A state in which a read of a result record is held for a slot in flight. -/
def heldRead : State :=
  { desk with
    mem := [(0x2080, 1), (0x2081, 0), (0x2082, 0), (0x2083, 0)], queue := [entry5], hostAccesses := [.read 0x2080 0xF#4],
    readHold := some (.result 0) }

theorem test_resultHoldExpiry :
    (answer (exec .resultHoldExpiry heldRead)).readData = some { addr := 0x2080, be := 0xF#4, data := 1 } := by decide +kernel

/-- A disposition pending in the writer. -/
def done0 : WriterEntry := .disposition 0 .done false

theorem test_writerTakesPath : (answer (exec .writerTakesPath { desk with writerQueue := [done0] })).path =
    .writer { words := [(0x100C, 0x302)], flags := [] } := by decide +kernel

theorem test_starvationCountFull :
    (answer (exec .starvationCountFull { desk with writerQueue := [done0], starvation := 16 })).starvation = 0 := by decide +kernel

theorem test_recordWritten :
    (answer (exec .recordWritten
        { desk with path := .writer { words := [(0x100C, 0x302)], flags := [] }, writerQueue := [done0] })).mem =
      [(0x100C, 2), (0x100D, 3), (0x100E, 0), (0x100F, 0)] := by decide +kernel

theorem test_entryToIdleBus : (answer (exec .entryToIdleBus { desk with queue := [entry5] })).exchangeOut = [.claim 5 0 false] := by
  decide +kernel

theorem test_entryToHeldBus :
    (answer (exec .entryToHeldBus { withBus desk (bus5 .held) with queue := [entry5] })).waitQueue = [0] := by decide +kernel

theorem test_sweepEntrySkip : (answer (exec .sweepEntrySkip { desk with queue := [visit6] })).queue = [] := by decide +kernel

theorem test_headGrant :
    (answer (exec .headGrant { withBus desk (bus5 .waitHead) with waitQueue := [0] })).headOut = [.start 0 0 2] := by decide +kernel

theorem test_issueAttempt :
    ((answer (exec .issueAttempt { desk.setLine 0 { LineRecord.cold with supervision := .idle } with sweep := .running })).queue.map
      fun e => e.line) = [0] := by decide +kernel

theorem test_ticketMove :
    (answer (exec .ticketMove { desk with outbox := [{ sequence := 4, ticket := ticket .standingLoop [5] }] })).outbox = [] := by
  decide +kernel

/-! ## A waiting TEST (R86), the elapsed time of a failed seizure (R33), messages a reset completes (R3) -/

/-- A TEST of line 5 waits; the queue has had room since. -/
def waitsForRoom : State :=
  { posted desk 0x00050201 0x0C with queue := List.replicate 15 { entry5 with line := 6 }, testWaiting := .waiting }

theorem test_waiting_contentWrite : (answer (exec (.hostWrite 0x1004 0x0E 0xF#4) waitsForRoom)).testWaiting = .waiting := by
  decide +kernel

theorem test_waiting_postWord : (answer (exec (.postWordPosted 0x100C 1) waitsForRoom)).testWaiting = .retest := by decide +kernel

theorem test_waiting_entryLeaves : (answer (exec .entryToIdleBus waitsForRoom)).testWaiting = .retest := by decide +kernel

theorem test_waiting_entryEmptied :
    (answer (exec .recordWritten
        { waitsForRoom with path := .writer { words := [], flags := [] }, writerQueue := [.disposition 0 .done false] })).testWaiting =
      .retest := by decide +kernel

theorem test_waiting_visitComesFirst :
    (answer (exec .issueAttempt
        { waitsForRoom.setLine 0 { LineRecord.cold with supervision := .idle } with sweep := .running, testWaiting := .retest })).testWaiting =
      .waiting := by decide +kernel

/-! ### A CANCEL is no event at which the Test Queue looks for a move (R89; log 31) -/

/-- Line 5's bus is HELD with its final record pending, and a TEST merged into the line's routine visit is about to be cancelled. -/
def cancelHeld : State :=
  { withBus (posted desk 0x202 0) (bus5 .held) with
    queue := [{ entry5 with origin := .sweep }],
    writerQueue := [.bus 0 (desk.inProgressOf (desk.shadow 0).request false) []] }

theorem test_cancel_looksNot :
    cancelHeld.selection = none ∧ (answer (exec .cancel cancelHeld)).cancelSinceLook = true ∧
      (answer (exec .cancel cancelHeld)).queue = [{ entry5 with cls := .sweep, origin := .sweep, slots := [] }] ∧
      (answer (exec .cancel cancelHeld)).selection = none := by decide +kernel

theorem test_cancel_looksLater :
    (answer (exec (.state 9 (some .offHook)) (answer (exec .cancel cancelHeld)))).selection =
      some ({ entry5 with cls := .sweep, origin := .sweep, slots := [] }, .skip, []) := by decide +kernel

/-- The settle timer has run out and its expiry has not been taken. -/
theorem test_xpFault_elapsed :
    ((answer (exec (.xpFault 0)
        (withBus desk { bus5 .seizing with command := some .close, timer := some (.settle, 0) }))).outbox.map fun q => q.ticket.detail) =
      [.context { bus := some 0, head := none, step := none, busState := some .seizing, headState := none, line := some 5, claim := 7,
                  elapsed := 49 }] := by decide +kernel

/-- The CLAIM that a GRANT answers is known to have been sent, and a reset completes it whatever number of messages is unsent. -/
theorem test_answered_claim_kept (n : Nat) :
    (answer (exec (.grant 5 7) { withBus desk (bus5 .claiming) with exchangeOut := [.claim 5 7 false] })).begun.exchange = 1 ∧
      keptMessages 1 n [ExchangeMessage.claim 5 7 false] = [.claim 5 7 false] :=
  ⟨by decide +kernel, List.take_of_length_le (Nat.le_max_left _ _)⟩

/-! ## States that meet the hypotheses of the statements -/

theorem busLineOk_bus5 {r : Bus} (x : LineRecord) (hr : r.line = some 5) (hs : r.state ≠ .idle) : BusLineOk (onLine desk r x) :=
  busLineOk_onLine x desk_bus desk_line hr hs

theorem test_meets_StepTakesFront : ({ rest with pending := [.resyncEnd] } : State).pending = .resyncEnd :: [] := rfl

theorem test_meets_EmptyQueueActs :
    (desk.pending = [] ∧ dueSteps desk = []) ∧
      dueSteps (withBus desk { bus5 .held with timer := some (.hold, 0) }) ≠ [] ∧
      dueSteps { desk with readHold := some (.result 1) } = [] := by decide +kernel

theorem test_meets_ColdResetClears : desk.hostAccesses = [] := rfl

theorem test_meets_WarmResetKeeps :
    (withBus desk (bus5 .held)).hostAccesses = [] ∧ ((withBus desk (bus5 .held)).bus 3).state = .idle ∧
      ((withBus desk (bus5 .held)).bus 0).state ≠ .idle := by decide +kernel

/-- A write of the byte at 300H waits while the writer writes a record, or is being performed. -/
def outstandingWrite (p : Machine.Path) : State := { desk with path := p, hostAccesses := [.write 0x300 7 0x1#4] }

theorem test_meets_ResetServesHost :
    heldRead.hostAccesses = [.read 0x2080 0xF#4] ∧
      ((outstandingWrite (.writer { words := [], flags := [] })).hostAccesses = [.write 0x300 7 0x1#4] ∧
        (outstandingWrite (.writer { words := [], flags := [] })).path ≠ .host) ∧
      ((outstandingWrite .host).hostAccesses = [.write 0x300 7 0x1#4] ∧ (outstandingWrite .host).path = .host ∧
        MemoryOk (outstandingWrite .host)) := by
  unfold MemoryOk; decide +kernel

theorem test_meets_StateTaken :
    (desk.line 0).supervision ≠ Reported.supervision .offHook ∧ (desk.line 4095).supervision ≠ Reported.supervision .inCall ∧
      ((desk.setLine 4095 { LineRecord.cold with supervision := .idle }).line 4095).supervision = Reported.supervision .idle := by
  decide +kernel

theorem test_meets_UnmatchedAnswers :
    ∀ b, ¬ (((withBus desk (bus5 .claiming)).bus b).state ≠ .idle ∧ ((withBus desk (bus5 .claiming)).bus b).line = some 5 ∧
      ((withBus desk (bus5 .claiming)).bus b).claim = 8) := by decide +kernel

theorem test_meets_MessagesDiscarded :
    (BusLineOk (withBus desk (bus5 .held)) ∧ ((withBus desk (bus5 .held)).bus 0).state ≠ .idle ∧
        ((withBus desk (bus5 .held)).bus 0).state ≠ .claiming ∧ ((withBus desk (bus5 .held)).bus 0).line = some 5) ∧
      desk.resyncPending = false ∧ 4 ≤ 4 ∧ ¬ ((desk.bus 3).state = .seizing ∧ (desk.bus 3).command = some .close) ∧
      ¬ ((desk.bus 3).state = .releasing ∧ (desk.bus 3).command = some .opening) ∧ (desk.bus 3).command = none ∧ 2 ≤ 2 ∧
      (desk.head 1).state ≠ .attached ∧ (desk.head 1).state ≠ .aborting ∧ (desk.head 1).state ≠ .clearing ∧
      ((desk.setHead 1 Head.suspect).head 1).state = .suspect :=
  ⟨⟨busLineOk_bus5 _ rfl (by decide), by decide +kernel⟩, by decide +kernel⟩

/-- Bus 0 claiming line 5, with an abort reason, line 5 in a supervision state. -/
def claiming (r : Option AbortReason) (v : Supervision) : State :=
  onLine desk { bus5 .claiming with abort := r, timer := some (.claim, 0) } { LineRecord.cold with supervision := v }

theorem test_meets_ClaimAnswered :
    (∀ r v, BusLineOk (claiming r v)) ∧ ((claiming none .idle).bus 0).state = .claiming ∧
      ((claiming none .idle).bus 0).line = some 5 ∧ ((claiming none .idle).bus 0).abort = none ∧
      ((claiming (some .cancel) .idle).bus 0).state = .claiming ∧ ((claiming (some .cancel) .idle).bus 0).line = some 5 ∧
      ((claiming (some .cancel) .idle).bus 0).abort ≠ none ∧ ((claiming (some .cancel) .idle).bus 0).test = some entry5 ∧
      ((claiming none .idle).bus 0).test = some entry5 ∧ ((claiming none .offHook).line 5).supervision = .offHook ∧
      ((claiming none .idle).line 5).supervision ≠ .offHook :=
  ⟨fun _ _ => busLineOk_bus5 _ rfl (fun k => by cases k), by decide +kernel⟩

theorem test_meets_ClaimTimerExpires :
    (claiming none .idle).anchor = some anchor ∧ ((claiming none .idle).bus 0).state = .claiming ∧
      ((claiming none .idle).bus 0).line = some 5 ∧ ((claiming none .idle).bus 0).test = some entry5 ∧
      ((claiming none .idle).bus 0).timer = some (.claim, 0) := by decide +kernel

/-- Bus 0 on line 5 in a state, with an abort reason and a forced flag. -/
def recalled (st : BusState) (r : Option AbortReason) (forced : Bool) : State :=
  withBus desk { bus5 st with abort := r, forced := forced }

theorem test_meets_RecallTaken :
    (∀ st r f, st ≠ .idle → BusLineOk (recalled st r f)) ∧ (∀ st r f, ((recalled st r f).bus 0).line = some 5) ∧
      ((recalled .claiming none false).bus 0).state = .claiming ∧ ((recalled .releasing none false).bus 0).state = .releasing ∧
      (((recalled .measuring (some .cancel) false).bus 0).abort ≠ none ∧
        ((recalled .measuring (some .cancel) false).bus 0).state = .measuring) ∧
      ((recalled .faulted none false).bus 0).state = .faulted ∧
      (((recalled .held none true).bus 0).abort = none ∧ ((recalled .held none true).bus 0).forced = true ∧
        ((recalled .held none true).bus 0).state = .held) ∧
      (((recalled .seizing none false).bus 0).abort = none ∧ ((recalled .seizing none false).bus 0).forced = false ∧
        ((recalled .seizing none false).bus 0).state = .seizing) ∧
      (((recalled .waitHead none false).bus 0).abort = none ∧ ((recalled .waitHead none false).bus 0).forced = false ∧
        ((recalled .waitHead none false).bus 0).state = .waitHead ∧
        ((recalled .waitHead none false).bus 0).test = some entry5) ∧
      (((recalled .held none false).bus 0).abort = none ∧ ((recalled .held none false).bus 0).forced = false ∧
        ((recalled .held none false).bus 0).state = .held) :=
  ⟨fun st _ _ h => busLineOk_bus5 _ rfl (by cases st <;> first | exact absurd rfl h | (intro k; cases k)),
    fun _ _ _ => rfl, by decide +kernel⟩

/-- Head 0 attached to bus 0, which measures. -/
def attached : State := measuring desk (bus5 .measuring) .attached 0

theorem busLineOk_attached : BusLineOk attached := busLineOk_onLine LineRecord.cold desk_bus desk_line rfl (by decide)

theorem headsOk_attached : HeadsOk attached := by unfold HeadsOk; decide +kernel

theorem test_meets_RecallTaken_measuring :
    BusLineOk attached ∧ (attached.bus 0).line = some 5 ∧ (attached.bus 0).abort = none ∧ (attached.bus 0).forced = false ∧
      (attached.bus 0).state = .measuring ∧ HeadsOk attached ∧ (attached.head 0).bus = some 0 ∧
      (attached.head 0).state = .attached :=
  ⟨busLineOk_attached, by decide +kernel, by decide +kernel, by decide +kernel, by decide +kernel, headsOk_attached,
    by decide +kernel⟩

theorem test_meets_ResyncEnds :
    ({ desk with resyncPending := true } : State).resyncPending = true ∧ (desk.line 4095).supervision = .unknown ∧
      ((claiming none .idle).line 5).supervision ≠ .unknown := by decide +kernel

/-- Bus 0 seizing line 5 with its CLOSE outstanding. -/
def seizing (r : Option AbortReason) (n : Nat) : State :=
  withBus desk { bus5 .seizing with command := some .close, timer := some (.settle, n), abort := r }

/-- Bus 0 releasing with its OPEN outstanding. -/
def releasing (l : Option LineNo) (n : Nat) : State :=
  desk.setBus 0 { bus5 .releasing with line := l, command := some .opening, timer := some (.opening, n) }

theorem test_meets_MatrixAnswers :
    ((seizing none 50).bus 0).state = .seizing ∧ ((seizing none 50).bus 0).command = some .close ∧
      ((seizing none 50).bus 0).test = some entry5 ∧ entry5.cls = .desk ∧ visit6.cls = .sweep ∧
      ((seizing none 50).bus 0).abort = none ∧ ((seizing (some .noHead) 50).bus 0).abort ≠ none ∧
      ((releasing (some 5) 50).bus 0).state = .releasing ∧ ((releasing (some 5) 50).bus 0).command = some .opening ∧
      ((releasing (some 5) 50).bus 0).line = some 5 ∧ ((releasing none 50).bus 0).line = none := by decide +kernel

theorem test_meets_MatrixCommandFails :
    ((seizing none 0).bus 0).state = .seizing ∧ ((seizing none 0).bus 0).command = some .close ∧
      ((seizing none 0).bus 0).test = some entry5 ∧ ((seizing none 0).bus 0).timer = some (.settle, 0) ∧
      ((seizing none 50).bus 0).timer = some (.settle, 50) ∧ ((releasing none 0).bus 0).state = .releasing ∧
      ((releasing none 0).bus 0).command = some .opening ∧ ((releasing none 0).bus 0).timer = some (.opening, 0) := by
  decide +kernel

theorem test_meets_HoldTimerExpires :
    ((withBus desk { bus5 .held with timer := some (.hold, 0) }).bus 0).state = .held ∧
      ((withBus desk { bus5 .held with timer := some (.hold, 0) }).bus 0).timer = some (.hold, 0) := by decide +kernel

theorem test_meets_SelectionOrder :
    ({ desk with queue := [visit6, entry5] } : State).selection = some (entry5, .toIdle 0, [visit6]) ∧
      ({ desk with queue := [visit6] } : State).selection = some (visit6, .skip, []) := by decide +kernel

theorem lowestIdleBus_desk (q : List TestEntry) : LowestIdleBus { desk with queue := q } 0 :=
  ⟨⟨congrArg Bus.state (desk_bus 0), rfl⟩, fun _ h => absurd h (Nat.not_lt_zero _)⟩

theorem offered_desk (q : List TestEntry) : Offered { desk with queue := q } := ⟨rfl, rfl, 0, rfl⟩

theorem test_meets_SelectionOrder_converse :
    (Offered { desk with queue := [visit6, entry5] } ∧
        ∃ e ∈ [visit6, entry5], ∃ m, DeskMoves { desk with queue := [visit6, entry5] } e m) ∧
      Offered { desk with queue := [visit6] } ∧ (∀ e ∈ [visit6], ∀ m, ¬ DeskMoves { desk with queue := [visit6] } e m) ∧
      SweepConsidered { desk with queue := [visit6] } ∧ ∃ e ∈ [visit6], ∃ m, SweepMoves { desk with queue := [visit6] } e m := by
  refine ⟨⟨offered_desk _, entry5, by simp, .toIdle 0, rfl, .inl ⟨desk_line 5, 0, lowestIdleBus_desk _, rfl⟩⟩, offered_desk _, ?_,
    ⟨⟨0, lowestIdleBus_desk _⟩, ⟨anchor, rfl, by decide +kernel⟩, .inl rfl⟩, visit6, by simp, .skip, rfl, .inr (.inl ⟨desk_line 6, ?_, rfl⟩)⟩
  · intro e he m h
    rw [List.mem_singleton.mp he] at h
    exact absurd h.1 (by decide)
  · decide +kernel

theorem waitQueueOk_held : WaitQueueOk { withBus desk (bus5 .held) with queue := [entry5] } := by
  unfold WaitQueueOk; decide +kernel

theorem test_meets_EntryGivenToBus :
    desk.anchor = some anchor ∧ ({ desk with queue := [entry5] } : State).selection = some (entry5, .toIdle 0, []) ∧
      ({ withBus desk (bus5 .held) with queue := [entry5] } : State).selection = some (entry5, .toHeld 0, []) ∧
      WaitQueueOk { withBus desk (bus5 .held) with queue := [entry5] } :=
  ⟨rfl, by decide +kernel, by decide +kernel, waitQueueOk_held⟩

theorem test_meets_SweepEntrySkipped :
    desk.anchor = some anchor ∧ ({ desk with queue := [visit6] } : State).selection = some (visit6, .skip, []) :=
  ⟨rfl, by decide +kernel⟩

/-- Bus 0 waits for a head. -/
def waiting : State := { withBus desk (bus5 .waitHead) with waitQueue := [0] }

theorem test_meets_HeadGranted :
    waiting.waitQueue = 0 :: [] ∧ (waiting.head 0).state = .free ∧ (∀ x, x < 0 → (waiting.head x).state ≠ .free) ∧
      (waiting.bus 0).test = some entry5 ∧ runOrder entry5.mask entry5.start entry5.order = 2 :: [3] := by decide +kernel

/-- The program of `measuring`, at a position. -/
def program (i : Nat) : StepProgram := { order := [2, 3], position := i, steps := StepRecords.notRun }

theorem test_meets_ReadingAdvances :
    attached.anchor = some anchor ∧ (attached.head 0).state = .attached ∧ (attached.head 0).bus = some 0 ∧
      (attached.head 0).step = some 2 ∧ attached.program 0 = some (program 0) ∧
      (program 0).order[(program 0).position + 1]? = some 3 ∧ ComparisonIs 2 .valid 100 100 ∧ ComparisonIs 2 .underRange 9 0 ∧
      ComparisonIs 2 .overRange 9 0xFFFF ∧ ¬ HazardFound 2 100 anchor.hazardLimit ∧ InWindow 2 (entry anchor.limits 2) 100 ∧
      ¬ InWindow 2 (entry anchor.limits 2) 101 ∧ ¬ HazardFound 0 499 anchor.hazardLimit ∧
      InWindow 0 (entry anchor.limits 0) 0 := by
  unfold ComparisonIs HazardFound InWindow; decide +kernel

/-- The same, on its last step, with the hold flag given. -/
def lastStep (hold : Bool) : State := measuring desk { bus5 .measuring with hold := hold } .attached 1

theorem test_meets_ReadingEndsProgram :
    (lastStep true).anchor = some anchor ∧ ((lastStep true).head 0).state = .attached ∧ ((lastStep true).head 0).bus = some 0 ∧
      ((lastStep true).head 0).step = some 3 ∧ (lastStep true).program 0 = some (program 1) ∧
      (program 1).order[(program 1).position + 1]? = none ∧ ((lastStep true).bus 0).test = some entry5 ∧
      ((lastStep true).bus 0).abort = none ∧ ((lastStep true).bus 0).hold = true ∧ ((lastStep false).bus 0).hold = false ∧
      VerdictIs (putEntry (program 1).steps 3 { status := .fail, reading := some (.valid, 101) }) (.fail .ground) ∧
      VerdictIs (putEntry (program 1).steps 3 { status := .pass, reading := some (.valid, 100) }) .pass := by
  unfold VerdictIs; decide +kernel

/-- Steps 2 and 0 in this order, on the second. -/
def hazardProgram (rs : StepRecords) : StepProgram := { order := [2, 0], position := 1, steps := rs }

/-- Head 0 on foreign-voltage step 0 after step 2 has passed. -/
def hazardous : State :=
  (attached.setHead 0 { attached.head 0 with step := some 0 }).setProgram 0
    (some (hazardProgram (putEntry StepRecords.notRun 2 { status := .pass, reading := some (.valid, 50) })))

/-- Its records after the hazard. -/
def hazardSteps : StepRecords :=
  putEntry (putEntry StepRecords.notRun 2 { status := .suspect, reading := some (.valid, 50) }) 0
    { status := .fail, reading := some (.valid, 500) }

theorem test_meets_HazardStops :
    hazardous.anchor = some anchor ∧ (hazardous.head 0).state = .attached ∧ (hazardous.head 0).bus = some 0 ∧
      (hazardous.head 0).step = some 0 ∧
      hazardous.program 0 = some (hazardProgram (putEntry StepRecords.notRun 2 { status := .pass, reading := some (.valid, 50) })) ∧
      ComparisonIs 0 .valid 500 500 ∧ HazardFound 0 500 anchor.hazardLimit ∧ HazardFound 1 0x8000 anchor.hazardLimit ∧
      (hazardous.bus 0).test = some entry5 ∧ (hazardous.bus 0).abort = none ∧
      entry hazardSteps 0 = { status := .fail, reading := some (.valid, 500) } ∧
      (∀ j, j ≠ 0 → j.val < 2 ∨
        (entry (putEntry StepRecords.notRun 2 { status := .pass, reading := some (.valid, 50) }) j).status = .notRun →
        entry hazardSteps j = entry (putEntry StepRecords.notRun 2 { status := .pass, reading := some (.valid, 50) }) j) ∧
      (∀ j, j ≠ 0 → 2 ≤ j.val →
        (entry (putEntry StepRecords.notRun 2 { status := .pass, reading := some (.valid, 50) }) j).status ≠ .notRun →
        entry hazardSteps j =
          { status := .suspect,
            reading := (entry (putEntry StepRecords.notRun 2 { status := .pass, reading := some (.valid, 50) }) j).reading }) := by
  unfold ComparisonIs HazardFound; decide +kernel

/-- Head 0 aborting the test on bus 0. -/
def aborting : State := measuring desk { bus5 .measuring with abort := some .cancel } .aborting 0

theorem test_meets_AbortsAndClearsEnd :
    (aborting.head 0).state = .aborting ∧ (aborting.head 0).bus = some 0 ∧ (aborting.head 0).step = some 2 ∧
      aborting.program 0 = some (program 0) ∧ (aborting.bus 0).test = some entry5 ∧ (aborting.bus 0).abort ≠ none ∧
      ((desk.setHead 1 Head.clearing).head 1).state = .clearing ∧
      ((desk.setHead 1 Head.clearing).head 1).timer = some (.clear, 200) := by decide +kernel

theorem test_meets_HeadFails :
    JoinedFailure attached 0 (.stepWatchdogExpiry 0) .headTimeout .headTimeout 1500 ∧
      JoinedFailure aborting 0 (.abortTimerExpiry 0) .headTimeout .headTimeout 100 ∧
      JoinedFailure attached 0 (.headError 0) .headError .headError 4 ∧ (attached.head 0).bus = some 0 ∧
      (attached.head 0).step = some 2 ∧ attached.program 0 = some (program 0) ∧ (attached.bus 0).test = some entry5 ∧
      (∃ x, x ≠ 0 ∧ (attached.head x).state.inService = true) ∧ (desk.head 0).bus = none ∧ (desk.head 0).step = none ∧
      (desk.head 0).state = .free ∧ (∃ x, x ≠ 0 ∧ (desk.head x).state.inService = true) ∧
      ((desk.setHead 0 Head.clearing).head 0).state = .clearing ∧ ((desk.setHead 0 Head.clearing).head 0).bus = none := by
  refine ⟨.inl ⟨rfl, rfl, ⟨90, rfl⟩, rfl, rfl, ⟨2, rfl, rfl⟩⟩, .inr (.inl ⟨rfl, rfl, ⟨90, rfl⟩, rfl, rfl, rfl⟩),
    .inr (.inr ⟨rfl, .inl rfl, rfl, rfl, rfl⟩), ?_⟩
  decide +kernel

theorem workOk_of {s : State} (ha : s.anchor = some anchor) (hp : s.pointer = 0) (hq : s.queue = [])
    (h : WaitQueueOk s ∧ HeadsOk s)
    (ht : ∀ b, (s.bus b).test ≠ none ↔
      (s.bus b).state = .claiming ∨ (s.bus b).state = .seizing ∨ (s.bus b).state = .waitHead ∨ (s.bus b).state = .measuring)
    (hm : ∀ b, (s.bus b).test = none ∨ (s.bus b).test = some entry5) : WorkOk s := by
  refine ⟨anchorOk_of ha hp, ⟨ht, ?_, by rw [hq]; simp⟩, h.1, h.2, ?_⟩
  · intro b e he
    rcases hm b with h | h
    · rw [h] at he; cases he
    · rw [h] at he; cases he; decide
  · unfold SweepShareOk
    rw [ha]
    have : ∀ b, (s.bus b).carriesSweep = false := by
      intro b
      unfold Bus.carriesSweep
      rcases hm b with h | h
      · rw [h]
      · rw [h]; rfl
    unfold State.sweepOnBuses
    rw [List.countP_eq_zero.mpr (by intro b _; simp [this b])]
    exact Nat.zero_le _

/-- `attached` with the other head out of service. -/
def lastHead : State := attached.setHead 1 Head.suspect

theorem test_meets_LastHeadLost :
    WorkOk lastHead ∧ (∀ x, x ≠ 0 → (lastHead.head x).state.inService = false) ∧
      JoinedFailure lastHead 0 (.headError 0) .headError .headError 4 ∧ (lastHead.head 0).bus = some 0 ∧
      (lastHead.head 0).step = some 2 ∧ lastHead.program 0 = some (program 0) :=
  ⟨workOk_of rfl rfl rfl (by unfold WaitQueueOk HeadsOk; decide +kernel) (by decide +kernel) (by decide +kernel),
    by decide +kernel, .inr (.inr ⟨rfl, .inl rfl, rfl, rfl, rfl⟩), by decide +kernel⟩

theorem test_meets_LastHeadLost_free :
    WorkOk (desk.setHead 1 Head.suspect) ∧ (∀ x, x ≠ 0 → ((desk.setHead 1 Head.suspect).head x).state.inService = false) ∧
      ((desk.setHead 1 Head.suspect).head 0).state = .free ∧ ((desk.setHead 1 Head.suspect).head 0).step = none :=
  ⟨workOk_of rfl rfl rfl (by unfold WaitQueueOk HeadsOk; decide +kernel) (by decide +kernel) (by decide +kernel),
    by decide +kernel⟩

/-- The slot at the take index can be taken, in a state with nothing pending. -/
theorem takes_of {s : State} {a : Anchor} {r : Request} (ha : s.anchor = some a) (hf : s.fence = none)
    (hp : (s.shadow s.takeIndex).posted = true) (hw : s.writerQueue = []) (hr : (s.shadow s.takeIndex).request = r)
    (ht : s.testWaiting = .absent) : Takes s a r :=
  ⟨ha, hf, hp, by rw [hw]; simp, hr, by rw [ht]; decide, fun h => by rw [ht] at h; cases h⟩

/-- The request of `posted`. -/
def request (w0 w1 : Word) : Request := Shadow.request { words := #v[w0, w1, 9, 1], posted := true }

theorem takes_posted {s : State} (w0 w1 : Word) (ha : s.anchor = some anchor) (hi : s.takeIndex = 0) (hf : s.fence = none)
    (hw : s.writerQueue = []) (ht : s.testWaiting = .absent) : Takes (posted s w0 w1) anchor (request w0 w1) := by
  have h : (posted s w0 w1).shadow (posted s w0 w1).takeIndex = { words := #v[w0, w1, 9, 1], posted := true } := by
    show entry (putEntry s.shadows 0 _) s.takeIndex = _
    rw [hi]
    exact entry_putEntry_self _ _ _
  exact takes_of ha hf (by rw [h]) hw (by rw [h]; rfl) ht

theorem test_meets_RequestsRefused :
    BusLineOk (posted desk 0xA 0) ∧ Takes (posted desk 0xA 0) anchor (request 0xA 0) ∧
      refusalOf (posted desk 0xA 0) anchor (request 0xA 0) = some (.refusedKind, .refusedKind) ∧
      refusalOf desk anchor (request 0x00200201 0x0C) = some (.test, .refusedLine) ∧
      refusalOf desk anchor (request 0x001F0201 0) = some (.test, .refusedProgram) ∧
      refusalOf desk anchor (request 0x001F0801 1) = some (.test, .refusedSlot) ∧
      refusalOf desk anchor (request 0x0702 0) = some (.cancel, .refusedNotFound) ∧
      refusalOf desk anchor (request 0x00050004 0) = some (.releaseHold, .refusedState) ∧
      refusalOf desk anchor (request 0x00040005 0) = some (.busReset, .refusedTarget) ∧
      refusalOf desk anchor (request 0x00020006 0) = some (.headReset, .refusedTarget) ∧
      refusalOf desk anchor (request 0x7 0x05000000) = some (.sweepControl, .refusedProgram) ∧
      refusalOf desk anchor (request 0x00200007 0x04000000) = some (.sweepSeek, .refusedLine) ∧
      refusalOf desk anchor (request 0x00020008 0) = some (.clearGroup, .refusedTarget) ∧
      refusalOf desk anchor (request 0x00200009 0) = some (.lineQuery, .refusedLine) :=
  ⟨busLineOk_rest, takes_posted _ _ rfl rfl rfl rfl rfl, by decide +kernel⟩

/-- A TEST of line 5, slot 2. -/
def test5 (s : State) : State := posted s 0x00050201 0x0C

theorem test_meets_TestTaken :
    Takes (test5 desk) anchor (request 0x00050201 0x0C) ∧ (request 0x00050201 0x0C).kind = some .test ∧
      refusalOf (test5 desk) anchor (request 0x00050201 0x0C) = none ∧ (∀ x ∈ (test5 desk).queue, ¬ CanMerge (request 0x00050201 0x0C) x) ∧
      (test5 desk).queue.length < 16 ∧
      CanMerge (request 0x00050201 0x0C) { entry5 with slots := [{ slot := 3, tag := 1, merged := false }] } ∧
      refusalOf (test5 { desk with queue := [{ entry5 with slots := [{ slot := 3, tag := 1, merged := false }] }] }) anchor
        (request 0x00050201 0x0C) = none ∧
      (∀ x ∈ (test5 { desk with queue := List.replicate 16 visit6 }).queue, ¬ CanMerge (request 0x00050201 0x0C) x) ∧
      16 ≤ (test5 { desk with queue := List.replicate 16 visit6 }).queue.length := by
  refine ⟨takes_posted _ _ rfl rfl rfl rfl rfl, ?_⟩
  unfold CanMerge; decide +kernel

/-- A CANCEL of slot 2 in a state. -/
def cancel2 (s : State) : State := posted s 0x202 0

/-- A second member for an entry. -/
def twoSlots : TestEntry := { entry5 with slots := [{ slot := 2, tag := 9, merged := false }, { slot := 7, tag := 1, merged := true }] }

theorem test_meets_CancelInQueue :
    SlotsOk (cancel2 { desk with queue := [twoSlots] }) ∧
      Takes (cancel2 { desk with queue := [twoSlots] }) anchor (request 0x202 0) ∧ (request 0x202 0).kind = some .cancel ∧
      (request 0x202 0).slot < anchor.resultCount ∧ (cancel2 { desk with queue := [twoSlots] }).queue = [] ++ twoSlots :: [] ∧
      { slot := 2, tag := 9, merged := false } ∈ twoSlots.slots ∧ twoSlots.slots.filter (fun x => x.slot != 2) ≠ [] ∧
      entry5.slots.filter (fun x => x.slot != 2) = [] ∧ entry5.origin = .desk ∧
      SlotsOk (cancel2 { desk with queue := [{ entry5 with origin := .sweep }] }) :=
  ⟨by unfold SlotsOk; decide +kernel, takes_posted _ _ rfl rfl rfl rfl rfl, by decide +kernel, by decide +kernel,
    by decide +kernel, by decide +kernel, by decide +kernel, by decide +kernel, rfl, by unfold SlotsOk; decide +kernel⟩

theorem test_meets_CancelInQueue_look :
    SlotsOk cancelHeld ∧ Takes cancelHeld anchor (request 0x202 0) ∧ cancelHeld.selection = none ∧
      (cancel2 { desk with queue := [twoSlots] }).selection ≠ none :=
  ⟨by unfold SlotsOk; decide +kernel,
    ⟨rfl, rfl, by decide +kernel, by decide +kernel, by decide +kernel, by decide, fun h => by cases h⟩, by decide +kernel,
    by decide +kernel⟩

theorem test_meets_CancelOnBus :
    SlotsOk (cancel2 (claiming none .idle)) ∧ Takes (cancel2 (claiming none .idle)) anchor (request 0x202 0) ∧
      ((cancel2 (claiming none .idle)).bus 0).test = some entry5 ∧ ((cancel2 (claiming none .idle)).bus 0).abort = none ∧
      ((cancel2 (claiming none .idle)).bus 0).state = .claiming ∧
      SlotsOk (cancel2 (claiming (some .recall) .idle)) ∧ ((cancel2 (claiming (some .recall) .idle)).bus 0).abort ≠ none ∧
      SlotsOk (cancel2 waiting) ∧ ((cancel2 waiting).bus 0).state = .waitHead ∧ ((cancel2 waiting).bus 0).abort = none ∧
      SlotsOk (cancel2 attached) ∧ HeadsOk (cancel2 attached) ∧ ((cancel2 attached).bus 0).state = .measuring ∧
      ((cancel2 attached).head 0).bus = some 0 ∧ ((cancel2 attached).head 0).state = .attached := by
  refine ⟨?_, takes_posted _ _ rfl rfl rfl rfl rfl, ?_⟩ <;> (unfold SlotsOk; try unfold HeadsOk) <;> decide +kernel

theorem test_meets_FenceTakenAndCompleted :
    Takes (posted desk 3 0) anchor (request 3 0) ∧ (request 3 0).kind = some .fence ∧
      ({ desk with fence := some 63 } : State).fence = some 63 ∧ ({ desk with fence := some 63 } : State).inFlight = [] ∧
      (∀ e ∈ ({ desk with fence := some 63 } : State).writerQueue, e.isFinal = false) ∧
      ({ desk with writerQueue := [done0, done0, done0] } : State).writerQueue.countP WriterEntry.isGeneral ≤ 3 :=
  ⟨takes_posted _ _ rfl rfl rfl rfl rfl, by decide +kernel⟩

theorem test_meets_ReleaseAndResetRequests :
    Takes (posted (withBus desk (bus5 .held)) 0x00050004 0) anchor (request 0x00050004 0) ∧
      BusLineOk (posted (withBus desk (bus5 .held)) 0x00050004 0) ∧ (request 0x00050004 0).kind = some .releaseHold ∧
      (request 0x00050004 0).targetInstalled anchor = true ∧ (request 0x00050004 0).line = 5 ∧
      ((posted (withBus desk (bus5 .held)) 0x00050004 0).bus 0).state = .held ∧
      ((lastStep true).bus 0).hold = true ∧ ((lastStep true).bus 0).state = .measuring ∧
      (request 0x00000005 0).kind = some .busReset ∧ (request 0x00030005 0).target = 3 ∧
      ((withBus desk (bus5 .faulted)).bus 0).state = .faulted ∧ (request 0x00010006 0).kind = some .headReset ∧
      (request 0x00010006 0).target = 1 ∧ ((desk.setHead 1 Head.suspect).head 1).state = .suspect :=
  ⟨takes_posted _ _ rfl rfl rfl rfl rfl, busLineOk_bus5 (r := bus5 .held) LineRecord.cold rfl (by decide), by decide +kernel⟩

theorem test_meets_SweepControlled :
    Takes (posted desk 7 0x01000000) anchor (request 7 0x01000000) ∧ (request 7 0x01000000).kind = some .sweepControl ∧
      (request 7 0x01000000).action = some .start ∧ (request 7 0x02000000).action = some .stop ∧
      (request 7 0x03000000).action = some .restart := ⟨takes_posted _ _ rfl rfl rfl rfl rfl, by decide +kernel⟩

theorem test_meets_SweepSeeks :
    Takes (posted desk 0x001F0007 0x04000000) anchor (request 0x001F0007 0x04000000) ∧
      (request 0x001F0007 0x04000000).kind = some .sweepControl ∧ (request 0x001F0007 0x04000000).action = some .seek ∧
      (request 0x001F0007 0x04000000).targetInstalled anchor = true := ⟨takes_posted _ _ rfl rfl rfl rfl rfl, by decide +kernel⟩

theorem test_meets_GroupCleared :
    Takes (posted desk 0x00010008 0) anchor (request 0x00010008 0) ∧ (request 0x00010008 0).kind = some .clearGroup ∧
      (request 0x00010008 0).target = 1 ∧ 1 * 16 < anchor.installed := ⟨takes_posted _ _ rfl rfl rfl rfl rfl, by decide +kernel⟩

theorem test_meets_LineQueried :
    Takes (posted desk 0x00050209 0) anchor (request 0x00050209 0) ∧ (request 0x00050209 0).kind = some .lineQuery ∧
      refusalOf (posted desk 0x00050209 0) anchor (request 0x00050209 0) = none :=
  ⟨takes_posted _ _ rfl rfl rfl rfl rfl, by decide +kernel⟩

/-- The sweep runs and its pacing timer has expired. -/
def sweeping : State := { desk with sweep := .running }

theorem capacityOk_of {s : State} (h : s.queue = [] ∧ s.outbox = [] ∧ s.alarmList = [] ∧ s.focus = [] ∧ s.writerQueue = [])
    (hs : s.starvation ≤ 16 ∧ s.droppedBefore ≤ 255 ∧ s.droppedTotal ≤ 65535) (hr : s.register = none)
    (ht : ∀ b, (s.bus b).test = none) : CapacityOk s := by
  obtain ⟨h1, h2, h3, h4, h5⟩ := h
  obtain ⟨k1, k2, k3⟩ := hs
  unfold CapacityOk SlotListsOk WriterEntriesOk TicketLinesOk State.busEntryEmpty
  rw [h1, h2, h3, h4, h5]
  refine ⟨by simp, by simp, by simp, by simp, k1, k2, k3, ⟨by simp, ?_, by simp⟩, ⟨by simp, by simp, by simp, ?_⟩,
    by rw [hr]; simp, by simp, by simp⟩
  · intro b e he
    rw [ht b] at he
    cases he
  · split <;> simp

theorem test_meets_IssueAttemptRuns : MayAttempt sweeping anchor ∧ AnchorOk sweeping ∧ sweeping.focus.length ≤ 4 :=
  ⟨by unfold MayAttempt; decide +kernel, anchorOk_of rfl rfl, by decide⟩

/-- A ticket waits in the outbox, the ring one short of full. -/
def outboxed : State := { desk with outbox := [{ sequence := 4, ticket := ticket .standingLoop [5] }], produce := 7 }

theorem test_meets_TicketsMoveAndTimersExpire :
    outboxed.anchor = some anchor ∧ outboxed.outbox = { sequence := 4, ticket := ticket .standingLoop [5] } :: [] ∧
      (∀ e ∈ outboxed.writerQueue, e.isTicket = false) ∧ (outboxed.produce - outboxed.consume).toNat < anchor.ticketSize ∧
      outboxed.writerQueue.countP WriterEntry.isGeneral ≤ 1 ∧ ({ desk with coalescing := some 0 } : State).coalescing = some 0 := by
  decide +kernel

theorem test_meets_VerdictTicketed : desk.anchor = some anchor ∧ (TestClass.desk = .desk ∧ TicketOrigin.desk = .desk) :=
  ⟨rfl, rfl, rfl⟩

/-- The writer writes a record. -/
def writing : State :=
  { desk with path := .writer { words := [(0x100C, 0x302)], flags := [.result] }, writerQueue := [done0, .status none] }

theorem pathOpen_desk : PathOpen desk := ⟨rfl, rfl, .inl rfl⟩

theorem test_meets_HostWriteStored :
    writeOf (.hostWrite 0xFFFFFC 0 0x8#4) = some (0xFFFFFC, 0, 0x8#4) ∧ PathOpen desk ∧
      PathOpen { desk with writerQueue := [done0], starvation := 15 } ∧ MemoryOk desk ∧
      writing.hostAccesses = [] ∧ WriterFirst writing ∧ WriterFirst { desk with writerQueue := [done0], starvation := 16 } ∧
      WriterFirst { rest with writerQueue := [done0] } ∧ heldRead.hostAccesses ≠ [] := by
  refine ⟨rfl, pathOpen_desk, ⟨rfl, rfl, .inr ⟨rfl, by decide⟩⟩, rfl, rfl, .inl rfl, .inr ⟨rfl, ?_, .inr ?_⟩,
    .inr ⟨rfl, ?_, .inl rfl⟩, ?_⟩ <;> decide

theorem test_meets_HostWriteHandedOver :
    PathOpen desk ∧ AnchorOk desk ∧ wordAddr 0x200 = 0x200 + 4 * 0 ∧ wordAddr 0x27C = 0x200 + 4 * 31 ∧
      anchor.generation = (0x101 : Word).toNat % 256 ∧ wordAddr 0x1FC < 0x200 ∧ 0x280 ≤ wordAddr 0x280 ∧ rest.anchor = none ∧
      PathOpen rest ∧ wordAddr 0x1000 = anchor.ringBase + 16 * 0 + 4 * 0 ∧ wordAddr 0x103C = anchor.ringBase + 16 * 3 + 4 * 3 ∧
      wordAddr 0x6008 = anchor.statusBase + 8 ∧ wordAddr 0x6010 = anchor.statusBase + 16 ∧
      wordAddr 0xFFC < anchor.ringBase ∧ anchor.ringBase + 16 * anchor.ringSize ≤ wordAddr 0x1040 :=
  ⟨pathOpen_desk, anchorOk_of rfl rfl, by decide, by decide, by decide, by decide, by decide, rfl, ⟨rfl, rfl, .inl rfl⟩,
    by decide, by decide, by decide, by decide, by decide, by decide⟩

/-- A staging copy whose settings pass every check. -/
def staged : Vector Word 32 :=
  #v[0x1000, 0x2000, 0x4000, 0x6000, 0x00080804, 0x01F40020, 0x000400FF, 0x0014000A, 0x00320001, 0x02030032, 0xFFF, 0x6E5,
    0x00640000, 0x00640000, 0x00640000, 0x00640000, 0x00640000, 0x00640000, 0x00640000, 0x00640000,
    0, 0, 0, 0, 0, 0, 0, 0, 0, 0, 0, 0]

/-- The settings of a commit with generation 255. -/
def staged255 : Anchor := settings (putEntry staged 31 0xFF) 255

/-- The check of a commit answers the outcome of the statements. -/
theorem outcomeIs_validate (a : Anchor) (s : State) : OutcomeIs a s (validate a s) := by
  unfold validate OutcomeIs
  simp only [← rangeOk_iff, ← layoutOk_iff, ← limitsOk_iff, ← quiet_iff_Quiet]
  cases a.rangeOk <;> cases a.layoutOk <;> cases a.limitsOk <;> cases s.quiet <;> simp

theorem test_meets_CommitAttemptTaken :
    writeOf (.commitAttempt 0xFF) = some (0x27C#24, 0xFF, 0xF#4) ∧ wordAddr 0x27C#24 = 0x27C ∧
      PathOpen { desk with staging := staged } ∧ (0xFF : Word).toNat % 256 = 255 ∧
      (∀ x, desk.anchor = some x → x.generation ≠ 255) ∧ OutcomeIs staged255 { desk with staging := staged } .accepted ∧
      OutcomeIs staged255 { claiming none .idle with staging := staged } .refusedBusy ∧
      OutcomeIs (settings (putEntry (Vector.replicate 32 0) 31 0xFF) 255) desk .refusedRange ∧
      OutcomeIs { staged255 with resultBase := 0x1000 } desk .refusedLayout ∧
      OutcomeIs { staged255 with limits := Vector.replicate 8 { low := 1, high := 0 } } desk .refusedLimits := by
  refine ⟨rfl, by decide, ⟨rfl, rfl, .inl rfl⟩, by decide, ?_, ?_⟩
  · intro x h
    cases h
    decide
  · exact ⟨outcomeIs_validate staged255 { desk with staging := staged },
      outcomeIs_validate staged255 { claiming none .idle with staging := staged },
      outcomeIs_validate (settings (putEntry (Vector.replicate 32 0) 31 0xFF) 255) desk,
      outcomeIs_validate { staged255 with resultBase := 0x1000 } desk,
      outcomeIs_validate { staged255 with limits := Vector.replicate 8 { low := 1, high := 0 } } desk⟩

theorem covered_iff {s : State} {a : Anchor} {w : Nat} (h : s.covered a w = true) : Covered s a w :=
  List.any_eq_true.mp h

theorem not_covered {s : State} {a : Anchor} {w : Nat} (h : s.writerQueue = []) : ¬ Covered s a w := by
  unfold Covered; rw [h]; simp

/-- Slot 2 is in flight. -/
def inFlight2 : State := { desk with queue := [entry5] }

theorem test_meets_HostReadAnswered :
    (PathOpen desk ∧ ∀ a, desk.anchor = some a → ¬ Covered desk a 0x2000 ∧ (InFlightWord desk a 0x2000 → a.resultHoldLimit = 0)) ∧
      (({ desk with writerQueue := [done0] } : State).hostAccesses = [] ∧
        Covered { desk with writerQueue := [done0] } anchor (wordAddr 0x100C)) ∧
      (inFlight2.hostAccesses = [] ∧ inFlight2.readHold = none ∧ inFlight2.resultHoldSpent = false ∧
        ¬ Covered inFlight2 anchor (wordAddr 0x20BC) ∧ InFlightWord inFlight2 anchor (wordAddr 0x20BC) ∧
        anchor.resultHoldLimit ≠ 0) ∧
      (WriterFirst writing ∧ writing.hostAccesses = [] ∧ ¬ Covered writing anchor 0x3000) ∧ heldRead.hostAccesses ≠ [] := by
  refine ⟨⟨pathOpen_desk, ?_⟩, ⟨rfl, covered_iff (by decide +kernel)⟩, ⟨rfl, rfl, rfl, not_covered rfl, ?_, by decide⟩,
    ⟨.inl rfl, rfl, ?_⟩, by decide⟩
  · intro a _
    refine ⟨not_covered rfl, ?_⟩
    rintro ⟨i, -, -, -, h⟩
    have e : desk.inFlight = [] := by decide +kernel
    rw [e] at h
    cases h
  · exact ⟨2, by decide, by decide, by decide, by decide +kernel⟩
  · unfold Covered; decide +kernel

theorem test_meets_ResultHoldExpires :
    heldRead.anchor = some anchor ∧ heldRead.hostAccesses = [.read 0x2080 0xF#4] ∧ heldRead.readHold = some (.result 0) ∧
      ¬ Covered heldRead anchor (wordAddr 0x2080) ∧ heldRead.path = .free ∧ heldRead.writerQueue = [] ∧
      WriterFirst { heldRead with path := .writer { words := [], flags := [] } } ∧
      Covered { heldRead with writerQueue := [.cancelled 2 (desk.cancelledOf { slot := 2, tag := 9, merged := false } 5 none)] } anchor
        (wordAddr 0x2080) :=
  ⟨rfl, rfl, rfl, not_covered rfl, rfl, rfl, .inl rfl, covered_iff (by decide +kernel)⟩

theorem test_meets_WriterTakesPath :
    ({ desk with writerQueue := [done0] } : State).path = .free ∧
      ({ desk with writerQueue := [done0] } : State).writerQueue = done0 :: [] ∧ desk.hostAccesses = [] ∧
      heldRead.readHold ≠ none ∧ 16 ≤ ({ desk with starvation := 16 } : State).starvation ∧ rest.anchor = none ∧
      ({ desk with hostAccesses := [.read 0 0], starvation := 15 } : State).hostAccesses ≠ [] ∧
      ({ desk with hostAccesses := [.read 0 0], starvation := 15 } : State).starvation < 16 ∧ desk.anchor ≠ none := by
  decide +kernel

/-- A final record of bus 0 for slot 2, and one for the slots 2 and 7. -/
def finalEntry (ms : List SlotMember) : WriterEntry := .bus 0 (desk.inProgressOf (request 0x00050201 0x0C) false) ms

/-- A record is being written for an entry, with others pending and accesses outstanding. -/
def writes (e : WriterEntry) (es : List WriterEntry) (accesses : List HostAccess) : State :=
  { desk with
    path := .writer { words := [], flags := [.result] }, writerQueue := e :: es, hostAccesses := accesses,
    flags := putEntry desk.flags Flag.result.index .raised }

/-- The state that the record leaves, without the accesses. -/
def written (s : State) : State := answer (exec .recordWritten { s with hostAccesses := [] })

theorem test_meets_RecordWritten_entries :
    (∀ e es, (writes e es []).path = .writer { words := [], flags := [.result] } ∧ (writes e es []).writerQueue = e :: es ∧
        (writes e es []).hostAccesses = []) ∧
      (∃ rec m m' ms, finalEntry twoSlots.slots = .bus 0 rec (m :: m' :: ms)) ∧ (∃ rec m, finalEntry entry5.slots = .bus 0 rec [m]) ∧
      Disposition.refusedKind.isRefusal = true ∧ Disposition.done.isRefusal = false ∧
      (WriterEntry.ticket 0 0 0 (ticket .standingLoop [5])).isTicket = true ∧ done0.isTicket = false ∧ done0.isGeneral = true ∧
      (WriterEntry.status none).isGeneral = false ∧ (writes (.status none) [] []).flag .result ≠ .clear ∧
      (writes (.status none) [] []).flag .ticket = .clear :=
  ⟨fun _ _ => ⟨rfl, rfl, rfl⟩, ⟨_, _, _, _, rfl⟩, ⟨_, _, rfl⟩, by decide +kernel⟩

/-- A further disposition, in slot 1. -/
def done1 : WriterEntry := .disposition 1 .done false

theorem test_meets_RecordWritten_reads :
    Covered (written (writes done0 [done1] [.read 0x101C 0xF#4])) anchor (wordAddr 0x101C) ∧
      (¬ Covered (written { writes done0 [] [.read 0x2080 0xF#4] with queue := [entry5] }) anchor (wordAddr 0x2080) ∧
        InFlightWord (written { writes done0 [] [.read 0x2080 0xF#4] with queue := [entry5] }) anchor (wordAddr 0x2080) ∧
        anchor.resultHoldLimit ≠ 0 ∧
        ({ writes done0 [] [.read 0x2080 0xF#4] with queue := [entry5] } : State).resultHoldSpent = false) ∧
      (¬ Covered (written (writes done0 [done1] [.read 0x300 0xF#4])) anchor (wordAddr 0x300) ∧
        ¬ InFlightWord (written (writes done0 [done1] [.read 0x300 0xF#4])) anchor (wordAddr 0x300) ∧
        (written (writes done0 [] [.read 0x300 0xF#4])).writerQueue = [] ∧
        (written (writes done0 [done1] [.read 0x300 0xF#4])).starvation < 16 ∧
        (written (writes done0 [done1] [.read 0x300 0xF#4])).writerQueue ≠ [] ∧
        16 ≤ (written { writes done0 [done1] [.read 0x300 0xF#4] with starvation := 16 }).starvation) := by
  refine ⟨covered_iff (by decide +kernel), ⟨?_, ⟨2, by decide, by decide, by decide, by decide +kernel⟩, by decide, rfl⟩, ?_, ?_, ?_⟩
  · unfold Covered; decide +kernel
  · unfold Covered; decide +kernel
  · rintro ⟨i, -, -, -, h⟩
    have e : (written (writes done0 [done1] [.read 0x300 0xF#4])).inFlight = [] := by decide +kernel
    rw [e] at h
    cases h
  · decide +kernel

theorem test_meets_RecordWritten :
    writing.path = .writer { words := [(0x100C, 0x302)], flags := [.result] } ∧
      writing.writerQueue = done0 :: [.status none] ∧ writing.hostAccesses = [] ∧
      ({ writing with hostAccesses := [.write 0x300 1 0xF#4] } : State).hostAccesses = [.write 0x300 1 0xF#4] ∧
      writing.anchor ≠ none ∧ writing.starvation < 16 ∧ MemoryOk writing := by
  unfold MemoryOk; decide +kernel

/-- A context with the longest elapsed time a record holds. -/
def longest : EventContext :=
  { bus := none, head := some 1, step := none, busState := none, headState := some .clearing, line := none, claim := 0, elapsed := 65535 }

theorem test_meets_RecordsLaidOut :
    desk.anchor = some anchor ∧ rest.anchor = none ∧ ({ generation := 255, outcome := .accepted } : CommitRecord).generation < 256 ∧
      (255 < 256 ∧ ∀ c, TicketDetail.context longest = .context c → c.elapsed < 65536) ∧
      anchor.generation < 256 ∧ (∀ c, desk.lastCommit = some c → c.generation < 256) ∧ desk.queue.length ≤ 16 ∧
      desk.droppedTotal ≤ 65535 ∧ desk.pointer < 4096 ∧ desk.alarmList.length ≤ 8 := by
  refine ⟨rfl, rfl, by decide, ⟨by decide, ?_⟩, by decide, ?_, by decide, by decide, by decide, by decide⟩
  · intro c h
    cases h
    decide
  · intro c h
    cases h

theorem test_meets_AttentionLevel :
    (desk.setFlag .ticket .shown).anchor = some anchor ∧ Flag.cls .ticket = some 1 ∧
      (desk.setFlag .ticket .shown).flag .ticket = .shown ∧ anchor.enables.getLsbD (Flag.position .ticket) = true ∧
      (desk.setFlag .ticket .shown).attn = 1 := by decide +kernel

/-- The hold timer of bus 0 runs. -/
def held : State := withBus desk { bus5 .held with timer := some (.hold, 0) }

theorem test_meets_StatusMarked :
    ∃ t, exec (.holdTimerExpiry 0) held = .next t ∧ t.anchor ≠ none ∧ t.statusImage ≠ held.statusImage ∧
      held.path.isWriter ≠ true := ⟨_, rfl, by decide +kernel⟩

theorem test_meets_invariants :
    (MemoryOk desk ∧ GroupsOk desk ∧ SlotsOk desk ∧ RingOk desk ∧ CapacityOk desk ∧ WorkOk desk) ∧ BusLineOk rest ∧
      BeforeCommitOk rest ∧ (∃ t, step desk = .next t) ∧ ∃ t, step rest = .next t := by
  refine ⟨⟨rfl, ?_, ?_, ?_, capacityOk_of ⟨rfl, rfl, rfl, rfl, rfl⟩ (by decide) rfl (fun b => by rw [desk_bus]; rfl), workOk_of rfl rfl rfl ?_ ?_ ?_⟩, busLineOk_rest, ?_,
    ⟨_, rfl⟩, ⟨_, rfl⟩⟩
  · refine ⟨by decide, fun g => ?_, fun f h => by cases h⟩
    have e : desk.group g = GroupRecord.zero := entry_replicate _ _
    rw [e]
    decide
  · unfold SlotsOk; decide +kernel
  · unfold RingOk; decide +kernel
  · unfold WaitQueueOk HeadsOk; decide +kernel
  · decide +kernel
  · decide +kernel
  · refine fun _ => ⟨rfl, rfl, rfl, rfl, fun b => ?_, fun f => ?_, by decide, ?_, ?_⟩
    · rw [rest_bus]; rfl
    · cases f <;> rfl
    · intro e h; cases h
    · intro r h; cases h

end Sys2Proof.Tests
end

section
/-!
PROOFS. The line table and the exchange link: what a STATE does to the record it names and to the rest of the state (R5, Table 1-4).
-/

namespace Sys2Proof.Machine

/-! ## The rows of Table 1-4 -/

theorem LineRecord.report_of_held {r : LineRecord} {v : Supervision} (h : r.supervision = v) (epoch : Count16) :
    r.report v epoch = r :=
  if_pos h

theorem LineRecord.report_offHook {r : LineRecord} (h : r.supervision ≠ .offHook) (epoch : Count16) :
    r.report .offHook epoch =
      { r with supervision := .offHook, stamp := some (epoch.setWidth 8), loopMark := false } := by
  unfold LineRecord.report
  rw [if_neg h, if_pos rfl]

theorem LineRecord.report_of_not_offHook {r : LineRecord} {v : Supervision} (h : r.supervision ≠ v) (hv : v ≠ .offHook)
    (epoch : Count16) : r.report v epoch = { r with supervision := v, stamp := none, loopMark := false } := by
  unfold LineRecord.report
  rw [if_neg h, if_neg hv]

/-- OFF_HOOK is reported by the message value of that name only (Table 1-3). -/
theorem reported_supervision_eq_offHook {v : Reported} : v.supervision = .offHook ↔ v = .offHook := by
  cases v <;> simp [Reported.supervision]

/-! ## The line table after a STATE -/

/-- A line record put in place leaves every other line as it was. -/
theorem setLine_otherLines (l : LineNo) (r : LineRecord) (s : State) : OtherLines l s (s.setLine l r) := by
  intro x hx
  rw [State.setLine_view_line, if_neg hx.symm]

/-- The state after a STATE with one of the four values: the record replaced by its row of Table 1-4, the look of R89, and the end of
the event. -/
def afterState (l : LineNo) (v : Reported) (s : State) : State :=
  finish s ((s.setLine l ((s.line l).report v.supervision s.epoch)).look ((s.line l).supervision != v.supervision))

theorem exec_state_some (l : LineNo) (v : Reported) (s : State) : exec (.state l (some v)) s = .next (afterState l v s) := rfl

theorem afterState_only (l : LineNo) (v : Reported) (s : State) :
    OnlyChanges [.lines, .cancelSinceLook, .writerQueue, .readHold] s (afterState l v s) :=
  ((setLine_only l _ s).comp (look_only _ _) (hs := [.lines, .cancelSinceLook]) rfl).comp (finish_only s _) rfl

/-- Neither the look nor the end of the event touches the line table. -/
theorem afterState_view_line (l : LineNo) (v : Reported) (s : State) (x : LineNo) :
    (afterState l v s).line x = (s.setLine l ((s.line l).report v.supervision s.epoch)).line x := by
  unfold afterState
  rw [(finish_only s _).line rfl, State.look_view_line]

theorem afterState_view_line_self (l : LineNo) (v : Reported) (s : State) :
    (afterState l v s).line l = (s.line l).report v.supervision s.epoch := by
  rw [afterState_view_line, State.setLine_view_line_self]

theorem afterState_otherLines (l : LineNo) (v : Reported) (s : State) : OtherLines l s (afterState l v s) := by
  intro x hx
  rw [afterState_view_line, setLine_otherLines l _ s x hx]

/-- Settles O9: the record by the rows of Table 1-4, the rest by the frames of the operations a STATE is made of. -/
theorem stateTaken : Obligations.StateTaken := by
  intro s l v
  refine ⟨afterState l v s, exec_state_some l v s, fun same => ?_, fun change offHook => ?_, fun change other => ?_,
    afterState_otherLines l v s, afterState_only l v s⟩
  · rw [afterState_view_line_self, LineRecord.report_of_held same]
  · subst offHook
    rw [afterState_view_line_self]
    exact LineRecord.report_offHook change s.epoch
  · rw [afterState_view_line_self]
    exact LineRecord.report_of_not_offHook change (mt reported_supervision_eq_offHook.mp other) s.epoch

end Sys2Proof.Machine
end

section
/-!
PROOFS. Answers of the exchange that match no bus: the GRANT that is given back at once, the DENY and the RECALL that are discarded
(R25, R29).
-/

namespace Sys2Proof.Machine

/-! ## What the exchange link leaves as it is

No word of the status block tells of the messages issued or of their transmission (Table 10-6), so an event that touches these alone
marks no status entry (R161). -/

@[simp] theorem State.sendExchange_statusImage (s : State) (m : ExchangeMessage) :
    (s.sendExchange m).statusImage = s.statusImage := rfl

@[simp] theorem heardAnswer_statusImage (l : LineNo) (c : ClaimNo) (s : State) :
    (heardAnswer l c s).statusImage = s.statusImage := rfl

@[simp] theorem heardAnswer_exchangeOut (l : LineNo) (c : ClaimNo) (s : State) :
    (heardAnswer l c s).exchangeOut = s.exchangeOut := rfl

/-- What an answer shows of the CLAIM it answers does not bear on the bus it matches. -/
@[simp] theorem heardAnswer_matchBus (l : LineNo) (c : ClaimNo) (s : State) :
    (heardAnswer l c s).matchBus l c = s.matchBus l c := rfl

/-! ## Taking an unmatched answer (R29) -/

section
variable {s : State} {l : LineNo} {c : ClaimNo}

theorem takeGrant_of_unmatched (h : s.matchBus l c = none) : takeGrant l c s = s.sendExchange (.release l c) := by
  unfold takeGrant
  rw [h]

theorem takeDeny_of_unmatched (h : s.matchBus l c = none) (reason : DenyReason) : takeDeny l c reason s = s := by
  unfold takeDeny
  rw [h]

theorem takeRecall_of_unmatched (h : s.matchBus l c = none) : takeRecall l c s = s := by
  unfold takeRecall
  rw [h]

end

/-! ## The state after an unmatched answer -/

/-- The state after an answer that is discarded: what it shows of the CLAIM it answers (log 10), and the end of the event. -/
def afterDiscard (l : LineNo) (c : ClaimNo) (s : State) : State := finish s (heardAnswer l c s)

/-- The state after a GRANT that is given back: besides what it shows, the RELEASE is issued. -/
def afterGiveBack (l : LineNo) (c : ClaimNo) (s : State) : State :=
  finish s ((heardAnswer l c s).sendExchange (.release l c))

theorem afterDiscard_only (l : LineNo) (c : ClaimNo) (s : State) : OnlyChanges [.readHold, .begun] s (afterDiscard l c s) :=
  (heardAnswer_only l c s).comp (finish_only_of_image (heardAnswer_statusImage l c s)) rfl

theorem afterGiveBack_only (l : LineNo) (c : ClaimNo) (s : State) :
    OnlyChanges [.exchangeOut, .readHold, .begun] s (afterGiveBack l c s) := by
  have image : ((heardAnswer l c s).sendExchange (.release l c)).statusImage = s.statusImage := by simp
  have sent : OnlyChanges [.exchangeOut, .begun] s ((heardAnswer l c s).sendExchange (.release l c)) :=
    (heardAnswer_only l c s).comp (sendExchange_only _ _) rfl
  exact sent.comp (finish_only_of_image image) rfl

theorem afterGiveBack_exchangeOut (l : LineNo) (c : ClaimNo) (s : State) :
    (afterGiveBack l c s).exchangeOut = s.exchangeOut ++ [.release l c] := by
  unfold afterGiveBack
  rw [finish_exchangeOut, State.sendExchange_exchangeOut, heardAnswer_exchangeOut]

/-! ## The commands -/

theorem exec_grant (l : LineNo) (c : ClaimNo) (s : State) :
    exec (.grant l c) s = .next (finish s (takeGrant l c (heardAnswer l c s))) := rfl

theorem exec_deny_some (l : LineNo) (c : ClaimNo) (reason : DenyReason) (s : State) :
    exec (.deny l c (some reason)) s = .next (finish s (takeDeny l c reason (heardAnswer l c s))) := rfl

theorem exec_recall (l : LineNo) (c : ClaimNo) (s : State) :
    exec (.recall l c) s = .next (finish s (takeRecall l c (heardAnswer l c s))) := rfl

section
variable {s : State} {l : LineNo} {c : ClaimNo}

theorem exec_grant_of_unmatched (h : s.matchBus l c = none) : exec (.grant l c) s = .next (afterGiveBack l c s) := by
  have taken : takeGrant l c (heardAnswer l c s) = (heardAnswer l c s).sendExchange (.release l c) :=
    takeGrant_of_unmatched ((heardAnswer_matchBus l c s).trans h)
  rw [exec_grant, taken, afterGiveBack]

theorem exec_deny_of_unmatched (h : s.matchBus l c = none) (reason : DenyReason) :
    exec (.deny l c (some reason)) s = .next (afterDiscard l c s) := by
  have taken : takeDeny l c reason (heardAnswer l c s) = heardAnswer l c s :=
    takeDeny_of_unmatched ((heardAnswer_matchBus l c s).trans h) reason
  rw [exec_deny_some, taken, afterDiscard]

theorem exec_recall_of_unmatched (h : s.matchBus l c = none) : exec (.recall l c) s = .next (afterDiscard l c s) := by
  have taken : takeRecall l c (heardAnswer l c s) = heardAnswer l c s :=
    takeRecall_of_unmatched ((heardAnswer_matchBus l c s).trans h)
  rw [exec_recall, taken, afterDiscard]

end

/-- Settles O10: with no bus matched, a GRANT ends in `afterGiveBack`, a DENY and a RECALL in `afterDiscard`; the status image stays
as it was, so the end of the event leaves the writer queue alone. -/
theorem unmatchedAnswers : Obligations.UnmatchedAnswers := by
  intro s l c unmatched
  have noBus : s.matchBus l c = none := matchBus_none.mpr unmatched
  refine ⟨?granted, fun reason => ?denied, ?recalled⟩
  case granted =>
    exact ⟨afterGiveBack l c s, exec_grant_of_unmatched noBus, afterGiveBack_exchangeOut l c s, afterGiveBack_only l c s⟩
  case denied => exact ⟨afterDiscard l c s, exec_deny_of_unmatched noBus reason, afterDiscard_only l c s⟩
  case recalled => exact ⟨afterDiscard l c s, exec_recall_of_unmatched noBus, afterDiscard_only l c s⟩

end Sys2Proof.Machine
end

section
/-!
PROOFS. The run order of a step program: the full order is a permutation of the step kinds in either mode, and the mask passes kinds
over (R61).
-/

namespace Sys2Proof.Machine

/-! ## The step kinds, and the kind at a position -/

theorem allKinds_eq_finRange : allKinds = List.finRange 8 := by decide

theorem allKinds_getElem? (i : StepKind) : allKinds[i.val]? = some i := by
  rw [allKinds_eq_finRange, List.getElem?_eq_getElem (by simp), List.getElem_finRange]
  rfl

theorem orderAt_sequential (start i : StepKind) : orderAt start .sequential i = Fin.ofNat 8 ((start.val + i.val) % 8) :=
  Fin.ext (Nat.mod_mod _ _).symm

/-- The XOR of two step kinds needs no reduction to be a step kind again. -/
theorem orderAt_interleaved_val (start i : StepKind) : (orderAt start .interleaved i).val = start.val ^^^ i.val :=
  Nat.mod_eq_of_lt (Nat.xor_lt_two_pow (n := 3) start.isLt i.isLt)

theorem orderAt_injective (start : StepKind) (mode : OrderMode) : Function.Injective (orderAt start mode) := by
  intro i j same
  cases mode with
  | sequential => exact add_left_cancel (a := start) same
  | interleaved =>
    have sameXor : start.val ^^^ i.val = start.val ^^^ j.val := by
      rw [← orderAt_interleaved_val, ← orderAt_interleaved_val, same]
    exact Fin.ext (Nat.xor_right_injective sameXor)

/-! ## The full order -/

/-- In either mode each step kind stands at exactly one position. -/
theorem map_orderAt_perm (start : StepKind) (mode : OrderMode) : (allKinds.map (orderAt start mode)).Perm allKinds := by
  have bijective : Function.Bijective (orderAt start mode) := Finite.injective_iff_bijective.mp (orderAt_injective start mode)
  rw [allKinds_eq_finRange]
  exact Equiv.Perm.map_finRange_perm (Equiv.ofBijective _ bijective)

theorem fullMask_getLsbD (k : StepKind) : (0xFF#8).getLsbD k.val = true := by
  revert k
  decide

theorem runOrder_fullMask (start : StepKind) (mode : OrderMode) : runOrder 0xFF#8 start mode = allKinds.map (orderAt start mode) :=
  List.filter_eq_self.mpr fun k _ => fullMask_getLsbD k

theorem runOrder_fullMask_getElem? (start : StepKind) (mode : OrderMode) (i : StepKind) :
    (runOrder 0xFF#8 start mode)[i.val]? = some (orderAt start mode i) := by
  rw [runOrder_fullMask, List.getElem?_map, allKinds_getElem?, Option.map_some]

/-! ## The kinds passed over -/

theorem runOrder_eq_filter (mask : BitVec 8) (start : StepKind) (mode : OrderMode) :
    runOrder mask start mode = (runOrder 0xFF#8 start mode).filter fun k => mask.getLsbD k.val := by
  rw [runOrder_fullMask, runOrder]

/-- A program runs each kind of its mask once, so its length does not depend on the start and the mode. -/
theorem runOrder_length (mask : BitVec 8) (start : StepKind) (mode : OrderMode) :
    (runOrder mask start mode).length = (List.range 8).countP fun i => mask.getLsbD i := by
  calc (runOrder mask start mode).length
      = (allKinds.map (orderAt start mode)).countP fun k => mask.getLsbD k.val := List.countP_eq_length_filter.symm
    _ = allKinds.countP fun k => mask.getLsbD k.val := (map_orderAt_perm start mode).countP_eq _
    _ = (allKinds.map Fin.val).countP fun i => mask.getLsbD i := List.countP_map.symm
    _ = (List.range 8).countP fun i => mask.getLsbD i := by rw [allKinds_eq_finRange, List.map_coe_finRange_eq_range]

/-- Settles O22: the full order position by position, then the kinds passed over and the number that are left. -/
theorem runOrderIs : Obligations.RunOrderIs := by
  refine ⟨fun start i => ⟨?sequential, ?interleaved⟩, fun mask start mode => ⟨?passedOver, ?length⟩⟩
  case sequential => rw [runOrder_fullMask_getElem?, orderAt_sequential]
  case interleaved => rw [runOrder_fullMask_getElem?, orderAt]
  case passedOver => exact runOrder_eq_filter mask start mode
  case length => exact runOrder_length mask start mode

end Sys2Proof.Machine
end

section
/-!
PROOFS. The take of a slot and its disposition: what every request kind has in common (R176, R177).
-/

namespace Sys2Proof.Machine

/-! ## The take -/

/-- A row acts on the slot at the take index where the slot is taken and the row is about its request. -/
theorem takeIf_of_takes {s : State} {a : Anchor} {r : Request} (taken : Takes s a r) {p : Request → Bool} (about : p r = true)
    (act : Anchor → Request → State → State) : takeIf s p act = finish s (act a r s) := by
  unfold takeIf
  rw [takeable_of_takes taken]
  exact if_pos about

/-- The line a request names is `targetInstalled` by the anchor in force. -/
theorem installed_line_of_takes {s : State} {a : Anchor} {r : Request} (taken : Takes s a r) :
    s.installed r.line = r.targetInstalled a := by
  obtain ⟨inForce, -⟩ := taken
  unfold State.installed State.installedCount State.limit
  rw [inForce]
  rfl

/-! ## The slot passed -/

/-- Of a ring of at most 64 slots, the place the take index holds next needs no reduction (R176). -/
theorem nextIndex_val {size : Nat} (i : Fin 64) (le : size ≤ 64) :
    (nextIndex size i).val = if i.val + 1 < size then i.val + 1 else 0 := by
  unfold nextIndex
  split
  · next inRing => exact Nat.mod_eq_of_lt (inRing.trans_le le)
  · rfl

theorem passSlot_view_shadow (a : Anchor) (s : State) (i : Fin 64) :
    (passSlot a s).shadow i = (s.setShadow s.takeIndex { s.shadow s.takeIndex with posted := false }).shadow i := rfl

theorem passSlot_slotPassed (a : Anchor) (s : State) : SlotPassed a s (passSlot a s) := by
  refine ⟨?taken, fun i other => ?others, nextIndex_val s.takeIndex, rfl⟩
  case taken => rw [passSlot_view_shadow, State.setShadow_view_shadow_self]
  case others => rw [passSlot_view_shadow, State.setShadow_view_shadow, if_neg other.symm]

/-- `SlotPassed` reads nothing of the two states but their slots. -/
theorem SlotPassed.of_only {fs gs : List Field} {a : Anchor} {s u v t : State} (passed : SlotPassed a u v)
    (before : OnlyChanges fs s u) (after : OnlyChanges gs v t)
    (hf : decide (Field.shadows ∈ fs) = false ∧ decide (Field.takeIndex ∈ fs) = false)
    (hg : decide (Field.shadows ∈ gs) = false ∧ decide (Field.takeIndex ∈ gs) = false ∧ decide (Field.testWaiting ∈ gs) = false) :
    SlotPassed a s t := by
  have sameIndex : u.takeIndex = s.takeIndex := before.get .takeIndex hf.2
  have nextIndexKept : t.takeIndex = v.takeIndex := after.get .takeIndex hg.2.1
  have waitingKept : t.testWaiting = v.testWaiting := after.get .testWaiting hg.2.2
  unfold SlotPassed at passed ⊢
  simpa only [sameIndex, nextIndexKept, waitingKept, before.shadow hf.1, after.shadow hg.1] using passed

/-! ## The disposition -/

/-- An entry placed behind the others is news unless it is the status entry. -/
theorem pushEntry_news {e : WriterEntry} (notStatus : e.isStatus = false) (s : State) :
    (s.pushEntry e).newsEntries = s.newsEntries ++ [e] := by
  unfold State.newsEntries
  rw [State.pushEntry_writerQueue, List.filter_append, List.filter_singleton, notStatus]
  rfl

theorem dispose_news (a : Anchor) (d : Disposition) (s : State) :
    (dispose a d s).newsEntries = s.newsEntries ++ [.disposition s.takeIndex d false] :=
  ((passSlot_only a _).get .news rfl).trans (pushEntry_news rfl s)

/-- What a take does before its disposition, and the end of its event, leave `Disposed` as the disposition makes it; the records queued
ahead of the disposition are the ones the take has queued by then. -/
theorem finish_dispose_disposed {fs : List Field} {a : Anchor} {s u : State} {records : List WriterEntry} (d : Disposition)
    (effect : OnlyChanges fs s u) (hf : decide (Field.shadows ∈ fs) = false ∧ decide (Field.takeIndex ∈ fs) = false)
    (queued : u.newsEntries = s.newsEntries ++ records) : Disposed a records d s (finish s (dispose a d u)) := by
  have sameIndex : u.takeIndex = s.takeIndex := effect.get .takeIndex hf.2
  have atEntry : OnlyChanges (fs ++ [.news, .writerQueue]) s (u.pushEntry (.disposition u.takeIndex d false)) :=
    (effect.weaken fun _ => List.mem_append_left _).trans
      ((pushEntry_only _ u).weaken fun _ => List.mem_append_right _)
  refine ⟨?news, ?passed⟩
  case news => rw [finish_news, dispose_news, queued, sameIndex]
  case passed =>
    exact (passSlot_slotPassed a _).of_only atEntry (finish_only s _) (by simpa using hf) ⟨rfl, rfl, rfl⟩

end Sys2Proof.Machine
end

section
/-!
PROOFS. SWEEP_CONTROL: what the take of a SEEK sets and what it leaves as it is (R121).
-/

namespace Sys2Proof.Machine

theorem sweeps_of_action {r : Request} {x : Option SweepAction} (kind : r.kind = some .sweepControl) (action : r.action = x) :
    r.sweeps x = true := by
  unfold Request.sweeps
  rw [kind, action, beq_self_eq_true, beq_self_eq_true]
  rfl

theorem setPointer_only (p : Nat) (s : State) : OnlyChanges [.pointer] s { s with pointer := p } := by
  intro f notPointer
  cases f
  case pointer => exact absurd (List.mem_singleton_self _) notPointer
  case mem => exact ⟨rfl, fun _ => rfl⟩
  all_goals rfl

/-- The state after the SEEK of an installed line: the pointer at the line, the disposition DONE, and the end of the event. -/
def afterSeek (a : Anchor) (r : Request) (s : State) : State := finish s (dispose a .done { s with pointer := r.line.val })

theorem exec_sweepSeek_of_takes {s : State} {a : Anchor} {r : Request} (taken : Takes s a r) (kind : r.kind = some .sweepControl)
    (action : r.action = some .seek) (installed : r.targetInstalled a = true) : exec .sweepSeek s = .next (afterSeek a r s) := by
  have effect : takeSeek a r s = dispose a .done { s with pointer := r.line.val } :=
    if_pos ((installed_line_of_takes taken).trans installed)
  calc exec .sweepSeek s
      = .next (takeIf s (Request.sweeps (some .seek)) takeSeek) := rfl
    _ = .next (finish s (takeSeek a r s)) := by rw [takeIf_of_takes taken (sweeps_of_action kind action)]
    _ = .next (afterSeek a r s) := by rw [effect, afterSeek]

theorem afterSeek_pointer (a : Anchor) (r : Request) (s : State) : (afterSeek a r s).pointer = r.target % 4096 :=
  (finish_pointer s _).trans ((dispose_only a .done _).get .pointer rfl)

theorem afterSeek_only (a : Anchor) (r : Request) (s : State) :
    OnlyChanges [.pointer, .news, .writerQueue, .shadows, .takeIndex, .testWaiting, .readHold] s (afterSeek a r s) :=
  ((setPointer_only _ s).comp (dispose_only a .done _)
    (hs := [.pointer, .news, .writerQueue, .shadows, .takeIndex, .testWaiting]) rfl).comp (finish_only s _) rfl

theorem afterSeek_disposed (a : Anchor) (r : Request) (s : State) : Disposed a [] .done s (afterSeek a r s) :=
  finish_dispose_disposed .done (setPointer_only _ s) ⟨rfl, rfl⟩ (List.append_nil _).symm

/-- Settles O37: a SEEK ends in `afterSeek`, whose frame holds the sweep state, the epoch, the focus list and the pacing timer. -/
theorem sweepSeeks : Obligations.SweepSeeks := by
  intro s a r taken kind action installed
  have frame := afterSeek_only a r s
  exact ⟨afterSeek a r s, exec_sweepSeek_of_takes taken kind action installed, afterSeek_pointer a r s, frame.get .sweep rfl,
    frame.get .epoch rfl, frame.get .focus rfl, frame.get .pacing rfl, afterSeek_disposed a r s, frame⟩

end Sys2Proof.Machine
end

section
/-!
PROOFS. The law of alarm flags, counters and focus (R146, R147): what it asks of one record, and that an event which leaves the anchor,
the group records and the focus list alone keeps it.
-/

namespace Sys2Proof.Machine

/-! ## One record -/

/-- What the law asks of a group record under a threshold: the counter is at most the threshold and the alarm flag is set exactly when
it equals it. -/
def GroupRecord.LawfulAt (threshold : Nat) (r : GroupRecord) : Prop :=
  r.counter ≤ threshold ∧ (r.alarm = true ↔ r.counter = threshold)

/-- No threshold in force is 0 (R171), so a zero record is never alarmed. -/
theorem GroupRecord.zero_lawfulAt {n : Nat} (pos : 1 ≤ n) : GroupRecord.zero.LawfulAt n := by
  simp only [LawfulAt, zero, Bool.false_eq_true, false_iff]
  omega

theorem GroupRecord.alarmed_lawfulAt (n : Nat) : LawfulAt n { counter := n, alarm := true } := ⟨le_rfl, by simp⟩

theorem GroupRecord.LawfulAt.counted {n : Nat} {r : GroupRecord} (h : r.LawfulAt n) (below : r.counter + 1 < n) :
    LawfulAt n { r with counter := r.counter + 1 } := by
  obtain ⟨-, alarm⟩ := h
  have unset : ¬ r.alarm = true := fun set => absurd (alarm.mp set) (by omega)
  exact ⟨by simp only; omega, iff_of_false unset (by simp only; omega)⟩

theorem GroupRecord.decay_of_alarm {r : GroupRecord} (set : r.alarm = true) : r.decay = r := if_pos set

theorem GroupRecord.LawfulAt.decay {n : Nat} {r : GroupRecord} (h : r.LawfulAt n) : r.decay.LawfulAt n := by
  by_cases set : r.alarm = true
  · rwa [decay_of_alarm set]
  · obtain ⟨le, alarm⟩ := h
    have below : r.counter ≠ n := mt alarm.mpr set
    have decayed : r.decay = { r with counter := r.counter - 1 } := if_neg set
    rw [decayed]
    exact ⟨by simp only; omega, iff_of_false set (by simp only; omega)⟩

/-! ## The law in a state -/

theorem groupsOk_iff_of_anchor {s : State} {a : Anchor} (inForce : s.anchor = some a) :
    GroupsOk s ↔ 1 ≤ a.alarmThreshold ∧ (∀ g, (s.group g).LawfulAt a.alarmThreshold) ∧
      ∀ f ∈ s.focus, (s.group f.group).alarm = true := by
  unfold GroupsOk
  rw [inForce]
  rfl

theorem groupsOk_iff_of_no_anchor {s : State} (none : s.anchor = none) : GroupsOk s ↔ ∀ g, s.group g = GroupRecord.zero := by
  unfold GroupsOk
  rw [none]

/-- The parts of the state that the law reads (`GroupsOk.of_eq`). -/
def groupFields : List Field := [.anchor, .groups, .focus]

section
variable {s t : State} (h : GroupsOk s)
include h

/-- The law reads the anchor, the group records and which groups the focus list names. -/
theorem GroupsOk.of_focus (anchor : t.anchor = s.anchor) (groups : t.groups = s.groups)
    (focus : ∀ f ∈ t.focus, ∃ e ∈ s.focus, e.group = f.group) : GroupsOk t := by
  have group : t.group = s.group := by
    unfold State.group
    rw [groups]
  cases inForce : s.anchor with
  | none =>
    rw [groupsOk_iff_of_no_anchor inForce] at h
    rwa [groupsOk_iff_of_no_anchor (anchor.trans inForce), group]
  | some a =>
    obtain ⟨pos, lawful, alarmed⟩ := (groupsOk_iff_of_anchor inForce).mp h
    rw [groupsOk_iff_of_anchor (anchor.trans inForce), group]
    refine ⟨pos, lawful, fun f hf => ?_⟩
    obtain ⟨e, he, same⟩ := focus f hf
    exact same ▸ alarmed e he

theorem GroupsOk.of_eq (anchor : t.anchor = s.anchor) (groups : t.groups = s.groups) (focus : t.focus = s.focus) : GroupsOk t :=
  h.of_focus anchor groups fun f hf => ⟨f, focus ▸ hf, rfl⟩

/-- An event whose frame names neither the anchor nor the group records nor the focus list keeps the law. -/
theorem GroupsOk.frame {fs : List Field} (only : OnlyChanges fs s t)
    (apart : (groupFields.all fun f => decide (f ∉ fs)) = true) : GroupsOk t := by
  have kept (f : Field) (read : f ∈ groupFields) : f.same s t := only f (of_decide_eq_true (List.all_eq_true.mp apart f read))
  exact h.of_eq (kept .anchor (by simp [groupFields])) (kept .groups (by simp [groupFields])) (kept .focus (by simp [groupFields]))

theorem GroupsOk.after_finish (before : State) : GroupsOk (finish before s) := h.frame (finish_only before s) rfl

theorem GroupsOk.after_foldl {α : Type} {act : State → α → State} (keeps : ∀ u x, GroupsOk u → GroupsOk (act u x)) (l : List α) :
    GroupsOk (l.foldl act s) := by
  induction l generalizing s with
  | nil => exact h
  | cons x l ih => exact ih (keeps s x h)

end

end Sys2Proof.Machine
end

section
/-!
PROOFS. The operations of the Group Counters keep the law (R148, R149, R151, R153, R154, R155): counting a line, decay, clearing, and
the focus list's advance (R115).
-/

namespace Sys2Proof.Machine

section
variable {s t : State} {a : Anchor} {g : GroupNo}

/-- One record changes, to a lawful one. The focus list may name its group only if its alarm is set, and beside it nothing new. -/
theorem GroupsOk.of_record (h : GroupsOk s) (inForce : s.anchor = some a) (anchor : t.anchor = s.anchor)
    (others : ∀ x, x ≠ g → t.group x = s.group x) (lawful : (t.group g).LawfulAt a.alarmThreshold)
    (focus : ∀ f ∈ t.focus, (f.group = g → (t.group g).alarm = true) ∧ (f.group ≠ g → f ∈ s.focus)) : GroupsOk t := by
  obtain ⟨pos, rest, alarmed⟩ := (groupsOk_iff_of_anchor inForce).mp h
  refine (groupsOk_iff_of_anchor (anchor.trans inForce)).mpr ⟨pos, fun x => ?_, fun f hf => ?_⟩
  · by_cases hx : x = g
    · exact hx ▸ lawful
    · exact others x hx ▸ rest x
  · obtain ⟨named, kept⟩ := focus f hf
    by_cases hg : f.group = g
    · exact hg ▸ named hg
    · exact others f.group hg ▸ alarmed f (kept hg)

/-- Where every record is zero and no focus entry is left, the law holds under any threshold but 0. -/
theorem groupsOk_of_zero (zero : ∀ g, s.group g = GroupRecord.zero) (focus : s.focus = [])
    (pos : ∀ a, s.anchor = some a → 1 ≤ a.alarmThreshold) : GroupsOk s := by
  cases inForce : s.anchor with
  | none => exact (groupsOk_iff_of_no_anchor inForce).mpr zero
  | some a =>
    refine (groupsOk_iff_of_anchor inForce).mpr ⟨pos a inForce, fun g => ?_, by simp [focus]⟩
    rw [zero g]
    exact GroupRecord.zero_lawfulAt (pos a inForce)

/-! ## Counting a line (R148, R149) -/

/-- While no anchor is in force there is no threshold for a counter to stay below or to reach. -/
theorem countLine_of_no_anchor (none : s.anchor = none) (l : LineNo) : countLine l s = s := by
  have limit : s.limit Anchor.alarmThreshold = 0 := by
    unfold State.limit
    rw [none]
  unfold countLine
  dsimp only
  rw [limit, if_neg (by omega), if_neg (by omega)]

theorem GroupsOk.of_lineCounted (h : GroupsOk s) (inForce : s.anchor = some a) (counted : LineCounted a g s t) : GroupsOk t := by
  obtain ⟨-, lawful, alarmed⟩ := (groupsOk_iff_of_anchor inForce).mp h
  obtain ⟨others, below, reached, above⟩ := counted
  rcases lt_trichotomy ((s.group g).counter + 1) a.alarmThreshold with lt | eq | gt
  · obtain ⟨record, only⟩ := below lt
    refine h.of_record inForce (only.get .anchor rfl) others (record ▸ (lawful g).counted lt) fun f hf => ?_
    have listed : f ∈ s.focus := only.get .focus rfl ▸ hf
    exact ⟨fun named => record ▸ named ▸ alarmed f listed, fun _ => listed⟩
  · obtain ⟨record, -, -, offered, refused, -, -, only⟩ := reached eq
    refine h.of_record inForce (only.get .anchor rfl) others (record ▸ GroupRecord.alarmed_lawfulAt _) fun f hf => ?_
    refine ⟨fun _ => by rw [record], fun other => ?_⟩
    by_cases room : s.focus.length < 4 ∧ ∀ f ∈ s.focus, f.group ≠ g
    · rw [offered room] at hf
      rcases List.mem_append.mp hf with listed | new
      · exact listed
      · exact absurd (congrArg FocusEntry.group (List.mem_singleton.mp new)) other
    · exact refused room ▸ hf
  · exact h.frame (above gt) rfl

theorem GroupsOk.after_countLine (h : GroupsOk s) (l : LineNo) : GroupsOk (countLine l s) := by
  cases inForce : s.anchor with
  | none => rwa [countLine_of_no_anchor inForce]
  | some a => exact h.of_lineCounted inForce (countLine_counted inForce l)

/-! ## Decay and clearing (R151, R153, R154) -/

theorem decayGroups_view_group (s : State) (g : GroupNo) : (decayGroups s).group g = (s.group g).decay :=
  entry_mapEntries GroupRecord.decay s.groups g

theorem GroupsOk.after_decayGroups (h : GroupsOk s) : GroupsOk (decayGroups s) := by
  cases inForce : s.anchor with
  | none =>
    have zero := (groupsOk_iff_of_no_anchor inForce).mp h
    refine (groupsOk_iff_of_no_anchor (s := decayGroups s) inForce).mpr fun g => ?_
    rw [decayGroups_view_group, zero g]
    rfl
  | some a =>
    obtain ⟨pos, lawful, alarmed⟩ := (groupsOk_iff_of_anchor inForce).mp h
    refine (groupsOk_iff_of_anchor (s := decayGroups s) inForce).mpr ⟨pos, fun g => ?_, fun f hf => ?_⟩
    · rw [decayGroups_view_group]
      exact (lawful g).decay
    · have set := alarmed f hf
      rwa [decayGroups_view_group, GroupRecord.decay_of_alarm set]

theorem clearGroupRecord_view_group (g : GroupNo) (s : State) (x : GroupNo) :
    (clearGroupRecord g s).group x = if g = x then GroupRecord.zero else s.group x :=
  ((unlistAlarm_only g _).group rfl x).trans (State.setGroup_view_group s g _ x)

theorem clearGroupRecord_focus (g : GroupNo) (s : State) :
    (clearGroupRecord g s).focus = s.focus.filter fun f => f.group != g :=
  congrArg (List.filter fun f : FocusEntry => f.group != g) ((unlistAlarm_only g (s.setGroup g GroupRecord.zero)).get .focus rfl)

theorem GroupsOk.after_clearGroupRecord (h : GroupsOk s) (g : GroupNo) : GroupsOk (clearGroupRecord g s) := by
  have anchor : (clearGroupRecord g s).anchor = s.anchor := (clearGroupRecord_only g s).get .anchor rfl
  have cleared : (clearGroupRecord g s).group g = GroupRecord.zero := by rw [clearGroupRecord_view_group, if_pos rfl]
  cases inForce : s.anchor with
  | none =>
    have zero := (groupsOk_iff_of_no_anchor inForce).mp h
    refine (groupsOk_iff_of_no_anchor (anchor.trans inForce)).mpr fun x => ?_
    rw [clearGroupRecord_view_group, zero x, ite_self]
  | some a =>
    have pos := ((groupsOk_iff_of_anchor inForce).mp h).1
    refine h.of_record inForce anchor (fun x other => ?_) (cleared ▸ GroupRecord.zero_lawfulAt pos) fun f hf => ?_
    · rw [clearGroupRecord_view_group, if_neg other.symm]
    · obtain ⟨listed, other⟩ := List.mem_filter.mp (clearGroupRecord_focus g s ▸ hf)
      exact ⟨fun named => absurd named (bne_iff_ne.mp other), fun _ => listed⟩

theorem clearAllGroups_view_group (s : State) (g : GroupNo) : (clearAllGroups s).group g = GroupRecord.zero :=
  entry_replicate GroupRecord.zero g

/-! ## The focus list (R115) -/

/-- The first entry's cursor moves or the entry leaves: no further group is named. -/
theorem GroupsOk.after_advanceFocus (h : GroupsOk s) : GroupsOk (advanceFocus s) := by
  have only := advanceFocus_only s
  refine h.of_focus (only.get .anchor rfl) (only.get .groups rfl) ?_
  cases list : s.focus with
  | nil => simp [advanceFocus, list]
  | cons f fs =>
    rw [advanceFocus_eq list]
    unfold focusAdvanced
    split
    · intro e he
      rcases List.mem_cons.mp he with rfl | listed
      · exact ⟨f, List.mem_cons_self, rfl⟩
      · exact ⟨e, List.mem_cons_of_mem f listed, rfl⟩
    · exact fun e he => ⟨e, List.mem_cons_of_mem f he, rfl⟩

end

end Sys2Proof.Machine
end

section
/-!
PROOFS. The law of groups on the buses and heads: the end of a test, which alone may count a line (R38, R127), and the operations of the
Access Unit and the Head Unit built on it.
-/

namespace Sys2Proof.Machine

section
variable {s : State} (h : GroupsOk s)
include h

/-! ## The end of a test (R38, R127) -/

theorem GroupsOk.after_formLineFault (l : LineNo) (k : FaultKind) (c : TestClass) (rs : StepRecords) :
    GroupsOk (formLineFault l k c rs s) := by
  unfold formLineFault
  split
  · exact h
  · exact ((h.frame (setLine_only l _ s) rfl).after_countLine l).frame (routeTicket_only _ _) rfl

theorem GroupsOk.after_takeVerdict (l : LineNo) (v : Verdict) (c : TestClass) (rs : StepRecords) :
    GroupsOk (takeVerdict l v c rs s) := by
  cases v with
  | pass => exact h.frame (formRestored_only l c rs s) rfl
  | fail k => exact h.after_formLineFault l k c rs
  | hazard => exact h.after_formLineFault l .hazard c rs

theorem GroupsOk.after_handOnVerdict (e : TestEntry) (o : TestOutcome) (rs : StepRecords) : GroupsOk (handOnVerdict e o rs s) := by
  unfold handOnVerdict
  split
  · exact (h.frame (setLine_only e.line _ s) rfl).after_takeVerdict _ _ _ _
  · exact h

theorem GroupsOk.after_endTest (b : BusNo) (o : TestOutcome) (hd : Option HeadNo) (rs : StepRecords) :
    GroupsOk (endTest b o hd rs s) := by
  unfold endTest
  split
  · next e _ =>
    have recorded := h.frame (queueFinal_only b e ((s.bus b).endOutcome o) hd rs s) rfl
    exact ((recorded.after_handOnVerdict e _ rs).frame (dropTest_only b _) rfl).frame (look_only _ _) rfl
  · exact h

theorem GroupsOk.after_endTestEarly (b : BusNo) (o : TestOutcome) : GroupsOk (endTestEarly b o s) := h.after_endTest b o none _

theorem GroupsOk.after_endWaiting (b : BusNo) (o : TestOutcome) : GroupsOk (endWaiting b o s) :=
  ((h.frame (leaveWait_only b s) rfl).after_endTestEarly b o).frame (startRelease_only b _) rfl

theorem GroupsOk.after_cancelOnBus (b : BusNo) : GroupsOk (cancelOnBus b s) := by
  have pending : GroupsOk (setAbort b .cancel s) := h.frame (setAbort_only b .cancel s) rfl
  unfold cancelOnBus
  split
  · exact h
  · cases (s.bus b).state with
    | claiming | seizing => exact pending
    | waitHead => exact h.after_endWaiting b .cancelled
    | measuring => exact pending.frame (abortStep_only b _) rfl
    | idle | held | releasing | faulted => exact h

theorem GroupsOk.after_lossOfLastHead : GroupsOk (lossOfLastHead s) := by
  unfold lossOfLastHead
  split
  · exact h
  · have ended : GroupsOk (s.waitQueue.foldl (fun t b => endWaiting b .noHead t) s) :=
      h.after_foldl (fun _ b hu => hu.after_endWaiting b .noHead) s.waitQueue
    exact ended.frame (foldl_only (fun b u => loseHeadOnBus_only b u) allBuses _) rfl

/-! ## The Access Unit (R26, R27, R28, R32, R33, R34, R35, R40) -/

theorem GroupsOk.after_declineGrant (b : BusNo) (reason : AbortReason) (l : LineNo) (c : ClaimNo) :
    GroupsOk (declineGrant b reason l c s) :=
  ((h.after_endTestEarly b reason.outcome).frame (sendExchange_only _ _) rfl).frame (enterIdle_only b _) rfl

theorem GroupsOk.after_takeGrant (l : LineNo) (c : ClaimNo) : GroupsOk (takeGrant l c s) := by
  unfold takeGrant
  split
  · exact h.frame (sendExchange_only _ s) rfl
  · split
    · split
      · exact (h.frame (sendMatrix_only _ s) rfl).frame (setBus_only _ _ _) rfl
      · exact h.after_declineGrant _ _ l c
    · exact h

theorem GroupsOk.after_takeDeny (l : LineNo) (c : ClaimNo) (reason : DenyReason) : GroupsOk (takeDeny l c reason s) := by
  unfold takeDeny
  split
  · exact h
  · split
    · exact ((h.after_endTestEarly _ .claimDenied).frame (enterIdle_only _ _) rfl).frame (setLine_only l _ _) rfl
    · exact h

theorem GroupsOk.after_yieldBus (b : BusNo) (l : LineNo) : GroupsOk (yieldBus b l s) := by
  have recalled : GroupsOk (setYield l (setAbort b .recall s)) :=
    (h.frame (setAbort_only b .recall s) rfl).frame (setLine_only l _ _) rfl
  unfold yieldBus
  cases (s.bus b).state with
  | seizing => exact recalled
  | waitHead => exact (h.frame (setLine_only l _ s) rfl).after_endWaiting b .recalled
  | measuring => exact recalled.frame (abortStep_only b _) rfl
  | held => exact (h.frame (startRelease_only b s) rfl).frame (raiseFlag_only .holdEnd _) rfl
  | idle | claiming | releasing | faulted => exact h

theorem GroupsOk.after_recallBus (b : BusNo) (l : LineNo) (c : ClaimNo) : GroupsOk (recallBus b l c s) := by
  have kept : GroupsOk (s.sendExchange (.keep l c)) := h.frame (sendExchange_only _ s) rfl
  have busy : GroupsOk (if (s.bus b).abort.isSome then s else if (s.bus b).forced then s.sendExchange (.keep l c)
      else yieldBus b l s) := by
    split
    · exact h
    · split
      · exact kept
      · exact h.after_yieldBus b l
  unfold recallBus
  cases (s.bus b).state with
  | idle | claiming | releasing => exact h
  | faulted => exact kept
  | seizing | waitHead | measuring | held => exact busy

theorem GroupsOk.after_takeRecall (l : LineNo) (c : ClaimNo) : GroupsOk (takeRecall l c s) := by
  unfold takeRecall
  split
  · exact h
  · exact h.after_recallBus _ l c

theorem GroupsOk.after_settleBus (b : BusNo) : GroupsOk (settleBus b s) := by
  unfold settleBus
  split
  · exact (h.frame (setBus_only b _ s) rfl).frame (joinWait_only b _) rfl
  · exact (h.after_endTestEarly b _).frame (startRelease_only b _) rfl

theorem GroupsOk.after_failSeizure (b : BusNo) (elapsed : Nat) : GroupsOk (failSeizure b elapsed s) := by
  have released := (h.after_endTestEarly b .xpFault).frame (startRelease_only b _) rfl
  exact (released.frame (raiseFlag_only .bus _) rfl).frame (equipmentEvent_only _ _ _) rfl

theorem GroupsOk.after_releaseBus (b : BusNo) : GroupsOk (releaseBus b s) := by
  unfold releaseBus
  split
  · exact (h.frame (sendExchange_only _ s) rfl).frame (enterIdle_only b _) rfl
  · exact h.frame (enterIdle_only b s) rfl

theorem GroupsOk.after_failRelease (b : BusNo) (cause : FaultCause) (elapsed : Nat) : GroupsOk (failRelease b cause elapsed s) :=
  ((h.frame (setBus_only b _ s) rfl).frame (raiseFlag_only .bus _) rfl).frame (equipmentEvent_only _ _ _) rfl

theorem GroupsOk.after_claimTimeout (b : BusNo) : GroupsOk (claimTimeout b s) := by
  have idle := (h.after_endTestEarly b .claimTimeout).frame (enterIdle_only b _) rfl
  exact (idle.frame (raiseFlag_only .link _) rfl).frame (equipmentEvent_only _ _ _) rfl

/-! ## The Head Unit (R58, R63, R67, R68, R69, R74) -/

theorem GroupsOk.after_grantHead (hd : HeadNo) (b : BusNo) (rest : List BusNo) : GroupsOk (grantHead hd b rest s) := by
  have left : GroupsOk { s with waitQueue := rest } := h.of_eq rfl rfl rfl
  have measuring := left.frame (setBus_only b { s.bus b with state := .measuring, timer := none } _) rfl
  unfold grantHead
  dsimp only
  split
  · next e _ =>
    have programmed := measuring.frame (setProgram_only b (some (buildProgram e)) _) rfl
    split
    · exact programmed.frame (startStep_only hd b _ _) rfl
    · exact programmed
  · exact measuring

theorem GroupsOk.after_completeTest (hd : HeadNo) (b : BusNo) (v : Verdict) (rs : StepRecords) :
    GroupsOk (completeTest hd b v rs s) := by
  have ended := (h.frame (freeHead_only hd s) rfl).after_endTest b (.completed v) (some hd) rs
  unfold completeTest
  dsimp only
  split
  · exact ended.frame (holdBus_only b _) rfl
  · exact ended.frame (startRelease_only b _) rfl

theorem GroupsOk.after_advanceProgram (hd : HeadNo) (b : BusNo) (p : StepProgram) (rs : StepRecords) :
    GroupsOk (advanceProgram hd b p rs s) := by
  unfold advanceProgram
  split
  · exact (h.frame (setProgram_only b _ s) rfl).frame (startStep_only hd b _ _) rfl
  · exact h.after_completeTest hd b _ rs

theorem GroupsOk.after_takeReading (hd : HeadNo) (b : BusNo) (k : StepKind) (p : StepProgram) (a : Anchor) (st : ReadingStatus)
    (v : BitVec 16) : GroupsOk (takeReading hd b k p a st v s) := by
  unfold takeReading
  dsimp only
  split
  · exact (h.after_completeTest hd b .hazard _).frame (raiseFlag_only .hazard _) rfl
  · exact h.after_advanceProgram hd b p _

theorem GroupsOk.after_endAbort (hd : HeadNo) : GroupsOk (endAbort hd s) := by
  have freed : GroupsOk (freeHead hd s) := h.frame (freeHead_only hd s) rfl
  unfold endAbort
  split
  · exact (freed.after_endTest _ .cancelled (some hd) _).frame (startRelease_only _ _) rfl
  · exact freed

theorem GroupsOk.after_readHead (hd : HeadNo) (st : ReadingStatus) (v : BitVec 16) : GroupsOk (readHead hd st v s) := by
  unfold readHead
  split
  · split
    · split
      · exact h.after_takeReading hd _ _ _ _ st v
      · exact h
    · exact h
  · exact h.after_endAbort hd
  all_goals exact h

theorem GroupsOk.after_endFailedTest (hd : HeadNo) (o : TestOutcome) : GroupsOk (endFailedTest hd o s) := by
  have suspected : GroupsOk (suspectHead hd s) := h.frame (suspectHead_only hd s) rfl
  unfold endFailedTest
  split
  · exact (suspected.after_endTest _ o (some hd) _).frame (startRelease_only _ _) rfl
  · exact suspected

theorem GroupsOk.after_failHead (hd : HeadNo) (kind : TicketKind) (o : TestOutcome) (elapsed : Nat) :
    GroupsOk (failHead hd kind o elapsed s) := by
  have ticketed := (h.after_endFailedTest hd o).frame (equipmentEvent_only kind (headContext s hd elapsed) _) rfl
  have failed := ticketed.frame (raiseFlag_only .head _) rfl
  unfold failHead
  dsimp only
  split
  · exact failed.after_lossOfLastHead
  · exact failed

end

end Sys2Proof.Machine
end

section
/-!
PROOFS. The law of groups in the sweep, the selection and the intake: a pass end decays the counters (R116), an attempt advances the
focus list (R115), a CLEAR_GROUP clears one record (R153).
-/

namespace Sys2Proof.Machine

section
variable {s : State} (h : GroupsOk s)
include h

/-! ## The selection (R23, R47, R91) -/

theorem GroupsOk.after_giveToIdle (b : BusNo) (e : TestEntry) (rest : List TestEntry) : GroupsOk (giveToIdle b e rest s) := by
  have claimed := (h.frame (leaveQueue_only rest s) rfl).frame (sendExchange_only (.claim e.line s.claimCounter e.force) _) rfl
  have numbered : GroupsOk
      { (leaveQueue rest s).sendExchange (.claim e.line s.claimCounter e.force) with claimCounter := s.claimCounter + 1 } :=
    claimed.of_eq rfl rfl rfl
  exact ((numbered.frame (setOccupying_only e.line (some b) _) rfl).frame (setBus_only b _ _) rfl).frame (look_only true _) rfl

theorem GroupsOk.after_giveToHeld (b : BusNo) (e : TestEntry) (rest : List TestEntry) : GroupsOk (giveToHeld b e rest s) :=
  ((h.frame (leaveQueue_only rest s) rfl).frame (setBus_only b _ _) rfl).frame (joinWait_only b _) rfl

theorem GroupsOk.after_skipEntry (e : TestEntry) (rest : List TestEntry) : GroupsOk (skipEntry e rest s) :=
  (h.frame (leaveQueue_only rest s) rfl).frame (standingLoopCheck_only e.line _) rfl

/-! ## The sweep (R106–R111, R115, R116) -/

theorem GroupsOk.after_passEnd : GroupsOk (passEnd s) := by
  have nextEpoch : GroupsOk { s with epoch := s.epoch + 1 } := h.of_eq rfl rfl rfl
  have closed := nextEpoch.after_decayGroups.frame (closeRegister_only _) rfl
  exact (closed.frame (raiseFlag_only .passEnd _) rfl).frame (passStart_only _) rfl

theorem GroupsOk.after_advancePointer : GroupsOk (advancePointer s) := by
  unfold advancePointer
  split
  · exact h.after_passEnd
  · exact h.of_eq rfl rfl rfl

theorem GroupsOk.after_walk (a : Anchor) (n : Nat) : GroupsOk (walk a n s) := by
  induction n generalizing s with
  | zero => exact h
  | succ n ih =>
    have visited (l : LineNo) : GroupsOk (issueVisit a l s) := h.frame (issueVisit_only a l s) rfl
    have skipped (l : LineNo) : GroupsOk (standingLoopCheck l s) := h.frame (standingLoopCheck_only l s) rfl
    unfold walk
    split
    · split
      · exact (visited _).after_advanceFocus
      · exact ih (skipped _).after_advanceFocus
    · split
      · exact (visited _).after_advancePointer
      · split
        · exact (skipped _).after_passEnd
        · exact ih (skipped _).after_advancePointer

theorem GroupsOk.after_issueAttempt (a : Anchor) : GroupsOk (issueAttempt a s) :=
  (h.after_walk a walkBound).of_eq rfl rfl rfl

/-! ## The intake (R84, R93, R97, R152) -/

theorem GroupsOk.after_dispose (a : Anchor) (d : Disposition) : GroupsOk (dispose a d s) := h.frame (dispose_only a d s) rfl

theorem GroupsOk.after_takeIf (p : Request → Bool) {act : Anchor → Request → State → State}
    (taken : ∀ a r, GroupsOk (act a r s)) : GroupsOk (takeIf s p act) := by
  unfold takeIf
  split
  · split
    · exact (taken _ _).after_finish s
    · exact h
  · exact h

theorem GroupsOk.after_answerTest (a : Anchor) (r : Request) (merged : Bool) (q : List TestEntry) :
    GroupsOk (answerTest a r merged q s) := by
  have queued : GroupsOk { s with queue := q } := h.of_eq rfl rfl rfl
  exact ((queued.frame (look_only true _) rfl).frame (pushEntry_only _ _) rfl).after_dispose a _

theorem GroupsOk.after_takeTest (a : Anchor) (r : Request) : GroupsOk (takeTest a r s) := by
  unfold takeTest
  split
  · exact h.after_dispose a _
  · split
    · exact h.after_answerTest a r true _
    · split
      · exact h.after_answerTest a r false _
      · exact h.of_eq rfl rfl rfl

theorem GroupsOk.after_cancelTestOnBus (a : Anchor) (b : BusNo) (e : TestEntry) (m : SlotMember) :
    GroupsOk (cancelTestOnBus a b e m s) := by
  unfold cancelTestOnBus
  dsimp only
  split
  · exact (h.after_dispose a .done).after_cancelOnBus b
  · exact ((h.frame (setBus_only b _ s) rfl).frame (pushEntry_only _ _) rfl).after_dispose a .done

theorem GroupsOk.after_cancelElsewhere (a : Anchor) (slot : Nat) : GroupsOk (cancelElsewhere a slot s) := by
  have notFound : GroupsOk (dispose a .refusedNotFound s) := h.after_dispose a _
  unfold cancelElsewhere
  split
  · exact notFound
  · split
    · exact notFound
    · split
      · exact notFound
      · exact h.after_cancelTestOnBus a _ _ _

theorem GroupsOk.after_takeCancel (a : Anchor) (r : Request) : GroupsOk (takeCancel a r s) := by
  unfold takeCancel
  split
  · exact h.after_dispose a _
  · split
    · exact ((h.frame (cancelledQueue_only _ s) rfl).frame (pushEntry_only _ _) rfl).after_dispose a .done
    · exact h.after_cancelElsewhere a _

theorem GroupsOk.after_takeFence (a : Anchor) (r : Request) : GroupsOk (takeFence a r s) := by
  have fenced : GroupsOk { passSlot a s with fence := some s.takeIndex } := h.of_eq rfl rfl rfl
  exact fenced.frame (closeRegister_only _) rfl

theorem GroupsOk.after_takeReleaseHold (a : Anchor) (r : Request) : GroupsOk (takeReleaseHold a r s) := by
  unfold takeReleaseHold
  split
  · exact h.after_dispose a _
  · split
    · exact h.after_dispose a _
    · split
      · exact (h.frame (startRelease_only _ s) rfl).after_dispose a .done
      · split
        · exact (h.frame (setBus_only _ _ s) rfl).after_dispose a .done
        · exact h.after_dispose a _

theorem GroupsOk.after_takeBusReset (a : Anchor) (r : Request) : GroupsOk (takeBusReset a r s) := by
  unfold takeBusReset
  split
  · dsimp only
    split
    · exact (h.frame (startRelease_only _ s) rfl).after_dispose a .done
    · exact h.after_dispose a _
  · exact h.after_dispose a _

theorem GroupsOk.after_takeHeadReset (a : Anchor) (r : Request) : GroupsOk (takeHeadReset a r s) := by
  unfold takeHeadReset
  split
  · dsimp only
    split
    · exact (h.frame (startClear_only _ s) rfl).after_dispose a .accepted
    · exact h.after_dispose a _
  · exact h.after_dispose a _

theorem GroupsOk.after_takeRestart (a : Anchor) (r : Request) : GroupsOk (takeRestart a r s) := by
  have running : GroupsOk { passStart s with sweep := .running } := h.of_eq rfl rfl rfl
  exact running.after_dispose a .done

theorem GroupsOk.after_takeSeek (a : Anchor) (r : Request) : GroupsOk (takeSeek a r s) := by
  unfold takeSeek
  split
  · exact (h.frame (setPointer_only _ s) rfl).after_dispose a .done
  · exact h.after_dispose a _

theorem GroupsOk.after_takeClearGroup (a : Anchor) (r : Request) : GroupsOk (takeClearGroup a r s) := by
  unfold takeClearGroup
  split
  · dsimp only
    split
    · exact (h.after_clearGroupRecord _).after_dispose a .done
    · exact h.after_dispose a _
  · exact h.after_dispose a _

theorem GroupsOk.after_takeLineQuery (a : Anchor) (r : Request) : GroupsOk (takeLineQuery a r s) := by
  unfold takeLineQuery
  split
  · exact h.after_dispose a _
  · exact (h.frame (pushEntry_only _ s) rfl).after_dispose a .done

end

end Sys2Proof.Machine
end

section
/-!
PROOFS. The law of groups at a commit, on the memory path and at a reset: an accepted attempt puts a threshold in force and clears every
record with it (R155, R171, R174), a reset takes the anchor and the records away (R154).
-/

namespace Sys2Proof.Machine

/-! ## A commit attempt (R171, R173, R174) -/

/-- An attempt is accepted only where every setting is in its range, the alarm threshold among them. -/
theorem rangeOk_of_validate {a : Anchor} {s : State} (accepted : validate a s = .accepted) : a.rangeOk = true := by
  by_contra bad
  have refused : validate a s = .refusedRange := if_pos (by simpa using bad)
  rw [refused] at accepted
  cases accepted

theorem alarmThreshold_pos_of_rangeOk {a : Anchor} (ok : a.rangeOk = true) : 1 ≤ a.alarmThreshold := by
  obtain ⟨-, -, -, -, -, -, -, -, ⟨pos, -⟩, -⟩ := (rangeOk_iff a).mp ok
  exact pos

theorem groupsOk_acceptCommit {a : Anchor} (ok : a.rangeOk = true) (s : State) : GroupsOk (acceptCommit a s) := by
  unfold acceptCommit
  refine (groupsOk_of_zero (clearAllGroups_view_group _) rfl fun x inForce => ?_).frame (raiseFlag_only .commit _) rfl
  obtain rfl : a = x := Option.some.inj inForce
  exact alarmThreshold_pos_of_rangeOk ok

section
variable {s : State} (h : GroupsOk s)
include h

theorem GroupsOk.after_commitAttempt (data : Word) : GroupsOk (commitAttempt data s) := by
  have closed : GroupsOk (closeRegister s) := h.frame (closeRegister_only s) rfl
  have refused (c : CommitRecord) : GroupsOk ((refuseCommit c (closeRegister s)).markDirty (some c)) :=
    (closed.frame (refuseCommit_only c _) rfl).frame (markDirty_only _ _) rfl
  unfold commitAttempt
  dsimp only
  split
  next accepted => exact (groupsOk_acceptCommit (rangeOk_of_validate accepted) _).frame (markDirty_only _ _) rfl
  all_goals exact refused _

/-! ## Host accesses (R156, R158) -/

theorem GroupsOk.after_writeAnchorBlock (i : Fin 32) (data : Word) (be : BitVec 4) : GroupsOk (writeAnchorBlock i data be s) := by
  have staged : GroupsOk (mergeStaging i data be s) := h.frame (mergeStaging_only i data be s) rfl
  unfold writeAnchorBlock
  dsimp only
  split
  · exact staged.after_commitAttempt data
  · exact staged

theorem GroupsOk.after_handToOwner (w : Nat) (data : Word) (be : BitVec 4) : GroupsOk (handToOwner w data be s) := by
  unfold handToOwner
  split
  · exact h.after_writeAnchorBlock _ data be
  · split
    · exact h
    · split
      · exact h.frame (writeShadow_only _ _ data be s) rfl
      · split
        · exact h.frame (writeStatusBlock_only _ w data be s) rfl
        · exact h

theorem GroupsOk.after_performWrite (addr : HostAddr) (data : Word) (be : BitVec 4) (rest : List HostAccess) :
    GroupsOk (performWrite addr data be rest s) := by
  have stored : GroupsOk (endAccess rest { s with path := .host, mem := Memory.writeLanes s.mem (wordAddr addr) data be }) :=
    h.of_eq rfl rfl rfl
  exact (stored.after_handToOwner _ data be).after_finish _

theorem GroupsOk.after_serveHost (n : Nat) : GroupsOk (serveHost n s) := by
  induction n generalizing s with
  | zero => exact h
  | succ n ih =>
    unfold serveHost
    split
    · exact h
    · split
      · exact ih (h.after_performWrite _ _ _ _)
      · exact h
    · split
      · exact h.of_eq rfl rfl rfl
      · split
        · exact ih (h.of_eq rfl rfl rfl)
        · exact h.of_eq rfl rfl rfl

theorem GroupsOk.after_serveAll : GroupsOk (serveAll s) := h.after_serveHost _

theorem GroupsOk.after_present (x : HostAccess) : GroupsOk (present x s) := by
  unfold present
  split
  · have presented : GroupsOk { s with hostAccesses := [x] } := h.of_eq rfl rfl rfl
    exact presented.after_serveAll
  · exact h.of_eq rfl rfl rfl

/-! ## The writer (R162) -/

theorem GroupsOk.after_entryWritten (fs : List Flag) : GroupsOk (entryWritten fs s) := by
  unfold entryWritten
  split
  · exact h
  · exact h.of_eq rfl rfl rfl
  next e es _ _ =>
    have left : GroupsOk { s with writerQueue := es } := h.of_eq rfl rfl rfl
    have news := left.frame (performed_only e fs _) rfl
    dsimp only
    split
    · exact news.frame (retestWaiting_only true _) rfl
    · exact news

theorem GroupsOk.after_writeRecord (t : Transfer) : GroupsOk (writeRecord t s) := by
  have stored : GroupsOk { s with mem := Memory.writeWords s.mem t.words, path := .free } := h.of_eq rfl rfl rfl
  exact (stored.after_entryWritten t.flags).frame (resetStarvation_only _) rfl

end

/-! ## Resets (R154) -/

theorem groupsOk_resetShared (s : State) : GroupsOk (resetShared s) :=
  (groupsOk_iff_of_no_anchor (s := resetShared s) rfl).mpr fun g => entry_replicate GroupRecord.zero g

theorem groupsOk_coldReset (s : State) : GroupsOk (coldReset s) := (groupsOk_resetShared s).of_eq rfl rfl rfl

theorem groupsOk_warmReset (s : State) : GroupsOk (warmReset s) := (groupsOk_resetShared s).of_eq rfl rfl rfl

end Sys2Proof.Machine
end

section
/-!
PROOFS. The law of groups at every step (R147): command by command, and on an empty queue.
-/

namespace Sys2Proof.Machine

/-- Whatever state an outcome answers, the law holds in it. -/
def AnswersGroupsOk (o : Host.Outcome State Fault Refusal) : Prop := ∀ t, o = .next t → GroupsOk t

theorem GroupsOk.answered {t : State} (h : GroupsOk t) : AnswersGroupsOk (.next t) := by
  intro u same
  obtain rfl : t = u := Host.Outcome.next.inj same
  exact h

/-- An event that comes about under a condition; where it does not, another state is answered. -/
theorem GroupsOk.answered_ite {c : Prop} [Decidable c] {before u v : State} (taken : GroupsOk u) (other : GroupsOk v) :
    AnswersGroupsOk (if c then .next (finish before u) else .next v) := by
  split
  · exact (taken.after_finish before).answered
  · exact other.answered

section
variable {s : State} (h : GroupsOk s)
include h

/-! ## The exchange link -/

theorem GroupsOk.answered_state (l : LineNo) (reported : Option Reported) : AnswersGroupsOk (execState l reported s) := by
  cases reported with
  | none => exact h.answered
  | some v => exact (h.frame (afterState_only l v s) rfl).answered

theorem GroupsOk.answered_grant (l : LineNo) (c : ClaimNo) : AnswersGroupsOk (execGrant l c s) :=
  (((h.frame (heardAnswer_only l c s) rfl).after_takeGrant l c).after_finish s).answered

theorem GroupsOk.answered_deny (l : LineNo) (c : ClaimNo) (reason : Option DenyReason) : AnswersGroupsOk (execDeny l c reason s) := by
  cases reason with
  | none => exact h.answered
  | some r => exact (((h.frame (heardAnswer_only l c s) rfl).after_takeDeny l c r).after_finish s).answered

theorem GroupsOk.answered_recall (l : LineNo) (c : ClaimNo) : AnswersGroupsOk (execRecall l c s) :=
  (((h.frame (heardAnswer_only l c s) rfl).after_takeRecall l c).after_finish s).answered

theorem GroupsOk.after_endResync : GroupsOk (endResync s) := by
  have resynced : GroupsOk { s.mapLines LineRecord.resynced with resyncPending := false } := h.of_eq rfl rfl rfl
  exact (resynced.frame (look_only true _) rfl).frame (raiseFlag_only .link _) rfl

theorem GroupsOk.answered_resyncEnd : AnswersGroupsOk (execResyncEnd s) := by
  have heard := h.frame (heardResyncEnd_only s) rfl
  exact heard.after_endResync.answered_ite heard

/-! ## The matrix link and the bus timers -/

theorem GroupsOk.answered_settled (bus : Nat) : AnswersGroupsOk (execSettled bus s) := by
  unfold execSettled
  split
  · next inRange =>
    have heard := h.frame (heardSettled_only ⟨bus, inRange⟩ s) rfl
    exact (heard.after_settleBus _).answered_ite heard
  · exact h.answered

theorem GroupsOk.answered_opened (bus : Nat) : AnswersGroupsOk (execOpened bus s) := by
  unfold execOpened
  split
  · next inRange =>
    have heard := h.frame (heardOpened_only ⟨bus, inRange⟩ s) rfl
    exact (heard.after_releaseBus _).answered_ite heard
  · exact h.answered

theorem GroupsOk.answered_xpFault (bus : Nat) : AnswersGroupsOk (execXpFault bus s) := by
  unfold execXpFault
  split
  · next inRange =>
    have heard := h.frame (heardXpFault_only ⟨bus, inRange⟩ s) rfl
    dsimp only
    split
    · exact ((heard.after_failSeizure _ _).after_finish s).answered
    · exact (heard.after_failRelease _ _ _).answered_ite heard
  · exact h.answered

theorem GroupsOk.answered_claimTimerExpiry (b : BusNo) : AnswersGroupsOk (execClaimTimerExpiry b s) :=
  (h.after_claimTimeout b).answered_ite h

theorem GroupsOk.answered_settleTimerExpiry (b : BusNo) : AnswersGroupsOk (execSettleTimerExpiry b s) :=
  (h.after_failSeizure b 50).answered_ite h

theorem GroupsOk.answered_openTimerExpiry (b : BusNo) : AnswersGroupsOk (execOpenTimerExpiry b s) :=
  (h.after_failRelease b .timeout 50).answered_ite h

theorem GroupsOk.answered_holdTimerExpiry (b : BusNo) : AnswersGroupsOk (execHoldTimerExpiry b s) :=
  ((h.frame (startRelease_only b s) rfl).frame (raiseFlag_only .holdEnd _) rfl).answered_ite h

/-! ## The head link and the head timers -/

theorem GroupsOk.answered_reading (head : Nat) (status : Option ReadingStatus) (v : BitVec 16) :
    AnswersGroupsOk (execReading head status v s) := by
  unfold execReading
  split
  · next inRange =>
    cases status with
    | none => exact h.answered
    | some r => exact (((h.frame (heardReading_only ⟨head, inRange⟩ s) rfl).after_readHead _ r v).after_finish s).answered
  · exact h.answered

theorem GroupsOk.answered_aborted (head : Nat) : AnswersGroupsOk (execAborted head s) := by
  unfold execAborted
  split
  · next inRange =>
    have heard := h.frame (heardAborted_only ⟨head, inRange⟩ s) rfl
    exact (heard.after_endAbort _).answered_ite heard
  · exact h.answered

theorem GroupsOk.answered_ready (head : Nat) : AnswersGroupsOk (execReady head s) := by
  unfold execReady
  split
  · next inRange =>
    have heard := h.frame (heardReady_only ⟨head, inRange⟩ s) rfl
    have freed := heard.frame (freeHead_only ⟨head, inRange⟩ _) rfl
    exact ((freed.frame (look_only true _) rfl).frame (raiseFlag_only .head _) rfl).answered_ite heard
  · exact h.answered

theorem GroupsOk.answered_headError (head : Nat) : AnswersGroupsOk (execHeadError head s) := by
  unfold execHeadError
  split
  · split
    · exact h.answered
    all_goals exact ((h.after_failHead _ .headError .headError _).after_finish s).answered
  · exact h.answered

theorem GroupsOk.answered_stepWatchdogExpiry (hd : HeadNo) : AnswersGroupsOk (execStepWatchdogExpiry hd s) :=
  (h.after_failHead hd .headTimeout .headTimeout _).answered_ite h

theorem GroupsOk.answered_abortTimerExpiry (hd : HeadNo) : AnswersGroupsOk (execAbortTimerExpiry hd s) :=
  (h.after_failHead hd .headTimeout .headTimeout 100).answered_ite h

theorem GroupsOk.answered_clearTimerExpiry (hd : HeadNo) : AnswersGroupsOk (execClearTimerExpiry hd s) :=
  ((h.frame (suspectHead_only hd s) rfl).frame (raiseFlag_only .head _) rfl).answered_ite h

theorem GroupsOk.answered_headGrant : AnswersGroupsOk (execHeadGrant s) := by
  unfold execHeadGrant
  split
  · exact ((h.after_grantHead _ _ _).after_finish s).answered
  · exact h.answered

/-! ## The Test Queue, the sweep and the tickets -/

theorem GroupsOk.answered_entryToIdleBus : AnswersGroupsOk (execEntryToIdleBus s) := by
  unfold execEntryToIdleBus
  split
  · exact ((h.after_giveToIdle _ _ _).after_finish s).answered
  · exact h.answered

theorem GroupsOk.answered_entryToHeldBus : AnswersGroupsOk (execEntryToHeldBus s) := by
  unfold execEntryToHeldBus
  split
  · exact ((h.after_giveToHeld _ _ _).after_finish s).answered
  · exact h.answered

theorem GroupsOk.answered_sweepEntrySkip : AnswersGroupsOk (execSweepEntrySkip s) := by
  unfold execSweepEntrySkip
  split
  · exact ((h.after_skipEntry _ _).after_finish s).answered
  · exact h.answered

theorem GroupsOk.answered_issueAttempt : AnswersGroupsOk (execIssueAttempt s) := by
  unfold execIssueAttempt
  split
  · exact (h.after_issueAttempt _).answered_ite h
  · exact h.answered

theorem GroupsOk.answered_pacingTimerExpiry : AnswersGroupsOk (execPacingTimerExpiry s) := by
  have expired : GroupsOk { s with pacing := 0 } := h.of_eq rfl rfl rfl
  exact (expired.after_finish s).answered

theorem GroupsOk.answered_coalescingTimerExpiry : AnswersGroupsOk (execCoalescingTimerExpiry s) := by
  unfold execCoalescingTimerExpiry
  split
  · exact ((h.frame (closeRegister_only s) rfl).after_finish s).answered
  · exact h.answered

theorem GroupsOk.answered_ticketMove : AnswersGroupsOk (execTicketMove s) :=
  ((h.frame (moveTicket_only s) rfl).after_finish s).answered

theorem GroupsOk.answered_fenceComplete : AnswersGroupsOk (execFenceComplete s) := by
  unfold execFenceComplete
  split
  · have lifted : GroupsOk { s with fence := none } := h.of_eq rfl rfl rfl
    exact (lifted.frame (pushEntry_only _ _) rfl).answered_ite h
  · exact h.answered

/-! ## The memory path -/

theorem GroupsOk.answered_present (x : HostAccess) : AnswersGroupsOk (.next (present x s)) := (h.after_present x).answered

theorem GroupsOk.answered_resultHoldExpiry : AnswersGroupsOk (execResultHoldExpiry s) := by
  unfold execResultHoldExpiry
  split
  · have spent : GroupsOk { s with readHold := none, resultHoldSpent := true } := h.of_eq rfl rfl rfl
    exact spent.after_serveAll.answered
  all_goals exact h.answered

theorem GroupsOk.answered_writerTakesPath : AnswersGroupsOk (execWriterTakesPath s) := by
  unfold execWriterTakesPath
  split
  · exact (h.frame (takePath_only s) rfl).answered
  · exact h.answered

theorem GroupsOk.answered_starvationCountFull : AnswersGroupsOk (execStarvationCountFull s) := by
  unfold execStarvationCountFull
  split
  · exact (h.frame (takePath_only s) rfl).answered
  · exact h.answered

theorem GroupsOk.answered_recordWritten : AnswersGroupsOk (execRecordWritten s) := by
  unfold execRecordWritten
  split
  · exact ((h.after_writeRecord _).after_finish s).after_serveAll.answered
  all_goals exact h.answered

/-! ## The takes of the intake -/

theorem GroupsOk.answered_takeIf (p : Request → Bool) {act : Anchor → Request → State → State}
    (taken : ∀ a r, GroupsOk (act a r s)) : AnswersGroupsOk (.next (takeIf s p act)) :=
  (h.after_takeIf p taken).answered

theorem GroupsOk.answered_sweepStart : AnswersGroupsOk (execSweepStart s) := by
  have running : GroupsOk { s with sweep := .running } := h.of_eq rfl rfl rfl
  exact h.answered_takeIf _ fun a _ => running.after_dispose a .done

theorem GroupsOk.answered_sweepStop : AnswersGroupsOk (execSweepStop s) := by
  have stopped : GroupsOk { s with sweep := .stopped } := h.of_eq rfl rfl rfl
  exact h.answered_takeIf _ fun a _ => stopped.after_dispose a .done

/-! ## Every command, and the empty queue -/

theorem GroupsOk.answered_exec (c : Instr) : AnswersGroupsOk (exec c s) := by
  match c with
  | .coldReset => exact (groupsOk_coldReset s).after_serveAll.answered
  | .warmReset => exact (groupsOk_warmReset s).after_serveAll.answered
  | .hostWrite addr data be => exact h.answered_present _
  | .hostRead addr be => exact h.answered_present _
  | .postWordPosted addr data => exact h.answered_present _
  | .postWordReturned addr data => exact h.answered_present _
  | .commitAttempt data => exact h.answered_present _
  | .acknowledgement addr data => exact h.answered_present _
  | .consumeIndexWrite addr data => exact h.answered_present _
  | .test => exact h.answered_takeIf _ h.after_takeTest
  | .cancel => exact h.answered_takeIf _ h.after_takeCancel
  | .fence => exact h.answered_takeIf _ h.after_takeFence
  | .releaseHold => exact h.answered_takeIf _ h.after_takeReleaseHold
  | .busReset => exact h.answered_takeIf _ h.after_takeBusReset
  | .headReset => exact h.answered_takeIf _ h.after_takeHeadReset
  | .sweepStart => exact h.answered_sweepStart
  | .sweepStop => exact h.answered_sweepStop
  | .sweepRestart => exact h.answered_takeIf _ h.after_takeRestart
  | .sweepSeek => exact h.answered_takeIf _ h.after_takeSeek
  | .sweepControl => exact h.answered_takeIf _ fun a _ => h.after_dispose a .refusedProgram
  | .clearGroup => exact h.answered_takeIf _ h.after_takeClearGroup
  | .lineQuery => exact h.answered_takeIf _ h.after_takeLineQuery
  | .refusedKind => exact h.answered_takeIf _ fun a _ => h.after_dispose a .refusedKind
  | .fenceComplete => exact h.answered_fenceComplete
  | .state line reported => exact h.answered_state line reported
  | .grant line claim => exact h.answered_grant line claim
  | .deny line claim reason => exact h.answered_deny line claim reason
  | .recall line claim => exact h.answered_recall line claim
  | .resyncEnd => exact h.answered_resyncEnd
  | .settled bus => exact h.answered_settled bus
  | .opened bus => exact h.answered_opened bus
  | .xpFault bus => exact h.answered_xpFault bus
  | .reading head status value => exact h.answered_reading head status value
  | .aborted head => exact h.answered_aborted head
  | .ready head => exact h.answered_ready head
  | .headError head => exact h.answered_headError head
  | .claimTimerExpiry bus => exact h.answered_claimTimerExpiry bus
  | .settleTimerExpiry bus => exact h.answered_settleTimerExpiry bus
  | .openTimerExpiry bus => exact h.answered_openTimerExpiry bus
  | .holdTimerExpiry bus => exact h.answered_holdTimerExpiry bus
  | .stepWatchdogExpiry head => exact h.answered_stepWatchdogExpiry head
  | .abortTimerExpiry head => exact h.answered_abortTimerExpiry head
  | .clearTimerExpiry head => exact h.answered_clearTimerExpiry head
  | .pacingTimerExpiry => exact h.answered_pacingTimerExpiry
  | .coalescingTimerExpiry => exact h.answered_coalescingTimerExpiry
  | .resultHoldExpiry => exact h.answered_resultHoldExpiry
  | .starvationCountFull => exact h.answered_starvationCountFull
  | .entryToIdleBus => exact h.answered_entryToIdleBus
  | .entryToHeldBus => exact h.answered_entryToHeldBus
  | .sweepEntrySkip => exact h.answered_sweepEntrySkip
  | .headGrant => exact h.answered_headGrant
  | .issueAttempt => exact h.answered_issueAttempt
  | .ticketMove => exact h.answered_ticketMove
  | .writerTakesPath => exact h.answered_writerTakesPath
  | .recordWritten => exact h.answered_recordWritten

theorem GroupsOk.after_tick : GroupsOk (tick s) := h.of_eq rfl rfl rfl

theorem GroupsOk.answered_autonomous : AnswersGroupsOk (autonomous s) := by
  unfold autonomous
  split
  · exact h.after_tick.answered
  · exact h.answered_exec _
  · have picked : GroupsOk { s with freeIndex := s.freeIndex + 1 } := h.of_eq rfl rfl rfl
    exact picked.answered_exec _

theorem GroupsOk.answered_step : AnswersGroupsOk (step s) := by
  unfold step
  split
  · next c rest _ =>
    have left : GroupsOk { s with pending := rest } := h.of_eq rfl rfl rfl
    exact left.answered_exec c
  · exact h.answered_autonomous

end

/-- Settles O55: counting, decay, clearing, a commit and a reset each keep the law, and everything else a step is made of leaves the
anchor, the group records and the groups of the focus list alone. -/
theorem groupsKept : Obligations.GroupsKept := fun _ t h taken => h.answered_step t taken

end Sys2Proof.Machine
end

section
/-!
PROOFS. The ATTN level and URGENT (R180): what one flag contributes, and the level on the lines as the greatest of the contributions.
-/

namespace Sys2Proof.Machine

/-! ## The level of a class -/

/-- The level of a class is two bits of the levels word (Table 10-1, word 11). -/
theorem Anchor.level_eq (a : Anchor) (c : Nat) : a.level c = a.levels.toNat / 4 ^ c % 4 := by
  have place : 2 ^ (2 * c) = 4 ^ c := pow_mul 2 2 c
  rw [Anchor.level, Nat.shiftRight_eq_div_pow, place]

theorem Anchor.level_le (a : Anchor) (c : Nat) : a.level c ≤ 3 := Nat.le_of_lt_succ (Nat.mod_lt _ (by decide))

/-! ## What one flag contributes -/

section
variable (s : State) (a : Anchor) {f : Flag}

theorem State.flagLevel_of_counted {c : Nat} (hc : f.cls = some c) (shown : s.flag f = .shown)
    (enabled : a.enables.getLsbD f.position = true) : s.flagLevel a f = a.level c := by
  simp [State.flagLevel, hc, shown, enabled]

/-- A flag of no class, not SHOWN or of a disabled source contributes nothing. -/
theorem State.flagLevel_cases (f : Flag) : s.flagLevel a f = 0 ∨
    ∃ c, f.cls = some c ∧ s.flag f = .shown ∧ a.enables.getLsbD f.position = true ∧ s.flagLevel a f = a.level c := by
  cases hc : f.cls with
  | none => left; simp [State.flagLevel, hc]
  | some c =>
    by_cases counted : s.flag f = .shown ∧ a.enables.getLsbD f.position = true
    · obtain ⟨shown, enabled⟩ := counted
      exact .inr ⟨c, rfl, shown, enabled, s.flagLevel_of_counted a hc shown enabled⟩
    · left; simp [State.flagLevel, hc, counted]

theorem State.flagLevel_le (f : Flag) : s.flagLevel a f ≤ 3 := by
  obtain uncounted | ⟨c, _, _, _, level⟩ := s.flagLevel_cases a f
  · exact uncounted ▸ Nat.zero_le 3
  · exact level ▸ a.level_le c

end

/-! ## The level on the lines -/

theorem mem_allFlags (f : Flag) : f ∈ allFlags := by cases f <;> decide

theorem State.attn_of_no_anchor {s : State} (h : s.anchor = none) : s.attn = 0 := by
  simp [State.attn, h]

section
variable {s : State} {a : Anchor} (h : s.anchor = some a)
include h

theorem State.attn_eq_max : s.attn = (allFlags.map (s.flagLevel a)).max (by simp [allFlags]) := by
  have folded : s.attn = (allFlags.map (s.flagLevel a)).foldl max 0 := by simp only [State.attn, h, List.foldl_map]
  rw [folded, List.foldl_max_eq_max, Nat.zero_max]

theorem State.flagLevel_le_attn (f : Flag) : s.flagLevel a f ≤ s.attn := by
  rw [State.attn_eq_max h]
  exact List.le_max_of_mem (List.mem_map_of_mem (mem_allFlags f))

theorem State.exists_attn_eq_flagLevel : ∃ f, s.attn = s.flagLevel a f := by
  have attained := List.max_mem (l := allFlags.map (s.flagLevel a)) (by simp [allFlags])
  rw [← State.attn_eq_max h] at attained
  obtain ⟨f, _, level⟩ := List.mem_map.mp attained
  exact ⟨f, level.symm⟩

end

/-! ## URGENT -/

theorem State.urgent_iff (s : State) : s.urgent = true ↔ s.flag .hazard = .raised ∨ s.flag .hazard = .shown := by
  unfold State.urgent
  cases s.flag .hazard <;> decide

/-- Settles O51: the level on the lines bounds what every flag contributes and is what one of them contributes, which is 0 or the
level of its class. -/
theorem attentionLevel : Obligations.AttentionLevel := by
  refine fun s => ⟨s.urgent_iff, State.attn_of_no_anchor, fun a h => ?_⟩
  obtain ⟨top, attained⟩ := State.exists_attn_eq_flagLevel h
  refine ⟨fun f c hc shown enabled => ?_, ?_, attained ▸ s.flagLevel_le a top⟩
  · rw [← a.level_eq, ← s.flagLevel_of_counted a hc shown enabled]
    exact State.flagLevel_le_attn h f
  · obtain uncounted | ⟨c, hc, shown, enabled, level⟩ := s.flagLevel_cases a top
    · exact .inl (attained.trans uncounted)
    · exact .inr ⟨top, c, hc, shown, enabled, by rw [attained, level, a.level_eq]⟩

end Sys2Proof.Machine
end

section
/-!
PROOFS. What one step of the part is made of. Every command is a sequence of deeds, each with a footprint (the fields it may change) and
with what the invariants need to know of it. An invariant is kept by a step if it is kept by every deed; the deeds whose footprint the
invariant does not read need no proof of their own.
-/

namespace Sys2Proof.Machine

/-! ## Footprints -/

/-- A footprint names none of the fields that a property reads. -/
def apart (reads fs : List Field) : Bool := reads.all fun f => decide (f ∉ fs)

theorem OnlyChanges.same_of_apart {reads fs : List Field} {s t : State} (only : OnlyChanges fs s t) (h : apart reads fs = true)
    {f : Field} (read : f ∈ reads) : f.same s t :=
  only f (of_decide_eq_true (List.all_eq_true.mp h f read))

/-- The fields no invariant of this text reads, but for the queue of commands. -/
def quietFields : List Field :=
  [.freeIndex, .hostAccesses, .readHold, .resultHoldSpent, .readData, .staging, .lastCommit, .shadows, .takeIndex, .testWaiting,
    .cancelSinceLook, .claimCounter, .resyncPending, .programs, .sweep, .epoch, .pacing, .coalescing, .ticketSeq, .groups,
    .alarmOverflow, .exchangeOut, .matrixOut, .headOut, .begun]

/-- What a reset may change: everything but the queue of commands and the data of the last read. -/
def resetFields : List Field :=
  [.news, .freeIndex, .mem, .path, .writerQueue, .starvation, .hostAccesses, .readHold, .resultHoldSpent, .staging, .anchor, .lastCommit,
    .flags, .shadows, .takeIndex, .testWaiting, .fence, .queue, .cancelSinceLook, .buses, .claimCounter, .resyncPending, .heads,
    .waitQueue, .programs, .lines, .sweep, .pointer, .epoch, .pacing, .focus, .register, .coalescing, .outbox, .ticketSeq, .produce,
    .consume, .droppedBefore, .droppedTotal, .groups, .alarmList, .alarmOverflow, .exchangeOut, .matrixOut, .headOut, .begun]

/-! ## Deeds beside the buses and the writer -/

/-- The lines of a ticket are in order if those of the open ticket are. -/
def Ticket.OkAfter (s : State) (k : Ticket) : Prop := (∀ o, s.register = some o → o.LinesOk) → k.LinesOk

/-- The lists and counts with a capacity stay within it. -/
structure CountsKept (s t : State) : Prop where
  alarms : s.alarmList.length ≤ 8 → t.alarmList.length ≤ 8
  focus : s.focus.length ≤ 4 → t.focus.length ≤ 4
  starvation : s.starvation ≤ 16 → t.starvation ≤ 16
  droppedBefore : s.droppedBefore ≤ 255 → t.droppedBefore ≤ 255
  droppedTotal : s.droppedTotal ≤ 65535 → t.droppedTotal ≤ 65535

/-- The deeds that may also stand between two halves of another one: what the Line Table, the flags, the counters and the Ticket Unit do. -/
inductive Aside (s : State) : List Field → State → Prop where
  | quiet {t : State} (only : OnlyChanges quietFields s t) : Aside s quietFields t
  | lines {t : State} (only : OnlyChanges [.lines] s t) (kept : ∀ l, (t.line l).occupying = (s.line l).occupying) : Aside s [.lines] t
  | flags {t : State} (only : OnlyChanges [.flags] s t)
      (clear : s.anchor = none → ∀ f, s.flag f = .clear → t.flag f = .clear) : Aside s [.flags] t
  | counts {t : State} (only : OnlyChanges [.alarmList, .focus, .starvation, .droppedBefore, .droppedTotal] s t)
      (kept : CountsKept s t) : Aside s [.alarmList, .focus, .starvation, .droppedBefore, .droppedTotal] t
  | outbox (q : QueuedTicket) (room : s.outbox.length < 8) (ok : q.ticket.OkAfter s) (used : s.anchor ≠ none ∨ s.register ≠ none) :
      Aside s [.outbox] { s with outbox := s.outbox ++ [q] }
  | register (o : Option Ticket) (ok : ∀ k, o = some k → k.OkAfter s) (used : s.anchor = none → o = none) :
      Aside s [.register] { s with register := o }

/-- The fields such deeds may change. -/
def asideFields : List Field :=
  quietFields ++ [.lines, .flags, .alarmList, .focus, .starvation, .droppedBefore, .droppedTotal, .outbox, .register]

/-- Several such deeds, one after another. -/
def Asides : State → State → Prop := Relation.ReflTransGen fun s t => ∃ fs, Aside s fs t

/-! ## Deeds of the buses, the writer and the path -/

/-- A test entry that has only lost slots. -/
def TestEntry.Shrunk (e x : TestEntry) : Prop := x.slots.Sublist e.slots ∧ x.cls = e.cls ∧ x.mask = e.mask

/-- What a bus record may become while its bus stays in the same phase of its work. -/
structure Bus.Rewritten (r x : Bus) : Prop where
  line : x.line = r.line
  test : (r.test = none ∧ x.test = none) ∨ ∃ e y, r.test = some e ∧ x.test = some y ∧ e.Shrunk y
  phase : x.state = r.state ∨ ((r.state = .claiming ∨ r.state = .seizing) ∧ (x.state = .claiming ∨ x.state = .seizing)) ∨
    ((r.state = .held ∨ r.state = .releasing ∨ r.state = .faulted) ∧ (x.state = .releasing ∨ x.state = .faulted))
  idle : r = Bus.idle → x = r

/-- The head is joined to a bus, in its state (R58). -/
def Head.joined (r : Head) : Prop := r.state = .attached ∨ r.state = .aborting

/-- What the Test Queue may become beside the buses. -/
structure Requeued (s : State) (q : List TestEntry) : Prop where
  used : s.anchor = none → s.queue = [] → q = []
  room : s.queue.length ≤ 16 → q.length ≤ 16
  short : (∀ e ∈ s.queue, e.slots.length ≤ 4) → ∀ e ∈ q, e.slots.length ≤ 4
  masks : (∀ a, s.anchor = some a → a.sweepMask ≠ 0) → (∀ e ∈ s.queue, e.mask ≠ 0) → ∀ e ∈ q, e.mask ≠ 0
  slots : s.inFlight.Nodup → ({ s with queue := q } : State).inFlight.Nodup

/-- A bus is on its way to IDLE, or HELD, with its line kept; or it is IDLE, and its line has no occupying bus. -/
def LineLeft (b : BusNo) (s t : State) : Prop :=
  ((t.bus b).line = (s.bus b).line ∧ ((t.bus b).state = .releasing ∨ (t.bus b).state = .held) ∧
      ∀ l, (t.line l).occupying = (s.line l).occupying) ∨
    (t.bus b = Bus.idle ∧ ∀ l, (t.line l).occupying = if (s.bus b).line = some l then none else (s.line l).occupying)

/-- The final record of the bus's test stands last in the writer, or no slot waits for one (R38). -/
def FinalQueued (b : BusNo) (s t : State) : Prop :=
  ((s.bus b).slots = [] ∧ t.writerQueue = s.writerQueue) ∨
    ((s.bus b).slots ≠ [] ∧ ∃ r, t.writerQueue = s.writerQueue ++ [.bus b r (s.bus b).slots])

/-- Neither the head wait queue nor a head is joined to the bus any more: it was still claiming or seizing; or it has left the queue; or
its head has left it. -/
def Unjoined (b : BusNo) (s t : State) : Prop :=
  (t.heads = s.heads ∧ t.waitQueue = s.waitQueue ∧ ((s.bus b).state = .claiming ∨ (s.bus b).state = .seizing)) ∨
    (t.heads = s.heads ∧ t.waitQueue = s.waitQueue.filter (fun c => c != b) ∧
      (b ∈ s.waitQueue ∨ (s.bus b).state = .waitHead ∨ ((s.bus b).state = .releasing ∧ (s.bus b).test = none))) ∨
    (t.waitQueue = s.waitQueue ∧ ∃ h, (s.head h).bus = some b ∧ (t.head h).bus = none ∧ ¬ (t.head h).joined ∧ OtherHeads h s t)

/-- A bus has been rid of its test (R38): its head or the wait queue is rid of it and the final record stands in its writer entry, what
the verdict did is done, and the bus is on its way. -/
structure Retired (b : BusNo) (s t : State) : Prop where
  stages : ∃ u v, OnlyChanges [.heads, .waitQueue, .news, .writerQueue] s u ∧ Asides u v ∧
    OnlyChanges [.buses, .programs, .cancelSinceLook, .matrixOut, .exchangeOut, .lines] v t
  queued : FinalQueued b s t
  others : OtherBuses b s t
  test : (t.bus b).test = none
  line : LineLeft b s t
  joined : Unjoined b s t

/-- The footprint of `Retired`. -/
def retireFields : List Field := [.heads, .waitQueue, .news, .writerQueue, .buses] ++ asideFields

/-- The deeds a step of the part is made of, each with its footprint. -/
inductive Deed (s : State) : List Field → State → Prop where
  | aside {fs : List Field} {t : State} (deed : Aside s fs t) : Deed s fs t
  /-- the sweep pointer is set (R102) -/
  | pointer (p : Nat) (below : ∀ a, s.anchor = some a → 16 ≤ a.installed → s.pointer < a.installed → p < a.installed) :
      Deed s [.pointer] { s with pointer := p }
  /-- a fence is taken or completes (R97, R98) -/
  | fence (f : Option (Fin 64)) (used : s.anchor = none → f = none) : Deed s [.fence] { s with fence := f }
  /-- an entry joins, leaves or changes in the Test Queue -/
  | queue (q : List TestEntry) (ok : Requeued s q) : Deed s [.queue] { s with queue := q }
  /-- a general writer entry but a ticket's is filled (R160) -/
  | push (e : WriterEntry) (kind : e.isGeneral = true ∧ e.isTicket = false) (room : s.writerQueue.countP WriterEntry.isGeneral < 4)
      (used : s.anchor ≠ none ∨ s.fence ≠ none) : Deed s [.news, .writerQueue] (s.pushEntry e)
  /-- a ticket moves into the writer (R141) -/
  | ticket (q : QueuedTicket) (qs : List QueuedTicket) (next : s.outbox = q :: qs) (ready : s.moveReady = true) :
      Deed s [.outbox, .droppedBefore, .news, .writerQueue] (moveTicket s)
  /-- the status entry is marked (R161) -/
  | mark (o : Option CommitRecord)
      (used : s.anchor = none → o ≠ none ∧ s.writerQueue = [] ∧ s.path.isWriter = false) : Deed s [.writerQueue] (s.markDirty o)
  /-- the writer takes the path (R163) -/
  | path (may : s.writerMayTake = true) : Deed s [.path, .starvation] (takePath s)
  /-- memory is written -/
  | mem {t : State} (only : OnlyChanges [.mem] s t) (kept : MemoryOk s → MemoryOk t) : Deed s [.mem] t
  /-- a record of the first entry has been written, and the entry is done (R162) -/
  | popped (e : WriterEntry) (es : List WriterEntry) (first : s.writerQueue = e :: es) (writing : s.path.isWriter = true) :
      Deed s [.news, .writerQueue, .path, .produce]
        { s with writerQueue := es, path := .free, produce := if e.isTicket then s.produce + 1 else s.produce }
  /-- a record of a bus entry with further slots has been written (R162) -/
  | shortened (b : BusNo) (r : ResultRecord) (m : SlotMember) (ms : List SlotMember) (es : List WriterEntry)
      (first : s.writerQueue = .bus b r (m :: ms) :: es) (writing : s.path.isWriter = true) :
      Deed s [.news, .writerQueue, .path] { s with writerQueue := .bus b r ms :: es, path := .free }
  /-- the path is FREE again with nothing pending -/
  | freed (none : s.writerQueue = []) : Deed s [.path] { s with path := .free }
  /-- a consume index is offered (R143) -/
  | consume (a : Anchor) (data : Word) (inForce : s.anchor = some a) : Deed s [.consume] (offerConsume a data s)
  /-- a commit attempt is accepted (R174) -/
  | accept (a : Anchor) (valid : validate a s = .accepted) (generation : 1 ≤ a.generation ∧ a.generation ≤ 255) :
      Deed s [.anchor, .shadows, .takeIndex, .testWaiting, .fence, .cancelSinceLook, .produce, .consume, .flags, .lastCommit, .pointer,
        .groups, .alarmList, .alarmOverflow, .focus] (acceptCommit a s)
  /-- a bus record is rewritten, its bus in the same phase -/
  | rebus (b : BusNo) (r : Bus) (ok : (s.bus b).Rewritten r) : Deed s [.buses] (s.setBus b r)
  /-- a releasing bus enters IDLE (R34) -/
  | idle (b : BusNo) (releasing : (s.bus b).state = .releasing) : Deed s [.lines, .buses, .cancelSinceLook] (enterIdle b s)
  /-- a seized bus joins the head wait queue (R32, R57) -/
  | settle (b : BusNo) (seizing : (s.bus b).state = .seizing) :
      Deed s [.buses, .waitQueue] (joinWait b (s.setBus b { s.bus b with state := .waitHead, command := none, timer := none }))
  /-- an entry is given to an IDLE bus (R23) -/
  | claim (b : BusNo) (e : TestEntry) (rest : List TestEntry) (selected : s.selection = some (e, .toIdle b, rest)) :
      Deed s [.queue, .testWaiting, .exchangeOut, .claimCounter, .lines, .buses, .cancelSinceLook] (giveToIdle b e rest s)
  /-- an entry is given to the HELD bus of its line (R47) -/
  | rejoin (b : BusNo) (e : TestEntry) (rest : List TestEntry) (selected : s.selection = some (e, .toHeld b, rest)) :
      Deed s [.queue, .testWaiting, .buses, .waitQueue] (giveToHeld b e rest s)
  /-- the first waiting bus is granted a head (R58) -/
  | grant (h : HeadNo) (b : BusNo) (rest : List BusNo) (first : s.waitQueue = b :: rest) (free : s.freeHeadNo = some h) :
      Deed s [.waitQueue, .buses, .programs, .headOut, .heads] (grantHead h b rest s)
  /-- a head record is rewritten, joined to the same bus or still to none -/
  | rehead (h : HeadNo) (r : Head)
      (ok : ((s.head h).state = .attached ∧ r.joined ∧ r.bus = (s.head h).bus ∧ ((s.head h).step ≠ none → r.step ≠ none)) ∨
        ((¬ (s.head h).joined ∨ (s.head h).bus = none ∨ (s.head h).step = none) ∧ ¬ r.joined ∧ r.bus = none)) : Deed s [.heads] (s.setHead h r)
  /-- a test on a bus ends -/
  | retire (b : BusNo) {t : State} (ended : Retired b s t) : Deed s retireFields t
  | cold : Deed s resetFields (coldReset s)
  | warm : Deed s resetFields (warmReset s)
  /-- 1 ms passes -/
  | tick : Deed s [.buses, .heads, .pacing, .coalescing, .readHold] (tick s)

/-- Several deeds, one after another. -/
def Deeds : State → State → Prop := Relation.ReflTransGen fun s t => ∃ fs, Deed s fs t

end Sys2Proof.Machine
end

section
/-!
PROOFS. The footprint of each deed, and how deeds follow one another.
-/

namespace Sys2Proof.Machine

/-! ## Updates of one or two fields -/

section
variable (s : State)

theorem setOutbox_only (q : List QueuedTicket) : OnlyChanges [.outbox] s { s with outbox := q } := by
  intro f hf; cases f <;> first | rfl | exact ⟨rfl, fun _ => rfl⟩ | simp at hf

theorem setRegister_only (o : Option Ticket) : OnlyChanges [.register] s { s with register := o } := by
  intro f hf; cases f <;> first | rfl | exact ⟨rfl, fun _ => rfl⟩ | simp at hf

theorem setFence_only (o : Option (Fin 64)) : OnlyChanges [.fence] s { s with fence := o } := by
  intro f hf; cases f <;> first | rfl | exact ⟨rfl, fun _ => rfl⟩ | simp at hf

theorem setQueue_only (q : List TestEntry) : OnlyChanges [.queue] s { s with queue := q } := by
  intro f hf; cases f <;> first | rfl | exact ⟨rfl, fun _ => rfl⟩ | simp at hf

theorem setPath_only (p : Path) : OnlyChanges [.path] s { s with path := p } := by
  intro f hf; cases f <;> first | rfl | exact ⟨rfl, fun _ => rfl⟩ | simp at hf

theorem setMem_only (m : List Host.Cell) : OnlyChanges [.mem] s { s with mem := m } := by
  intro f hf; cases f <;> first | rfl | simp at hf

theorem setWriter_only (q : List WriterEntry) (p : Path) (n : Count16) :
    OnlyChanges [.news, .writerQueue, .path, .produce] s { s with writerQueue := q, path := p, produce := n } := by
  intro f hf; cases f <;> first | rfl | exact ⟨rfl, fun _ => rfl⟩ | simp at hf

theorem setWriterQueue_only (q : List WriterEntry) (p : Path) :
    OnlyChanges [.news, .writerQueue, .path] s { s with writerQueue := q, path := p } := by
  intro f hf; cases f <;> first | rfl | exact ⟨rfl, fun _ => rfl⟩ | simp at hf

theorem setWaitQueue_only (q : List BusNo) : OnlyChanges [.waitQueue] s { s with waitQueue := q } := by
  intro f hf; cases f <;> first | rfl | exact ⟨rfl, fun _ => rfl⟩ | simp at hf

theorem setClaimCounter_only (n : ClaimNo) : OnlyChanges [.claimCounter] s { s with claimCounter := n } := by
  intro f hf; cases f <;> first | rfl | exact ⟨rfl, fun _ => rfl⟩ | simp at hf

theorem setSweep_only (x : SweepState) : OnlyChanges [.sweep] s { s with sweep := x } := by
  intro f hf; cases f <;> first | rfl | exact ⟨rfl, fun _ => rfl⟩ | simp at hf

theorem setPacing_only (n : Nat) : OnlyChanges [.pacing] s { s with pacing := n } := by
  intro f hf; cases f <;> first | rfl | exact ⟨rfl, fun _ => rfl⟩ | simp at hf

theorem setEpoch_only (n : Count16) : OnlyChanges [.epoch] s { s with epoch := n } := by
  intro f hf; cases f <;> first | rfl | exact ⟨rfl, fun _ => rfl⟩ | simp at hf

theorem setTestWaiting_only (x : TestWait) : OnlyChanges [.testWaiting] s { s with testWaiting := x } := by
  intro f hf; cases f <;> first | rfl | exact ⟨rfl, fun _ => rfl⟩ | simp at hf

theorem setStarvation_only (n : Nat) : OnlyChanges [.starvation] s { s with starvation := n } := by
  intro f hf; cases f <;> first | rfl | exact ⟨rfl, fun _ => rfl⟩ | simp at hf

theorem setHostAccesses_only (l : List HostAccess) : OnlyChanges [.hostAccesses] s { s with hostAccesses := l } := by
  intro f hf; cases f <;> first | rfl | exact ⟨rfl, fun _ => rfl⟩ | simp at hf

theorem setReadHold_only (x : Option ReadHold) : OnlyChanges [.readHold] s { s with readHold := x } := by
  intro f hf; cases f <;> first | rfl | exact ⟨rfl, fun _ => rfl⟩ | simp at hf

theorem setHoldSpent_only (x : Option ReadHold) (p : Bool) :
    OnlyChanges [.readHold, .resultHoldSpent] s { s with readHold := x, resultHoldSpent := p } := by
  intro f hf; cases f <;> first | rfl | exact ⟨rfl, fun _ => rfl⟩ | simp at hf

theorem setResyncPending_only (p : Bool) : OnlyChanges [.resyncPending] s { s with resyncPending := p } := by
  intro f hf; cases f <;> first | rfl | exact ⟨rfl, fun _ => rfl⟩ | simp at hf

theorem setFreeIndex_only (n : Nat) : OnlyChanges [.freeIndex] s { s with freeIndex := n } := by
  intro f hf; cases f <;> first | rfl | exact ⟨rfl, fun _ => rfl⟩ | simp at hf

theorem setPending_only (l : List Instr) : OnlyChanges [.pending] s { s with pending := l } := by
  intro f hf; cases f <;> first | rfl | exact ⟨rfl, fun _ => rfl⟩ | simp at hf

theorem tick_only : OnlyChanges [.buses, .heads, .pacing, .coalescing, .readHold] s (tick s) := by
  intro f hf; cases f <;> first | rfl | exact ⟨rfl, fun _ => rfl⟩ | simp at hf

theorem coldReset_only : OnlyChanges resetFields s (coldReset s) := by
  intro f hf; cases f <;> first | rfl | simp [resetFields] at hf

theorem warmReset_only : OnlyChanges resetFields s (warmReset s) := by
  intro f hf; cases f <;> first | rfl | simp [resetFields] at hf

end

/-! ## Operations of several parts -/

theorem giveToIdle_only (b : BusNo) (e : TestEntry) (rest : List TestEntry) (s : State) :
    OnlyChanges [.queue, .testWaiting, .exchangeOut, .claimCounter, .lines, .buses, .cancelSinceLook] s (giveToIdle b e rest s) := by
  have claimed := (leaveQueue_only rest s).comp (sendExchange_only (.claim e.line s.claimCounter e.force) _)
    (hs := [.queue, .testWaiting, .exchangeOut]) rfl
  have numbered := claimed.comp (setClaimCounter_only _ (s.claimCounter + 1)) (hs := [.queue, .testWaiting, .exchangeOut, .claimCounter]) rfl
  have occupied := numbered.comp (setOccupying_only e.line (some b) _)
    (hs := [.queue, .testWaiting, .exchangeOut, .claimCounter, .lines]) rfl
  exact (occupied.comp (setBus_only b _ _) (hs := [.queue, .testWaiting, .exchangeOut, .claimCounter, .lines, .buses]) rfl).comp
    (look_only true _) rfl

theorem giveToHeld_only (b : BusNo) (e : TestEntry) (rest : List TestEntry) (s : State) :
    OnlyChanges [.queue, .testWaiting, .buses, .waitQueue] s (giveToHeld b e rest s) :=
  ((leaveQueue_only rest s).comp (setBus_only b _ _) (hs := [.queue, .testWaiting, .buses]) rfl).comp (joinWait_only b _) rfl

theorem grantHead_only (h : HeadNo) (b : BusNo) (rest : List BusNo) (s : State) :
    OnlyChanges [.waitQueue, .buses, .programs, .headOut, .heads] s (grantHead h b rest s) := by
  have measuring := (setWaitQueue_only s rest).comp (setBus_only b { s.bus b with state := .measuring, timer := none } _)
    (hs := [.waitQueue, .buses]) rfl
  unfold grantHead
  dsimp only
  split
  · next e _ =>
    have programmed := measuring.comp (setProgram_only b (some (buildProgram e)) _) (hs := [.waitQueue, .buses, .programs]) rfl
    split
    · exact programmed.comp (startStep_only h b _ _) rfl
    · exact programmed.weaken (by simp)
  · exact measuring.weaken (by simp)

/-! ## The footprint of a deed -/

theorem Aside.only {s t : State} {fs : List Field} (d : Aside s fs t) : OnlyChanges fs s t := by
  cases d with
  | quiet only => exact only
  | lines only => exact only
  | flags only => exact only
  | counts only => exact only
  | outbox q => exact setOutbox_only s _
  | register o => exact setRegister_only s o

theorem Asides.only {s t : State} (h : Asides s t) : OnlyChanges asideFields s t := by
  induction h with
  | refl => exact OnlyChanges.refl _ s
  | tail _ last ih =>
    obtain ⟨fs, d⟩ := last
    refine ih.trans (d.only.weaken ?_)
    cases d with
    | quiet => exact fun f hf => List.mem_append_left _ hf
    | _ => exact fun f hf => List.mem_append_right _ (by simp at hf ⊢; tauto)

/-- No deed beside the buses changes the occupying bus of a line. -/
theorem Asides.occupying {s t : State} (h : Asides s t) (l : LineNo) : (t.line l).occupying = (s.line l).occupying := by
  induction h with
  | refl => rfl
  | tail _ last ih =>
    obtain ⟨fs, d⟩ := last
    rw [← ih]
    cases d with
    | lines only kept => exact kept l
    | quiet only => rw [only.line rfl]
    | flags only => rw [only.line rfl]
    | counts only => rw [only.line rfl]
    | outbox | register => rfl

theorem Retired.only {b : BusNo} {s t : State} (h : Retired b s t) : OnlyChanges retireFields s t := by
  obtain ⟨u, v, before, middle, after⟩ := h.stages
  exact (before.comp middle.only (hs := retireFields) rfl).comp after rfl

theorem Deed.only {s t : State} {fs : List Field} (d : Deed s fs t) : OnlyChanges fs s t := by
  cases d with
  | aside deed => exact deed.only
  | pointer p => exact setPointer_only p s
  | fence f => exact setFence_only s f
  | queue q => exact setQueue_only s q
  | push e => exact pushEntry_only e s
  | ticket => exact moveTicket_only s
  | mark o => exact markDirty_only o s
  | path => exact takePath_only s
  | mem only => exact only
  | popped => exact setWriter_only s _ _ _
  | shortened => exact setWriterQueue_only s _ _
  | freed => exact setPath_only s _
  | consume a data => exact offerConsume_only a data s
  | accept a => exact acceptCommit_only a s
  | rebus b r => exact setBus_only b r s
  | idle b => exact enterIdle_only b s
  | settle b => exact (setBus_only b _ s).comp (joinWait_only b _) rfl
  | claim b e rest => exact giveToIdle_only b e rest s
  | rejoin b e rest => exact giveToHeld_only b e rest s
  | grant h b rest => exact grantHead_only h b rest s
  | rehead h r => exact setHead_only h r s
  | retire b ended => exact ended.only
  | cold => exact coldReset_only s
  | warm => exact warmReset_only s
  | tick => exact tick_only s

/-- No deed touches the queue of commands. -/
theorem Deed.pending {s t : State} {fs : List Field} (d : Deed s fs t) : t.pending = s.pending := by
  refine d.only.get .pending ?_
  cases d with
  | aside deed => cases deed <;> rfl
  | _ => rfl

/-! ## One deed after another -/

theorem Asides.refl (s : State) : Asides s s := Relation.ReflTransGen.refl

theorem Asides.trans {s t u : State} (h : Asides s t) (k : Asides t u) : Asides s u := Relation.ReflTransGen.trans h k

theorem Aside.once {s t : State} {fs : List Field} (d : Aside s fs t) : Asides s t := .single ⟨fs, d⟩

theorem Asides.then {s t u : State} {fs : List Field} (h : Asides s t) (d : Aside t fs u) : Asides s u := h.trans d.once

theorem Asides.thenQuiet {s t u : State} {fs : List Field} (h : Asides s t) (only : OnlyChanges fs t u)
    (quiet : (fs.all fun f => decide (f ∈ quietFields)) = true) : Asides s u :=
  h.then (.quiet (only.weaken fun f hf => of_decide_eq_true (List.all_eq_true.mp quiet f hf)))

theorem Deeds.refl (s : State) : Deeds s s := Relation.ReflTransGen.refl

theorem Deeds.trans {s t u : State} (h : Deeds s t) (k : Deeds t u) : Deeds s u := Relation.ReflTransGen.trans h k

theorem Deed.once {s t : State} {fs : List Field} (d : Deed s fs t) : Deeds s t := .single ⟨fs, d⟩

theorem Deeds.then {s t u : State} {fs : List Field} (h : Deeds s t) (d : Deed t fs u) : Deeds s u := h.trans d.once

theorem Asides.deeds {s t : State} (h : Asides s t) : Deeds s t := by
  induction h with
  | refl => exact Deeds.refl s
  | tail _ last ih => exact ih.then (.aside last.choose_spec)

theorem Deeds.thenAsides {s t u : State} (h : Deeds s t) (k : Asides t u) : Deeds s u := h.trans k.deeds

theorem Deeds.thenQuiet {s t u : State} {fs : List Field} (h : Deeds s t) (only : OnlyChanges fs t u)
    (quiet : (fs.all fun f => decide (f ∈ quietFields)) = true) : Deeds s u :=
  h.thenAsides ((Asides.refl t).thenQuiet only quiet)

/-- An invariant that every deed keeps is kept by all of them. -/
theorem Deeds.keeps {P : State → Prop} (keep : ∀ {s t fs}, Deed s fs t → P s → P t) {s t : State} (h : Deeds s t) (p : P s) : P t := by
  induction h with
  | refl => exact p
  | tail _ last ih => exact keep last.choose_spec ih

theorem Asides.keeps {P : State → Prop} (keep : ∀ {s t fs}, Aside s fs t → P s → P t) {s t : State} (h : Asides s t) (p : P s) :
    P t := by
  induction h with
  | refl => exact p
  | tail _ last ih => exact keep last.choose_spec ih

end Sys2Proof.Machine
end

section
/-!
PROOFS. What the Line Table, the flags, the Group Counters and the Ticket Unit do is made of deeds beside the buses.
-/

namespace Sys2Proof.Machine

/-! ## Flags and lines -/

theorem setLine_asides {l : LineNo} {r : LineRecord} {s : State} (kept : r.occupying = (s.line l).occupying) :
    Asides s (s.setLine l r) := by
  refine (Aside.lines (setLine_only l r s) fun x => ?_).once
  rcases eq_or_ne x l with rfl | other
  · rw [State.setLine_view_line_self, kept]
  · rw [State.setLine_view_line, if_neg other.symm]

theorem mapLines_asides {f : LineRecord → LineRecord} (kept : ∀ r, (f r).occupying = r.occupying) (s : State) :
    Asides s (s.mapLines f) :=
  (Aside.lines (mapLines_only f s) fun x => by simp [kept]).once

theorem raiseFlag_asides (f : Flag) (s : State) : Asides s (s.raiseFlag f) :=
  (Aside.flags (raiseFlag_only f s) fun none g clear => by simp [raiseFlag_view_flag, none, clear]).once

theorem clearMark_asides (k : FaultKind) (l : LineNo) (s : State) : Asides s (clearMark k s l) := by
  unfold clearMark
  split
  · exact setLine_asides rfl
  · exact Asides.refl s

theorem cleanMarks_asides (t : Ticket) (s : State) : Asides s (cleanMarks t s) := by
  unfold cleanMarks
  split
  · next k _ =>
    induction t.lines generalizing s with
    | nil => exact Asides.refl s
    | cons l ls ih => exact (clearMark_asides k l s).trans (ih _)
  all_goals exact Asides.refl s

/-! ## Groups -/

theorem setAlarmList_only (s : State) (l : List GroupNo) : OnlyChanges [.alarmList] s { s with alarmList := l } := by
  intro f hf; cases f <;> first | rfl | exact ⟨rfl, fun _ => rfl⟩ | simp at hf

theorem setAlarmOverflow_only (s : State) (p : Bool) : OnlyChanges [.alarmOverflow] s { s with alarmOverflow := p } := by
  intro f hf; cases f <;> first | rfl | exact ⟨rfl, fun _ => rfl⟩ | simp at hf

theorem setFocus_only (s : State) (l : List FocusEntry) : OnlyChanges [.focus] s { s with focus := l } := by
  intro f hf; cases f <;> first | rfl | exact ⟨rfl, fun _ => rfl⟩ | simp at hf

theorem setDrops_only (s : State) (m n : Nat) :
    OnlyChanges [.droppedBefore, .droppedTotal] s { s with droppedBefore := m, droppedTotal := n } := by
  intro f hf; cases f <;> first | rfl | exact ⟨rfl, fun _ => rfl⟩ | simp at hf

theorem setFocus_asides {s : State} {l : List FocusEntry} (short : s.focus.length ≤ 4 → l.length ≤ 4) :
    Asides s { s with focus := l } :=
  (Aside.counts ((setFocus_only s l).weaken (by simp)) ⟨id, short, id, id, id⟩).once

theorem setAlarmList_asides {s : State} {l : List GroupNo} (short : s.alarmList.length ≤ 8 → l.length ≤ 8) :
    Asides s { s with alarmList := l } :=
  (Aside.counts ((setAlarmList_only s l).weaken (by simp)) ⟨short, id, id, id, id⟩).once

theorem listAlarm_asides (g : GroupNo) (s : State) : Asides s (listAlarm g s) := by
  unfold listAlarm
  split
  · next room => exact setAlarmList_asides fun _ => by rw [List.length_append, List.length_singleton]; exact room
  · exact (Asides.refl s).thenQuiet (setAlarmOverflow_only s true) rfl

theorem offerFocus_asides (g : GroupNo) (s : State) : Asides s (offerFocus g s) := by
  unfold offerFocus
  split
  · next room =>
    have short : s.focus.length < 4 := by simp at room; exact room.1
    exact setFocus_asides fun _ => by rw [List.length_append, List.length_singleton]; exact short
  · exact Asides.refl s

theorem raiseAlarm_asides (g : GroupNo) (n : Nat) (s : State) : Asides s (raiseAlarm g n s) :=
  ((((Asides.refl s).thenQuiet (setGroup_only g _ s) rfl).trans (listAlarm_asides g _)).trans (offerFocus_asides g _)).trans
    (raiseFlag_asides .groupAlarm _)

theorem countLine_asides (l : LineNo) (s : State) : Asides s (countLine l s) := by
  unfold countLine
  dsimp only
  split
  · exact (Asides.refl s).thenQuiet (setGroup_only _ _ s) rfl
  · split
    · exact raiseAlarm_asides _ _ s
    · exact Asides.refl s

/-! ## Tickets -/

theorem dropTicket_asides (t : Ticket) (s : State) : Asides s (dropTicket t s) := by
  have counted : Asides s
      { s with droppedBefore := min 255 (s.droppedBefore + 1), droppedTotal := min 65535 (s.droppedTotal + 1) } :=
    (Aside.counts ((setDrops_only s (min 255 (s.droppedBefore + 1)) (min 65535 (s.droppedTotal + 1))).weaken (by simp))
      ⟨id, id, id, fun _ => Nat.min_le_left _ _, fun _ => Nat.min_le_left _ _⟩).once
  exact (counted.trans (raiseFlag_asides .drop _)).trans (cleanMarks_asides t _)

theorem setTicketSeq_only (n : Count16) (s : State) : OnlyChanges [.ticketSeq] s { s with ticketSeq := n } := by
  intro f hf; cases f <;> first | rfl | exact ⟨rfl, fun _ => rfl⟩ | simp at hf

theorem setCoalescing_only (n : Option Nat) (s : State) : OnlyChanges [.coalescing] s { s with coalescing := n } := by
  intro f hf; cases f <;> first | rfl | exact ⟨rfl, fun _ => rfl⟩ | simp at hf

/-- A ticket in order reaches the outbox: in force is an anchor, or the ticket was open. -/
theorem enterOutbox_asides {k : Ticket} {s : State} (ok : k.OkAfter s) (used : s.anchor ≠ none ∨ s.register ≠ none) :
    Asides s (enterOutbox k s) := by
  unfold enterOutbox
  split
  · next room => exact (Aside.outbox { sequence := s.ticketSeq, ticket := k } room ok used).once.thenQuiet (setTicketSeq_only _ _) rfl
  · exact dropTicket_asides k s

theorem emptyRegister_asides (s : State) : Asides s { s with register := none, coalescing := none } :=
  (Aside.register none (by simp) (fun _ => rfl)).once.thenQuiet (setCoalescing_only none _) rfl

theorem closeRegister_asides (s : State) : Asides s (closeRegister s) := by
  match hr : s.register with
  | none => rw [closeRegister_none hr]; exact Asides.refl s
  | some k =>
    rw [closeRegister_some hr]
    unfold enterOutbox
    by_cases room : s.outbox.length < 8
    · rw [if_pos room]
      have entered : Asides s { s with outbox := s.outbox ++ [{ sequence := s.ticketSeq, ticket := k }] } :=
        (Aside.outbox _ room (fun open' => open' k hr) (.inr (by simp [hr]))).once
      exact (entered.trans (emptyRegister_asides _)).thenQuiet (setTicketSeq_only (s.ticketSeq + 1) _) rfl
    · rw [if_neg room]
      exact (emptyRegister_asides s).trans (dropTicket_asides k _)

theorem openRegister_asides {k : Ticket} {s : State} (ok : k.OkAfter s) (used : s.anchor ≠ none) : Asides s (openRegister k s) :=
  (Aside.register (some k) (by simpa using ok) (fun none => absurd none used)).once.thenQuiet (setCoalescing_only _ _) rfl

/-- A ticket of one line, in order. -/
structure Ticket.OneLine (k : Ticket) (l : LineNo) : Prop where
  lines : k.lines = [l]
  group : k.group = some (groupOf l)
  ok : k.LinesOk

theorem lineTicket_oneLine (s : State) (kind : TicketKind) (o : TicketOrigin) (l : LineNo) (d : TicketDetail) :
    (lineTicket s kind o l d).OneLine l := ⟨rfl, rfl, lineTicket_linesOk s kind o l d⟩

theorem reachRegister_asides {k : Ticket} {l : LineNo} {s : State} (one : k.OneLine l) (used : s.anchor ≠ none) :
    Asides s (reachRegister k s) := by
  unfold reachRegister
  match hr : s.register with
  | none => exact openRegister_asides (fun _ => one.ok) used
  | some o =>
    dsimp only
    split
    · next joins => exact openRegister_asides (fun open' => append_linesOk (open' o hr) one.lines one.group joins) used
    · refine (closeRegister_asides s).trans (openRegister_asides (fun _ => one.ok) ?_)
      rw [(closeRegister_only s).get .anchor rfl]
      exact used

theorem routeTicket_asides {k : Ticket} {l : LineNo} {s : State} (one : k.OneLine l) (used : s.anchor ≠ none) :
    Asides s (routeTicket k s) := by
  unfold routeTicket
  split
  · exact reachRegister_asides one used
  · exact enterOutbox_asides (fun _ => one.ok) (.inl used)

theorem formLineFault_asides (l : LineNo) (k : FaultKind) (cls : TestClass) (rs : StepRecords) {s : State}
    (used : s.anchor ≠ none) : Asides s (formLineFault l k cls rs s) := by
  unfold formLineFault
  split
  · exact Asides.refl s
  · refine ((setLine_asides (l := l) (r := { s.line l with ticketMark := some k }) rfl).trans (countLine_asides l _)).trans
      (routeTicket_asides (lineTicket_oneLine ..) ?_)
    rw [(countLine_only l _).get .anchor rfl]
    exact used

theorem formRestored_asides (l : LineNo) (cls : TestClass) (rs : StepRecords) {s : State} (used : s.anchor ≠ none) :
    Asides s (formRestored l cls rs s) := by
  unfold formRestored
  split
  · have cleared := setLine_asides (s := s) (l := l) (r := { s.line l with ticketMark := none }) rfl
    exact cleared.trans (routeTicket_asides (lineTicket_oneLine ..) used)
  · exact Asides.refl s

theorem takeVerdict_asides (l : LineNo) (v : Verdict) (cls : TestClass) (rs : StepRecords) {s : State} (used : s.anchor ≠ none) :
    Asides s (takeVerdict l v cls rs s) := by
  cases v with
  | pass => exact formRestored_asides l cls rs used
  | fail k => exact formLineFault_asides l k cls rs used
  | hazard => exact formLineFault_asides l .hazard cls rs used

theorem standingLoopCheck_asides (l : LineNo) {s : State} (used : s.anchor ≠ none) : Asides s (standingLoopCheck l s) := by
  unfold standingLoopCheck
  dsimp only
  split
  · split
    · have marked := setLine_asides (s := s) (l := l) (r := { s.line l with loopMark := true }) rfl
      exact marked.trans (routeTicket_asides (lineTicket_oneLine ..) used)
    · exact Asides.refl s
  · exact Asides.refl s

/-- An equipment ticket, of no line, is handed over only while an anchor is in force. -/
theorem equipmentEvent_asides {kind : TicketKind} (equipment : kind.mergeable = false) (c : EventContext) (s : State) :
    Asides s (equipmentEvent kind c s) := by
  unfold equipmentEvent
  split
  · next used =>
    unfold routeTicket
    rw [if_neg (by simp [equipment])]
    exact enterOutbox_asides (fun _ => ⟨by simp, by simp, by simp⟩) (.inl (by simpa [Option.isSome_iff_ne_none] using used))
  · exact Asides.refl s

/-- The verdict of a test is handed on while an anchor is in force, or there is none. -/
theorem handOnVerdict_asides (e : TestEntry) {o : TestOutcome} (rs : StepRecords) {s : State}
    (used : s.anchor ≠ none ∨ o.verdict = none) : Asides s (handOnVerdict e o rs s) := by
  unfold handOnVerdict
  split
  · next v hv =>
    have recorded := setLine_asides (s := s) (l := e.line)
      (r := { s.line e.line with lastTest := some { verdict := v, epoch := s.epoch } }) rfl
    exact recorded.trans (takeVerdict_asides e.line v e.cls rs (used.resolve_right (by simp [hv])))
  · exact Asides.refl s

end Sys2Proof.Machine
end

section
/-!
PROOFS. The end of a test on a bus, and what the bus does next, as deeds.
-/

namespace Sys2Proof.Machine

/-! ## The end of a test (R38) -/

/-- A bus has been rid of its test and keeps its line. -/
structure Emptied (b : BusNo) (s t : State) : Prop where
  stages : ∃ u v, OnlyChanges [.news, .writerQueue] s u ∧ Asides u v ∧ OnlyChanges [.buses, .programs, .cancelSinceLook] v t
  queued : FinalQueued b s t
  others : OtherBuses b s t
  test : (t.bus b).test = none
  line : (t.bus b).line = (s.bus b).line

theorem Bus.slots_of_test {r : Bus} {e : TestEntry} (h : r.test = some e) : r.slots = e.slots := by simp [Bus.slots, h]

theorem Bus.slots_of_no_test {r : Bus} (h : r.test = none) : r.slots = [] := by simp [Bus.slots, h]

theorem endTest_of_no_test {b : BusNo} {s : State} (none : (s.bus b).test = none) (o : TestOutcome) (h : Option HeadNo)
    (rs : StepRecords) : endTest b o h rs s = s := by simp [endTest, none]

theorem endTest_of_test {b : BusNo} {s : State} {e : TestEntry} (ht : (s.bus b).test = some e) (o : TestOutcome) (h : Option HeadNo)
    (rs : StepRecords) : endTest b o h rs s =
      (dropTest b (handOnVerdict e (s.outcomeOn b o) rs (queueFinal b e (s.outcomeOn b o) h rs s))).look (e.cls == .sweep) := by
  simp [endTest, ht, endOutcome_eq]

theorem queueFinal_queued {b : BusNo} {s : State} {e : TestEntry} (ht : (s.bus b).test = some e) (o : TestOutcome) (h : Option HeadNo)
    (rs : StepRecords) : FinalQueued b s (queueFinal b e o h rs s) := by
  unfold FinalQueued queueFinal
  rw [Bus.slots_of_test ht]
  cases hs : e.slots with
  | nil => exact .inl ⟨rfl, by simp⟩
  | cons m ms => exact .inr ⟨by simp, _, rfl⟩

theorem dropTest_view_bus_self (b : BusNo) (s : State) : (dropTest b s).bus b = { s.bus b with test := none, abort := none } := by
  simp [dropTest]

theorem dropTest_otherBuses (b : BusNo) (s : State) : OtherBuses b s (dropTest b s) := by
  intro x other
  simp [dropTest, State.setBus_view_bus, other.symm]

/-- The verdict of a completed test is handed on while an anchor is in force; a test that ends otherwise has none. -/
theorem endTest_emptied {b : BusNo} {o : TestOutcome} {s : State} (h : Option HeadNo) (rs : StepRecords)
    (used : s.anchor ≠ none ∨ (s.outcomeOn b o).verdict = none) : Emptied b s (endTest b o h rs s) := by
  match ht : (s.bus b).test with
  | none =>
    rw [endTest_of_no_test ht]
    exact ⟨⟨s, s, .refl _ s, .refl s, .refl _ s⟩, .inl ⟨Bus.slots_of_no_test ht, rfl⟩, fun _ _ => rfl, ht, rfl⟩
  | some e =>
    rw [endTest_of_test ht]
    have first := queueFinal_only b e (s.outcomeOn b o) h rs s
    have second : Asides _ (handOnVerdict e (s.outcomeOn b o) rs (queueFinal b e (s.outcomeOn b o) h rs s)) :=
      handOnVerdict_asides e rs (by rwa [first.get .anchor rfl])
    have third := (dropTest_only b (handOnVerdict e (s.outcomeOn b o) rs (queueFinal b e (s.outcomeOn b o) h rs s))).comp
      (look_only (e.cls == .sweep) _) (hs := [.buses, .programs, .cancelSinceLook]) rfl
    have buses (x : BusNo) := (second.only.bus rfl x).trans (first.bus rfl x)
    refine ⟨⟨_, _, first, second, third⟩, ?_, ?_, ?_, ?_⟩
    · unfold FinalQueued
      rw [third.get .writerQueue rfl, second.only.get .writerQueue rfl]
      exact queueFinal_queued ht _ h rs
    · intro x other
      rw [State.look_view_bus, dropTest_otherBuses b _ x other, buses]
    · rw [State.look_view_bus, dropTest_view_bus_self]
    · rw [State.look_view_bus, dropTest_view_bus_self, buses]

/-! ## What the bus does next -/

theorem startRelease_left (b : BusNo) (s : State) : LineLeft b s (startRelease b s) := by
  obtain ⟨view, -, -⟩ := startRelease_view b s
  exact .inl ⟨by rw [view], .inl (by rw [view]), fun l => by rw [(startRelease_only b s).line rfl]⟩

theorem startRelease_test (b : BusNo) (s : State) : ((startRelease b s).bus b).test = (s.bus b).test := by
  obtain ⟨view, -, -⟩ := startRelease_view b s
  rw [view]

theorem startRelease_otherBuses (b : BusNo) (s : State) : OtherBuses b s (startRelease b s) := (startRelease_view b s).2.1

theorem holdBus_view_bus_self (b : BusNo) (s : State) :
    (holdBus b s).bus b =
      { s.bus b with
        state := .held,
        timer := if s.limit Anchor.holdLimit = 0 then none else some (.hold, 1000 * s.limit Anchor.holdLimit) } := by
  simp [holdBus]

theorem holdBus_otherBuses (b : BusNo) (s : State) : OtherBuses b s (holdBus b s) := by
  intro x other
  simp [holdBus, State.setBus_view_bus, other.symm]

theorem holdBus_left (b : BusNo) (s : State) : LineLeft b s (holdBus b s) :=
  .inl ⟨by rw [holdBus_view_bus_self], .inr (by rw [holdBus_view_bus_self]), fun l => by rw [(holdBus_only b s).line rfl]⟩

theorem enterIdle_view_bus_self (b : BusNo) (s : State) : (enterIdle b s).bus b = Bus.idle := by
  unfold enterIdle
  split <;> simp

theorem enterIdle_otherBuses (b : BusNo) (s : State) : OtherBuses b s (enterIdle b s) := by
  intro x other
  unfold enterIdle
  split <;> simp [State.setBus_view_bus, other.symm, setOccupying]

theorem setOccupying_occupying (l : LineNo) (o : Option BusNo) (s : State) (x : LineNo) :
    ((setOccupying l o s).line x).occupying = if l = x then o else (s.line x).occupying := by
  unfold setOccupying
  rw [State.setLine_view_line]
  split <;> rfl

theorem enterIdle_occupying (b : BusNo) (s : State) (l : LineNo) :
    ((enterIdle b s).line l).occupying = if (s.bus b).line = some l then none else (s.line l).occupying := by
  unfold enterIdle
  match hl : (s.bus b).line with
  | none => simp
  | some x => simp [setOccupying_occupying]

theorem enterIdle_left (b : BusNo) (s : State) : LineLeft b s (enterIdle b s) :=
  .inr ⟨enterIdle_view_bus_self b s, enterIdle_occupying b s⟩

/-! ## A test ends and the bus is on its way -/

theorem Unjoined.after {b : BusNo} {s u t : State} (h : Unjoined b s u) (heads : t.heads = u.heads)
    (waits : t.waitQueue = u.waitQueue) : Unjoined b s t := by
  unfold Unjoined OtherHeads State.head at h ⊢
  rwa [heads, waits]

theorem LineLeft.from {b : BusNo} {s v t : State} (h : LineLeft b v t) (line : (v.bus b).line = (s.bus b).line)
    (occupying : ∀ l, (v.line l).occupying = (s.line l).occupying) : LineLeft b s t := by
  unfold LineLeft at h ⊢
  simpa only [line, occupying] using h

theorem Emptied.retired {b : BusNo} {s u v t : State} (before : OnlyChanges [.heads, .waitQueue] s u) (ended : Emptied b u v)
    (after : OnlyChanges [.buses, .cancelSinceLook, .matrixOut, .exchangeOut, .lines] v t) (others : OtherBuses b v t)
    (test : (t.bus b).test = none) (left : LineLeft b v t) (joined : Unjoined b s u) : Retired b s t := by
  obtain ⟨x, y, first, second, third⟩ := ended.stages
  have buses := before.bus rfl
  have ending : OnlyChanges ([.news, .writerQueue, .buses] ++ asideFields) u v :=
    (first.comp second.only (hs := [.news, .writerQueue, .buses] ++ asideFields) rfl).comp third rfl
  refine
    { stages := ⟨x, y, before.comp first rfl, second, third.comp after rfl⟩
      queued := ?_
      others := fun z other => by rw [others z other, ended.others z other, buses]
      test := test
      line := left.from (by rw [ended.line, buses]) fun l => ?_
      joined := joined.after ?_ ?_ }
  · have queued := ended.queued
    unfold FinalQueued at queued ⊢
    rwa [after.get .writerQueue rfl, ← buses b, ← before.get .writerQueue rfl]
  · rw [third.line rfl, second.occupying, first.line rfl, before.line rfl]
  · rw [after.get .heads rfl, ending.get .heads rfl]
  · rw [after.get .waitQueue rfl, ending.get .waitQueue rfl]

section
variable {b : BusNo} {o : TestOutcome} {s u : State} (before : OnlyChanges [.heads, .waitQueue] s u)
  (used : u.anchor ≠ none ∨ (u.outcomeOn b o).verdict = none) (joined : Unjoined b s u) (h : Option HeadNo) (rs : StepRecords)
include before used joined

theorem endTest_startRelease_deed : Deed s retireFields (startRelease b (endTest b o h rs u)) := by
  have ended := endTest_emptied h rs used
  exact .retire b (ended.retired before ((startRelease_only b _).weaken (by simp)) (startRelease_otherBuses b _)
    ((startRelease_test b _).trans ended.test) (startRelease_left b _) joined)

theorem endTest_holdBus_deed : Deed s retireFields (holdBus b (endTest b o h rs u)) := by
  have ended := endTest_emptied h rs used
  exact .retire b (ended.retired before ((holdBus_only b _).weaken (by simp)) (holdBus_otherBuses b _)
    (by rw [holdBus_view_bus_self]; exact ended.test) (holdBus_left b _) joined)

theorem endTest_enterIdle_deed {v : State} (released : OnlyChanges [.exchangeOut] (endTest b o h rs u) v) :
    Deed s retireFields (enterIdle b v) := by
  have ended := endTest_emptied h rs used
  have same := released.bus rfl
  refine .retire b (ended.retired before (released.comp (enterIdle_only b v) rfl)
    (fun x other => by rw [enterIdle_otherBuses b v x other, same]) (by rw [enterIdle_view_bus_self]; rfl)
    ((enterIdle_left b v).from (by rw [same]) fun l => by rw [released.line rfl]) joined)

end

/-- A bus that no head or wait queue is joined to yet. -/
theorem unjoined_of_claiming {b : BusNo} {s : State} (h : (s.bus b).state = .claiming ∨ (s.bus b).state = .seizing) :
    Unjoined b s s := .inl ⟨rfl, rfl, h⟩

/-- A head leaves its bus. -/
theorem unjoined_setHead {h : HeadNo} {b : BusNo} {r : Head} {s : State} (bus : (s.head h).bus = some b) (none : r.bus = none)
    (out : ¬ r.joined) : Unjoined b s (s.setHead h r) := by
  refine .inr (.inr ⟨rfl, h, bus, by simpa using none, by simpa using out, fun x other => ?_⟩)
  simp [State.setHead_view_head, other.symm]

theorem endWaiting_deed {b : BusNo} {o : TestOutcome} {s : State} (verdict : o.verdict = none)
    (waits : b ∈ s.waitQueue ∨ (s.bus b).state = .waitHead ∨ ((s.bus b).state = .releasing ∧ (s.bus b).test = none)) :
    Deed s retireFields (endWaiting b o s) :=
  endTest_startRelease_deed ((leaveWait_only b s).weaken (by simp)) (.inr (outcomeOn_verdict (.inr verdict)))
    (.inr (.inl ⟨rfl, rfl, waits⟩)) none _

end Sys2Proof.Machine
end

section
/-!
PROOFS. The operations of the Access Unit and the Head Unit, as deeds.
-/

namespace Sys2Proof.Machine

/-! ## A bus record rewritten -/

theorem TestEntry.Shrunk.refl (e : TestEntry) : e.Shrunk e := ⟨.refl _, rfl, rfl⟩

/-- A bus keeps its line and its test while it is not IDLE. -/
theorem Bus.Rewritten.of_same_test {r x : Bus} (busy : r.state ≠ .idle) (line : x.line = r.line) (test : x.test = r.test)
    (phase : x.state = r.state ∨
      ((r.state = .claiming ∨ r.state = .seizing) ∧ (x.state = .claiming ∨ x.state = .seizing)) ∨
      ((r.state = .held ∨ r.state = .releasing ∨ r.state = .faulted) ∧ (x.state = .releasing ∨ x.state = .faulted))) :
    r.Rewritten x where
  line := line
  test := by
    rw [test]
    cases r.test with
    | none => exact .inl ⟨rfl, rfl⟩
    | some e => exact .inr ⟨e, e, rfl, rfl, .refl e⟩
  phase := phase
  idle := fun idle => absurd (congrArg Bus.state idle) busy

theorem setAbort_deed {b : BusNo} {s : State} (reason : AbortReason) (busy : (s.bus b).state ≠ .idle) :
    Deed s [.buses] (setAbort b reason s) := .rebus b _ (.of_same_test busy rfl rfl (.inl rfl))

/-- A HELD or FAULTED bus sends OPEN (R36, R43, R48, R49). -/
theorem startRelease_deeds {b : BusNo} {s : State} (state : (s.bus b).state = .held ∨ (s.bus b).state = .faulted) :
    Deeds s (startRelease b s) := by
  have sent := (Deeds.refl s).thenQuiet (sendMatrix_only (.opening b) s) rfl
  refine sent.then (.rebus b _ (.of_same_test ?_ rfl rfl (.inr (.inr ⟨?_, .inl rfl⟩))))
  · rcases state with held | faulted
    · simp [held]
    · simp [faulted]
  · rcases state with held | faulted
    · exact .inl held
    · exact .inr (.inr faulted)

/-! ## Aborts -/

theorem abortStep_deeds (b : BusNo) (s : State) : Deeds s (abortStep b s) := by
  unfold abortStep
  split
  · next h _ =>
    split
    · next attached =>
      have sent := (Deeds.refl s).thenQuiet (sendHead_only (.abort h) s) rfl
      exact sent.then (.rehead h _ (.inl ⟨attached, .inr rfl, rfl, id⟩))
    · exact Deeds.refl s
  · exact Deeds.refl s

theorem cancelOnBus_deeds (b : BusNo) (s : State) : Deeds s (cancelOnBus b s) := by
  unfold cancelOnBus
  split
  · exact Deeds.refl s
  · split
    · next claiming => exact (setAbort_deed .cancel (by simp [claiming])).once
    · next seizing => exact (setAbort_deed .cancel (by simp [seizing])).once
    · next waits => exact (endWaiting_deed rfl (.inr (.inl waits))).once
    · next measuring => exact (setAbort_deed .cancel (by simp [measuring])).once.trans (abortStep_deeds b _)
    all_goals exact Deeds.refl s

/-! ## The loss of the last head (R45, R76) -/

theorem loseHeadOnBus_deeds (b : BusNo) (s : State) : Deeds s (loseHeadOnBus s b) := by
  unfold loseHeadOnBus
  split
  · next taken =>
    refine (setAbort_deed .noHead ?_).once
    rcases taken.1 with claiming | seizing
    · simp [claiming]
    · simp [seizing]
  · exact Deeds.refl s

/-- A bus of which the end of its wait is still to be told, or has been told already. -/
def Awaits (s : State) (b : BusNo) : Prop := b ∈ s.waitQueue ∨ ((s.bus b).state = .releasing ∧ (s.bus b).test = none)

theorem endWaiting_awaits {b c : BusNo} {o : TestOutcome} {s : State} (verdict : o.verdict = none) (h : Awaits s c) :
    Awaits (endWaiting b o s) c := by
  have ended := endTest_emptied none StepRecords.notRun (s := leaveWait b s) (b := b) (.inr (outcomeOn_verdict (.inr verdict)))
  obtain ⟨u, v, first, second, third⟩ := ended.stages
  rcases eq_or_ne c b with rfl | other
  · refine .inr ⟨?_, (startRelease_test c _).trans ended.test⟩
    obtain ⟨view, -, -⟩ := startRelease_view c (endTestEarly c o (leaveWait c s))
    exact congrArg Bus.state view
  · have bus : (endWaiting b o s).bus c = s.bus c := by
      rw [endWaiting, startRelease_otherBuses b _ c other, endTestEarly, ended.others c other]
      rfl
    have waits : (endWaiting b o s).waitQueue = s.waitQueue.filter fun x => x != b := by
      rw [endWaiting, (startRelease_only b _).get .waitQueue rfl, endTestEarly, third.get .waitQueue rfl,
        second.only.get .waitQueue rfl, first.get .waitQueue rfl]
      rfl
    unfold Awaits
    rw [bus, waits]
    exact h.imp_left fun mem => List.mem_filter.mpr ⟨mem, by simp [other]⟩

theorem foldl_endWaiting_deeds (l : List BusNo) {s : State} (waits : ∀ b ∈ l, Awaits s b) :
    Deeds s (l.foldl (fun t b => endWaiting b .noHead t) s) := by
  induction l generalizing s with
  | nil => exact Deeds.refl s
  | cons b l ih =>
    have first : Deed s retireFields (endWaiting b .noHead s) :=
      endWaiting_deed rfl ((waits b (by simp)).imp_right .inr)
    exact first.once.trans (ih fun c mem => endWaiting_awaits rfl (waits c (List.mem_cons_of_mem b mem)))

theorem foldl_deeds {α : Type} {act : State → α → State} (each : ∀ s x, Deeds s (act s x)) (l : List α) (s : State) :
    Deeds s (l.foldl act s) := by
  induction l generalizing s with
  | nil => exact Deeds.refl s
  | cons x l ih => exact (each s x).trans (ih _)

theorem lossOfLastHead_deeds (s : State) : Deeds s (lossOfLastHead s) := by
  unfold lossOfLastHead
  split
  · exact Deeds.refl s
  · exact (foldl_endWaiting_deeds s.waitQueue fun _ mem => .inl mem).trans
      (foldl_deeds (fun u b => loseHeadOnBus_deeds b u) allBuses _)

/-! ## The exchange link (R26, R27, R40) -/

theorem matchBus_line {s : State} {l : LineNo} {c : ClaimNo} {b : BusNo} (h : s.matchBus l c = some b) :
    (s.bus b).line = some l := by
  have found := List.find?_some h
  simp only [Bool.and_eq_true, beq_iff_eq] at found
  exact found.1.2

theorem takeGrant_deeds (l : LineNo) (c : ClaimNo) (s : State) : Deeds s (takeGrant l c s) := by
  unfold takeGrant
  split
  · exact (Deeds.refl s).thenQuiet (sendExchange_only _ s) rfl
  · next b _ =>
    split
    · next claiming =>
      split
      · have sent := (Deeds.refl s).thenQuiet (sendMatrix_only (.close b l) s) rfl
        refine sent.then (.rebus b _ (.of_same_test ?_ rfl rfl (.inr (.inl ⟨.inl ?_, .inr rfl⟩))))
        · rw [State.sendMatrix_view_bus, claiming]; decide
        · exact claiming
      · next reason _ =>
        exact (endTest_enterIdle_deed (.refl _ s) (.inr (outcomeOn_verdict (.inr reason.outcome_verdict)))
          (unjoined_of_claiming (.inl claiming)) none _ (sendExchange_only _ _)).once
    · exact Deeds.refl s

theorem deny_occupying (r : LineRecord) (reason : DenyReason) : (r.deny reason).occupying = r.occupying := by
  unfold LineRecord.deny
  split
  · rfl
  · split <;> rfl
  · rfl

theorem takeDeny_deeds (l : LineNo) (c : ClaimNo) (reason : DenyReason) (s : State) : Deeds s (takeDeny l c reason s) := by
  unfold takeDeny
  split
  · exact Deeds.refl s
  · split
    · next claiming =>
      have ended := endTest_enterIdle_deed (o := .claimDenied) (.refl _ s) (.inr (outcomeOn_verdict (.inr rfl)))
        (unjoined_of_claiming (.inl claiming)) none StepRecords.notRun (.refl _ _)
      exact ended.once.thenAsides (setLine_asides (deny_occupying _ reason))
    · exact Deeds.refl s

theorem setYield_asides (l : LineNo) (s : State) : Asides s (setYield l s) := setLine_asides rfl

theorem yieldBus_deeds (b : BusNo) (l : LineNo) (s : State) : Deeds s (yieldBus b l s) := by
  unfold yieldBus
  split
  · next seizing => exact (setAbort_deed .recall (by simp [seizing])).once.thenAsides (setYield_asides l _)
  · next waits => exact (setYield_asides l s).deeds.then (endWaiting_deed rfl (.inr (.inl waits)))
  · next measuring =>
    exact ((setAbort_deed .recall (by simp [measuring])).once.thenAsides (setYield_asides l _)).trans (abortStep_deeds b _)
  · next held => exact (startRelease_deeds (.inl held)).thenAsides (raiseFlag_asides .holdEnd _)
  all_goals exact Deeds.refl s

theorem takeRecall_deeds (l : LineNo) (c : ClaimNo) (s : State) : Deeds s (takeRecall l c s) := by
  have kept : Deeds s (s.sendExchange (.keep l c)) := (Deeds.refl s).thenQuiet (sendExchange_only _ s) rfl
  unfold takeRecall
  split
  · exact Deeds.refl s
  · unfold recallBus
    split
    · exact Deeds.refl s
    · exact Deeds.refl s
    · exact Deeds.refl s
    · exact kept
    all_goals
      split
      · exact Deeds.refl s
      · split
        · exact kept
        · exact yieldBus_deeds _ l s

/-! ## The matrix link and the bus timers (R28, R32–R35) -/

theorem settleBus_deeds {b : BusNo} {s : State} (seizing : (s.bus b).state = .seizing) : Deeds s (settleBus b s) := by
  unfold settleBus
  split
  · exact (Deed.settle b seizing).once
  · next reason _ =>
    exact (endTest_startRelease_deed (.refl _ s) (.inr (outcomeOn_verdict (.inr reason.outcome_verdict)))
      (unjoined_of_claiming (.inr seizing)) none _).once

theorem failSeizure_deeds {b : BusNo} {s : State} (elapsed : Nat) (seizing : (s.bus b).state = .seizing) :
    Deeds s (failSeizure b elapsed s) := by
  have ended := endTest_startRelease_deed (o := .xpFault) (.refl _ s) (.inr (outcomeOn_verdict (.inr rfl)))
    (unjoined_of_claiming (.inr seizing)) none StepRecords.notRun
  exact (ended.once.thenAsides (raiseFlag_asides .bus _)).thenAsides (equipmentEvent_asides rfl _ _)

theorem releaseBus_deeds {b : BusNo} {s : State} (releasing : (s.bus b).state = .releasing) : Deeds s (releaseBus b s) := by
  unfold releaseBus
  split
  · exact ((Deeds.refl s).thenQuiet (sendExchange_only _ s) rfl).then (.idle b releasing)
  · exact (Deed.idle b releasing).once

theorem failRelease_deeds {b : BusNo} {s : State} (cause : FaultCause) (elapsed : Nat) (releasing : (s.bus b).state = .releasing) :
    Deeds s (failRelease b cause elapsed s) := by
  have failed : Deed s [.buses] (s.setBus b
      { s.bus b with state := .faulted, command := none, timer := none, cause := some cause }) :=
    .rebus b _ (.of_same_test (by simp [releasing]) rfl rfl (.inr (.inr ⟨.inr (.inl releasing), .inr rfl⟩)))
  exact (failed.once.thenAsides (raiseFlag_asides .bus _)).thenAsides (equipmentEvent_asides rfl _ _)

theorem claimTimeout_deeds {b : BusNo} {s : State} (claiming : (s.bus b).state = .claiming) : Deeds s (claimTimeout b s) := by
  have ended := endTest_enterIdle_deed (o := .claimTimeout) (.refl _ s) (.inr (outcomeOn_verdict (.inr rfl)))
    (unjoined_of_claiming (.inl claiming)) none StepRecords.notRun (.refl _ _)
  exact (ended.once.thenAsides (raiseFlag_asides .link _)).thenAsides (equipmentEvent_asides rfl _ _)

/-! ## The end of a measurement (R39, R67, R68, R74) -/

/-- A head leaves the bus it is joined to, or is joined to none. -/
theorem released_out (state : HeadState) (h : state = .free ∨ state = .suspect) : ¬ (Head.released state).joined := by
  rcases h with rfl | rfl
  · simp [Head.joined, Head.released]
  · simp [Head.joined, Head.released]

theorem freeHead_deed {h : HeadNo} {s : State}
    (alone : ¬ (s.head h).joined ∨ (s.head h).bus = none ∨ (s.head h).step = none) : Deed s [.heads] (freeHead h s) :=
  .rehead h _ (.inr ⟨alone, released_out _ (.inl rfl), rfl⟩)

theorem suspectHead_deed {h : HeadNo} {s : State}
    (alone : ¬ (s.head h).joined ∨ (s.head h).bus = none ∨ (s.head h).step = none) : Deed s [.heads] (suspectHead h s) :=
  .rehead h _ (.inr ⟨alone, released_out _ (.inr rfl), rfl⟩)

theorem completeTest_deed {h : HeadNo} {b : BusNo} (v : Verdict) (rs : StepRecords) {s : State} (bus : (s.head h).bus = some b)
    (used : s.anchor ≠ none) : Deed s retireFields (completeTest h b v rs s) := by
  have left : Unjoined b s (freeHead h s) := unjoined_setHead bus rfl (released_out _ (.inl rfl))
  have before : OnlyChanges [.heads, .waitQueue] s (freeHead h s) := (freeHead_only h s).weaken (by simp)
  unfold completeTest
  dsimp only
  split
  · exact endTest_holdBus_deed before (.inl used) left _ rs
  · exact endTest_startRelease_deed before (.inl used) left _ rs

theorem advanceProgram_deeds {h : HeadNo} {b : BusNo} (p : StepProgram) (rs : StepRecords) {s : State}
    (attached : (s.head h).state = .attached) (bus : (s.head h).bus = some b) (used : s.anchor ≠ none) :
    Deeds s (advanceProgram h b p rs s) := by
  unfold advanceProgram
  split
  · next k _ =>
    have programmed := (Deeds.refl s).thenQuiet (setProgram_only b (some { p with position := p.position + 1, steps := rs }) s) rfl
    have sent := programmed.thenQuiet (sendHead_only (.start h b k) _) rfl
    exact sent.then (.rehead h _ (.inl ⟨attached, .inl rfl, bus.symm, fun _ => by simp⟩))
  · exact (completeTest_deed _ rs bus used).once

theorem absent_of_not_both {α β : Type} {x : Option α} {y : Option β} (h : ∀ a b, x = some a → y = some b → False) :
    x = none ∨ y = none := by
  match x, y with
  | none, _ => exact .inl rfl
  | some _, none => exact .inr rfl
  | some a, some b => exact (h a b rfl rfl).elim

theorem endAbort_deeds (h : HeadNo) (s : State) : Deeds s (endAbort h s) := by
  unfold endAbort
  split
  · next b k bus step =>
    exact (endTest_startRelease_deed ((freeHead_only h s).weaken (by simp)) (.inr (outcomeOn_verdict (.inr rfl)))
      (unjoined_setHead bus rfl (released_out _ (.inl rfl))) _ _).once
  · next alone => exact (freeHead_deed (.inr (absent_of_not_both alone))).once

theorem readHead_deeds (h : HeadNo) (st : ReadingStatus) (v : BitVec 16) (s : State) : Deeds s (readHead h st v s) := by
  unfold readHead
  split
  · next attached =>
    split
    · next b k bus _ =>
      split
      · next p a _ inForce =>
        have used : s.anchor ≠ none := by simp [inForce]
        unfold takeReading
        dsimp only
        split
        · exact (completeTest_deed .hazard _ bus used).once.thenAsides (raiseFlag_asides .hazard _)
        · exact advanceProgram_deeds p _ attached bus used
      · exact Deeds.refl s
    · exact Deeds.refl s
  · exact endAbort_deeds h s
  all_goals exact Deeds.refl s

/-! ## Head failures and clears (R69, R71, R72, R75, R77) -/

theorem endFailedTest_deeds (h : HeadNo) {o : TestOutcome} (verdict : o.verdict = none) (s : State) :
    Deeds s (endFailedTest h o s) := by
  unfold endFailedTest
  split
  · next b k bus step =>
    exact (endTest_startRelease_deed ((suspectHead_only h s).weaken (by simp)) (.inr (outcomeOn_verdict (.inr verdict)))
      (unjoined_setHead bus rfl (released_out _ (.inr rfl))) _ _).once
  · next alone => exact (suspectHead_deed (.inr (absent_of_not_both alone))).once

theorem failHead_deeds (h : HeadNo) {kind : TicketKind} (equipment : kind.mergeable = false) {o : TestOutcome}
    (verdict : o.verdict = none) (elapsed : Nat) (s : State) : Deeds s (failHead h kind o elapsed s) := by
  have failed := ((endFailedTest_deeds h verdict s).thenAsides
    (equipmentEvent_asides equipment (headContext s h elapsed) _)).thenAsides (raiseFlag_asides .head _)
  unfold failHead
  dsimp only
  split
  · exact failed.trans (lossOfLastHead_deeds _)
  · exact failed

theorem startClear_deeds {h : HeadNo} {s : State} (suspect : (s.head h).state = .suspect) : Deeds s (startClear h s) := by
  have sent := (Deeds.refl s).thenQuiet (sendHead_only (.clear h) s) rfl
  refine sent.then (.rehead h _ (.inr ⟨.inl ?_, by simp [Head.joined, Head.clearing], rfl⟩))
  rw [State.sendHead_view_head, Head.joined, suspect]
  simp

end Sys2Proof.Machine
end

section
/-!
PROOFS. The Test Queue, the sweep and the Intake Unit, as deeds.
-/

namespace Sys2Proof.Machine

/-! ## The end of an event -/

theorem finish_deeds (before s : State) : Deeds s (finish before s) := by
  have marked : Deeds s (State.markIfChanged before s) := by
    unfold State.markIfChanged
    split
    · next changed =>
      refine (Deed.mark none fun absent => ?_).once
      simp [absent] at changed
    · exact Deeds.refl s
  exact marked.thenQuiet (retestHold_only _) rfl

/-! ## Changes of the Test Queue -/

/-- The result slots of a list of entries. -/
def queuedSlots (q : List TestEntry) : List Nat := q.flatMap fun e => e.slots.map SlotMember.slot

theorem queuedSlots_append (p q : List TestEntry) : queuedSlots (p ++ q) = queuedSlots p ++ queuedSlots q := by
  simp [queuedSlots]

/-- A queue of fewer entries, all of them queued before. -/
theorem requeued_of_sublist {s : State} {q : List TestEntry} (fewer : q.Sublist s.queue) : Requeued s q where
  used := fun _ empty => by rw [empty] at fewer; exact List.sublist_nil.mp fewer
  room := fun room => fewer.length_le.trans room
  short := fun short e mem => short e (fewer.subset mem)
  masks := fun _ masks e mem => masks e (fewer.subset mem)
  slots := fun distinct => distinct.sublist ((fewer.flatMap _).append_right _)

/-- One entry of the queue gives way to at most one other, of the same program and of no more slots. -/
theorem requeued_of_shrunk {s : State} {before es after : List TestEntry} {e : TestEntry} (queue : s.queue = before ++ e :: after)
    (few : es.length ≤ 1) (shrunk : ∀ x ∈ es, x.slots.Sublist e.slots ∧ x.mask = e.mask) : Requeued s (before ++ es ++ after) := by
  have mem {x : TestEntry} (h : x ∈ before ++ es ++ after) : x ∈ s.queue ∨ x ∈ es := by
    rw [queue]; simp only [List.mem_append, List.mem_cons] at h ⊢; tauto
  have held : e ∈ s.queue := by simp [queue]
  refine
    { used := fun _ empty => by simp [empty] at queue
      room := fun room => by simp only [queue, List.length_append, List.length_cons] at room ⊢; omega
      short := fun short x h => (mem h).elim (short x) fun h' => (shrunk x h').1.length_le.trans (short e held)
      masks := fun _ masks x h => (mem h).elim (masks x) fun h' => (shrunk x h').2 ▸ masks e held
      slots := fun distinct => distinct.sublist (.append_right ?_ _) }
  change (queuedSlots _).Sublist (queuedSlots s.queue)
  rw [queue, List.append_assoc, queuedSlots_append, queuedSlots_append, ← List.singleton_append, queuedSlots_append]
  refine .append_left (.append_right ?_ _) _
  match es, few with
  | [], _ => exact List.nil_sublist _
  | [x], _ => simpa [queuedSlots] using (shrunk x (by simp)).1.map SlotMember.slot

/-- A slot that is in no slot list joins the queue, in an entry with room and a program. -/
theorem requeued_of_joined {s : State} {before after old : List TestEntry} {x : TestEntry} {m : SlotMember}
    (queue : s.queue = before ++ old ++ after) (used : s.anchor ≠ none) (new : m.slot ∉ s.inFlight)
    (slots : x.slots = (old.flatMap TestEntry.slots) ++ [m]) (mask : x.mask ≠ 0)
    (room : s.queue.length ≤ 16 → (before ++ x :: after).length ≤ 16) (short : x.slots.length ≤ 4) :
    Requeued s (before ++ x :: after) := by
  have mem {y : TestEntry} (h : y ∈ before ++ x :: after) : y ∈ s.queue ∨ y = x := by
    rw [queue]; simp only [List.mem_append, List.mem_cons] at h ⊢; tauto
  refine
    { used := fun absent => absurd absent used
      room := room
      short := fun shorts y h => (mem h).elim (shorts y) fun h' => h' ▸ short
      masks := fun _ masks y h => (mem h).elim (masks y) fun h' => h' ▸ mask
      slots := fun distinct => ?_ }
  have slotted : queuedSlots (before ++ x :: after) = (queuedSlots before ++ queuedSlots old) ++ m.slot :: queuedSlots after := by
    simp [queuedSlots, slots, List.map_flatMap]
  have was : queuedSlots s.queue = (queuedSlots before ++ queuedSlots old) ++ queuedSlots after := by
    rw [queue, queuedSlots_append, queuedSlots_append]
  change (queuedSlots _ ++ _).Nodup
  change (queuedSlots _ ++ _).Nodup at distinct
  change m.slot ∉ queuedSlots _ ++ _ at new
  rw [was, List.append_assoc] at distinct new
  rw [slotted, List.append_assoc, List.cons_append]
  exact List.nodup_middle.mpr (List.nodup_cons.mpr ⟨new, distinct⟩)

theorem mergeQueue_some {r : Request} {q q' : List TestEntry} (h : mergeQueue r q = some q') :
    ∃ before e after, q = before ++ e :: after ∧ q' = before ++ e.merge r :: after ∧ CanMerge r e ∧ ∀ x ∈ before, ¬ CanMerge r x := by
  induction q generalizing q' with
  | nil => simp [mergeQueue] at h
  | cons e es ih =>
    unfold mergeQueue at h
    split at h
    · next merges =>
      obtain rfl := Option.some.inj h
      exact ⟨[], e, es, rfl, rfl, (mergesInto_iff r e).mp merges, by simp⟩
    · next apart =>
      obtain ⟨p, hp, rfl⟩ := Option.map_eq_some_iff.mp h
      obtain ⟨before, x, after, rfl, rfl, merges, first⟩ := ih hp
      refine ⟨e :: before, x, after, rfl, rfl, merges, fun y mem => ?_⟩
      rcases List.mem_cons.mp mem with rfl | mem
      · rwa [← mergesInto_iff]
      · exact first y mem

theorem cancelQueued_some {slot : Nat} {q q' : List TestEntry} {m : SlotMember} {l : LineNo}
    (h : cancelQueued slot q = some (m, l, q')) :
    ∃ before e after, q = before ++ e :: after ∧ q' = before ++ e.afterCancel slot ++ after ∧ l = e.line ∧
      findMember slot e.slots = some m ∧ ∀ x ∈ before, findMember slot x.slots = none := by
  induction q generalizing q' with
  | nil => simp [cancelQueued] at h
  | cons e es ih =>
    unfold cancelQueued at h
    split at h
    · next m' found =>
      simp only [Option.some.injEq, Prod.mk.injEq] at h
      obtain ⟨rfl, rfl, rfl⟩ := h
      exact ⟨[], e, es, rfl, rfl, rfl, found, by simp⟩
    · next absent =>
      obtain ⟨⟨m', l', p⟩, hp, eq⟩ := Option.map_eq_some_iff.mp h
      simp only [Prod.mk.injEq] at eq
      obtain ⟨rfl, rfl, rfl⟩ := eq
      obtain ⟨before, x, after, rfl, rfl, line, found, first⟩ := ih hp
      refine ⟨e :: before, x, after, rfl, rfl, line, found, fun y mem => ?_⟩
      rcases List.mem_cons.mp mem with rfl | mem
      · exact absent
      · exact first y mem

theorem dropMember_sublist (slot : Nat) (ms : List SlotMember) : (dropMember slot ms).Sublist ms := List.filter_sublist

theorem afterCancel_shrunk (e : TestEntry) (slot : Nat) :
    (e.afterCancel slot).length ≤ 1 ∧ ∀ x ∈ e.afterCancel slot, x.slots.Sublist e.slots ∧ x.mask = e.mask := by
  unfold TestEntry.afterCancel
  dsimp only
  split
  · split
    · simp
    · simp
  · simpa using dropMember_sublist slot e.slots

/-! ## The selection (R23, R47, R91) -/

theorem selection_some {s : State} {e : TestEntry} {m : Move} {rest : List TestEntry} (h : s.selection = some (e, m, rest)) :
    rest.Sublist s.queue ∧ s.anchor ≠ none := by
  obtain ⟨⟨inForce, -, -⟩, before, after, queue, rfl, -⟩ := (selection_iff s e m rest).mp h
  refine ⟨?_, by simpa [Option.isSome_iff_ne_none] using inForce⟩
  rw [queue]
  exact (List.sublist_cons_self e after).append_left before

theorem leaveQueue_deeds {rest : List TestEntry} {s : State} (fewer : rest.Sublist s.queue) : Deeds s (leaveQueue rest s) :=
  (Deed.queue rest (requeued_of_sublist fewer)).once.thenQuiet (retestWaiting_only true _) rfl

theorem skipEntry_deeds {e : TestEntry} {rest : List TestEntry} {s : State} (selected : s.selection = some (e, .skip, rest)) :
    Deeds s (skipEntry e rest s) := by
  obtain ⟨fewer, used⟩ := selection_some selected
  refine (leaveQueue_deeds fewer).thenAsides (standingLoopCheck_asides e.line ?_)
  rwa [(leaveQueue_only rest s).get .anchor rfl]

/-! ## The sweep (R106–R117) -/

theorem decayGroups_asides (s : State) : Asides s (decayGroups s) := (Asides.refl s).thenQuiet (decayGroups_only s) rfl

theorem passStart_deeds (s : State) : Deeds s (passStart s) := by
  have cleared : Asides s (s.mapLines fun r => { r with yieldMark := false }) := mapLines_asides (f := fun r => { r with yieldMark := false }) (fun _ => rfl) s
  exact cleared.deeds.then (.pointer 0 fun a _ range _ => by omega)

theorem passEnd_deeds (s : State) : Deeds s (passEnd s) := by
  have counted : Asides s (decayGroups { s with epoch := s.epoch + 1 }) :=
    ((Asides.refl s).thenQuiet (setEpoch_only s (s.epoch + 1)) rfl).trans (decayGroups_asides _)
  exact ((counted.trans (closeRegister_asides _)).trans (raiseFlag_asides .passEnd _)).deeds.trans (passStart_deeds _)

theorem advancePointer_deeds (s : State) : Deeds s (advancePointer s) := by
  unfold advancePointer
  split
  · exact passEnd_deeds s
  · next before =>
    refine (Deed.pointer (s.pointer + 1) fun a inForce _ _ => ?_).once
    simpa [State.atLastLine, State.installedCount, State.limit, inForce] using before

theorem advanceFocus_asides (s : State) : Asides s (advanceFocus s) := by
  unfold advanceFocus
  split
  · exact Asides.refl s
  · next f fs focus =>
    split
    · exact setFocus_asides fun short => by rwa [focus] at short
    · exact setFocus_asides fun short => by rw [focus, List.length_cons] at short; omega

theorem issueVisit_deeds {a : Anchor} (l : LineNo) {s : State} (inForce : s.anchor = some a) (room : s.queue.length < 16) :
    Deeds s (issueVisit a l s) := by
  have visited : Requeued s (s.queue ++
      [{ line := l, cls := .sweep, origin := .sweep, mask := a.sweepMask, start := a.sweepStart, order := a.sweepOrder,
         force := false, hold := false, slots := [] }]) :=
    { used := fun absent => by simp [absent] at inForce
      room := fun _ => by simpa using room
      short := fun short e mem => by
        rcases List.mem_append.mp mem with mem | mem
        · exact short e mem
        · rw [List.mem_singleton.mp mem]; simp
      masks := fun programmed masks e mem => by
        rcases List.mem_append.mp mem with mem | mem
        · exact masks e mem
        · rw [List.mem_singleton.mp mem]; exact programmed a inForce
      slots := fun distinct => by
        change (queuedSlots (s.queue ++ [_]) ++ _).Nodup
        rw [queuedSlots_append, show ∀ v : TestEntry, v.slots = [] → queuedSlots [v] = [] by simp [queuedSlots], List.append_nil]
        · exact distinct
        · rfl }
  exact ((Deed.queue _ visited).once.thenQuiet (look_only true _) rfl).thenQuiet (retestWaiting_only false _) rfl

theorem walk_deeds {a : Anchor} (n : Nat) {s : State} (inForce : s.anchor = some a) (room : s.queue.length < 16) :
    Deeds s (walk a n s) := by
  induction n generalizing s with
  | zero => exact Deeds.refl s
  | succ n ih =>
    have used : s.anchor ≠ none := by simp [inForce]
    have kept {fs : List Field} {u : State} (only : OnlyChanges fs s u) (ha : decide (Field.anchor ∈ fs) = false)
        (hq : decide (Field.queue ∈ fs) = false) : u.anchor = some a ∧ u.queue.length < 16 :=
      ⟨(only.get .anchor ha).trans inForce, by rw [only.get .queue hq]; exact room⟩
    unfold walk
    split
    · next f _ _ =>
      split
      · exact (issueVisit_deeds f.line inForce room).thenAsides (advanceFocus_asides _)
      · obtain ⟨inForce', room'⟩ := kept ((standingLoopCheck_only f.line s).comp (advanceFocus_only _)
          (hs := [.outbox, .ticketSeq, .droppedBefore, .droppedTotal, .flags, .lines, .register, .coalescing, .focus]) rfl) rfl rfl
        exact (((standingLoopCheck_asides f.line used).trans (advanceFocus_asides _)).deeds).trans (ih inForce' room')
    · have checked := (standingLoopCheck_asides s.pointerLine used).deeds
      split
      · exact (issueVisit_deeds s.pointerLine inForce room).trans (advancePointer_deeds _)
      · split
        · exact checked.trans (passEnd_deeds _)
        · obtain ⟨inForce', room'⟩ := kept ((standingLoopCheck_only s.pointerLine s).comp (advancePointer_only _)
            (hs := [.lines, .pointer, .epoch, .outbox, .ticketSeq, .droppedBefore, .droppedTotal, .flags, .register, .coalescing,
              .groups]) rfl) rfl rfl
          exact (checked.trans (advancePointer_deeds _)).trans (ih inForce' room')

theorem queue_room_of_obstacle_none {s : State} (h : s.obstacle = .none) : s.queue.length < 16 := by
  unfold State.obstacle at h
  by_contra full
  simp only [not_lt] at full
  simp only [full, decide_true, Bool.true_or, if_true] at h
  split at h
  · simp at h
  · split at h
    · simp at h
    · split at h <;> simp at h

theorem issueAttempt_deeds {a : Anchor} {s : State} (inForce : s.anchor = some a) (ready : s.attemptReady = true) :
    Deeds s (issueAttempt a s) := by
  have free : s.obstacle = .none := by
    simp only [State.attemptReady, Bool.and_eq_true, beq_iff_eq] at ready
    exact ready.1.2
  exact (walk_deeds walkBound inForce (queue_room_of_obstacle_none free)).thenQuiet (setPacing_only _ _) rfl

end Sys2Proof.Machine
end

section
/-!
PROOFS. The takes of the Intake Unit, as deeds.
-/

namespace Sys2Proof.Machine

/-! ## General writer entries -/

/-- How many of the four general writer entries are filled (R160). -/
def State.generalFilled (s : State) : Nat := s.writerQueue.countP WriterEntry.isGeneral

theorem generalFilled_of_only {fs : List Field} {s t : State} (only : OnlyChanges fs s t)
    (apart : decide (Field.writerQueue ∈ fs) = false) : t.generalFilled = s.generalFilled := by
  rw [State.generalFilled, only.get .writerQueue apart, State.generalFilled]

theorem pushEntry_generalFilled {e : WriterEntry} (general : e.isGeneral = true) (s : State) :
    (s.pushEntry e).generalFilled = s.generalFilled + 1 := by
  simp [State.generalFilled, State.pushEntry, general]

/-- A slot is taken with its disposition. -/
theorem dispose_deeds (a : Anchor) (d : Disposition) {s : State} (used : s.anchor ≠ none) (room : s.generalFilled < 4) :
    Deeds s (dispose a d s) :=
  (Deed.push _ ⟨rfl, rfl⟩ room (.inl used)).once.thenQuiet (passSlot_only a _) rfl

/-- A record and then a disposition. -/
theorem push_dispose_deeds (a : Anchor) (d : Disposition) {e : WriterEntry} (kind : e.isGeneral = true ∧ e.isTicket = false) {s : State}
    (used : s.anchor ≠ none) (room : s.generalFilled ≤ 2) : Deeds s (dispose a d (s.pushEntry e)) := by
  have pushed : Deed s [.news, .writerQueue] (s.pushEntry e) := .push e kind (Nat.lt_of_le_of_lt room (by decide)) (.inl used)
  refine pushed.once.trans (dispose_deeds a d used ?_)
  rw [pushEntry_generalFilled kind.1]
  omega

/-- What every take begins with: an anchor in force and two of the general entries empty (R176). -/
structure TakesSlot (a : Anchor) (s : State) : Prop where
  inForce : s.anchor = some a
  room : s.generalFilled ≤ 2

theorem TakesSlot.used {a : Anchor} {s : State} (h : TakesSlot a s) : s.anchor ≠ none := by simp [h.inForce]

theorem TakesSlot.of_only {a : Anchor} {fs : List Field} {s t : State} (h : TakesSlot a s) (only : OnlyChanges fs s t)
    (apart : decide (Field.anchor ∈ fs) = false ∧ decide (Field.writerQueue ∈ fs) = false) : TakesSlot a t :=
  ⟨(only.get .anchor apart.1).trans h.inForce, by rw [generalFilled_of_only only apart.2]; exact h.room⟩

theorem TakesSlot.dispose {a : Anchor} {s : State} (h : TakesSlot a s) (d : Disposition) : Deeds s (dispose a d s) :=
  dispose_deeds a d h.used (Nat.lt_of_le_of_lt h.room (by decide))

theorem TakesSlot.push_dispose {a : Anchor} {s : State} (h : TakesSlot a s) (d : Disposition) {e : WriterEntry}
    (kind : e.isGeneral = true ∧ e.isTicket = false) : Deeds s (Machine.dispose a d (s.pushEntry e)) :=
  push_dispose_deeds a d kind h.used h.room

theorem clearGroupRecord_asides (g : GroupNo) (s : State) : Asides s (clearGroupRecord g s) := by
  have zeroed := (Asides.refl s).thenQuiet (setGroup_only g GroupRecord.zero s) rfl
  have unlisted : Asides (s.setGroup g GroupRecord.zero) (unlistAlarm g (s.setGroup g GroupRecord.zero)) := by
    unfold unlistAlarm
    split
    · exact (setAlarmList_asides fun short => (List.length_filter_le _ _).trans short).thenQuiet (setAlarmOverflow_only _ false) rfl
    · exact Asides.refl _
  exact (zeroed.trans unlisted).trans (setFocus_asides fun short => (List.length_filter_le _ _).trans short)

section
variable {a : Anchor} {s : State} (h : TakesSlot a s) (r : Request)
include h

/-- Deeds that leave anchor and writer as they were, and then the disposition. -/
theorem TakesSlot.then_dispose {fs : List Field} {t : State} (done : Deeds s t) (only : OnlyChanges fs s t)
    (apart : decide (Field.anchor ∈ fs) = false ∧ decide (Field.writerQueue ∈ fs) = false) (d : Disposition) :
    Deeds s (Machine.dispose a d t) := done.trans ((h.of_only only apart).dispose d)

/-! ## TEST and CANCEL (R84–R88, R93–R95) -/

theorem answerTest_deeds {q : List TestEntry} (queue : Requeued s q) (merged : Bool) : Deeds s (answerTest a r merged q s) := by
  have queued := (Deed.queue q queue).once.thenQuiet (look_only true _) rfl
  have there := h.of_only ((setQueue_only s q).comp (look_only true _) (hs := [.queue, .cancelSinceLook]) rfl) ⟨rfl, rfl⟩
  exact queued.trans (there.push_dispose _ ⟨rfl, rfl⟩)

theorem takeTest_deeds : Deeds s (takeTest a r s) := by
  unfold takeTest
  split
  · exact h.dispose _
  · next passes =>
    obtain ⟨mask, new⟩ : r.mask ≠ 0 ∧ r.slot ∉ s.inFlight := by
      unfold checkTest checkSlot at passes
      simp only [List.contains_iff_mem] at passes
      split_ifs at passes with _ mask _ new
      exact ⟨mask, new⟩
    split
    · next q merges =>
      obtain ⟨before, e, after, queue, rfl, merge, -⟩ := mergeQueue_some merges
      refine answerTest_deeds h r (requeued_of_joined (old := [e]) (m := r.member true) (by simp [queue]) h.used new ?_ ?_ ?_ ?_) true
      · simp [TestEntry.merge]
      · intro zero
        have zeros := BitVec.or_eq_zero_iff.mp zero
        exact mask zeros.2
      · simp [queue]
      · simp only [TestEntry.merge, List.length_append, List.length_singleton]
        exact merge.2.2.2.2.2
    · split
      · next room =>
        refine answerTest_deeds h r (requeued_of_joined (before := s.queue) (after := []) (old := []) (m := r.member false) (by simp) h.used
          new (by simp [Request.newEntry]) mask ?_ (by simp [Request.newEntry])) false
        simpa using fun _ => room
      · exact (Deeds.refl s).thenQuiet (setTestWaiting_only s .waiting) rfl

theorem cancelTestOnBus_deeds {b : BusNo} {e : TestEntry} (m : SlotMember) (test : (s.bus b).test = some e) :
    Deeds s (cancelTestOnBus a b e m s) := by
  unfold cancelTestOnBus
  dsimp only
  split
  · exact (h.dispose .done).trans (cancelOnBus_deeds b _)
  · have shrunk : Deed s [.buses] (s.setBus b { s.bus b with test := some { e with slots := dropMember m.slot e.slots } }) :=
      .rebus b _
        { line := rfl
          test := .inr ⟨e, _, test, rfl, dropMember_sublist m.slot e.slots, rfl, rfl⟩
          phase := .inl rfl
          idle := fun idle => by simp [idle, Bus.idle] at test }
    exact shrunk.once.trans ((h.of_only shrunk.only ⟨rfl, rfl⟩).push_dispose .done ⟨rfl, rfl⟩)

theorem takeCancel_deeds : Deeds s (takeCancel a r s) := by
  unfold takeCancel
  split
  · exact h.dispose _
  · split
    · next m l q found =>
      obtain ⟨before, e, after, queue, rfl, -⟩ := cancelQueued_some found
      obtain ⟨few, shrunk⟩ := afterCancel_shrunk e r.slot
      have queued : Deeds s (cancelledQueue (before ++ e.afterCancel r.slot ++ after) s) :=
        (Deed.queue _ (requeued_of_shrunk queue few shrunk)).once.thenQuiet (fs := [.cancelSinceLook])
          (by intro f hf; cases f <;> first | rfl | exact ⟨rfl, fun _ => rfl⟩ | simp at hf) rfl
      exact queued.trans ((h.of_only (cancelledQueue_only _ s) ⟨rfl, rfl⟩).push_dispose .done ⟨rfl, rfl⟩)
    · unfold cancelElsewhere
      split
      · exact h.dispose _
      · split
        · exact h.dispose _
        · next test =>
          split
          · exact h.dispose _
          · exact cancelTestOnBus_deeds h _ test

/-! ## The other requests -/

theorem takeFence_deeds : Deeds s (takeFence a r s) := by
  have passed := (Deeds.refl s).thenQuiet (passSlot_only a s) rfl
  have there := h.of_only (passSlot_only a s) ⟨rfl, rfl⟩
  exact (passed.then (.fence (some s.takeIndex) fun absent => absurd absent there.used)).thenAsides (closeRegister_asides _)

theorem takeReleaseHold_deeds : Deeds s (takeReleaseHold a r s) := by
  unfold takeReleaseHold
  split
  · exact h.dispose _
  · split
    · exact h.dispose _
    · next b named =>
      split
      · next held => exact h.then_dispose (startRelease_deeds (.inl held)) (startRelease_only _ s) ⟨rfl, rfl⟩ .done
      · split
        · have busy : (s.bus b).state ≠ .idle := by
            have found := List.find?_some named
            simp only [Bool.and_eq_true, bne_iff_ne] at found
            exact found.1
          exact h.then_dispose (Deed.rebus b { s.bus b with hold := false } (.of_same_test busy rfl rfl (.inl rfl))).once
            (setBus_only b _ s) ⟨rfl, rfl⟩ .done
        · exact h.dispose _

theorem takeBusReset_deeds : Deeds s (takeBusReset a r s) := by
  unfold takeBusReset
  split
  · dsimp only
    split
    · next faulted => exact h.then_dispose (startRelease_deeds (.inr faulted)) (startRelease_only _ s) ⟨rfl, rfl⟩ .done
    · exact h.dispose _
  · exact h.dispose _

theorem takeHeadReset_deeds : Deeds s (takeHeadReset a r s) := by
  unfold takeHeadReset
  split
  · dsimp only
    split
    · next suspect => exact h.then_dispose (startClear_deeds suspect) (startClear_only _ s) ⟨rfl, rfl⟩ .accepted
    · exact h.dispose _
  · exact h.dispose _

theorem takeStart_deeds : Deeds s (takeStart a r s) :=
  h.then_dispose ((Deeds.refl s).thenQuiet (setSweep_only s .running) rfl) (setSweep_only s .running) ⟨rfl, rfl⟩ .done

theorem takeStop_deeds : Deeds s (takeStop a r s) :=
  h.then_dispose ((Deeds.refl s).thenQuiet (setSweep_only s .stopped) rfl) (setSweep_only s .stopped) ⟨rfl, rfl⟩ .done

theorem takeRestart_deeds : Deeds s (takeRestart a r s) :=
  h.then_dispose ((passStart_deeds s).thenQuiet (setSweep_only _ .running) rfl)
    ((passStart_only s).comp (setSweep_only _ .running) (hs := [.lines, .pointer, .sweep]) rfl) ⟨rfl, rfl⟩ .done

theorem takeSeek_deeds : Deeds s (takeSeek a r s) := by
  unfold takeSeek
  split
  · next installed =>
    have below : r.line.val < a.installed := by
      simpa [State.installed, State.installedCount, State.limit, h.inForce] using installed
    refine h.then_dispose (Deed.pointer r.line.val fun a' inForce _ _ => ?_).once (setPointer_only _ s) ⟨rfl, rfl⟩ .done
    rwa [← Option.some.inj (h.inForce.symm.trans inForce)]
  · exact h.dispose _

theorem takeClearGroup_deeds : Deeds s (takeClearGroup a r s) := by
  unfold takeClearGroup
  split
  · dsimp only
    split
    · exact h.then_dispose (clearGroupRecord_asides _ s).deeds (clearGroupRecord_only _ s) ⟨rfl, rfl⟩ .done
    · exact h.dispose _
  · exact h.dispose _

theorem takeLineQuery_deeds : Deeds s (takeLineQuery a r s) := by
  unfold takeLineQuery
  split
  · exact h.dispose _
  · exact h.push_dispose .done ⟨rfl, rfl⟩

end

end Sys2Proof.Machine
end

section
/-!
PROOFS. The memory path: host accesses, a commit attempt, the writer, as deeds.
-/

namespace Sys2Proof.Machine

/-! ## A commit attempt (R170, R173, R174) -/

/-- The writer is at rest where no anchor is in force: nothing is pending and the path is not the writer's. -/
def WriterRests (s : State) : Prop := s.anchor = none → s.writerQueue = [] ∧ s.path.isWriter = false

theorem WriterRests.of_only {fs : List Field} {s t : State} (h : WriterRests s) (only : OnlyChanges fs s t)
    (apart : decide (Field.anchor ∈ fs) = false ∧ decide (Field.writerQueue ∈ fs) = false ∧ decide (Field.path ∈ fs) = false) :
    WriterRests t := by
  intro absent
  rw [only.get .writerQueue apart.2.1, only.get .path apart.2.2]
  exact h ((only.get .anchor apart.1).symm.trans absent)

theorem setLastCommit_only (c : Option CommitRecord) (s : State) : OnlyChanges [.lastCommit] s { s with lastCommit := c } := by
  intro f hf; cases f <;> first | rfl | exact ⟨rfl, fun _ => rfl⟩ | simp at hf

theorem refuseCommit_asides (c : CommitRecord) (s : State) : Asides s (refuseCommit c s) := by
  unfold refuseCommit
  split
  · exact ((Asides.refl s).thenQuiet (setLastCommit_only (some c) s) rfl).trans (raiseFlag_asides .commit _)
  · exact Asides.refl s

theorem refuseCommit_markDirty_deeds (c : CommitRecord) {s : State} (rests : WriterRests s) :
    Deeds s ((refuseCommit c s).markDirty (some c)) := by
  have rests' := rests.of_only (refuseCommit_only c s) ⟨rfl, rfl, rfl⟩
  exact (refuseCommit_asides c s).deeds.then (.mark (some c) fun absent => ⟨by simp, rests' absent⟩)

theorem generation_of_isAttempt {data : Word} {s : State} (attempt : s.isAttempt data = true) :
    1 ≤ field data 0 8 ∧ field data 0 8 ≤ 255 := by
  have below : field data 0 8 < 256 := by rw [field_zero]; exact Nat.mod_lt _ (by decide)
  simp only [State.isAttempt, Bool.and_eq_true, bne_iff_ne] at attempt
  omega

theorem commitAttempt_deeds {data : Word} {s : State} (attempt : s.isAttempt data = true) (rests : WriterRests s) :
    Deeds s (commitAttempt data s) := by
  have closed := (closeRegister_asides s).deeds
  have rests' := rests.of_only (closeRegister_only s) ⟨rfl, rfl, rfl⟩
  unfold commitAttempt
  dsimp only
  split
  · next accepted =>
    refine (closed.then (.accept _ accepted (generation_of_isAttempt attempt))).then (.mark _ fun absent => ?_)
    simp [acceptCommit, clearAllGroups] at absent
  all_goals exact closed.trans (refuseCommit_markDirty_deeds _ rests')

/-! ## Host accesses (R156–R158) -/

theorem acknowledgeFlags_asides (data : Word) (s : State) : Asides s (s.acknowledgeFlags data) :=
  (Aside.flags (acknowledgeFlags_only data s) fun _ f clear => by simp [acknowledgeFlags_view_flag, clear]).once

theorem handToOwner_deeds (w : Nat) (data : Word) (be : BitVec 4) {s : State} (rests : WriterRests s) :
    Deeds s (handToOwner w data be s) := by
  unfold handToOwner
  split
  · unfold writeAnchorBlock
    dsimp only
    have merged := (Deeds.refl s).thenQuiet (mergeStaging_only (Fin.ofNat 32 ((w - 0x200) / 4)) data be s) rfl
    split
    · next attempt => exact merged.trans (commitAttempt_deeds attempt.2.2 (rests.of_only (mergeStaging_only _ data be s) ⟨rfl, rfl, rfl⟩))
    · exact merged
  · split
    · exact Deeds.refl s
    · next a inForce =>
      split
      · exact (Deeds.refl s).thenQuiet (writeShadow_only _ _ data be s) rfl
      · split
        · unfold writeStatusBlock
          split
          · refine (acknowledgeFlags_asides data s).deeds.then (.mark none fun absent => ?_)
            rw [(acknowledgeFlags_only data s).get .anchor rfl, inForce] at absent
            simp at absent
          · split
            · exact (Deed.consume a data inForce).once
            · exact Deeds.refl s
        · exact Deeds.refl s

theorem starvation_asides {s : State} {n : Nat} (short : s.starvation ≤ 16 → n ≤ 16) : Asides s { s with starvation := n } :=
  (Aside.counts ((setStarvation_only s n).weaken (by simp)) ⟨id, id, short, id, id⟩).once

theorem countStarved_le (waited : Bool) {n : Nat} (short : n ≤ 16) : countStarved waited n ≤ 16 := by
  unfold countStarved
  split
  · exact Nat.min_le_left _ _
  · exact short

/-- An access leaves the pins of a free path. -/
theorem endAccess_deeds {rest : List HostAccess} {s : State} (free : s.path = .free) : Deeds s (endAccess rest s) := by
  have left : OnlyChanges [.hostAccesses, .readHold, .resultHoldSpent] s
      { s with path := .free, hostAccesses := rest, readHold := none, resultHoldSpent := false } := by
    intro f hf; cases f <;> first | rfl | exact ⟨rfl, fun _ => rfl⟩ | exact free.symm | simp at hf
  exact ((Deeds.refl s).thenQuiet left rfl).thenAsides (starvation_asides fun short => countStarved_le _ short)

/-- Memory is written, by the host or by the writer. -/
theorem memory_deed {m : List Host.Cell} {s : State} (wf : Memory.wf s.mem = true → Memory.wf m = true) :
    Deed s [.mem] { s with mem := m } := .mem (setMem_only s m) wf

/-- Taking the path and giving it back within one event shows nowhere. -/
theorem performWrite_eq {s : State} (addr : HostAddr) (data : Word) (be : BitVec 4) (rest : List HostAccess) :
    performWrite addr data be rest s =
      finish (endAccess rest { s with mem := Memory.writeLanes s.mem (wordAddr addr) data be })
        (handToOwner (wordAddr addr) data be (endAccess rest { s with mem := Memory.writeLanes s.mem (wordAddr addr) data be })) := rfl

theorem setReadData_only (r : Option ReadResult) (s : State) : OnlyChanges [.readData] s { s with readData := r } := by
  intro f hf; cases f <;> first | rfl | exact ⟨rfl, fun _ => rfl⟩ | simp at hf

theorem serveHost_deeds (n : Nat) (s : State) : Deeds s (serveHost n s) := by
  induction n generalizing s with
  | zero => exact Deeds.refl s
  | succ n ih =>
    unfold serveHost
    split
    · exact Deeds.refl s
    · next addr data be rest _ =>
      split
      · next may =>
        obtain ⟨free, turn⟩ := (hostMayTake_iff s).mp may
        rw [performWrite_eq]
        have written := (memory_deed (s := s) (Memory.wf_writeLanes (wordAddr addr) data be)).once.trans
          (endAccess_deeds (rest := rest) free)
        have rests : WriterRests (endAccess rest { s with mem := Memory.writeLanes s.mem (wordAddr addr) data be }) := fun absent =>
          ⟨turn.resolve_right fun inForce => by
            rw [show s.anchor = none from absent] at inForce; simp at inForce, rfl⟩
        exact ((written.trans (handToOwner_deeds _ data be rests)).trans (finish_deeds _ _)).trans (ih _)
      · exact Deeds.refl s
    · next addr be rest _ =>
      split
      · exact (Deeds.refl s).thenQuiet (setReadHold_only s _) rfl
      · split
        · next may =>
          obtain ⟨free, -⟩ := (hostMayTake_iff s).mp may
          have read := (Deeds.refl s).thenQuiet
            (setReadData_only (some { addr := addr, be := be, data := Memory.readLanes s.mem (wordAddr addr) be }) s) rfl
          exact (read.trans (endAccess_deeds (rest := rest) free)).trans (ih _)
        · exact (Deeds.refl s).thenQuiet (setReadHold_only s _) rfl

theorem serveAll_deeds (s : State) : Deeds s (serveAll s) := serveHost_deeds _ s

theorem present_deeds (x : HostAccess) (s : State) : Deeds s (present x s) := by
  unfold present
  split
  · exact ((Deeds.refl s).thenQuiet (setHostAccesses_only s [x]) rfl).trans (serveAll_deeds _)
  · exact (Deeds.refl s).thenQuiet (setHostAccesses_only s _) rfl

/-! ## The writer (R162, R163) -/

theorem showFlags_asides (fs : List Flag) (s : State) : Asides s (s.showFlags fs) :=
  (Aside.flags (showFlags_only fs s) fun _ f clear => by
    rw [State.showFlags, foldl_showFlag, clear]; simp).once

/-- What a performed entry brings about, but for the produce index of a ticket (R162). -/
theorem performed_deeds (e : WriterEntry) (fs : List Flag) (s : State) :
    Deeds { s with produce := if e.isTicket then s.produce + 1 else s.produce } (performed e fs s) := by
  have raised (f : Flag) (u : State) := (raiseFlag_asides f u).deeds
  cases e with
  | bus b r slots => exact ((Deeds.refl s).thenQuiet (look_only true s) rfl).trans (raised .result _)
  | cancelled i r => exact raised .result s
  | query i r => exact raised .result s
  | inProgress i r => exact Deeds.refl s
  | disposition i d fence =>
    change Deeds s (if d.isRefusal then s.raiseFlag .refused else if fence then s.raiseFlag .fence else s)
    split
    · exact raised .refused s
    · split
      · exact raised .fence s
      · exact Deeds.refl s
  | ticket i n d k => exact raised .ticket _
  | status o => exact (showFlags_asides fs s).deeds

theorem entryWritten_nil {s : State} (fs : List Flag) (none : s.writerQueue = []) : entryWritten fs s = s := by
  rw [entryWritten, none]

theorem entryWritten_deeds {s u : State} (fs : List Flag) (writing : s.path.isWriter = true) (free : u = { s with path := .free }) :
    Deeds s (entryWritten fs u) := by
  have same : u.writerQueue = s.writerQueue := by rw [free]
  have shorter {b r m m' ms es} (queue : s.writerQueue = .bus b r (m :: m' :: ms) :: es) : Deeds s (entryWritten fs u) := by
    rw [entryWritten_more fs (same.trans queue), free]
    exact (Deed.shortened b r m (m' :: ms) es queue writing).once
  match queue : s.writerQueue with
  | [] =>
    rw [entryWritten_nil fs (same.trans queue), free]
    exact (Deed.freed queue).once
  | e :: es =>
    by_cases more : ∃ b r m m' ms, e = .bus b r (m :: m' :: ms)
    · obtain ⟨b, r, m, m', ms, rfl⟩ := more
      exact shorter queue
    · rw [entryWritten_done fs (same.trans queue) fun b r m m' ms h => more ⟨b, r, m, m', ms, h⟩, free]
      have done := (Deed.popped e es queue writing).once.trans
        (performed_deeds e fs { s with writerQueue := es, path := .free })
      split
      · exact done.thenQuiet (retestWaiting_only true _) rfl
      · exact done

theorem resetStarvation_deeds (s : State) : Deeds s (resetStarvation s) := by
  unfold resetStarvation
  split
  · exact (starvation_asides fun _ => Nat.zero_le _).deeds
  · exact Deeds.refl _

theorem writeRecord_deeds {s : State} {r : Transfer} (writing : s.path = .writer r) : Deeds s (writeRecord r s) := by
  have written := memory_deed (s := s) (Memory.wf_writeWords r.words)
  have moved := written.once.trans (entryWritten_deeds (s := { s with mem := Memory.writeWords s.mem r.words }) r.flags
    (show s.path.isWriter = true by rw [writing]; rfl) rfl)
  exact moved.trans (resetStarvation_deeds _)

/-! ## What stands for a change of the status image (R161, R178) -/

/-- The fields that the status image shows. -/
def imageFields : List Field :=
  [.anchor, .lastCommit, .resyncPending, .flags, .takeIndex, .queue, .produce, .sweep, .heads, .buses, .outbox, .pointer, .epoch,
    .droppedTotal, .alarmList, .alarmOverflow]

theorem statusImage_of_only {fs : List Field} {s t : State} (only : OnlyChanges fs s t) (away : apart imageFields fs = true) :
    t.statusImage = s.statusImage := by
  have anchor : t.anchor = s.anchor := only.same_of_apart away (f := .anchor) (by simp [imageFields])
  have lastCommit : t.lastCommit = s.lastCommit := only.same_of_apart away (f := .lastCommit) (by simp [imageFields])
  have resync : t.resyncPending = s.resyncPending := only.same_of_apart away (f := .resyncPending) (by simp [imageFields])
  have flags : t.flags = s.flags := only.same_of_apart away (f := .flags) (by simp [imageFields])
  have takeIndex : t.takeIndex = s.takeIndex := only.same_of_apart away (f := .takeIndex) (by simp [imageFields])
  have queue : t.queue = s.queue := only.same_of_apart away (f := .queue) (by simp [imageFields])
  have produce : t.produce = s.produce := only.same_of_apart away (f := .produce) (by simp [imageFields])
  have sweep : t.sweep = s.sweep := only.same_of_apart away (f := .sweep) (by simp [imageFields])
  have heads : t.heads = s.heads := only.same_of_apart away (f := .heads) (by simp [imageFields])
  have buses : t.buses = s.buses := only.same_of_apart away (f := .buses) (by simp [imageFields])
  have outbox : t.outbox = s.outbox := only.same_of_apart away (f := .outbox) (by simp [imageFields])
  have pointer : t.pointer = s.pointer := only.same_of_apart away (f := .pointer) (by simp [imageFields])
  have epoch : t.epoch = s.epoch := only.same_of_apart away (f := .epoch) (by simp [imageFields])
  have dropped : t.droppedTotal = s.droppedTotal := only.same_of_apart away (f := .droppedTotal) (by simp [imageFields])
  have alarmList : t.alarmList = s.alarmList := only.same_of_apart away (f := .alarmList) (by simp [imageFields])
  have alarmOverflow : t.alarmOverflow = s.alarmOverflow := only.same_of_apart away (f := .alarmOverflow) (by simp [imageFields])
  calc t.statusImage
      = State.statusImage
          { s with anchor := t.anchor, lastCommit := t.lastCommit, resyncPending := t.resyncPending, flags := t.flags,
                   takeIndex := t.takeIndex, queue := t.queue, produce := t.produce, sweep := t.sweep, heads := t.heads,
                   buses := t.buses, outbox := t.outbox, pointer := t.pointer, epoch := t.epoch, droppedTotal := t.droppedTotal,
                   alarmList := t.alarmList, alarmOverflow := t.alarmOverflow } := rfl
    _ = s.statusImage := by
      rw [anchor, lastCommit, resync, flags, takeIndex, queue, produce, sweep, heads, buses, outbox, pointer, epoch, dropped, alarmList,
        alarmOverflow]

/-- While a record is written its entry stands in the writer (R162). -/
def WritesPending (s : State) : Prop := s.path.isWriter = true → s.writerQueue ≠ []

theorem WritesPending.of_only {fs : List Field} {s t : State} (h : WritesPending s) (only : OnlyChanges fs s t)
    (away : apart [.path, .writerQueue] fs = true) : WritesPending t := by
  have path : t.path = s.path := only.same_of_apart away (f := .path) (by simp)
  have queue : t.writerQueue = s.writerQueue := only.same_of_apart away (f := .writerQueue) (by simp)
  unfold WritesPending
  rwa [path, queue]

theorem markDirty_writerQueue_ne_nil (s : State) (o : Option CommitRecord) : (s.markDirty o).writerQueue ≠ [] := by
  have some (l : List WriterEntry) : markStatus o l ≠ [] := by
    obtain ⟨e, mem, -⟩ := markStatus_has o l
    exact List.ne_nil_of_mem mem
  unfold State.markDirty
  split
  · split
    · exact some []
    · exact List.cons_ne_nil _ _
  · exact some _

theorem Retired.writesPending {b : BusNo} {s t : State} (ended : Retired b s t) (h : WritesPending s) : WritesPending t := by
  intro writing
  rw [ended.only.get .path rfl] at writing
  rcases ended.queued with ⟨-, same⟩ | ⟨-, r, more⟩
  · rw [same]
    exact h writing
  · rw [more]
    simp

theorem Deed.writesPending {s t : State} {fs : List Field} (d : Deed s fs t) (h : WritesPending s) : WritesPending t := by
  by_cases away : apart [.path, .writerQueue] fs = true
  · exact h.of_only d.only away
  · cases d with
    | aside deed => cases deed <;> exact absurd rfl away
    | push e => exact fun _ => by rw [State.pushEntry_writerQueue]; simp
    | ticket q qs next ready =>
      rw [moveTicket, next]
      simp only [ready, if_true]
      exact fun _ => by rw [State.pushEntry_writerQueue]; simp
    | mark o => exact fun _ => markDirty_writerQueue_ne_nil s o
    | path may =>
      intro _
      rw [(takePath_only s).get .writerQueue rfl]
      exact ((writerMayTake_iff s).mp may).2.1
    | popped | shortened | freed | cold | warm => exact fun writing => absurd writing Bool.false_ne_true
    | retire b ended => exact ended.writesPending h
    | _ => exact absurd rfl away

/-- While an anchor is in force a change of the image stands in a status entry that is not yet begun. -/
def Marked (s t : State) : Prop := t.anchor ≠ none → t.statusImage ≠ s.statusImage → StatusPending t

theorem marked_of_image {s t : State} (same : t.statusImage = s.statusImage) : Marked s t := fun _ changed => absurd same changed

theorem StatusPending.of_only {fs : List Field} {s t : State} (h : StatusPending s) (only : OnlyChanges fs s t)
    (away : apart [.path, .writerQueue] fs = true) : StatusPending t := by
  have path : t.path = s.path := only.same_of_apart away (f := .path) (by simp)
  have queue : t.writerQueue = s.writerQueue := only.same_of_apart away (f := .writerQueue) (by simp)
  unfold StatusPending
  rwa [path, queue]

theorem StatusPending.finish {s : State} (h : StatusPending s) (before : State) : StatusPending (finish before s) := by
  have marked : State.markIfChanged before s = s := by
    unfold State.markIfChanged
    split
    · exact markDirty_keep s h
    · rfl
  unfold Machine.finish
  rw [marked]
  exact h.of_only (retestHold_only s) rfl

theorem finish_statusImage (before s : State) : (finish before s).statusImage = s.statusImage :=
  statusImage_of_only (finish_only before s) rfl

theorem finish_marked {before s : State} (writes : WritesPending s) : Marked before (finish before s) := by
  intro used changed
  rw [finish_statusImage] at changed
  rw [finish_anchor] at used
  unfold finish State.markIfChanged
  rw [if_pos (by simpa [Option.isSome_iff_ne_none, used] using fun same => changed same.symm)]
  exact (markDirty_pending none s writes).of_only (retestHold_only _) rfl

/-- What accesses of the host do: a status entry that is pending stays so, and one comes with every change of the image or the anchor. -/
def Shown (s t : State) : Prop := ¬ StatusPending t → ¬ StatusPending s ∧ t.statusImage = s.statusImage ∧ t.anchor = s.anchor

theorem Shown.refl (s : State) : Shown s s := fun absent => ⟨absent, rfl, rfl⟩

theorem Shown.trans {s t u : State} (h : Shown s t) (k : Shown t u) : Shown s u := by
  intro absent
  obtain ⟨before, image, anchor⟩ := k absent
  obtain ⟨first, image', anchor'⟩ := h before
  exact ⟨first, image.trans image', anchor.trans anchor'⟩

theorem shown_of_only {fs : List Field} {s t : State} (only : OnlyChanges fs s t)
    (away : apart ([.path, .writerQueue] ++ imageFields) fs = true) : Shown s t := by
  unfold apart at away
  rw [List.all_append, Bool.and_eq_true] at away
  exact fun absent => ⟨fun pending => absent (pending.of_only only away.1), statusImage_of_only only away.2,
    only.same_of_apart away.2 (f := .anchor) (by simp [imageFields])⟩

theorem Marked.shown {s t u : State} (h : Marked s t) (k : Shown t u) : Marked s u := by
  intro used changed
  by_contra absent
  obtain ⟨before, image, anchor⟩ := k absent
  exact before (h (anchor ▸ used) (image ▸ changed))

theorem commitAttempt_pending (data : Word) {s : State} (free : s.path = .free) : StatusPending (commitAttempt data s) := by
  have closed : (closeRegister s).path = .free := ((closeRegister_only s).get .path rfl).trans free
  have marked (c : CommitRecord) {fs : List Field} {t : State} (only : OnlyChanges fs (closeRegister s) t)
      (kept : decide (Field.path ∈ fs) = false) : StatusPending (t.markDirty (some c)) :=
    markDirty_pending (some c) t fun writing => by
      rw [only.get .path kept, closed] at writing
      simp [Path.isWriter] at writing
  unfold commitAttempt
  dsimp only
  split
  · exact marked _ (acceptCommit_only _ _) rfl
  all_goals exact marked _ (refuseCommit_only _ _) rfl

theorem handToOwner_shown (w : Nat) (data : Word) (be : BitVec 4) {s : State} (free : s.path = .free) :
    Shown s (handToOwner w data be s) := by
  unfold handToOwner
  split
  · unfold writeAnchorBlock
    dsimp only
    have merged := mergeStaging_only (Fin.ofNat 32 ((w - 0x200) / 4)) data be s
    split
    · exact fun absent => absurd (commitAttempt_pending data ((merged.get .path rfl).trans free)) absent
    · exact shown_of_only merged rfl
  · split
    · exact .refl s
    · split
      · exact shown_of_only (writeShadow_only _ _ data be s) rfl
      · split
        · unfold writeStatusBlock
          split
          · have pending : StatusPending (acknowledge data s) := markDirty_pending none _ fun writing => by
              rw [(acknowledgeFlags_only data s).get .path rfl, free] at writing
              simp [Path.isWriter] at writing
            exact fun absent => absurd pending absent
          · split
            · exact shown_of_only (offerConsume_only _ data s) rfl
            · exact .refl s
        · exact .refl s

theorem Shown.finish {s t : State} (h : Shown s t) (before : State) : Shown s (finish before t) := by
  intro absent
  obtain ⟨first, image, anchor⟩ := h fun pending => absent (pending.finish before)
  exact ⟨first, (finish_statusImage before t).trans image, (finish_anchor before t).trans anchor⟩

theorem endAccess_only_of_free {rest : List HostAccess} {s : State} (free : s.path = .free) :
    OnlyChanges [.hostAccesses, .readHold, .resultHoldSpent, .starvation] s (endAccess rest s) := by
  intro f hf; cases f <;> first | rfl | exact ⟨rfl, fun _ => rfl⟩ | exact free.symm | simp at hf

theorem serveHost_shown (n : Nat) (s : State) : Shown s (serveHost n s) := by
  induction n generalizing s with
  | zero => exact .refl s
  | succ n ih =>
    unfold serveHost
    split
    · exact .refl s
    · next addr data be rest _ =>
      split
      · next may =>
        obtain ⟨free, -⟩ := (hostMayTake_iff s).mp may
        rw [performWrite_eq]
        have written := setMem_only s (Memory.writeLanes s.mem (wordAddr addr) data be)
        have ended := endAccess_only_of_free (rest := rest) (s := { s with mem := Memory.writeLanes s.mem (wordAddr addr) data be }) free
        have stored := (shown_of_only written rfl).trans (shown_of_only ended rfl)
        exact (stored.trans ((handToOwner_shown (wordAddr addr) data be rfl).finish _)).trans (ih _)
      · exact .refl s
    · next addr be rest _ =>
      split
      · exact shown_of_only (setReadHold_only s _) rfl
      · split
        · next may =>
          obtain ⟨free, -⟩ := (hostMayTake_iff s).mp may
          have read := setReadData_only (some { addr := addr, be := be, data := Memory.readLanes s.mem (wordAddr addr) be }) s
          exact ((shown_of_only read rfl).trans (shown_of_only (endAccess_only_of_free (rest := rest) free) rfl)).trans (ih _)
        · exact shown_of_only (setReadHold_only s _) rfl

theorem serveAll_shown (s : State) : Shown s (serveAll s) := serveHost_shown _ s

theorem present_shown (x : HostAccess) (s : State) : Shown s (present x s) := by
  unfold present
  split
  · exact (shown_of_only (setHostAccesses_only s [x]) rfl).trans (serveAll_shown _)
  · exact shown_of_only (setHostAccesses_only s _) rfl

end Sys2Proof.Machine
end

section
/-!
PROOFS. Every command, and every step, is a sequence of deeds. Settles O3 and O52.
-/

namespace Sys2Proof.Machine

/-- A command answers a next state, reached by deeds; a status entry stands for a change of the status image. -/
def Works (s : State) (o : Host.Outcome State Fault Refusal) : Prop :=
  ∃ t, o = .next t ∧ Deeds s t ∧ (WritesPending s → Marked s t)

theorem Deeds.works_of_image {s t : State} (h : Deeds s t) (same : t.statusImage = s.statusImage) : Works s (.next t) :=
  ⟨t, rfl, h, fun _ => marked_of_image same⟩

theorem works_same (s : State) : Works s (.next s) := (Deeds.refl s).works_of_image rfl

/-- What a command has heard changes no more than what is known to have been sent. -/
theorem works_of_heard {s t : State} (h : OnlyChanges [.begun] s t) : Works s (.next t) :=
  ((Deeds.refl s).thenQuiet h rfl).works_of_image (statusImage_of_only h rfl)

/-- The end of the event that the deeds make up. -/
theorem Deeds.finishes {s t : State} (h : Deeds s t) : Works s (.next (finish s t)) :=
  ⟨_, rfl, h.trans (finish_deeds s t), fun writes => finish_marked (h.keeps Deed.writesPending writes)⟩

/-- After deeds that have marked their changes, the host's accesses are looked at again. -/
theorem Deeds.serves {s t : State} (h : Deeds s t) (marked : WritesPending s → Marked s t) : Works s (.next (serveAll t)) :=
  ⟨_, rfl, h.trans (serveAll_deeds t), fun writes => (marked writes).shown (serveAll_shown t)⟩

theorem takeIf_works (s : State) (p : Request → Bool) {act : Anchor → Request → State → State}
    (taken : ∀ {a}, TakesSlot a s → ∀ r, Deeds s (act a r s)) : Works s (.next (takeIf s p act)) := by
  unfold takeIf
  split
  · next a r takes =>
    obtain ⟨inForce, -, -, room, -⟩ := takes_of_takeable takes
    split
    · exact (taken ⟨inForce, room⟩ r).finishes
    · exact works_same s
  · exact works_same s

theorem heard_deeds {s t : State} (h : OnlyChanges [.begun] s t) : Deeds s t := (Deeds.refl s).thenQuiet h rfl

section
variable (s : State)

/-! ## The exchange link -/

theorem report_occupying (r : LineRecord) (v : Supervision) (epoch : Count16) : (r.report v epoch).occupying = r.occupying := by
  unfold LineRecord.report
  split
  · rfl
  · split <;> rfl

theorem execState_works (l : LineNo) (v : Option Reported) : Works s (execState l v s) := by
  cases v with
  | none => exact works_same s
  | some v =>
    exact ((setLine_asides (report_occupying _ _ _)).deeds.thenQuiet (look_only _ _) rfl).finishes

theorem execGrant_works (l : LineNo) (c : ClaimNo) : Works s (execGrant l c s) :=
  ((heard_deeds (heardAnswer_only l c s)).trans (takeGrant_deeds l c _)).finishes

theorem execDeny_works (l : LineNo) (c : ClaimNo) (reason : Option DenyReason) : Works s (execDeny l c reason s) := by
  cases reason with
  | none => exact works_same s
  | some r => exact ((heard_deeds (heardAnswer_only l c s)).trans (takeDeny_deeds l c r _)).finishes

theorem execRecall_works (l : LineNo) (c : ClaimNo) : Works s (execRecall l c s) :=
  ((heard_deeds (heardAnswer_only l c s)).trans (takeRecall_deeds l c _)).finishes

theorem resynced_occupying (r : LineRecord) : r.resynced.occupying = r.occupying := by
  unfold LineRecord.resynced
  split <;> rfl

theorem endResync_asides : Asides s (endResync s) :=
  (((mapLines_asides resynced_occupying s).thenQuiet (setResyncPending_only _ false) rfl).thenQuiet (look_only true _) rfl).trans
    (raiseFlag_asides .link _)

theorem execResyncEnd_works : Works s (execResyncEnd s) := by
  have only := heardResyncEnd_only s
  have heard := heard_deeds only
  unfold execResyncEnd
  split
  · exact (heard.thenAsides (endResync_asides _)).finishes
  · exact works_of_heard only

/-! ## The matrix link and the bus timers -/

theorem execSettled_works (bus : Nat) : Works s (execSettled bus s) := by
  unfold execSettled
  split
  · next h =>
    have only := heardSettled_only ⟨bus, h⟩ s
    have heard := heard_deeds only
    dsimp only
    split
    · next awaited => exact (heard.trans (settleBus_deeds awaited.1)).finishes
    · exact works_of_heard only
  · exact works_same s

theorem execOpened_works (bus : Nat) : Works s (execOpened bus s) := by
  unfold execOpened
  split
  · next h =>
    have only := heardOpened_only ⟨bus, h⟩ s
    have heard := heard_deeds only
    dsimp only
    split
    · next awaited => exact (heard.trans (releaseBus_deeds awaited.1)).finishes
    · exact works_of_heard only
  · exact works_same s

theorem execXpFault_works (bus : Nat) : Works s (execXpFault bus s) := by
  unfold execXpFault
  split
  · next h =>
    have only := heardXpFault_only ⟨bus, h⟩ s
    have heard := heard_deeds only
    dsimp only
    split
    · next awaited => exact (heard.trans (failSeizure_deeds _ (by rw [only.bus rfl]; exact awaited.1))).finishes
    · split
      · next awaited => exact (heard.trans (failRelease_deeds _ _ (by rw [only.bus rfl]; exact awaited.1))).finishes
      · exact works_of_heard only
  · exact works_same s

theorem execClaimTimerExpiry_works (b : BusNo) : Works s (execClaimTimerExpiry b s) := by
  unfold execClaimTimerExpiry
  split
  · next due => exact (claimTimeout_deeds due.1).finishes
  · exact works_same s

theorem execSettleTimerExpiry_works (b : BusNo) : Works s (execSettleTimerExpiry b s) := by
  unfold execSettleTimerExpiry
  split
  · next due => exact (failSeizure_deeds 50 due.1).finishes
  · exact works_same s

theorem execOpenTimerExpiry_works (b : BusNo) : Works s (execOpenTimerExpiry b s) := by
  unfold execOpenTimerExpiry
  split
  · next due => exact (failRelease_deeds .timeout 50 due.1).finishes
  · exact works_same s

theorem execHoldTimerExpiry_works (b : BusNo) : Works s (execHoldTimerExpiry b s) := by
  unfold execHoldTimerExpiry
  split
  · next due => exact ((startRelease_deeds (.inl due.1)).thenAsides (raiseFlag_asides .holdEnd _)).finishes
  · exact works_same s

/-! ## The head link and the head timers -/

theorem execReading_works (head : Nat) (st : Option ReadingStatus) (v : BitVec 16) : Works s (execReading head st v s) := by
  unfold execReading
  split
  · split
    · exact ((heard_deeds (heardReading_only _ s)).trans (readHead_deeds _ _ v _)).finishes
    · exact works_same s
  · exact works_same s

theorem execAborted_works (head : Nat) : Works s (execAborted head s) := by
  unfold execAborted
  split
  · next h =>
    have only := heardAborted_only ⟨head, h⟩ s
    have heard := heard_deeds only
    dsimp only
    split
    · exact (heard.trans (endAbort_deeds _ _)).finishes
    · exact works_of_heard only
  · exact works_same s

theorem not_joined_of_clearing {r : Head} (clearing : r.state = .clearing) : ¬ r.joined := by simp [Head.joined, clearing]

theorem execReady_works (head : Nat) : Works s (execReady head s) := by
  unfold execReady
  split
  · next h =>
    have only := heardReady_only ⟨head, h⟩ s
    have heard := heard_deeds only
    dsimp only
    split
    · next clearing =>
      have freed := heard.then (freeHead_deed (.inl (not_joined_of_clearing (by rw [only.head rfl]; exact clearing))))
      exact ((freed.thenQuiet (look_only true _) rfl).thenAsides (raiseFlag_asides .head _)).finishes
    · exact works_of_heard only
  · exact works_same s

theorem execHeadError_works (head : Nat) : Works s (execHeadError head s) := by
  unfold execHeadError
  split
  · split
    · exact works_same s
    all_goals exact (failHead_deeds _ rfl rfl _ s).finishes
  · exact works_same s

theorem execStepWatchdogExpiry_works (h : HeadNo) : Works s (execStepWatchdogExpiry h s) := by
  unfold execStepWatchdogExpiry
  split
  · exact (failHead_deeds h rfl rfl _ s).finishes
  · exact works_same s

theorem execAbortTimerExpiry_works (h : HeadNo) : Works s (execAbortTimerExpiry h s) := by
  unfold execAbortTimerExpiry
  split
  · exact (failHead_deeds h rfl rfl 100 s).finishes
  · exact works_same s

theorem execClearTimerExpiry_works (h : HeadNo) : Works s (execClearTimerExpiry h s) := by
  unfold execClearTimerExpiry
  split
  · next due =>
    exact ((suspectHead_deed (.inl (not_joined_of_clearing due.1))).once.thenAsides (raiseFlag_asides .head _)).finishes
  · exact works_same s

theorem execHeadGrant_works : Works s (execHeadGrant s) := by
  unfold execHeadGrant
  split
  · next b rest h first free => exact (Deed.grant h b rest first free).once.finishes
  · exact works_same s

/-! ## The Test Queue, the sweep and the tickets -/

theorem execEntryToIdleBus_works : Works s (execEntryToIdleBus s) := by
  unfold execEntryToIdleBus
  split
  · next e b rest selected => exact (Deed.claim b e rest selected).once.finishes
  · exact works_same s

theorem execEntryToHeldBus_works : Works s (execEntryToHeldBus s) := by
  unfold execEntryToHeldBus
  split
  · next e b rest selected => exact (Deed.rejoin b e rest selected).once.finishes
  · exact works_same s

theorem execSweepEntrySkip_works : Works s (execSweepEntrySkip s) := by
  unfold execSweepEntrySkip
  split
  · next e rest selected => exact (skipEntry_deeds selected).finishes
  · exact works_same s

theorem execIssueAttempt_works : Works s (execIssueAttempt s) := by
  unfold execIssueAttempt
  split
  · next a inForce =>
    split
    · next ready => exact (issueAttempt_deeds inForce ready).finishes
    · exact works_same s
  · exact works_same s

theorem execPacingTimerExpiry_works : Works s (execPacingTimerExpiry s) :=
  ((Deeds.refl s).thenQuiet (setPacing_only s 0) rfl).finishes

theorem execCoalescingTimerExpiry_works : Works s (execCoalescingTimerExpiry s) := by
  unfold execCoalescingTimerExpiry
  split
  · exact (closeRegister_asides s).deeds.finishes
  · exact works_same s

theorem moveTicket_deeds : Deeds s (moveTicket s) := by
  match next : s.outbox with
  | [] => rw [moveTicket, next]; exact Deeds.refl s
  | q :: qs =>
    by_cases ready : s.moveReady = true
    · exact (Deed.ticket q qs next ready).once
    · rw [moveTicket, next]
      simp only [ready]
      exact Deeds.refl s

theorem execTicketMove_works : Works s (execTicketMove s) := (moveTicket_deeds s).finishes

theorem execFenceComplete_works : Works s (execFenceComplete s) := by
  unfold execFenceComplete
  split
  · next i fence =>
    split
    · next ready =>
      simp only [State.fenceReady, Bool.and_eq_true, decide_eq_true_eq] at ready
      have room := (freeGeneral_le_iff s 1 (by decide) (by decide)).mp ready.2
      have pushed : Deed s [.news, .writerQueue] (s.pushEntry (.disposition i .done true)) :=
        .push _ ⟨rfl, rfl⟩ (Nat.lt_of_le_of_lt room (by decide)) (.inr (by simp [fence]))
      exact (pushed.once.then (.fence none fun _ => rfl)).finishes
    · exact works_same s
  · exact works_same s

/-! ## The memory path -/

theorem execResultHoldExpiry_works : Works s (execResultHoldExpiry s) := by
  unfold execResultHoldExpiry
  split
  · have spent := setHoldSpent_only s none true
    exact ((Deeds.refl s).thenQuiet spent rfl).serves fun _ => marked_of_image (statusImage_of_only spent rfl)
  · exact works_same s
  · exact works_same s

theorem execWriterTakesPath_works : Works s (execWriterTakesPath s) := by
  unfold execWriterTakesPath
  split
  · next may => exact (Deed.path may).once.works_of_image (statusImage_of_only (takePath_only s) rfl)
  · exact works_same s

theorem execStarvationCountFull_works : Works s (execStarvationCountFull s) := by
  unfold execStarvationCountFull
  split
  · next may => exact (Deed.path may.1).once.works_of_image (statusImage_of_only (takePath_only s) rfl)
  · exact works_same s

theorem execRecordWritten_works : Works s (execRecordWritten s) := by
  unfold execRecordWritten
  split
  · next r writing =>
    have written := writeRecord_deeds writing
    exact (written.trans (finish_deeds s _)).serves fun writes => finish_marked (written.keeps Deed.writesPending writes)
  · exact works_same s
  · exact works_same s

/-! ## Every command -/

theorem exec_works (c : Instr) : Works s (exec c s) := by
  cases c with
  | coldReset => exact Deed.cold.once.serves fun _ used => absurd rfl used
  | warmReset => exact Deed.warm.once.serves fun _ used => absurd rfl used
  | hostWrite | hostRead | postWordPosted | postWordReturned | commitAttempt | acknowledgement | consumeIndexWrite =>
    exact ⟨_, rfl, present_deeds _ s, fun _ => (marked_of_image rfl).shown (present_shown _ s)⟩
  | test => exact takeIf_works s _ takeTest_deeds
  | cancel => exact takeIf_works s _ takeCancel_deeds
  | fence => exact takeIf_works s _ takeFence_deeds
  | releaseHold => exact takeIf_works s _ takeReleaseHold_deeds
  | busReset => exact takeIf_works s _ takeBusReset_deeds
  | headReset => exact takeIf_works s _ takeHeadReset_deeds
  | sweepStart => exact takeIf_works s _ takeStart_deeds
  | sweepStop => exact takeIf_works s _ takeStop_deeds
  | sweepRestart => exact takeIf_works s _ takeRestart_deeds
  | sweepSeek => exact takeIf_works s _ takeSeek_deeds
  | clearGroup => exact takeIf_works s _ takeClearGroup_deeds
  | lineQuery => exact takeIf_works s _ takeLineQuery_deeds
  | refusedKind | sweepControl => exact takeIf_works s _ fun h _ => h.dispose _
  | fenceComplete => exact execFenceComplete_works s
  | state l v => exact execState_works s l v
  | grant l c => exact execGrant_works s l c
  | deny l c reason => exact execDeny_works s l c reason
  | resyncEnd => exact execResyncEnd_works s
  | settled bus => exact execSettled_works s bus
  | opened bus => exact execOpened_works s bus
  | xpFault bus => exact execXpFault_works s bus
  | reading head st v => exact execReading_works s head st v
  | aborted head => exact execAborted_works s head
  | ready head => exact execReady_works s head
  | headError head => exact execHeadError_works s head
  | claimTimerExpiry b => exact execClaimTimerExpiry_works s b
  | settleTimerExpiry b => exact execSettleTimerExpiry_works s b
  | openTimerExpiry b => exact execOpenTimerExpiry_works s b
  | holdTimerExpiry b => exact execHoldTimerExpiry_works s b
  | stepWatchdogExpiry h => exact execStepWatchdogExpiry_works s h
  | abortTimerExpiry h => exact execAbortTimerExpiry_works s h
  | clearTimerExpiry h => exact execClearTimerExpiry_works s h
  | pacingTimerExpiry => exact execPacingTimerExpiry_works s
  | coalescingTimerExpiry => exact execCoalescingTimerExpiry_works s
  | resultHoldExpiry => exact execResultHoldExpiry_works s
  | starvationCountFull => exact execStarvationCountFull_works s
  | entryToIdleBus => exact execEntryToIdleBus_works s
  | entryToHeldBus => exact execEntryToHeldBus_works s
  | sweepEntrySkip => exact execSweepEntrySkip_works s
  | headGrant => exact execHeadGrant_works s
  | issueAttempt => exact execIssueAttempt_works s
  | ticketMove => exact execTicketMove_works s
  | writerTakesPath => exact execWriterTakesPath_works s
  | recordWritten => exact execRecordWritten_works s
  -- RECALL is left: `recall` is a keyword of Mathlib, so it cannot stand here by name.
  | _ => exact execRecall_works s _ _

end

/-! ## Every step -/

/-- A step takes a command from the queue, if there is one, and then does deeds. -/
theorem step_deeds {s t : State} (h : step s = .next t) : ∃ u, OnlyChanges [.pending, .freeIndex] s u ∧ Deeds u t := by
  have ran {c : Instr} {u : State} (only : OnlyChanges [.pending, .freeIndex] s u) (h : exec c u = .next t) :
      ∃ u, OnlyChanges [.pending, .freeIndex] s u ∧ Deeds u t := by
    obtain ⟨t', answers, deeds, -⟩ := exec_works u c
    rw [h] at answers
    exact ⟨u, only, Host.Outcome.next.inj answers ▸ deeds⟩
  unfold step at h
  split at h
  · next rest _ => exact ran ((setPending_only s rest).weaken (by simp)) h
  · unfold autonomous at h
    split at h
    · exact ⟨s, .refl _ s, Host.Outcome.next.inj h ▸ Deed.tick.once⟩
    · exact ran (.refl _ s) h
    · exact ran ((setFreeIndex_only s _).weaken (by simp)) h

/-- An invariant that reads neither the queue of commands nor the counter of free choices, and that every deed keeps, is kept by a
step. -/
theorem step_keeps {P : State → Prop} (frame : ∀ {s u}, OnlyChanges [.pending, .freeIndex] s u → P s → P u)
    (keep : ∀ {s t fs}, Deed s fs t → P s → P t) {s t : State} (p : P s) (h : step s = .next t) : P t := by
  obtain ⟨u, only, deeds⟩ := step_deeds h
  exact deeds.keeps keep (frame only p)

theorem Deeds.pending {s t : State} (h : Deeds s t) : t.pending = s.pending := by
  induction h with
  | refl => rfl
  | tail _ last ih => exact last.choose_spec.pending.trans ih

/-- Settles O3, by reading every command as deeds, none of which touches the queue of commands. -/
theorem everyCommandAnswers : Obligations.EveryCommandAnswers := by
  intro c s
  obtain ⟨t, answers, deeds, -⟩ := exec_works s c
  exact ⟨t, answers, deeds.pending⟩

/-- Settles O52: every command ends its event with `finish`, or changes the image in a host access alone. -/
theorem statusMarked : Obligations.StatusMarked := by
  intro c s t answered used changed writes
  obtain ⟨u, answers, -, marked⟩ := exec_works s c
  rw [answered] at answers
  cases answers
  exact marked writes used changed

end Sys2Proof.Machine
end

section
/-!
PROOFS. Desk memory keeps its canonical form, and bus and line know each other. Settles O53 and O54.
-/

namespace Sys2Proof.Machine

/-! ## Desk memory -/

theorem wf_resetMemory {s : State} (h : MemoryOk s) : Memory.wf (resetMemory s) = true := by
  unfold resetMemory
  split
  · exact h
  · split
    · exact Memory.wf_writeLanes _ _ _ h
    · exact h
    · exact h
  · exact Memory.wf_writeWords _ h

theorem MemoryOk.of_only {fs : List Field} {s t : State} (h : MemoryOk s) (only : OnlyChanges fs s t)
    (away : apart [.mem] fs = true) : MemoryOk t := by
  obtain ⟨same, -⟩ := only.same_of_apart away (f := .mem) (by simp)
  unfold MemoryOk
  rwa [same]

theorem Deed.memoryOk {s t : State} {fs : List Field} (d : Deed s fs t) (h : MemoryOk s) : MemoryOk t := by
  by_cases away : apart [.mem] fs = true
  · exact h.of_only d.only away
  · cases d with
    | mem only kept => exact kept h
    | cold => exact wf_resetMemory h
    | warm => exact wf_resetMemory h
    | aside deed => cases deed <;> exact absurd rfl away
    | _ => exact absurd rfl away

/-- Settles O53, deed by deed. -/
theorem memoryKept : Obligations.MemoryKept := fun _ _ h stepped =>
  step_keeps (fun only h => h.of_only only rfl) Deed.memoryOk h stepped

/-! ## Buses and lines (R12, R20, R22) -/

theorem BusLineOk.of_only {fs : List Field} {s t : State} (h : BusLineOk s) (only : OnlyChanges fs s t)
    (away : apart [.buses, .lines] fs = true) : BusLineOk t := by
  have buses (b : BusNo) : t.bus b = s.bus b := by
    rw [State.bus, show t.buses = s.buses from only.same_of_apart away (f := .buses) (by simp), State.bus]
  have lines (l : LineNo) : t.line l = s.line l := by
    rw [State.line, show t.lines = s.lines from only.same_of_apart away (f := .lines) (by simp), State.line]
  simpa only [BusLineOk, buses, lines] using h

/-- The bus records in IDLE, the lines of the buses and the occupying buses of the lines are all that the law reads. -/
theorem BusLineOk.of_same {s t : State} (h : BusLineOk s) (idle : ∀ b, (t.bus b).state = .idle → t.bus b = Bus.idle)
    (buses : ∀ b, (t.bus b).line = (s.bus b).line) (lines : ∀ l, (t.line l).occupying = (s.line l).occupying) : BusLineOk t := by
  obtain ⟨-, named, occupied⟩ := h
  exact ⟨idle, by simpa only [buses, lines] using named, by simpa only [buses, lines] using occupied⟩


/-- A bus keeps its line, and the other buses are as they were. -/
theorem BusLineOk.of_bus {s t : State} {b : BusNo} (h : BusLineOk s) (others : OtherBuses b s t)
    (idle : (t.bus b).state = .idle → t.bus b = Bus.idle) (line : (t.bus b).line = (s.bus b).line)
    (lines : ∀ l, (t.line l).occupying = (s.line l).occupying) : BusLineOk t := by
  refine h.of_same (fun x => ?_) (fun x => ?_) lines
  · rcases eq_or_ne x b with rfl | other
    · exact idle
    · rw [others x other]; exact h.1 x
  · rcases eq_or_ne x b with rfl | other
    · exact line
    · rw [others x other]

/-- A bus enters IDLE and its line has no occupying bus any more. -/
theorem BusLineOk.of_idle {s t : State} {b : BusNo} (h : BusLineOk s) (others : OtherBuses b s t) (idle : t.bus b = Bus.idle)
    (lines : ∀ l, (t.line l).occupying = if (s.bus b).line = some l then none else (s.line l).occupying) : BusLineOk t := by
  refine ⟨fun x => ?_, fun x l named => ?_, fun x l occupied => ?_⟩
  · rcases eq_or_ne x b with rfl | other
    · exact fun _ => idle
    · rw [others x other]; exact h.1 x
  · rcases eq_or_ne x b with rfl | other
    · simp [idle, Bus.idle] at named
    · rw [others x other] at named
      rw [lines, if_neg fun same => other (h.unique same named)]
      exact h.2.1 x l named
  · rw [lines] at occupied
    split at occupied
    · simp at occupied
    · next away =>
      have named := h.2.2 x l occupied
      rcases eq_or_ne x b with rfl | other
      · exact absurd named away
      · rwa [others x other]

theorem LineLeft.busLineOk {s t : State} {b : BusNo} (left : LineLeft b s t) (h : BusLineOk s) (others : OtherBuses b s t) :
    BusLineOk t := by
  rcases left with ⟨line, state, lines⟩ | ⟨idle, lines⟩
  · exact h.of_bus others (fun idle => by rcases state with state | state <;> simp [state] at idle) line lines
  · exact h.of_idle others idle lines

/-- An IDLE bus is given a line that no bus names. -/
theorem BusLineOk.of_claim {s t : State} {b : BusNo} {l : LineNo} (h : BusLineOk s) (free : (s.line l).occupying = none)
    (idle : (s.bus b).state = .idle) (others : OtherBuses b s t) (line : (t.bus b).line = some l) (busy : (t.bus b).state ≠ .idle)
    (lines : ∀ x, (t.line x).occupying = if l = x then some b else (s.line x).occupying) : BusLineOk t := by
  refine ⟨fun x => ?_, fun x k named => ?_, fun x k occupied => ?_⟩
  · rcases eq_or_ne x b with rfl | other
    · exact fun state => absurd state busy
    · rw [others x other]; exact h.1 x
  · rw [lines]
    rcases eq_or_ne x b with rfl | other
    · rw [if_pos (Option.some.inj (line.symm.trans named))]
    · rw [others x other] at named
      have occupied := h.2.1 x k named
      rw [if_neg fun same => by simp [← same, free] at occupied]
      exact occupied
  · rw [lines] at occupied
    split at occupied
    · next same =>
      obtain rfl := Option.some.inj occupied
      rw [line, same]
    · have named := h.2.2 x k occupied
      rcases eq_or_ne x b with rfl | other
      · exact absurd idle (h.not_idle named)
      · rwa [others x other]

end Sys2Proof.Machine
end

section
/-!
PROOFS. What a claim, a rejoin and a grant leave. Settles O54.
-/

namespace Sys2Proof.Machine

/-! ## The moves of the selection -/

/-- An entry is taken for an IDLE bus (R22, R90, R91). -/
structure ClaimSelected (s : State) (e : TestEntry) (b : BusNo) (rest : List TestEntry) : Prop where
  used : s.anchor ≠ none
  split : ∃ before after, s.queue = before ++ e :: after ∧ rest = before ++ after
  lineFree : (s.line e.line).occupying = none
  idle : (s.bus b).state = .idle
  empty : s.busEntryEmpty b = true
  share : e.cls = .sweep → ∃ a, s.anchor = some a ∧ s.sweepOnBuses < a.sweepBusLimit

/-- An entry is taken for the HELD bus of its line (R47, R90). -/
structure RejoinSelected (s : State) (e : TestEntry) (b : BusNo) (rest : List TestEntry) : Prop where
  used : s.anchor ≠ none
  split : ∃ before after, s.queue = before ++ e :: after ∧ rest = before ++ after
  occupied : (s.line e.line).occupying = some b
  held : (s.bus b).state = .held
  empty : s.busEntryEmpty b = true
  desk : e.cls = .desk

theorem claimSelected {s : State} {e : TestEntry} {b : BusNo} {rest : List TestEntry}
    (selected : s.selection = some (e, .toIdle b, rest)) : ClaimSelected s e b rest := by
  obtain ⟨⟨inForce, -, -⟩, before, after, queue, rest, moves⟩ := (selection_iff s e (.toIdle b) rest).mp selected
  have used : s.anchor ≠ none := by simpa [Option.isSome_iff_ne_none] using inForce
  rcases moves with ⟨⟨cls, moves⟩, -⟩ | ⟨⟨cls, moves⟩, -, -, -, share, -⟩
  · rcases moves with ⟨free, c, ⟨idle, -⟩, same⟩ | ⟨_, _, _, _, same⟩
    · cases same
      exact ⟨used, ⟨before, after, queue, rest⟩, free, idle.1, idle.2, by simp [cls]⟩
    · cases same
  · rcases moves with ⟨free, -, c, ⟨idle, -⟩, same⟩ | ⟨_, _, same⟩ | ⟨_, _, _, same⟩
    · cases same
      exact ⟨used, ⟨before, after, queue, rest⟩, free, idle.1, idle.2, fun _ => share⟩
    · cases same
    · cases same

theorem rejoinSelected {s : State} {e : TestEntry} {b : BusNo} {rest : List TestEntry}
    (selected : s.selection = some (e, .toHeld b, rest)) : RejoinSelected s e b rest := by
  obtain ⟨⟨inForce, -, -⟩, before, after, queue, rest, moves⟩ := (selection_iff s e (.toHeld b) rest).mp selected
  have used : s.anchor ≠ none := by simpa [Option.isSome_iff_ne_none] using inForce
  rcases moves with ⟨⟨cls, moves⟩, -⟩ | ⟨⟨cls, moves⟩, -⟩
  · rcases moves with ⟨_, _, _, same⟩ | ⟨c, occupied, held, empty, same⟩
    · cases same
    · cases same
      exact ⟨used, ⟨before, after, queue, rest⟩, occupied, held, empty, cls⟩
  · rcases moves with ⟨_, _, _, _, same⟩ | ⟨_, _, same⟩ | ⟨_, _, _, same⟩ <;> cases same

/-! ## What they leave -/

section
variable (b : BusNo) (e : TestEntry) (rest : List TestEntry) (s : State)

theorem leaveQueue_view_bus (x : BusNo) : (leaveQueue rest s).bus x = s.bus x := (leaveQueue_only rest s).bus rfl x

theorem leaveQueue_queue : (leaveQueue rest s).queue = rest :=
  (retestWaiting_only true { s with queue := rest }).get .queue rfl

theorem giveToIdle_view_bus_self : (giveToIdle b e rest s).bus b =
    { Bus.idle with state := .claiming, line := some e.line, claim := s.claimCounter, forced := e.force, hold := e.hold,
                    test := some e, timer := some (.claim, s.limit Anchor.claimLimit) } := by
  simp [giveToIdle]

theorem giveToIdle_otherBuses : OtherBuses b s (giveToIdle b e rest s) := by
  intro x other
  change ((State.setBus _ b _).look true).bus x = s.bus x
  rw [State.look_view_bus, State.setBus_view_bus, if_neg other.symm]
  exact leaveQueue_view_bus rest s x

theorem giveToIdle_queue : (giveToIdle b e rest s).queue = rest := by
  simp [giveToIdle, setOccupying, leaveQueue_queue]

theorem giveToIdle_occupying (l : LineNo) :
    ((giveToIdle b e rest s).line l).occupying = if e.line = l then some b else (s.line l).occupying := by
  change ((setOccupying e.line (some b) _).line l).occupying = _
  rw [setOccupying_occupying]
  split
  · rfl
  · exact congrArg LineRecord.occupying ((leaveQueue_only rest s).line rfl l)

theorem giveToHeld_view_bus_self : (giveToHeld b e rest s).bus b =
    { s.bus b with state := .waitHead, test := some e, hold := e.hold, timer := none } := by
  change (State.setBus _ b _).bus b = _
  rw [State.setBus_view_bus_self]

theorem giveToHeld_otherBuses : OtherBuses b s (giveToHeld b e rest s) := by
  intro x other
  change (State.setBus _ b _).bus x = s.bus x
  rw [State.setBus_view_bus, if_neg other.symm, leaveQueue_view_bus]

theorem giveToHeld_queue : (giveToHeld b e rest s).queue = rest := leaveQueue_queue rest s

end

section
variable (h : HeadNo) (b : BusNo) (rest : List BusNo) (s : State)

theorem startStep_view_bus (k : StepKind) (x : BusNo) : (startStep h b k s).bus x = s.bus x := (startStep_only h b k s).bus rfl x

/-- The bus that is granted a head is in MEASURING. -/
theorem grantHead_view_bus (x : BusNo) :
    (grantHead h b rest s).bus x = if b = x then { s.bus b with state := .measuring, timer := none } else s.bus x := by
  have measuring : (({ s with waitQueue := rest } : State).setBus b { s.bus b with state := .measuring, timer := none }).bus x =
      if b = x then { s.bus b with state := .measuring, timer := none } else s.bus x := State.setBus_view_bus ..
  unfold grantHead
  dsimp only
  split
  · split
    · rw [startStep_view_bus]; exact measuring
    · exact measuring
  · exact measuring

theorem grantHead_view_bus_self : (grantHead h b rest s).bus b = { s.bus b with state := .measuring, timer := none } := by
  rw [grantHead_view_bus, if_pos rfl]

theorem grantHead_otherBuses : OtherBuses b s (grantHead h b rest s) := by
  intro x other
  rw [grantHead_view_bus, if_neg other.symm]

end

theorem setBus_otherBuses (b : BusNo) (r : Bus) (s : State) : OtherBuses b s (s.setBus b r) := by
  intro x other
  rw [State.setBus_view_bus, if_neg other.symm]

theorem joinWait_setBus_view_bus_self (b : BusNo) (r : Bus) (s : State) : (joinWait b (s.setBus b r)).bus b = r :=
  State.setBus_view_bus_self s b r

/-! ## Bus and line -/

theorem Bus.Rewritten.idle_of_idle {r x : Bus} (ok : r.Rewritten x) (idle : r.state = .idle → r = Bus.idle)
    (state : x.state = .idle) : x = Bus.idle := by
  have was : r = Bus.idle := idle (by
    rcases ok.phase with same | ⟨-, busy⟩ | ⟨-, busy⟩
    · exact same ▸ state
    · rcases busy with busy | busy <;> simp [state] at busy
    · rcases busy with busy | busy <;> simp [state] at busy)
  rw [ok.idle was, was]

theorem tick_view_bus (s : State) (b : BusNo) : (tick s).bus b = (s.bus b).tick := entry_mapEntries Bus.tick s.buses b

theorem tick_view_head (s : State) (h : HeadNo) : (tick s).head h = (s.head h).tick := entry_mapEntries Head.tick s.heads h

theorem coldReset_view_bus (s : State) (b : BusNo) : (coldReset s).bus b = Bus.recovering none 0 := entry_replicate _ b

theorem coldReset_view_line (s : State) (l : LineNo) : (coldReset s).line l = LineRecord.cold := entry_replicate _ l

theorem warmReset_view_bus (s : State) (b : BusNo) : (warmReset s).bus b = (s.bus b).warm := entry_mapEntries Bus.warm s.buses b

theorem warmReset_view_line (s : State) (l : LineNo) : (warmReset s).line l = { s.line l with ticketMark := none } :=
  entry_mapEntries _ s.lines l

theorem Bus.warm_line {r : Bus} : r.warm.line = r.line := by
  unfold Bus.warm
  split <;> rfl

theorem Bus.warm_idle {r : Bus} (idle : r.state = .idle → r = Bus.idle) (state : r.warm.state = .idle) : r.warm = Bus.idle := by
  unfold Bus.warm at state ⊢
  split
  · next was => exact idle was
  · next busy => rw [if_neg busy] at state; simp [Bus.recovering] at state

theorem Deed.busLineOk {s t : State} {fs : List Field} (d : Deed s fs t) (h : BusLineOk s) : BusLineOk t := by
  by_cases away : apart [.buses, .lines] fs = true
  · exact h.of_only d.only away
  · cases d with
    | aside deed =>
      cases deed with
      | lines only kept => exact h.of_same (by simpa [only.bus rfl] using h.1) (fun b => by rw [only.bus rfl]) kept
      | _ => exact absurd rfl away
    | rebus b r ok =>
      refine h.of_bus (setBus_otherBuses b r s) ?_ ?_ fun _ => rfl
      · rw [State.setBus_view_bus_self]; exact ok.idle_of_idle (h.1 b)
      · rw [State.setBus_view_bus_self]; exact ok.line
    | idle b => exact (enterIdle_left b s).busLineOk h (enterIdle_otherBuses b s)
    | settle b =>
      refine h.of_bus (b := b) (setBus_otherBuses b _ s) ?_ ?_ fun _ => rfl
      · rw [joinWait_setBus_view_bus_self]; simp
      · rw [joinWait_setBus_view_bus_self]
    | claim b e rest selected =>
      have move := claimSelected selected
      have view := giveToIdle_view_bus_self b e rest s
      exact h.of_claim move.lineFree move.idle (giveToIdle_otherBuses b e rest s) (by rw [view]) (by rw [view]; simp)
        (giveToIdle_occupying b e rest s)
    | rejoin b e rest =>
      have view := giveToHeld_view_bus_self b e rest s
      exact h.of_bus (giveToHeld_otherBuses b e rest s) (by rw [view]; simp) (by rw [view])
        fun l => by rw [(giveToHeld_only b e rest s).line rfl]
    | grant hd b rest =>
      have view := grantHead_view_bus_self hd b rest s
      exact h.of_bus (grantHead_otherBuses hd b rest s) (by rw [view]; simp) (by rw [view])
        fun l => by rw [(grantHead_only hd b rest s).line rfl]
    | retire b ended => exact ended.line.busLineOk h ended.others
    | cold =>
      refine ⟨fun b => ?_, fun b l => ?_, fun b l => ?_⟩
      · rw [coldReset_view_bus]; simp [Bus.recovering]
      · rw [coldReset_view_bus]; simp [Bus.recovering]
      · rw [coldReset_view_line]; simp [LineRecord.cold]
    | warm =>
      exact h.of_same (fun b => by rw [warmReset_view_bus]; exact Bus.warm_idle (h.1 b))
        (fun b => by rw [warmReset_view_bus, Bus.warm_line]) (fun l => by rw [warmReset_view_line])
    | tick =>
      refine h.of_same (fun b idle => ?_) (fun b => by rw [tick_view_bus]; rfl) fun _ => rfl
      rw [tick_view_bus] at idle ⊢
      rw [h.1 b idle]
      rfl
    | _ => exact absurd rfl away

/-- Settles O54, deed by deed. -/
theorem busLineKept : Obligations.BusLineKept := fun _ _ h stepped =>
  step_keeps (fun only h => h.of_only only rfl) Deed.busLineOk h stepped

end Sys2Proof.Machine
end

section
/-!
PROOFS. A result slot is in one slot list, and the ticket ring never holds more than its size. Settles O57 and O58.
-/

namespace Sys2Proof.Machine

/-! ## The slot lists (R83) -/

/-- The result slots of a bus's test. -/
def Bus.indices (r : Bus) : List Nat := r.slots.map SlotMember.slot

/-- The result slots of the tests on the buses but one. -/
def otherSlots (s : State) (b : BusNo) : List Nat := (allBuses.erase b).flatMap fun x => (s.bus x).indices

theorem inFlight_perm (s : State) (b : BusNo) :
    s.inFlight.Perm (queuedSlots s.queue ++ ((s.bus b).indices ++ otherSlots s b)) :=
  .append_left _ ((List.perm_cons_erase (mem_allBuses b)).flatMap_right _)

theorem inFlight_count (s : State) (b : BusNo) (i : Nat) :
    s.inFlight.count i = (queuedSlots s.queue).count i + (s.bus b).indices.count i + (otherSlots s b).count i := by
  rw [(inFlight_perm s b).count_eq, List.count_append, List.count_append, Nat.add_assoc]

theorem OtherBuses.otherSlots {b : BusNo} {s t : State} (others : OtherBuses b s t) :
    Machine.otherSlots t b = Machine.otherSlots s b := by
  refine List.flatMap_congr fun x mem => ?_
  have distinct : allBuses.Nodup := by decide
  rw [others x (distinct.mem_erase_iff.mp mem).1]

/-- No slot has become more frequent. -/
theorem SlotsOk.of_count {s t : State} (h : SlotsOk s) (fewer : ∀ i, t.inFlight.count i ≤ s.inFlight.count i) : SlotsOk t :=
  List.nodup_iff_count_le_one.mpr fun i => (fewer i).trans (List.nodup_iff_count_le_one.mp h i)

/-- Slots have moved between the queue and one bus, or have left. -/
theorem SlotsOk.of_bus {s t : State} {b : BusNo} (h : SlotsOk s) (others : OtherBuses b s t)
    (moved : ∀ i, (queuedSlots t.queue).count i + (t.bus b).indices.count i ≤
      (queuedSlots s.queue).count i + (s.bus b).indices.count i) : SlotsOk t := by
  refine h.of_count fun i => ?_
  rw [inFlight_count t b, inFlight_count s b, others.otherSlots]
  exact Nat.add_le_add_right (moved i) _

/-- Slots have left one bus. -/
theorem SlotsOk.of_fewer {s t : State} {b : BusNo} (h : SlotsOk s) (others : OtherBuses b s t) (queue : t.queue = s.queue)
    (fewer : (t.bus b).indices.Sublist (s.bus b).indices) : SlotsOk t :=
  h.of_bus others fun i => by rw [queue]; exact Nat.add_le_add_left (fewer.count_le i) _

/-- The slots of an entry that leaves the queue for a bus. -/
theorem SlotsOk.of_given {s t : State} {b : BusNo} {e : TestEntry} {rest : List TestEntry} (h : SlotsOk s) (others : OtherBuses b s t)
    (split : ∃ before after, s.queue = before ++ e :: after ∧ rest = before ++ after) (queue : t.queue = rest)
    (test : (t.bus b).test = some e) : SlotsOk t := by
  obtain ⟨before, after, was, rfl⟩ := split
  refine h.of_bus others fun i => ?_
  rw [queue, was, Bus.indices, Bus.slots_of_test test, ← List.singleton_append (l := after), queuedSlots_append, queuedSlots_append,
    queuedSlots_append]
  simp only [queuedSlots, List.count_append, List.flatMap_cons, List.flatMap_nil, List.append_nil]
  omega

theorem Bus.indices_of_test_eq {r x : Bus} (test : x.test = r.test) : x.indices = r.indices := by
  rw [Bus.indices, Bus.slots, test, Bus.indices, Bus.slots]

theorem Bus.indices_of_no_test {r : Bus} (none : r.test = none) : r.indices = [] := by
  rw [Bus.indices, Bus.slots_of_no_test none, List.map_nil]

theorem Bus.Rewritten.indices_sublist {r x : Bus} (ok : r.Rewritten x) : x.indices.Sublist r.indices := by
  rcases ok.test with ⟨was, is⟩ | ⟨e, y, was, is, slots, -, -⟩
  · rw [Bus.indices_of_no_test is]; exact List.nil_sublist _
  · rw [Bus.indices, Bus.indices, Bus.slots_of_test was, Bus.slots_of_test is]
    exact slots.map _

theorem SlotsOk.of_only {fs : List Field} {s t : State} (h : SlotsOk s) (only : OnlyChanges fs s t)
    (away : apart [.queue, .buses] fs = true) : SlotsOk t := by
  have buses (b : BusNo) : t.bus b = s.bus b := by
    rw [State.bus, show t.buses = s.buses from only.same_of_apart away (f := .buses) (by simp), State.bus]
  have queue : t.queue = s.queue := only.same_of_apart away (f := .queue) (by simp)
  exact h.of_fewer (b := 0) (fun x _ => buses x) queue (by rw [buses])

theorem slotsOk_of_empty {t : State} (queue : t.queue = []) (tests : ∀ b, (t.bus b).test = none) : SlotsOk t := by
  unfold SlotsOk State.inFlight
  rw [queue, List.flatMap_nil, List.nil_append, List.flatMap_eq_nil_iff.mpr]
  · exact List.nodup_nil
  · intro b _
    rw [Bus.slots_of_no_test (tests b), List.map_nil]

theorem Bus.warm_test_sublist (r : Bus) : r.warm.indices.Sublist r.indices := by
  unfold Bus.warm
  split
  · exact .refl _
  · exact List.nil_sublist _

theorem Deed.slotsOk {s t : State} {fs : List Field} (d : Deed s fs t) (h : SlotsOk s) : SlotsOk t := by
  by_cases away : apart [.queue, .buses] fs = true
  · exact h.of_only d.only away
  · cases d with
    | aside deed => cases deed <;> exact absurd rfl away
    | queue q ok => exact ok.slots h
    | rebus b r ok =>
      refine h.of_fewer (setBus_otherBuses b r s) rfl ?_
      rw [State.setBus_view_bus_self]
      exact ok.indices_sublist
    | idle b =>
      refine h.of_fewer (enterIdle_otherBuses b s) ((enterIdle_only b s).get .queue rfl) ?_
      rw [enterIdle_view_bus_self]
      exact List.nil_sublist _
    | settle b =>
      refine h.of_fewer (b := b) (setBus_otherBuses b _ s) rfl ?_
      rw [joinWait_setBus_view_bus_self]
      exact .refl _
    | claim b e rest selected =>
      exact h.of_given (giveToIdle_otherBuses b e rest s) (claimSelected selected).split (giveToIdle_queue b e rest s)
        (by rw [giveToIdle_view_bus_self])
    | rejoin b e rest selected =>
      exact h.of_given (giveToHeld_otherBuses b e rest s) (rejoinSelected selected).split (giveToHeld_queue b e rest s)
        (by rw [giveToHeld_view_bus_self])
    | grant hd b rest =>
      refine h.of_fewer (grantHead_otherBuses hd b rest s) ((grantHead_only hd b rest s).get .queue rfl) ?_
      rw [grantHead_view_bus_self]
      exact .refl _
    | retire b ended =>
      refine h.of_fewer ended.others (ended.only.get .queue rfl) ?_
      rw [Bus.indices_of_no_test ended.test]
      exact List.nil_sublist _
    | cold => exact slotsOk_of_empty rfl fun b => by rw [coldReset_view_bus]; rfl
    | warm =>
      refine h.of_count fun i => ?_
      refine List.Sublist.count_le i ?_
      change ([] ++ _ : List Nat).Sublist _
      refine (List.Sublist.flatMap_right _ fun b _ => ?_).trans (List.sublist_append_right _ _)
      rw [warmReset_view_bus]
      exact Bus.warm_test_sublist _
    | tick =>
      refine h.of_count fun i => ?_
      refine List.Sublist.count_le i (.append_left (List.Sublist.flatMap_right _ fun b _ => ?_) _)
      rw [tick_view_bus]
      exact .refl _
    | _ => exact absurd rfl away

/-- Settles O57, deed by deed. -/
theorem slotsKept : Obligations.SlotsKept := fun _ _ h stepped =>
  step_keeps (fun only h => h.of_only only rfl) Deed.slotsOk h stepped

/-! ## The ticket ring (R141, R143) -/

/-- How many tickets are in the writer. -/
def State.ticketsFilled (s : State) : Nat := s.writerQueue.countP WriterEntry.isTicket

theorem ticketInWriter_iff (s : State) : s.ticketInWriter = true ↔ 0 < s.ticketsFilled := by
  rw [State.ticketInWriter, State.ticketsFilled, List.countP_pos_iff, List.any_eq_true]

theorem ringOk_iff (s : State) : RingOk s ↔
    ∀ a, s.anchor = some a → s.ticketsFilled ≤ 1 ∧ s.ringFill ≤ a.ticketSize ∧ (0 < s.ticketsFilled → s.ringFill < a.ticketSize) := by
  simp only [RingOk, ticketInWriter_iff, State.ticketsFilled, State.ringFill]

/-- The ring and the tickets in the writer are all that the law reads. -/
theorem RingOk.of_same {s t : State} (h : RingOk s) (anchor : t.anchor = s.anchor) (fill : t.ringFill = s.ringFill)
    (tickets : t.ticketsFilled = s.ticketsFilled) : RingOk t := by
  rw [ringOk_iff] at h ⊢
  simpa only [anchor, fill, tickets] using h

theorem ringFill_of_same {s t : State} (produce : t.produce = s.produce) (consume : t.consume = s.consume) :
    t.ringFill = s.ringFill := by rw [State.ringFill, produce, consume, State.ringFill]

theorem RingOk.of_only {fs : List Field} {s t : State} (h : RingOk s) (only : OnlyChanges fs s t)
    (away : apart [.anchor, .produce, .consume, .writerQueue] fs = true) : RingOk t := by
  refine h.of_same (only.same_of_apart away (f := .anchor) (by simp))
    (ringFill_of_same (only.same_of_apart away (f := .produce) (by simp)) (only.same_of_apart away (f := .consume) (by simp))) ?_
  rw [State.ticketsFilled, show t.writerQueue = s.writerQueue from only.same_of_apart away (f := .writerQueue) (by simp),
    State.ticketsFilled]

/-- A kind of entry that is not the status entry is counted without it. -/
theorem countP_news {p : WriterEntry → Bool} (other : ∀ e, e.isStatus = true → p e = false) (s : State) :
    s.writerQueue.countP p = s.newsEntries.countP p := by
  rw [State.newsEntries, List.countP_filter]
  refine List.countP_congr fun e _ => ?_
  cases status : e.isStatus
  · simp
  · simp [other e status]

theorem not_isTicket_of_isStatus (e : WriterEntry) (status : e.isStatus = true) : e.isTicket = false := by
  cases e <;> simp [WriterEntry.isStatus, WriterEntry.isTicket] at status ⊢

theorem ticketsFilled_of_news {s t : State} (news : t.newsEntries = s.newsEntries) : t.ticketsFilled = s.ticketsFilled := by
  rw [State.ticketsFilled, State.ticketsFilled, countP_news not_isTicket_of_isStatus, news, ← countP_news not_isTicket_of_isStatus]

theorem pushEntry_ticketsFilled (e : WriterEntry) (s : State) :
    (s.pushEntry e).ticketsFilled = s.ticketsFilled + if e.isTicket = true then 1 else 0 := by
  simp [State.ticketsFilled, State.pushEntry, List.countP_cons]

theorem FinalQueued.ticketsFilled {b : BusNo} {s t : State} (queued : FinalQueued b s t) : t.ticketsFilled = s.ticketsFilled := by
  rcases queued with ⟨-, same⟩ | ⟨-, r, more⟩
  · rw [State.ticketsFilled, same, State.ticketsFilled]
  · simp [State.ticketsFilled, more, WriterEntry.isTicket]

theorem moveReady_iff (s : State) : s.moveReady = true ↔
    s.outbox ≠ [] ∧ s.ticketsFilled = 0 ∧ s.ringFill < s.limit Anchor.ticketSize ∧ s.generalFilled ≤ 1 := by
  have none : s.ticketInWriter = false ↔ s.ticketsFilled = 0 := by
    rw [← Bool.not_eq_true, ticketInWriter_iff]; omega
  have room := freeGeneral_le_iff s 3 (by decide) (by decide)
  simp only [State.moveReady, Bool.and_eq_true, Bool.not_eq_true', decide_eq_true_eq, none, room, List.isEmpty_eq_false_iff,
    State.generalFilled, and_assoc]

theorem moveTicket_of_ready {s : State} {q : QueuedTicket} {qs : List QueuedTicket} (next : s.outbox = q :: qs)
    (ready : s.moveReady = true) : moveTicket s =
      { s with outbox := qs, droppedBefore := 0 }.pushEntry (.ticket s.produce q.sequence s.droppedBefore q.ticket) := by
  rw [moveTicket, next]
  simp only [ready, if_true]

/-- One ticket more stands in the ring. -/
theorem ring_succ (p c : Count16) : ((p + 1) - c).toNat ≤ (p - c).toNat + 1 := by
  rw [show p + 1 - c = p - c + 1 by ring, BitVec.toNat_add]
  exact Nat.mod_le _ _

theorem offerConsume_fill (a : Anchor) (data : Word) (s : State) :
    (offerConsume a data s).ringFill = s.ringFill ∨
      (offerConsume a data s).ringFill ≤ (if s.ticketInWriter then a.ticketSize - 1 else a.ticketSize) := by
  unfold offerConsume
  dsimp only
  generalize (if s.ticketInWriter = true then a.ticketSize - 1 else a.ticketSize) = room
  split
  · next accepted => exact .inr accepted
  · exact .inl rfl

theorem quiet_of_validate {a : Anchor} {s : State} (accepted : validate a s = .accepted) : s.quiet = true := by
  unfold validate at accepted
  split_ifs at accepted with _ _ _ busy
  simpa using busy

theorem quiet_status {s : State} (quiet : s.quiet = true) : ∀ e ∈ s.writerQueue, e.isStatus = true := by
  simp only [State.quiet, Bool.and_eq_true, List.all_eq_true] at quiet
  exact quiet.1.1.2

theorem Deed.ringOk {s t : State} {fs : List Field} (d : Deed s fs t) (h : RingOk s) : RingOk t := by
  by_cases away : apart [.anchor, .produce, .consume, .writerQueue] fs = true
  · exact h.of_only d.only away
  · have law := (ringOk_iff s).mp h
    cases d with
    | aside deed => cases deed <;> exact absurd rfl away
    | push e kind =>
      exact h.of_same rfl rfl (by rw [pushEntry_ticketsFilled, kind.2]; rfl)
    | ticket q qs next ready =>
      obtain ⟨-, none, room, -⟩ := (moveReady_iff s).mp ready
      rw [moveTicket_of_ready next ready, ringOk_iff]
      intro a inForce
      rw [pushEntry_ticketsFilled]
      have size : s.limit Anchor.ticketSize = a.ticketSize := by
        rw [State.limit, show s.anchor = some a from inForce]
      have fill : s.ringFill < a.ticketSize := size ▸ room
      refine ⟨?_, fill.le, fun _ => fill⟩
      change s.ticketsFilled + 1 ≤ 1
      omega
    | mark o =>
      exact h.of_same ((markDirty_only o s).get .anchor rfl)
        (ringFill_of_same ((markDirty_only o s).get .produce rfl) ((markDirty_only o s).get .consume rfl))
        (ticketsFilled_of_news (markDirty_news s o))
    | popped e es first =>
      rw [ringOk_iff]
      intro a inForce
      obtain ⟨one, fill, full⟩ := law a inForce
      have count : s.ticketsFilled = es.countP WriterEntry.isTicket + if e.isTicket = true then 1 else 0 := by
        rw [State.ticketsFilled, first, List.countP_cons]
      by_cases ticket : e.isTicket = true
      · rw [if_pos ticket] at count
        have succ := ring_succ s.produce s.consume
        have less := full (by omega)
        simp only [State.ringFill, State.ticketsFilled, ticket, if_true] at less ⊢
        omega
      · rw [if_neg ticket] at count
        simp only [State.ticketsFilled, State.ringFill, ticket] at count one fill full ⊢
        rw [count] at one full
        exact ⟨one, fill, full⟩
    | shortened b r m ms es first =>
      refine h.of_same rfl rfl ?_
      simp [State.ticketsFilled, first, WriterEntry.isTicket]
    | consume a data inForce =>
      rw [ringOk_iff]
      intro a' inForce'
      rw [(offerConsume_only a data s).get .anchor rfl, inForce] at inForce'
      obtain rfl := Option.some.inj inForce'
      obtain ⟨one, fill, full⟩ := law a inForce
      have tickets : (offerConsume a data s).ticketsFilled = s.ticketsFilled := by
        rw [State.ticketsFilled, (offerConsume_only a data s).get .writerQueue rfl, State.ticketsFilled]
      rw [tickets]
      rcases offerConsume_fill a data s with same | room
      · rw [same]; exact ⟨one, fill, full⟩
      · by_cases inWriter : s.ticketInWriter = true
        · rw [if_pos inWriter] at room
          have := full ((ticketInWriter_iff s).mp inWriter)
          exact ⟨one, by omega, fun _ => by omega⟩
        · rw [if_neg inWriter] at room
          exact ⟨one, room, fun some => absurd ((ticketInWriter_iff s).mpr some) inWriter⟩
    | accept a valid =>
      rw [ringOk_iff]
      intro a' _
      have none : (acceptCommit a s).ticketsFilled = 0 := by
        rw [State.ticketsFilled, (acceptCommit_only a s).get .writerQueue rfl, List.countP_eq_zero]
        intro e mem
        simp [not_isTicket_of_isStatus e (quiet_status (quiet_of_validate valid) e mem)]
      have empty : (acceptCommit a s).ringFill = 0 := by
        simp [State.ringFill, acceptCommit, clearAllGroups]
      omega
    | retire b ended =>
      exact h.of_same (ended.only.get .anchor rfl)
        (ringFill_of_same (ended.only.get .produce rfl) (ended.only.get .consume rfl)) ended.queued.ticketsFilled
    | cold => exact fun a inForce => absurd inForce (by simp [coldReset, resetShared])
    | warm => exact fun a inForce => absurd inForce (by simp [warmReset, resetShared])
    | _ => exact absurd rfl away

/-- Settles O58, deed by deed. -/
theorem ringKept : Obligations.RingKept := fun _ _ h stepped =>
  step_keeps (fun only h => h.of_only only rfl) Deed.ringOk h stepped

end Sys2Proof.Machine
end

section
/-!
PROOFS. The capacities of the lists, the slot lists and the nine writer entries. Settles O56.
-/

namespace Sys2Proof.Machine

/-! ## Lists and counts -/

/-- The lists and counts beside the Test Queue, the buses and the writer are within their capacity, and the tickets there in order. -/
structure CountsOk (s : State) : Prop where
  outbox : s.outbox.length ≤ 8
  alarms : s.alarmList.length ≤ 8
  focus : s.focus.length ≤ 4
  starvation : s.starvation ≤ 16
  droppedBefore : s.droppedBefore ≤ 255
  droppedTotal : s.droppedTotal ≤ 65535
  register : ∀ k, s.register = some k → k.LinesOk
  tickets : ∀ q ∈ s.outbox, q.ticket.LinesOk

/-- The fields it reads. -/
def countFields : List Field := [.outbox, .alarmList, .focus, .starvation, .droppedBefore, .droppedTotal, .register]

theorem CountsOk.of_only {fs : List Field} {s t : State} (h : CountsOk s) (only : OnlyChanges fs s t)
    (away : apart countFields fs = true) : CountsOk t := by
  have outbox : t.outbox = s.outbox := only.same_of_apart away (f := .outbox) (by simp [countFields])
  have alarms : t.alarmList = s.alarmList := only.same_of_apart away (f := .alarmList) (by simp [countFields])
  have focus : t.focus = s.focus := only.same_of_apart away (f := .focus) (by simp [countFields])
  have starvation : t.starvation = s.starvation := only.same_of_apart away (f := .starvation) (by simp [countFields])
  have before : t.droppedBefore = s.droppedBefore := only.same_of_apart away (f := .droppedBefore) (by simp [countFields])
  have total : t.droppedTotal = s.droppedTotal := only.same_of_apart away (f := .droppedTotal) (by simp [countFields])
  have register : t.register = s.register := only.same_of_apart away (f := .register) (by simp [countFields])
  exact
    { outbox := outbox ▸ h.outbox, alarms := alarms ▸ h.alarms, focus := focus ▸ h.focus, starvation := starvation ▸ h.starvation,
      droppedBefore := before ▸ h.droppedBefore, droppedTotal := total ▸ h.droppedTotal, register := register ▸ h.register,
      tickets := outbox ▸ h.tickets }

theorem Aside.countsOk {s t : State} {fs : List Field} (d : Aside s fs t) (h : CountsOk s) : CountsOk t := by
  by_cases away : apart countFields fs = true
  · exact h.of_only d.only away
  · cases d with
    | counts only kept =>
      exact
        { outbox := by rw [only.get .outbox rfl]; exact h.outbox
          alarms := kept.alarms h.alarms
          focus := kept.focus h.focus
          starvation := kept.starvation h.starvation
          droppedBefore := kept.droppedBefore h.droppedBefore
          droppedTotal := kept.droppedTotal h.droppedTotal
          register := by rw [only.get .register rfl]; exact h.register
          tickets := by rw [only.get .outbox rfl]; exact h.tickets }
    | outbox q room ok =>
      refine { h with outbox := ?_, tickets := fun p mem => ?_ }
      · rw [List.length_append, List.length_singleton]; exact room
      · rcases List.mem_append.mp mem with mem | mem
        · exact h.tickets p mem
        · exact List.mem_singleton.mp mem ▸ ok h.register
    | register o ok => exact { h with register := fun k open' => ok k open' h.register }
    | _ => exact absurd rfl away

theorem countsOk_of_empty {t : State} (outbox : t.outbox = []) (alarms : t.alarmList = []) (focus : t.focus = [])
    (starvation : t.starvation = 0) (before : t.droppedBefore = 0) (total : t.droppedTotal = 0) (register : t.register = none) :
    CountsOk t := by
  constructor <;> simp [outbox, alarms, focus, starvation, before, total, register]

theorem Deed.countsOk {s t : State} {fs : List Field} (d : Deed s fs t) (h : CountsOk s) : CountsOk t := by
  by_cases away : apart countFields fs = true
  · exact h.of_only d.only away
  · cases d with
    | aside deed => exact deed.countsOk h
    | ticket q qs next ready =>
      rw [moveTicket_of_ready next ready]
      have fewer : qs.length + 1 ≤ 8 := by have := h.outbox; rwa [next] at this
      exact { h with
        outbox := Nat.le_of_succ_le fewer
        droppedBefore := Nat.zero_le _
        tickets := fun p mem => h.tickets p (next ▸ List.mem_cons_of_mem q mem) }
    | path =>
      unfold takePath
      split
      · exact h
      · exact { h with starvation := Nat.zero_le _ }
    | accept a =>
      have only := acceptCommit_only a s
      exact
        { outbox := by rw [only.get .outbox rfl]; exact h.outbox
          alarms := by simp [acceptCommit, clearAllGroups]
          focus := by simp [acceptCommit, clearAllGroups]
          starvation := by rw [only.get .starvation rfl]; exact h.starvation
          droppedBefore := by rw [only.get .droppedBefore rfl]; exact h.droppedBefore
          droppedTotal := by rw [only.get .droppedTotal rfl]; exact h.droppedTotal
          register := by rw [only.get .register rfl]; exact h.register
          tickets := by rw [only.get .outbox rfl]; exact h.tickets }
    | retire b ended =>
      obtain ⟨u, v, before, middle, after⟩ := ended.stages
      exact (middle.keeps Aside.countsOk (h.of_only before rfl)).of_only after rfl
    | cold => exact countsOk_of_empty rfl rfl rfl rfl rfl rfl rfl
    | warm => exact countsOk_of_empty rfl rfl rfl rfl rfl rfl rfl
    | _ => exact absurd rfl away

/-! ## The Test Queue and the tests on the buses -/

/-- The Test Queue is within its capacity, and so is the slot list of every entry, in the queue and on a bus. -/
structure TestSlotsOk (s : State) : Prop where
  queue : s.queue.length ≤ 16
  queued : ∀ e ∈ s.queue, e.slots.length ≤ 4
  onBus : ∀ b e, (s.bus b).test = some e → e.slots.length ≤ 4

theorem TestSlotsOk.of_only {fs : List Field} {s t : State} (h : TestSlotsOk s) (only : OnlyChanges fs s t)
    (away : apart [.queue, .buses] fs = true) : TestSlotsOk t := by
  have queue : t.queue = s.queue := only.same_of_apart away (f := .queue) (by simp)
  have buses (b : BusNo) : t.bus b = s.bus b := by
    rw [State.bus, show t.buses = s.buses from only.same_of_apart away (f := .buses) (by simp), State.bus]
  exact ⟨queue ▸ h.queue, queue ▸ h.queued, by simpa only [buses] using h.onBus⟩

/-- A bus's test has changed, and the others are as they were. -/
theorem TestSlotsOk.of_bus {s t : State} {b : BusNo} (h : TestSlotsOk s) (others : OtherBuses b s t) (fewer : t.queue.Sublist s.queue)
    (short : ∀ e, (t.bus b).test = some e → e.slots.length ≤ 4) : TestSlotsOk t where
  queue := fewer.length_le.trans h.queue
  queued := fun e mem => h.queued e (fewer.subset mem)
  onBus := fun x e test => by
    rcases eq_or_ne x b with rfl | other
    · exact short e test
    · rw [others x other] at test
      exact h.onBus x e test

theorem Bus.Rewritten.slots_short {r x : Bus} (ok : r.Rewritten x) (short : ∀ e, r.test = some e → e.slots.length ≤ 4) :
    ∀ e, x.test = some e → e.slots.length ≤ 4 := by
  intro e test
  rcases ok.test with ⟨-, none⟩ | ⟨e', y, was, is, slots, -, -⟩
  · simp [none] at test
  · rw [is] at test
    obtain rfl := Option.some.inj test
    exact slots.length_le.trans (short e' was)

/-- An entry that leaves the queue: the queue without it, and the entry itself. -/
theorem queue_split_sublist {s : State} {e : TestEntry} {rest : List TestEntry}
    (split : ∃ before after, s.queue = before ++ e :: after ∧ rest = before ++ after) : rest.Sublist s.queue ∧ e ∈ s.queue := by
  obtain ⟨before, after, queue, rfl⟩ := split
  rw [queue]
  exact ⟨(List.sublist_cons_self e after).append_left before, by simp⟩

theorem Deed.testSlotsOk {s t : State} {fs : List Field} (d : Deed s fs t) (h : TestSlotsOk s) : TestSlotsOk t := by
  by_cases away : apart [.queue, .buses] fs = true
  · exact h.of_only d.only away
  · cases d with
    | aside deed => cases deed <;> exact absurd rfl away
    | queue q ok => exact ⟨ok.room h.queue, ok.short h.queued, h.onBus⟩
    | rebus b r ok =>
      refine h.of_bus (setBus_otherBuses b r s) (.refl _) ?_
      rw [State.setBus_view_bus_self]
      exact ok.slots_short (h.onBus b)
    | idle b =>
      refine h.of_bus (enterIdle_otherBuses b s) (by rw [(enterIdle_only b s).get .queue rfl]) ?_
      rw [enterIdle_view_bus_self]
      simp [Bus.idle]
    | settle b =>
      refine h.of_bus (b := b) (setBus_otherBuses b _ s) (.refl _) ?_
      rw [joinWait_setBus_view_bus_self]
      exact h.onBus b
    | claim b e rest selected =>
      obtain ⟨fewer, mem⟩ := queue_split_sublist (claimSelected selected).split
      refine h.of_bus (giveToIdle_otherBuses b e rest s) (by rwa [giveToIdle_queue]) ?_
      rw [giveToIdle_view_bus_self]
      simpa using h.queued e mem
    | rejoin b e rest selected =>
      obtain ⟨fewer, mem⟩ := queue_split_sublist (rejoinSelected selected).split
      refine h.of_bus (giveToHeld_otherBuses b e rest s) (by rwa [giveToHeld_queue]) ?_
      rw [giveToHeld_view_bus_self]
      simpa using h.queued e mem
    | grant hd b rest =>
      refine h.of_bus (grantHead_otherBuses hd b rest s) (by rw [(grantHead_only hd b rest s).get .queue rfl]) ?_
      rw [grantHead_view_bus_self]
      exact h.onBus b
    | retire b ended =>
      refine h.of_bus ended.others (by rw [ended.only.get .queue rfl]) ?_
      simp [ended.test]
    | cold => exact ⟨Nat.zero_le _, by simp [coldReset, resetShared], fun b e => by rw [coldReset_view_bus]; simp [Bus.recovering, Bus.idle]⟩
    | warm =>
      refine ⟨Nat.zero_le _, by simp [warmReset, resetShared], fun b e => ?_⟩
      rw [warmReset_view_bus, Bus.warm]
      split
      · exact h.onBus b e
      · simp [Bus.recovering, Bus.idle]
    | tick =>
      refine ⟨h.queue, h.queued, fun b => ?_⟩
      rw [tick_view_bus]
      exact h.onBus b
    | _ => exact absurd rfl away

/-! ## What the writer entries hold -/

/-- Where an entry of the writer comes from. -/
inductive WriterOrigin (s : State) : WriterEntry → Prop where
  | kept {e : WriterEntry} (mem : e ∈ s.writerQueue) : WriterOrigin s e
  | status (o : Option CommitRecord) : WriterOrigin s (.status o)
  | general {e : WriterEntry} (kind : e.isGeneral = true ∧ e.isTicket = false) : WriterOrigin s e
  | ticket (i n : Count16) (d : Nat) {q : QueuedTicket} (mem : q ∈ s.outbox) : WriterOrigin s (.ticket i n d q.ticket)
  | final (b : BusNo) (r : ResultRecord) : WriterOrigin s (.bus b r (s.bus b).slots)
  | rest (b : BusNo) (r : ResultRecord) {m : SlotMember} {ms : List SlotMember} (mem : .bus b r (m :: ms) ∈ s.writerQueue) :
      WriterOrigin s (.bus b r ms)

theorem mem_markStatus {o : Option CommitRecord} {l : List WriterEntry} {e : WriterEntry} (h : e ∈ markStatus o l) :
    e ∈ l ∨ ∃ p, e = .status p := by
  induction l with
  | nil => exact .inr ⟨o, by simpa [markStatus] using h⟩
  | cons x l ih =>
    unfold markStatus at h
    split at h
    · split at h
      · rcases List.mem_cons.mp h with same | mem
        · exact .inr ⟨_, same⟩
        · exact .inl (List.mem_cons_of_mem x mem)
      · exact .inl h
    · rcases List.mem_cons.mp h with same | mem
      · exact .inl (same ▸ List.mem_cons_self)
      · exact (ih mem).imp_left (List.mem_cons_of_mem x)

theorem mem_markDirty {o : Option CommitRecord} {s : State} {e : WriterEntry} (h : e ∈ (s.markDirty o).writerQueue) :
    e ∈ s.writerQueue ∨ ∃ p, e = .status p := by
  unfold State.markDirty at h
  split at h
  · split at h
    · next none => exact (mem_markStatus h).imp_left (by simp)
    · next x l queue =>
      rw [queue]
      rcases List.mem_cons.mp h with same | mem
      · exact .inl (same ▸ List.mem_cons_self)
      · exact (mem_markStatus mem).imp_left (List.mem_cons_of_mem x)
  · exact mem_markStatus h

theorem mem_pushEntry {s : State} {x e : WriterEntry} (h : e ∈ (s.pushEntry x).writerQueue) : e ∈ s.writerQueue ∨ e = x := by
  simpa [State.pushEntry] using h

theorem Deed.writerOrigin {s t : State} {fs : List Field} (d : Deed s fs t) {e : WriterEntry} (mem : e ∈ t.writerQueue) :
    WriterOrigin s e := by
  by_cases away : apart [.writerQueue] fs = true
  · exact .kept ((show t.writerQueue = s.writerQueue from d.only.same_of_apart away (f := .writerQueue) (by simp)) ▸ mem)
  · cases d with
    | aside deed => cases deed <;> exact absurd rfl away
    | push x kind =>
      rcases mem_pushEntry mem with mem | rfl
      · exact .kept mem
      · exact .general kind
    | ticket q qs next ready =>
      rw [moveTicket_of_ready next ready] at mem
      rcases mem_pushEntry mem with mem | rfl
      · exact .kept mem
      · exact .ticket _ _ _ (next ▸ List.mem_cons_self)
    | mark o =>
      rcases mem_markDirty mem with mem | ⟨p, rfl⟩
      · exact .kept mem
      · exact .status p
    | popped x es first => exact .kept (first ▸ List.mem_cons_of_mem x mem)
    | shortened b r m ms es first =>
      rcases List.mem_cons.mp mem with rfl | mem
      · exact .rest b r (first ▸ List.mem_cons_self)
      · exact .kept (first ▸ List.mem_cons_of_mem _ mem)
    | retire b ended =>
      rcases ended.queued with ⟨-, same⟩ | ⟨-, r, more⟩
      · exact .kept (same ▸ mem)
      · rcases List.mem_append.mp (more ▸ mem) with mem | mem
        · exact .kept mem
        · exact List.mem_singleton.mp mem ▸ .final b r
    | cold => simp [coldReset, resetShared] at mem
    | warm => simp [warmReset, resetShared] at mem
    | _ => exact absurd rfl away

/-- The slot lists and the tickets in the writer are in order. -/
structure WriterContentOk (s : State) : Prop where
  slots : ∀ b r slots, WriterEntry.bus b r slots ∈ s.writerQueue → slots.length ≤ 4
  tickets : ∀ i n d k, WriterEntry.ticket i n d k ∈ s.writerQueue → k.LinesOk

theorem Deed.writerContentOk {s t : State} {fs : List Field} (d : Deed s fs t) (counts : CountsOk s) (tests : TestSlotsOk s)
    (h : WriterContentOk s) : WriterContentOk t where
  slots := fun b r slots mem => by
    cases d.writerOrigin mem with
    | kept mem => exact h.slots b r slots mem
    | general kind => simp [WriterEntry.isGeneral] at kind
    | final =>
      match test : (s.bus b).test with
      | some e => rw [Bus.slots_of_test test]; exact tests.onBus b e test
      | none => simp [Bus.slots_of_no_test test]
    | rest b r mem => exact Nat.le_of_succ_le (h.slots b r _ mem)
  tickets := fun i n d' k mem => by
    cases d.writerOrigin mem with
    | kept mem => exact h.tickets i n d' k mem
    | general kind => simp [WriterEntry.isTicket] at kind
    | @ticket _ _ _ q inOutbox => exact counts.tickets q inOutbox

end Sys2Proof.Machine
end

section
/-!
PROOFS. The nine writer entries (R159–R161). Settles O56.
-/

namespace Sys2Proof.Machine

/-! ## The four general entries -/

theorem not_isGeneral_of_isStatus (e : WriterEntry) (status : e.isStatus = true) : e.isGeneral = false := by
  cases e <;> simp [WriterEntry.isStatus, WriterEntry.isGeneral] at status ⊢

theorem generalFilled_of_news {s t : State} (news : t.newsEntries = s.newsEntries) : t.generalFilled = s.generalFilled := by
  rw [State.generalFilled, State.generalFilled, countP_news not_isGeneral_of_isStatus, news, ← countP_news not_isGeneral_of_isStatus]

theorem Deed.generalFilled {s t : State} {fs : List Field} (d : Deed s fs t) (h : s.generalFilled ≤ 4) : t.generalFilled ≤ 4 := by
  by_cases away : apart [.writerQueue] fs = true
  · rw [State.generalFilled, show t.writerQueue = s.writerQueue from d.only.same_of_apart away (f := .writerQueue) (by simp)]
    exact h
  · cases d with
    | aside deed => cases deed <;> exact absurd rfl away
    | push e kind room => rw [pushEntry_generalFilled kind.1]; exact room
    | ticket q qs next ready =>
      obtain ⟨-, -, -, room⟩ := (moveReady_iff s).mp ready
      rw [moveTicket_of_ready next ready, pushEntry_generalFilled rfl]
      change s.generalFilled + 1 ≤ 4
      omega
    | mark o => rw [generalFilled_of_news (markDirty_news s o)]; exact h
    | popped e es first =>
      have fewer : es.countP WriterEntry.isGeneral ≤ s.generalFilled := by
        rw [State.generalFilled, first]; exact (List.sublist_cons_self e es).countP_le
      exact fewer.trans h
    | shortened b r m ms es first => simpa [State.generalFilled, first, WriterEntry.isGeneral] using h
    | retire b ended =>
      rcases ended.queued with ⟨-, same⟩ | ⟨-, r, more⟩
      · rw [State.generalFilled, same]; exact h
      · simpa [State.generalFilled, more, WriterEntry.isGeneral] using h
    | cold | warm => exact Nat.zero_le _
    | _ => exact absurd rfl away

/-! ## The entry of each bus (R22, R38) -/

/-- How many entries of a bus are filled. -/
def State.busFilled (s : State) (b : BusNo) : Nat := s.writerQueue.countP (WriterEntry.isBus b)

theorem busEntryEmpty_iff (s : State) (b : BusNo) : s.busEntryEmpty b = true ↔ s.busFilled b = 0 := by
  simp [State.busEntryEmpty, State.busFilled, List.countP_eq_zero]

theorem not_isBus_of_isStatus (b : BusNo) (e : WriterEntry) (status : e.isStatus = true) : e.isBus b = false := by
  cases e <;> simp [WriterEntry.isStatus, WriterEntry.isBus] at status ⊢

theorem not_isBus_of_isGeneral (b : BusNo) {e : WriterEntry} (general : e.isGeneral = true) : e.isBus b = false := by
  cases e <;> simp [WriterEntry.isGeneral, WriterEntry.isBus] at general ⊢

theorem busFilled_of_news {s t : State} (news : t.newsEntries = s.newsEntries) (b : BusNo) : t.busFilled b = s.busFilled b := by
  rw [State.busFilled, State.busFilled, countP_news (not_isBus_of_isStatus b), news, ← countP_news (not_isBus_of_isStatus b)]

theorem pushEntry_busFilled {e : WriterEntry} (general : e.isGeneral = true) (s : State) (b : BusNo) :
    (s.pushEntry e).busFilled b = s.busFilled b := by
  simp [State.busFilled, State.pushEntry, not_isBus_of_isGeneral b general]

/-- The entry of a bus is filled only as its test ends. -/
theorem Deed.busFilled {s t : State} {fs : List Field} (d : Deed s fs t) (b : BusNo) :
    t.busFilled b ≤ s.busFilled b ∨
      ((s.bus b).test ≠ none ∧ (t.bus b).test = none ∧ t.busFilled b = s.busFilled b + 1) := by
  by_cases away : apart [.writerQueue] fs = true
  · refine .inl (le_of_eq ?_)
    rw [State.busFilled, show t.writerQueue = s.writerQueue from d.only.same_of_apart away (f := .writerQueue) (by simp),
      State.busFilled]
  · cases d with
    | aside deed => cases deed <;> exact absurd rfl away
    | push e kind => exact .inl (pushEntry_busFilled kind.1 s b).le
    | ticket q qs next ready =>
      rw [moveTicket_of_ready next ready, pushEntry_busFilled rfl]
      exact .inl (le_refl (s.busFilled b))
    | mark o => exact .inl (busFilled_of_news (markDirty_news s o) b).le
    | popped e es first =>
      refine .inl ?_
      rw [State.busFilled, State.busFilled, first]
      exact (List.sublist_cons_self e es).countP_le
    | shortened c r m ms es first =>
      refine .inl (le_of_eq ?_)
      simp [State.busFilled, first, List.countP_cons, WriterEntry.isBus]
    | retire c ended =>
      rcases ended.queued with ⟨-, same⟩ | ⟨slots, r, more⟩
      · exact .inl (by rw [State.busFilled, same, State.busFilled])
      · rcases eq_or_ne b c with rfl | other
        · refine .inr ⟨fun none => slots (Bus.slots_of_no_test none), ended.test, ?_⟩
          simp [State.busFilled, more, WriterEntry.isBus]
        · refine .inl (le_of_eq ?_)
          simp [State.busFilled, more, WriterEntry.isBus, other]
    | cold | warm => exact .inl (Nat.zero_le _)
    | _ => exact absurd rfl away

/-- A bus whose record alone has changed. -/
theorem test_of_otherBuses {s t : State} {b : BusNo} (others : OtherBuses b s t)
    (same : (t.bus b).test ≠ none → (s.bus b).test ≠ none ∨ s.busEntryEmpty b = true) (x : BusNo) (test : (t.bus x).test ≠ none) :
    (s.bus x).test ≠ none ∨ s.busEntryEmpty x = true := by
  rcases eq_or_ne x b with rfl | other
  · exact same test
  · rw [others x other] at test; exact .inl test

/-- A bus is given a test only while its entry is empty. -/
theorem Deed.test_given {s t : State} {fs : List Field} (d : Deed s fs t) {b : BusNo} (test : (t.bus b).test ≠ none) :
    (s.bus b).test ≠ none ∨ s.busEntryEmpty b = true := by
  by_cases away : apart [.buses] fs = true
  · rw [State.bus, show t.buses = s.buses from d.only.same_of_apart away (f := .buses) (by simp)] at test
    exact .inl test
  · cases d with
    | aside deed => cases deed <;> exact absurd rfl away
    | rebus c r ok =>
      refine test_of_otherBuses (setBus_otherBuses c r s) ?_ b test
      rw [State.setBus_view_bus_self]
      rcases ok.test with ⟨-, none⟩ | ⟨e, y, was, -⟩
      · exact fun some => absurd none some
      · exact fun _ => .inl (by simp [was])
    | idle c => exact test_of_otherBuses (enterIdle_otherBuses c s) (by simp [enterIdle_view_bus_self, Bus.idle]) b test
    | settle c =>
      refine test_of_otherBuses (b := c) (setBus_otherBuses c _ s) ?_ b test
      rw [State.setBus_view_bus_self]
      exact .inl
    | claim c e rest selected =>
      exact test_of_otherBuses (giveToIdle_otherBuses c e rest s) (fun _ => .inr (claimSelected selected).empty) b test
    | rejoin c e rest selected =>
      exact test_of_otherBuses (giveToHeld_otherBuses c e rest s) (fun _ => .inr (rejoinSelected selected).empty) b test
    | grant hd c rest =>
      refine test_of_otherBuses (grantHead_otherBuses hd c rest s) ?_ b test
      rw [grantHead_view_bus_self]
      exact .inl
    | retire c ended => exact test_of_otherBuses ended.others (fun some => absurd ended.test some) b test
    | cold => rw [coldReset_view_bus] at test; exact absurd rfl test
    | warm =>
      rw [warmReset_view_bus, Bus.warm] at test
      split at test
      · exact .inl test
      · exact absurd rfl test
    | tick => rw [tick_view_bus] at test; exact .inl test
    | _ => exact absurd rfl away

/-- Each bus has one writer entry, and it is empty while the bus carries a test. -/
structure BusEntriesOk (s : State) : Prop where
  one : ∀ b, s.busFilled b ≤ 1
  empty : ∀ b, (s.bus b).test ≠ none → s.busFilled b = 0

theorem Deed.busEntriesOk {s t : State} {fs : List Field} (d : Deed s fs t) (h : BusEntriesOk s) : BusEntriesOk t where
  one := fun b => by
    rcases d.busFilled b with fewer | ⟨test, -, more⟩
    · exact fewer.trans (h.one b)
    · rw [more, h.empty b test]
  empty := fun b test => by
    have was : s.busFilled b = 0 := by
      rcases d.test_given test with had | empty
      · exact h.empty b had
      · exact (busEntryEmpty_iff s b).mp empty
    rcases d.busFilled b with fewer | ⟨-, none, -⟩
    · omega
    · exact absurd none test

/-! ## The status entry (R161) -/

/-- The entries not yet begun. -/
def State.unbegun (s : State) : List WriterEntry := if s.path.isWriter = true then s.writerQueue.tail else s.writerQueue

/-- The status entry is pending at most once behind what is being written. -/
def StatusOnce (s : State) : Prop := s.unbegun.countP WriterEntry.isStatus ≤ 1

theorem markStatus_once (o : Option CommitRecord) {l : List WriterEntry} (h : l.countP WriterEntry.isStatus ≤ 1) :
    (markStatus o l).countP WriterEntry.isStatus ≤ 1 := by
  induction l with
  | nil => simp [markStatus, WriterEntry.isStatus]
  | cons e es ih =>
    unfold markStatus
    split
    · next status =>
      rw [List.countP_cons, if_pos status] at h
      split
      · simpa [List.countP_cons, WriterEntry.isStatus] using h
      · rw [List.countP_cons, if_pos status]; exact h
    · next other =>
      rw [List.countP_cons, if_neg other] at h ⊢
      exact ih h

theorem StatusOnce.of_same {s t : State} (h : StatusOnce s) (path : t.path = s.path) (queue : t.writerQueue = s.writerQueue) :
    StatusOnce t := by
  unfold StatusOnce State.unbegun at h ⊢
  rwa [path, queue]

/-- An entry that is not the status entry becomes pending. -/
theorem StatusOnce.of_append {s t : State} {e : WriterEntry} (h : StatusOnce s) (path : t.path = s.path)
    (queue : t.writerQueue = s.writerQueue ++ [e]) (other : e.isStatus = false) : StatusOnce t := by
  unfold StatusOnce State.unbegun at h ⊢
  rw [path, queue]
  split
  · next writing =>
    rw [if_pos writing] at h
    cases was : s.writerQueue with
    | nil => simp
    | cons x l => simpa [was, other] using h
  · next resting =>
    rw [if_neg resting] at h
    simpa [other] using h

theorem StatusOnce.after_mark {s : State} (h : StatusOnce s) (o : Option CommitRecord) : StatusOnce (s.markDirty o) := by
  have path : (s.markDirty o).path = s.path := (markDirty_only o s).get .path rfl
  unfold StatusOnce State.unbegun at h ⊢
  rw [path]
  unfold State.markDirty
  split
  · next writing =>
    rw [if_pos writing] at h
    split
    · simp [markStatus]
    · next e es was => rw [was] at h; exact markStatus_once o h
  · next resting => rw [if_neg resting] at h; exact markStatus_once o h

theorem Deed.statusOnce {s t : State} {fs : List Field} (d : Deed s fs t) (h : StatusOnce s) : StatusOnce t := by
  by_cases away : apart [.path, .writerQueue] fs = true
  · exact h.of_same (d.only.same_of_apart away (f := .path) (by simp)) (d.only.same_of_apart away (f := .writerQueue) (by simp))
  · cases d with
    | aside deed => cases deed <;> exact absurd rfl away
    | push e kind =>
      refine h.of_append rfl rfl (Bool.eq_false_iff.mpr fun status => ?_)
      simp [not_isGeneral_of_isStatus e status] at kind
    | ticket q qs next ready =>
      rw [moveTicket_of_ready next ready]
      exact h.of_append rfl rfl rfl
    | mark o => exact h.after_mark o
    | path may =>
      obtain ⟨free, -, -⟩ := (writerMayTake_iff s).mp may
      unfold takePath
      split
      · exact h
      · unfold StatusOnce State.unbegun at h ⊢
        rw [free] at h
        exact (List.tail_sublist _).countP_le.trans h
    | popped e es first writing =>
      unfold StatusOnce State.unbegun at h ⊢
      rw [if_pos writing, first] at h
      exact h
    | shortened b r m ms es first writing =>
      unfold StatusOnce State.unbegun at h ⊢
      rw [if_pos writing, first] at h
      exact h
    | freed none =>
      unfold StatusOnce State.unbegun
      simp [none]
    | retire b ended =>
      have path := ended.only.get .path rfl
      rcases ended.queued with ⟨-, same⟩ | ⟨-, r, more⟩
      · exact h.of_same path same
      · exact h.of_append path more rfl
    | cold | warm => exact Nat.zero_le _
    | _ => exact absurd rfl away

/-! ## Every capacity -/

/-- The parts of the capacities, each kept by every deed. -/
structure Capacities (s : State) : Prop where
  counts : CountsOk s
  tests : TestSlotsOk s
  content : WriterContentOk s
  general : s.generalFilled ≤ 4
  entries : BusEntriesOk s
  status : StatusOnce s

theorem capacities_iff (s : State) : Capacities s ↔ CapacityOk s := by
  constructor
  · rintro ⟨counts, tests, content, general, entries, status⟩
    exact ⟨tests.queue, counts.outbox, counts.alarms, counts.focus, counts.starvation, counts.droppedBefore, counts.droppedTotal,
      ⟨tests.queued, tests.onBus, content.slots⟩,
      ⟨general, entries.one, fun b test => (busEntryEmpty_iff s b).mpr (entries.empty b test), status⟩,
      ⟨counts.register, counts.tickets, content.tickets⟩⟩
  · rintro ⟨queue, outbox, alarms, focus, starvation, before, total, ⟨queued, onBus, slots⟩, ⟨general, one, empty, status⟩,
      ⟨register, tickets, written⟩⟩
    exact
      { counts := ⟨outbox, alarms, focus, starvation, before, total, register, tickets⟩
        tests := ⟨queue, queued, onBus⟩
        content := ⟨slots, written⟩
        general := general
        entries := ⟨one, fun b test => (busEntryEmpty_iff s b).mp (empty b test)⟩
        status := status }

theorem Deed.capacities {s t : State} {fs : List Field} (d : Deed s fs t) (h : Capacities s) : Capacities t where
  counts := d.countsOk h.counts
  tests := d.testSlotsOk h.tests
  content := d.writerContentOk h.counts h.tests h.content
  general := d.generalFilled h.general
  entries := d.busEntriesOk h.entries
  status := d.statusOnce h.status

theorem Capacities.of_only {fs : List Field} {s t : State} (h : Capacities s) (only : OnlyChanges fs s t)
    (away : apart (.path :: .writerQueue :: .queue :: .buses :: countFields) fs = true) : Capacities t := by
  have path : t.path = s.path := only.same_of_apart away (f := .path) (by simp)
  have queue : t.writerQueue = s.writerQueue := only.same_of_apart away (f := .writerQueue) (by simp)
  have buses (b : BusNo) : t.bus b = s.bus b := by
    rw [State.bus, show t.buses = s.buses from only.same_of_apart away (f := .buses) (by simp), State.bus]
  have part {fs' : List Field} (sub : ∀ f ∈ fs', f ∈ Field.path :: .writerQueue :: .queue :: .buses :: countFields) :
      apart fs' fs = true := List.all_eq_true.mpr fun f mem => List.all_eq_true.mp away f (sub f mem)
  exact
    { counts := h.counts.of_only only (part (by simp +contextual))
      tests := h.tests.of_only only (part (by simp))
      content := ⟨queue ▸ h.content.slots, queue ▸ h.content.tickets⟩
      general := by rw [State.generalFilled, queue]; exact h.general
      entries := ⟨by simpa only [State.busFilled, queue] using h.entries.one,
        by simpa only [State.busFilled, queue, buses] using h.entries.empty⟩
      status := h.status.of_same path queue }

/-- Settles O56: each part of the capacities is kept by every deed. -/
theorem capacityKept : Obligations.CapacityKept := fun _ _ h stepped =>
  (capacities_iff _).mp (step_keeps (fun only h => h.of_only only rfl) Deed.capacities ((capacities_iff _).mpr h) stepped)

end Sys2Proof.Machine
end

section
/-!
PROOFS. Until the first accepted commit nothing is queued, pending or raised but the outcome word (R52, R164, R179). Settles O60.
-/

namespace Sys2Proof.Machine

/-! ## Tickets and flags -/

/-- No anchor is in force, no ticket is about and no flag is set. -/
structure Silent (s : State) : Prop where
  anchor : s.anchor = none
  register : s.register = none
  outbox : s.outbox = []
  flags : ∀ f, s.flag f = .clear

def silentFields : List Field := [.anchor, .register, .outbox, .flags]

theorem Silent.of_only {fs : List Field} {s t : State} (h : Silent s) (only : OnlyChanges fs s t)
    (away : apart silentFields fs = true) : Silent t where
  anchor := (only.same_of_apart away (f := .anchor) (by simp [silentFields])).trans h.anchor
  register := (only.same_of_apart away (f := .register) (by simp [silentFields])).trans h.register
  outbox := (only.same_of_apart away (f := .outbox) (by simp [silentFields])).trans h.outbox
  flags := fun f => by
    rw [State.flag, show t.flags = s.flags from only.same_of_apart away (f := .flags) (by simp [silentFields])]
    exact h.flags f

theorem Aside.silent {s t : State} {fs : List Field} (d : Aside s fs t) (h : Silent s) : Silent t := by
  by_cases away : apart silentFields fs = true
  · exact h.of_only d.only away
  · cases d with
    | flags only clear =>
      exact ⟨(only.get .anchor rfl).trans h.anchor, (only.get .register rfl).trans h.register, (only.get .outbox rfl).trans h.outbox,
        fun f => clear h.anchor f (h.flags f)⟩
    | outbox q room ok used =>
      rcases used with used | used
      · exact absurd h.anchor used
      · exact absurd h.register used
    | register o ok used => exact { h with register := used h.anchor }
    | _ => exact absurd rfl away

/-! ## Everything -/

/-- Nothing is queued, no test is on a bus, and the one write that can be pending or in progress is the outcome word. -/
structure Uncommitted (s : State) : Prop where
  silent : Silent s
  queue : s.queue = []
  fence : s.fence = none
  tests : ∀ b, (s.bus b).test = none
  short : s.writerQueue.length ≤ 1
  outcome : ∀ e ∈ s.writerQueue, ∃ c, e = .status (some c)
  record : ∀ r, s.path = .writer r → ∀ w ∈ r.words, w.1 = 0x278

theorem beforeCommitOk_iff (s : State) : BeforeCommitOk s ↔ (s.anchor = none → Uncommitted s) := by
  unfold BeforeCommitOk
  constructor
  · intro h anchor
    obtain ⟨queue, fence, register, outbox, tests, flags, short, outcome, record⟩ := h anchor
    exact ⟨⟨anchor, register, outbox, flags⟩, queue, fence, tests, short, outcome, record⟩
  · intro h anchor
    obtain ⟨⟨-, register, outbox, flags⟩, queue, fence, tests, short, outcome, record⟩ := h anchor
    exact ⟨queue, fence, register, outbox, tests, flags, short, outcome, record⟩

def uncommittedFields : List Field := [.anchor, .register, .outbox, .flags, .queue, .fence, .buses, .writerQueue, .path]

theorem Uncommitted.of_only {fs : List Field} {s t : State} (h : Uncommitted s) (only : OnlyChanges fs s t)
    (away : apart uncommittedFields fs = true) : Uncommitted t := by
  have writer : t.writerQueue = s.writerQueue := only.same_of_apart away (f := .writerQueue) (by simp [uncommittedFields])
  have path : t.path = s.path := only.same_of_apart away (f := .path) (by simp [uncommittedFields])
  have buses : t.buses = s.buses := only.same_of_apart away (f := .buses) (by simp [uncommittedFields])
  exact
    { silent := h.silent.of_only only (List.all_eq_true.mpr fun f mem => List.all_eq_true.mp away f (by
        simp only [silentFields, uncommittedFields, List.mem_cons, List.not_mem_nil] at mem ⊢; tauto))
      queue := (only.same_of_apart away (f := .queue) (by simp [uncommittedFields])).trans h.queue
      fence := (only.same_of_apart away (f := .fence) (by simp [uncommittedFields])).trans h.fence
      tests := fun b => by rw [State.bus, buses]; exact h.tests b
      short := writer ▸ h.short
      outcome := writer ▸ h.outcome
      record := path ▸ h.record }

/-- Only the buses have changed, and none carries a test. -/
theorem Uncommitted.of_buses {fs : List Field} {s t : State} {b : BusNo} (h : Uncommitted s) (only : OnlyChanges fs s t)
    (away : apart (uncommittedFields.erase .buses) fs = true) (others : OtherBuses b s t) (test : (t.bus b).test = none) :
    Uncommitted t := by
  have writer : t.writerQueue = s.writerQueue := only.same_of_apart away (f := .writerQueue) (by decide)
  have path : t.path = s.path := only.same_of_apart away (f := .path) (by decide)
  exact
    { silent := h.silent.of_only only (List.all_eq_true.mpr fun f mem => List.all_eq_true.mp away f (by
        simp only [silentFields, List.mem_cons, List.not_mem_nil] at mem
        rcases mem with rfl | rfl | rfl | rfl | mem <;> first | decide | exact mem.elim))
      queue := (only.same_of_apart away (f := .queue) (by decide)).trans h.queue
      fence := (only.same_of_apart away (f := .fence) (by decide)).trans h.fence
      tests := fun x => by
        rcases eq_or_ne x b with rfl | other
        · exact test
        · rw [others x other]; exact h.tests x
      short := writer ▸ h.short
      outcome := writer ▸ h.outcome
      record := path ▸ h.record }

theorem Bus.Rewritten.no_test {r x : Bus} (ok : r.Rewritten x) (absent : r.test = none) : x.test = none := by
  rcases ok.test with ⟨-, is⟩ | ⟨e, _, was, -⟩
  · exact is
  · simp [absent] at was

/-- While no anchor is in force, a deed that brings none into force leaves it so. -/
theorem Uncommitted.after {s t : State} {fs : List Field} (d : Deed s fs t) (h : Uncommitted s) (same : apart [.anchor] fs = true) :
    Uncommitted t := by
  by_cases away : apart uncommittedFields fs = true
  · exact h.of_only d.only away
  · cases d with
    | aside deed =>
      have silent := deed.silent h.silent
      cases deed with
      | flags only =>
        exact
          { silent := silent
            queue := (only.get .queue rfl).trans h.queue
            fence := (only.get .fence rfl).trans h.fence
            tests := fun b => by rw [only.bus rfl]; exact h.tests b
            short := by rw [only.get .writerQueue rfl]; exact h.short
            outcome := by rw [only.get .writerQueue rfl]; exact h.outcome
            record := by rw [only.get .path rfl]; exact h.record }
      | outbox | register => exact { h with silent := silent }
      | _ => exact absurd rfl away
    | fence f used => exact { h with silent := { h.silent with }, fence := used h.silent.anchor }
    | queue q ok => exact { h with silent := { h.silent with }, queue := ok.used h.silent.anchor h.queue }
    | push e kind room used =>
      rcases used with used | used
      · exact absurd h.silent.anchor used
      · exact absurd h.fence used
    | ticket q qs next => simp [h.silent.outbox] at next
    | mark o used =>
      obtain ⟨given, empty, resting⟩ := used h.silent.anchor
      obtain ⟨c, rfl⟩ := Option.ne_none_iff_exists'.mp given
      have marked : s.markDirty (some c) = { s with writerQueue := [.status (some c)] } := by
        rw [State.markDirty, resting, empty]
        rfl
      rw [marked]
      exact { h with silent := { h.silent with }, short := Nat.le_refl 1, outcome := by simp }
    | path may =>
      unfold takePath
      split
      · exact h
      · next e es first =>
        refine { h with silent := { h.silent with }, record := fun r writing w mem => ?_ }
        obtain ⟨c, rfl⟩ := h.outcome e (first ▸ List.mem_cons_self)
        obtain rfl := Path.writer.inj writing
        rw [entryWords, h.silent.anchor] at mem
        simp only [List.mem_singleton] at mem
        rw [mem]
        rfl
    | popped e es first =>
      refine { h with silent := { h.silent with }, short := ?_, outcome := fun x mem => ?_, record := by simp }
      · have short := h.short
        rw [first, List.length_cons] at short
        exact Nat.le_of_succ_le short
      · exact h.outcome x (first ▸ List.mem_cons_of_mem e mem)
    | shortened b r m ms es first =>
      obtain ⟨c, same⟩ := h.outcome _ (first ▸ List.mem_cons_self)
      cases same
    | freed => exact { h with silent := { h.silent with }, record := by simp }
    | accept | cold | warm => exact absurd same (by decide)
    | rebus b r ok =>
      exact h.of_buses (setBus_only b r s) rfl (setBus_otherBuses b r s) (by
        rw [State.setBus_view_bus_self]; exact ok.no_test (h.tests b))
    | idle b =>
      exact h.of_buses (enterIdle_only b s) rfl (enterIdle_otherBuses b s) (by rw [enterIdle_view_bus_self]; rfl)
    | settle b =>
      exact h.of_buses (b := b) ((setBus_only b _ s).comp (joinWait_only b _) (hs := [.buses, .waitQueue]) rfl) rfl
        (setBus_otherBuses b _ s) (by rw [joinWait_setBus_view_bus_self]; exact h.tests b)
    | claim b e rest selected => exact absurd h.silent.anchor (claimSelected selected).used
    | rejoin b e rest selected => exact absurd h.silent.anchor (rejoinSelected selected).used
    | grant hd b rest =>
      exact h.of_buses (grantHead_only hd b rest s) rfl (grantHead_otherBuses hd b rest s) (by
        rw [grantHead_view_bus_self]; exact h.tests b)
    | retire b ended =>
      have writer : t.writerQueue = s.writerQueue := by
        rcases ended.queued with ⟨-, same⟩ | ⟨some, -⟩
        · exact same
        · exact absurd (Bus.slots_of_no_test (h.tests b)) some
      have only := ended.only
      obtain ⟨u, v, before, middle, after⟩ := ended.stages
      exact
        { silent := (middle.keeps Aside.silent (h.silent.of_only before rfl)).of_only after rfl
          queue := (only.get .queue rfl).trans h.queue
          fence := (only.get .fence rfl).trans h.fence
          tests := fun x => by
            rcases eq_or_ne x b with rfl | other
            · exact ended.test
            · rw [ended.others x other]; exact h.tests x
          short := writer ▸ h.short
          outcome := writer ▸ h.outcome
          record := by rw [only.get .path rfl]; exact h.record }
    | tick =>
      exact { h with silent := { h.silent with }, tests := fun b => by rw [tick_view_bus]; exact h.tests b }
    | _ => exact absurd rfl away

/-- What a reset leaves, where no bus carries a test after it. -/
theorem uncommitted_of_reset {s t : State} (shared : OnlyChanges [.buses, .matrixOut, .exchangeOut, .resyncPending, .lines, .pointer, .epoch]
    (resetShared s) t) (tests : ∀ b, (t.bus b).test = none) : Uncommitted t where
  silent :=
    { anchor := shared.get .anchor rfl
      register := shared.get .register rfl
      outbox := shared.get .outbox rfl
      flags := fun f => by rw [shared.flag rfl]; exact entry_replicate _ f.index }
  queue := shared.get .queue rfl
  fence := shared.get .fence rfl
  tests := tests
  short := by rw [shared.get .writerQueue rfl]; exact Nat.zero_le _
  outcome := by rw [shared.get .writerQueue rfl]; simp [resetShared]
  record := by rw [shared.get .path rfl]; simp [resetShared]

theorem coldReset_shared (s : State) : OnlyChanges [.buses, .matrixOut, .exchangeOut, .resyncPending, .lines, .pointer, .epoch]
    (resetShared s) (coldReset s) := by
  intro f hf; cases f <;> first | rfl | exact ⟨rfl, fun _ => rfl⟩ | simp at hf

theorem warmReset_shared (s : State) : OnlyChanges [.buses, .matrixOut, .lines] (resetShared s) (warmReset s) := by
  intro f hf; cases f <;> first | rfl | exact ⟨rfl, fun _ => rfl⟩ | simp at hf

theorem Deed.beforeCommitOk {s t : State} {fs : List Field} (d : Deed s fs t) (lines : BusLineOk s) (h : BeforeCommitOk s) :
    BeforeCommitOk t := by
  rw [beforeCommitOk_iff] at h ⊢
  intro absent
  by_cases away : apart [.anchor] fs = true
  · have anchor : t.anchor = s.anchor := d.only.same_of_apart away (f := .anchor) (by simp)
    exact (h (anchor ▸ absent)).after d away
  · cases d with
    | aside deed => cases deed <;> exact absurd rfl away
    | accept a => simp [acceptCommit, clearAllGroups] at absent
    | cold =>
      refine uncommitted_of_reset (coldReset_shared s) fun b => ?_
      rw [coldReset_view_bus]; rfl
    | warm =>
      refine uncommitted_of_reset ((warmReset_shared s).weaken (by simp)) fun b => ?_
      rw [warmReset_view_bus, Bus.warm]
      split
      · next idle => rw [lines.1 b idle]; rfl
      · rfl
    | _ => exact absurd rfl away

/-- Settles O60: bus and line, and what holds before the first commit, are kept together by every deed. -/
theorem beforeCommitKept : Obligations.BeforeCommitKept := by
  intro s t lines h stepped
  have both := step_keeps (P := fun s => BusLineOk s ∧ BeforeCommitOk s)
    (fun {s u} only h => ⟨h.1.of_only only rfl, by
      rw [beforeCommitOk_iff]
      intro absent
      exact ((beforeCommitOk_iff s).mp h.2 ((only.get .anchor rfl).symm.trans absent)).of_only only rfl⟩)
    (fun d h => ⟨d.busLineOk h.1, d.beforeCommitOk h.1 h.2⟩) ⟨lines, h⟩ stepped
  exact both.2

end Sys2Proof.Machine
end

section
/-!
PROOFS. Settings, tests, buses, heads and the wait queue hold together. Settles O59.
-/

namespace Sys2Proof.Machine

/-! ## Settings and pointer (R102, R171) -/

theorem checks_of_validate {a : Anchor} {s : State} (accepted : validate a s = .accepted) :
    a.rangeOk = true ∧ a.layoutOk = true ∧ a.limitsOk = true := by
  unfold validate at accepted
  split_ifs at accepted with range layout limits
  simp only [Bool.not_eq_true', Bool.not_eq_false] at range layout limits
  exact ⟨range, layout, limits⟩

theorem installed_of_rangeOk {a : Anchor} (ok : a.rangeOk = true) : 16 ≤ a.installed := by
  obtain ⟨-, -, -, ⟨many, -, -⟩, -⟩ := (rangeOk_iff a).mp ok
  exact many

theorem sweepMask_of_rangeOk {a : Anchor} (ok : a.rangeOk = true) : a.sweepMask ≠ 0 := by
  obtain ⟨-, -, -, -, mask, -⟩ := (rangeOk_iff a).mp ok
  exact mask

theorem AnchorOk.of_only {fs : List Field} {s t : State} (h : AnchorOk s) (only : OnlyChanges fs s t)
    (away : apart [.anchor, .pointer] fs = true) : AnchorOk t := by
  unfold AnchorOk
  rw [show t.anchor = s.anchor from only.same_of_apart away (f := .anchor) (by simp),
    show t.pointer = s.pointer from only.same_of_apart away (f := .pointer) (by simp)]
  exact h

theorem Deed.anchorOk {s t : State} {fs : List Field} (d : Deed s fs t) (h : AnchorOk s) : AnchorOk t := by
  by_cases away : apart [.anchor, .pointer] fs = true
  · exact h.of_only d.only away
  · cases d with
    | aside deed => cases deed <;> exact absurd rfl away
    | pointer p below =>
      intro a inForce
      obtain ⟨low, high, range, layout, limits, inside⟩ := h a inForce
      exact ⟨low, high, range, layout, limits, below a inForce (installed_of_rangeOk range) inside⟩
    | accept a valid generation =>
      intro a' inForce
      have force : (acceptCommit a s).anchor = some a := by simp [acceptCommit, clearAllGroups]
      obtain rfl := Option.some.inj (force.symm.trans inForce)
      obtain ⟨range, layout, limits⟩ := checks_of_validate valid
      refine ⟨generation.1, generation.2, range, layout, limits, ?_⟩
      have pointer : (acceptCommit a s).pointer = if a.installed ≤ s.pointer then 0 else s.pointer := by
        simp [acceptCommit, clearAllGroups]
      have many := installed_of_rangeOk range
      rw [pointer]
      split <;> omega
    | cold => exact fun a inForce => absurd inForce (by simp [coldReset, resetShared])
    | warm => exact fun a inForce => absurd inForce (by simp [warmReset, resetShared])
    | _ => exact absurd rfl away

/-! ## Tests (R20, R38, R84) -/

/-- The bus is on its way through a test. -/
def Bus.working (r : Bus) : Prop := r.state = .claiming ∨ r.state = .seizing ∨ r.state = .waitHead ∨ r.state = .measuring

/-- A bus record carries a test exactly while it works, and the test's program names a step. -/
structure Bus.TestOk (r : Bus) : Prop where
  working : r.test ≠ none ↔ r.working
  mask : ∀ e, r.test = some e → e.mask ≠ 0

theorem testsOk_iff (s : State) : TestsOk s ↔ (∀ b, (s.bus b).TestOk) ∧ ∀ e ∈ s.queue, e.mask ≠ 0 := by
  unfold TestsOk
  constructor
  · rintro ⟨working, masks, queued⟩
    exact ⟨fun b => ⟨working b, masks b⟩, queued⟩
  · rintro ⟨tests, queued⟩
    exact ⟨fun b => (tests b).working, fun b => (tests b).mask, queued⟩

theorem Bus.testOk_of_no_test {r : Bus} (test : r.test = none)
    (state : r.state = .idle ∨ r.state = .held ∨ r.state = .releasing ∨ r.state = .faulted) : r.TestOk := by
  refine ⟨iff_of_false (fun some => some test) ?_, by simp [test]⟩
  unfold Bus.working
  rcases state with h | h | h | h <;> simp [h]

theorem Bus.testOk_of_test {r : Bus} {e : TestEntry} (test : r.test = some e) (mask : e.mask ≠ 0) (working : r.working) : r.TestOk :=
  ⟨iff_of_true (by simp [test]) working, fun x h => by
    obtain rfl := Option.some.inj (test.symm.trans h)
    exact mask⟩

theorem Bus.Rewritten.working_iff {r x : Bus} (ok : r.Rewritten x) : x.working ↔ r.working := by
  unfold Bus.working
  rcases ok.phase with same | ⟨was, is⟩ | ⟨was, is⟩
  · rw [same]
  · rcases was with was | was <;> rcases is with is | is <;> simp [was, is]
  · rcases was with was | was | was <;> rcases is with is | is <;> simp [was, is]

theorem Bus.Rewritten.testOk {r x : Bus} (ok : r.Rewritten x) (h : r.TestOk) : x.TestOk := by
  rcases ok.test with ⟨was, is⟩ | ⟨e, y, was, is, -, -, mask⟩
  · refine ⟨?_, by simp [is]⟩
    rw [ok.working_iff, ← h.working, was, is]
  · refine Bus.testOk_of_test is (mask ▸ h.mask e was) (ok.working_iff.mpr (h.working.mp (by simp [was])))

/-- One bus has changed, and the queue has lost entries. -/
theorem TestsOk.of_bus {s t : State} {b : BusNo} (h : TestsOk s) (others : OtherBuses b s t) (ok : (t.bus b).TestOk)
    (fewer : t.queue.Sublist s.queue) : TestsOk t := by
  rw [testsOk_iff] at h ⊢
  obtain ⟨tests, queued⟩ := h
  refine ⟨fun x => ?_, fun e mem => queued e (fewer.subset mem)⟩
  rcases eq_or_ne x b with rfl | other
  · exact ok
  · rw [others x other]; exact tests x

theorem TestsOk.of_only {fs : List Field} {s t : State} (h : TestsOk s) (only : OnlyChanges fs s t)
    (away : apart [.queue, .buses] fs = true) : TestsOk t := by
  have queue : t.queue = s.queue := only.same_of_apart away (f := .queue) (by simp)
  have buses (b : BusNo) : t.bus b = s.bus b := by
    rw [State.bus, show t.buses = s.buses from only.same_of_apart away (f := .buses) (by simp), State.bus]
  rw [testsOk_iff] at h ⊢
  simpa only [queue, buses] using h

/-- The first bus of the wait queue waits for a head. -/
theorem WaitQueueOk.first_waits {s : State} (h : WaitQueueOk s) {b : BusNo} {rest : List BusNo} (first : s.waitQueue = b :: rest) :
    (s.bus b).state = .waitHead := (h.2.1 b).mp (first ▸ List.mem_cons_self)

theorem LineLeft.state {b : BusNo} {s t : State} (h : LineLeft b s t) :
    (t.bus b).state = .idle ∨ (t.bus b).state = .held ∨ (t.bus b).state = .releasing ∨ (t.bus b).state = .faulted := by
  rcases h with ⟨-, releasing | held, -⟩ | ⟨idle, -⟩
  · exact .inr (.inr (.inl releasing))
  · exact .inr (.inl held)
  · exact .inl (by rw [idle]; rfl)

theorem Bus.warm_testOk {r : Bus} (h : r.TestOk) : r.warm.TestOk := by
  unfold Bus.warm
  split
  · exact h
  · exact Bus.testOk_of_no_test rfl (.inr (.inr (.inl rfl)))

theorem Deed.testsOk {s t : State} {fs : List Field} (d : Deed s fs t) (settings : AnchorOk s) (waits : WaitQueueOk s)
    (h : TestsOk s) : TestsOk t := by
  by_cases away : apart [.queue, .buses] fs = true
  · exact h.of_only d.only away
  · obtain ⟨tests, queued⟩ := (testsOk_iff s).mp h
    cases d with
    | aside deed => cases deed <;> exact absurd rfl away
    | queue q ok =>
      refine (testsOk_iff _).mpr ⟨tests, ok.masks (fun a inForce => ?_) queued⟩
      obtain ⟨-, -, range, -⟩ := settings a inForce
      exact sweepMask_of_rangeOk range
    | rebus b r ok =>
      refine h.of_bus (setBus_otherBuses b r s) ?_ (.refl _)
      rw [State.setBus_view_bus_self]
      exact ok.testOk (tests b)
    | idle b =>
      refine h.of_bus (enterIdle_otherBuses b s) ?_ (by rw [(enterIdle_only b s).get .queue rfl])
      rw [enterIdle_view_bus_self]
      exact Bus.testOk_of_no_test rfl (.inl rfl)
    | settle b seizing =>
      refine h.of_bus (b := b) (setBus_otherBuses b _ s) ?_ (.refl _)
      rw [joinWait_setBus_view_bus_self]
      exact ⟨iff_of_true ((tests b).working.mpr (.inr (.inl seizing))) (.inr (.inr (.inl rfl))), (tests b).mask⟩
    | claim b e rest selected =>
      obtain ⟨fewer, mem⟩ := queue_split_sublist (claimSelected selected).split
      refine h.of_bus (giveToIdle_otherBuses b e rest s) ?_ (by rwa [giveToIdle_queue])
      rw [giveToIdle_view_bus_self]
      exact Bus.testOk_of_test rfl (queued e mem) (.inl rfl)
    | rejoin b e rest selected =>
      obtain ⟨fewer, mem⟩ := queue_split_sublist (rejoinSelected selected).split
      refine h.of_bus (giveToHeld_otherBuses b e rest s) ?_ (by rwa [giveToHeld_queue])
      rw [giveToHeld_view_bus_self]
      exact Bus.testOk_of_test rfl (queued e mem) (.inr (.inr (.inl rfl)))
    | grant hd b rest first =>
      refine h.of_bus (grantHead_otherBuses hd b rest s) ?_ (by rw [(grantHead_only hd b rest s).get .queue rfl])
      rw [grantHead_view_bus_self]
      exact ⟨iff_of_true ((tests b).working.mpr (.inr (.inr (.inl (waits.first_waits first))))) (.inr (.inr (.inr rfl))),
        (tests b).mask⟩
    | retire b ended =>
      exact h.of_bus ended.others (Bus.testOk_of_no_test ended.test ended.line.state) (by rw [ended.only.get .queue rfl])
    | cold =>
      refine (testsOk_iff _).mpr ⟨fun b => ?_, by simp [coldReset, resetShared]⟩
      rw [coldReset_view_bus]
      exact Bus.testOk_of_no_test rfl (.inr (.inr (.inl rfl)))
    | warm =>
      refine (testsOk_iff _).mpr ⟨fun b => ?_, by simp [warmReset, resetShared]⟩
      rw [warmReset_view_bus]
      exact Bus.warm_testOk (tests b)
    | tick =>
      refine (testsOk_iff _).mpr ⟨fun b => ?_, queued⟩
      rw [tick_view_bus]
      exact ⟨(tests b).working, (tests b).mask⟩
    | _ => exact absurd rfl away

/-! ## The head wait queue (R57) -/

theorem waitQueueOk_iff (s : State) :
    WaitQueueOk s ↔ s.waitQueue.Nodup ∧ ∀ b, b ∈ s.waitQueue ↔ (s.bus b).state = .waitHead := by
  unfold WaitQueueOk
  constructor
  · rintro ⟨distinct, waits, -⟩
    exact ⟨distinct, waits⟩
  · rintro ⟨distinct, waits⟩
    exact ⟨distinct, waits, by simpa using distinct.length_le_card⟩

theorem WaitQueueOk.of_only {fs : List Field} {s t : State} (h : WaitQueueOk s) (only : OnlyChanges fs s t)
    (away : apart [.waitQueue, .buses] fs = true) : WaitQueueOk t := by
  have queue : t.waitQueue = s.waitQueue := only.same_of_apart away (f := .waitQueue) (by simp)
  have buses (b : BusNo) : t.bus b = s.bus b := by
    rw [State.bus, show t.buses = s.buses from only.same_of_apart away (f := .buses) (by simp), State.bus]
  rw [waitQueueOk_iff] at h ⊢
  simpa only [queue, buses] using h

/-- One bus has changed, and it waits exactly if it did. -/
theorem WaitQueueOk.of_same {s t : State} {b : BusNo} (h : WaitQueueOk s) (queue : t.waitQueue = s.waitQueue) (others : OtherBuses b s t)
    (state : (t.bus b).state = .waitHead ↔ (s.bus b).state = .waitHead) : WaitQueueOk t := by
  obtain ⟨distinct, waits⟩ := (waitQueueOk_iff s).mp h
  refine (waitQueueOk_iff t).mpr ⟨queue ▸ distinct, fun x => ?_⟩
  rw [queue, waits]
  rcases eq_or_ne x b with rfl | other
  · exact state.symm
  · rw [others x other]

theorem joinedQueue_perm (isDesk : BusNo → Bool) (b : BusNo) (q : List BusNo) : (joinedQueue isDesk b q).Perm (b :: q) := by
  unfold joinedQueue
  split
  · exact List.perm_middle.trans ((List.filter_append_perm isDesk q).cons b)
  · exact List.perm_append_singleton b q

/-- A bus joins the queue. -/
theorem WaitQueueOk.of_join {s t : State} {b : BusNo} (h : WaitQueueOk s) (queue : t.waitQueue.Perm (b :: s.waitQueue))
    (others : OtherBuses b s t) (was : (s.bus b).state ≠ .waitHead) (is : (t.bus b).state = .waitHead) : WaitQueueOk t := by
  obtain ⟨distinct, waits⟩ := (waitQueueOk_iff s).mp h
  have new : b ∉ s.waitQueue := fun mem => was ((waits b).mp mem)
  refine (waitQueueOk_iff t).mpr ⟨queue.nodup_iff.mpr (List.nodup_cons.mpr ⟨new, distinct⟩), fun x => ?_⟩
  rw [queue.mem_iff, List.mem_cons]
  rcases eq_or_ne x b with rfl | other
  · exact iff_of_true (.inl rfl) is
  · rw [others x other, ← waits x, or_iff_right other]

/-- A bus has left the queue. -/
theorem WaitQueueOk.of_leave {s t : State} {b : BusNo} (h : WaitQueueOk s) (queue : t.waitQueue = s.waitQueue.filter (fun c => c != b))
    (others : OtherBuses b s t) (is : (t.bus b).state ≠ .waitHead) : WaitQueueOk t := by
  obtain ⟨distinct, waits⟩ := (waitQueueOk_iff s).mp h
  refine (waitQueueOk_iff t).mpr ⟨queue ▸ distinct.filter _, fun x => ?_⟩
  rw [queue, List.mem_filter, bne_iff_ne]
  rcases eq_or_ne x b with rfl | other
  · exact iff_of_false (fun mem => mem.2 rfl) is
  · rw [others x other, ← waits x, and_iff_left other]

theorem Bus.Rewritten.waits_iff {r x : Bus} (ok : r.Rewritten x) : x.state = .waitHead ↔ r.state = .waitHead := by
  rcases ok.phase with same | ⟨was, is⟩ | ⟨was, is⟩
  · rw [same]
  · rcases was with was | was <;> rcases is with is | is <;> simp [was, is]
  · rcases was with was | was | was <;> rcases is with is | is <;> simp [was, is]

theorem Bus.Rewritten.measures_iff {r x : Bus} (ok : r.Rewritten x) : x.state = .measuring ↔ r.state = .measuring := by
  rcases ok.phase with same | ⟨was, is⟩ | ⟨was, is⟩
  · rw [same]
  · rcases was with was | was <;> rcases is with is | is <;> simp [was, is]
  · rcases was with was | was | was <;> rcases is with is | is <;> simp [was, is]

theorem LineLeft.not_waits {b : BusNo} {s t : State} (h : LineLeft b s t) : (t.bus b).state ≠ .waitHead := by
  rcases h.state with is | is | is | is <;> simp [is]

theorem LineLeft.not_measures {b : BusNo} {s t : State} (h : LineLeft b s t) : (t.bus b).state ≠ .measuring := by
  rcases h.state with is | is | is | is <;> simp [is]

/-- A head that is joined to a bus is joined to one in MEASURING (R58). -/
theorem HeadsOk.measures {s : State} (h : HeadsOk s) {hd : HeadNo} {b : BusNo} (bus : (s.head hd).bus = some b) :
    (s.bus b).state = .measuring := by
  obtain ⟨joined, alone, -, -⟩ := h
  by_cases out : (s.head hd).state = .attached ∨ (s.head hd).state = .aborting
  · obtain ⟨-, c, named, measuring⟩ := joined hd out
    obtain rfl := Option.some.inj (bus.symm.trans named)
    exact measuring
  · push Not at out
    simp [alone hd out.1 out.2] at bus

theorem Bus.warm_not_waits (r : Bus) : r.warm.state ≠ .waitHead := by
  unfold Bus.warm
  split
  · next idle => simp [idle]
  · simp [Bus.recovering]

theorem Bus.warm_not_measures (r : Bus) : r.warm.state ≠ .measuring := by
  unfold Bus.warm
  split
  · next idle => simp [idle]
  · simp [Bus.recovering]

theorem Deed.waitQueueOk {s t : State} {fs : List Field} (d : Deed s fs t) (heads : HeadsOk s) (h : WaitQueueOk s) :
    WaitQueueOk t := by
  by_cases away : apart [.waitQueue, .buses] fs = true
  · exact h.of_only d.only away
  · cases d with
    | aside deed => cases deed <;> exact absurd rfl away
    | rebus b r ok =>
      refine h.of_same rfl (setBus_otherBuses b r s) ?_
      rw [State.setBus_view_bus_self]
      exact ok.waits_iff
    | idle b releasing =>
      refine h.of_same ((enterIdle_only b s).get .waitQueue rfl) (enterIdle_otherBuses b s) ?_
      rw [enterIdle_view_bus_self, releasing]
      decide
    | settle b seizing =>
      refine h.of_join (b := b) (joinedQueue_perm _ b _) (setBus_otherBuses b _ s) (by simp [seizing]) ?_
      rw [joinWait_setBus_view_bus_self]
    | claim b e rest selected =>
      refine h.of_same ((giveToIdle_only b e rest s).get .waitQueue rfl) (giveToIdle_otherBuses b e rest s) ?_
      rw [giveToIdle_view_bus_self, (claimSelected selected).idle]
      simp
    | rejoin b e rest selected =>
      have queue : (giveToHeld b e rest s).waitQueue.Perm (b :: s.waitQueue) := by
        rw [show s.waitQueue = ((leaveQueue rest s).setBus b _).waitQueue from ((leaveQueue_only rest s).get .waitQueue rfl).symm]
        exact joinedQueue_perm _ b _
      refine h.of_join queue (giveToHeld_otherBuses b e rest s) (by simp [(rejoinSelected selected).held]) ?_
      rw [giveToHeld_view_bus_self]
    | grant hd b rest first =>
      obtain ⟨distinct, -⟩ := (waitQueueOk_iff s).mp h
      rw [first] at distinct
      have away : b ∉ rest := (List.nodup_cons.mp distinct).1
      have queue : (grantHead hd b rest s).waitQueue = s.waitQueue.filter fun c => c != b := by
        have left : (grantHead hd b rest s).waitQueue = rest := by
          unfold grantHead
          dsimp only
          split
          · split <;> simp [startStep]
          · simp
        rw [left, first, List.filter_cons_of_neg (by simp), List.filter_eq_self.mpr fun c mem => ?_]
        rw [bne_iff_ne]
        exact fun same => away (same ▸ mem)
      refine h.of_leave queue (grantHead_otherBuses hd b rest s) ?_
      rw [grantHead_view_bus_self]
      simp
    | retire b ended =>
      have is := ended.line.not_waits
      rcases ended.joined with ⟨-, queue, was⟩ | ⟨-, queue, -⟩ | ⟨queue, hd, bus, -⟩
      · exact h.of_same queue ended.others (iff_of_false is (by rcases was with was | was <;> simp [was]))
      · exact h.of_leave queue ended.others is
      · exact h.of_same queue ended.others (iff_of_false is (by simp [heads.measures bus]))
    | cold =>
      refine (waitQueueOk_iff _).mpr ⟨List.nodup_nil, fun b => ?_⟩
      rw [coldReset_view_bus]
      simp [coldReset, resetShared, Bus.recovering]
    | warm =>
      refine (waitQueueOk_iff _).mpr ⟨List.nodup_nil, fun b => ?_⟩
      rw [warmReset_view_bus]
      exact iff_of_false (List.not_mem_nil) (Bus.warm_not_waits _)
    | tick =>
      obtain ⟨distinct, waits⟩ := (waitQueueOk_iff s).mp h
      refine (waitQueueOk_iff _).mpr ⟨distinct, fun b => ?_⟩
      rw [tick_view_bus]
      exact waits b
    | _ => exact absurd rfl away

end Sys2Proof.Machine
end

section
/-!
PROOFS. The heads and the sweep's share of the buses. Settles O59.
-/

namespace Sys2Proof.Machine

/-! ## Heads and buses (R58) -/

/-- The head of a bus is its only one. -/
theorem HeadsOk.unique {s : State} (h : HeadsOk s) {x y : HeadNo} {b : BusNo} (hx : (s.head x).bus = some b)
    (hy : (s.head y).bus = some b) : x = y := by
  obtain ⟨-, -, -, distinct⟩ := h
  have split (z : HeadNo) : z = 0 ∨ z = 1 := by revert z; decide
  rcases split x with rfl | rfl <;> rcases split y with rfl | rfl
  · rfl
  · exact absurd ⟨hx, hy⟩ (distinct b)
  · exact absurd ⟨hy, hx⟩ (distinct b)
  · rfl

/-- What the law says, head by head and bus by bus. -/
structure HeadsJoined (s : State) : Prop where
  joined : ∀ h, (s.head h).joined → (s.head h).step ≠ none ∧ ∃ b, (s.head h).bus = some b ∧ (s.bus b).state = .measuring
  alone : ∀ h, ¬ (s.head h).joined → (s.head h).bus = none
  measured : ∀ b, (s.bus b).state = .measuring → ∃ h, (s.head h).bus = some b
  unique : ∀ x y b, (s.head x).bus = some b → (s.head y).bus = some b → x = y

theorem headsOk_iff (s : State) : HeadsOk s ↔ HeadsJoined s := by
  constructor
  · intro h
    refine ⟨h.1, fun hd out => ?_, h.2.2.1, fun x y b => h.unique⟩
    simp only [Head.joined, not_or] at out
    exact h.2.1 hd out.1 out.2
  · rintro ⟨joined, alone, measured, unique⟩
    refine ⟨joined, fun hd a b => alone hd (by simp [Head.joined, a, b]), measured, fun b both => ?_⟩
    exact absurd (unique 0 1 b both.1 both.2) (by decide)

/-- The heads are as they were, and so is every bus in MEASURING. -/
theorem HeadsJoined.of_buses {s t : State} (h : HeadsJoined s) (heads : ∀ x, t.head x = s.head x)
    (buses : ∀ b, (t.bus b).state = .measuring ↔ (s.bus b).state = .measuring) : HeadsJoined t where
  joined := by simpa only [heads, buses] using h.joined
  alone := by simpa only [heads] using h.alone
  measured := by simpa only [heads, buses] using h.measured
  unique := by simpa only [heads] using h.unique

/-- One bus has changed, and it measures exactly if it did. -/
theorem HeadsJoined.of_bus {s t : State} {b : BusNo} (h : HeadsJoined s) (heads : ∀ x, t.head x = s.head x) (others : OtherBuses b s t)
    (state : (t.bus b).state = .measuring ↔ (s.bus b).state = .measuring) : HeadsJoined t := by
  refine h.of_buses heads fun x => ?_
  rcases eq_or_ne x b with rfl | other
  · exact state
  · rw [others x other]

theorem HeadsJoined.measures {s : State} (h : HeadsJoined s) {hd : HeadNo} {b : BusNo} (bus : (s.head hd).bus = some b) :
    (s.bus b).state = .measuring := ((headsOk_iff s).mpr h).measures bus

/-- A free head is joined to a bus that begins to measure, with its first step. -/
theorem HeadsJoined.of_grant {s t : State} {hd : HeadNo} {b : BusNo} (h : HeadsJoined s) (free : (s.head hd).state = .free)
    (waited : (s.bus b).state ≠ .measuring) (others : OtherBuses b s t) (otherHeads : OtherHeads hd s t)
    (measures : (t.bus b).state = .measuring) (joined : (t.head hd).joined) (step : (t.head hd).step ≠ none)
    (bus : (t.head hd).bus = some b) : HeadsJoined t := by
  have was : (s.head hd).bus = none := h.alone hd (by simp [Head.joined, free])
  have apart {x : HeadNo} {c : BusNo} (named : (s.head x).bus = some c) : x ≠ hd ∧ c ≠ b :=
    ⟨fun same => by simp [same, was] at named, fun same => waited (same ▸ h.measures named)⟩
  refine ⟨fun x out => ?_, fun x out => ?_, fun c measuring => ?_, fun x y c hx hy => ?_⟩
  · rcases eq_or_ne x hd with rfl | other
    · exact ⟨step, b, bus, measures⟩
    · rw [otherHeads x other] at out ⊢
      obtain ⟨step, c, named, measuring⟩ := h.joined x out
      exact ⟨step, c, named, by rw [others c (apart named).2]; exact measuring⟩
  · rcases eq_or_ne x hd with rfl | other
    · exact absurd joined out
    · rw [otherHeads x other] at out ⊢
      exact h.alone x out
  · rcases eq_or_ne c b with rfl | other
    · exact ⟨hd, bus⟩
    · rw [others c other] at measuring
      obtain ⟨x, named⟩ := h.measured c measuring
      exact ⟨x, by rw [otherHeads x (apart named).1]; exact named⟩
  · have alone {z : HeadNo} (named : (t.head z).bus = some c) (other : z ≠ hd) : (s.head z).bus = some c ∧ c ≠ b := by
      rw [otherHeads z other] at named
      exact ⟨named, (apart named).2⟩
    by_cases hx' : x = hd <;> by_cases hy' : y = hd
    · rw [hx', hy']
    · exact absurd (Option.some.inj ((hx' ▸ hx).symm.trans bus)) (alone hy hy').2
    · exact absurd (Option.some.inj ((hy' ▸ hy).symm.trans bus)) (alone hx hx').2
    · exact h.unique x y c (alone hx hx').1 (alone hy hy').1

/-- A head has left the bus whose test has ended. -/
theorem HeadsJoined.of_leave {s t : State} {hd : HeadNo} {b : BusNo} (h : HeadsJoined s) (bus : (s.head hd).bus = some b)
    (others : OtherBuses b s t) (otherHeads : OtherHeads hd s t) (off : (t.bus b).state ≠ .measuring)
    (out : ¬ (t.head hd).joined) (none : (t.head hd).bus = none) : HeadsJoined t := by
  refine ⟨fun x joined => ?_, fun x alone => ?_, fun c measuring => ?_, fun x y c hx hy => ?_⟩
  · rcases eq_or_ne x hd with rfl | other
    · exact absurd joined out
    · rw [otherHeads x other] at joined ⊢
      obtain ⟨step, c, named, measuring⟩ := h.joined x joined
      have apart : c ≠ b := fun same => other (h.unique x hd b (same ▸ named) bus)
      exact ⟨step, c, named, by rw [others c apart]; exact measuring⟩
  · rcases eq_or_ne x hd with rfl | other
    · exact none
    · rw [otherHeads x other] at alone ⊢
      exact h.alone x alone
  · have apart : c ≠ b := fun same => off (same ▸ measuring)
    rw [others c apart] at measuring
    obtain ⟨x, named⟩ := h.measured c measuring
    have other : x ≠ hd := fun same => apart (Option.some.inj ((same ▸ named : (s.head hd).bus = some c).symm.trans bus))
    exact ⟨x, by rw [otherHeads x other]; exact named⟩
  · have apart {z : HeadNo} (named : (t.head z).bus = some c) : z ≠ hd := fun same => by simp [same, none] at named
    rw [otherHeads x (apart hx)] at hx
    rw [otherHeads y (apart hy)] at hy
    exact h.unique x y c hx hy

/-- One head has changed and is joined to the bus it was joined to, or still to none. -/
theorem HeadsJoined.of_head {s t : State} {hd : HeadNo} (h : HeadsJoined s) (buses : ∀ b, t.bus b = s.bus b)
    (otherHeads : OtherHeads hd s t) (bus : (t.head hd).bus = (s.head hd).bus) (joined : (t.head hd).joined ↔ (s.head hd).joined)
    (step : (s.head hd).step ≠ none → (t.head hd).joined → (t.head hd).step ≠ none) : HeadsJoined t := by
  have same (x : HeadNo) : (t.head x).bus = (s.head x).bus := by
    rcases eq_or_ne x hd with rfl | other
    · exact bus
    · rw [otherHeads x other]
  refine ⟨fun x out => ?_, fun x out => ?_, fun c measuring => ?_, fun x y c hx hy => ?_⟩
  · simp only [same, buses]
    rcases eq_or_ne x hd with rfl | other
    · obtain ⟨stepped, measured⟩ := h.joined x (joined.mp out)
      exact ⟨step stepped out, measured⟩
    · rw [otherHeads x other] at out ⊢
      exact h.joined x out
  · rw [same]
    rcases eq_or_ne x hd with rfl | other
    · exact h.alone x fun was => out (joined.mpr was)
    · rw [otherHeads x other] at out
      exact h.alone x out
  · simp only [same]
    exact h.measured c (buses c ▸ measuring)
  · exact h.unique x y c (same x ▸ hx) (same y ▸ hy)

theorem setHead_otherHeads (h : HeadNo) (r : Head) (s : State) : OtherHeads h s (s.setHead h r) := by
  intro x other
  rw [State.setHead_view_head, if_neg other.symm]

/-! ## A grant -/

theorem freeHeadNo_free {s : State} {h : HeadNo} (free : s.freeHeadNo = some h) : (s.head h).state = .free := by
  simpa using List.find?_some free

/-- A mask that is not zero lets a step run (R61). -/
theorem runOrder_ne_nil {mask : BitVec 8} (some : mask ≠ 0) (start : StepKind) (mode : OrderMode) : runOrder mask start mode ≠ [] := by
  intro empty
  have none : (List.range 8).countP (fun i => mask.getLsbD i) = 0 := by rw [← runOrder_length mask start mode, empty]; rfl
  refine some (BitVec.eq_of_getLsbD_eq fun i hi => ?_)
  rw [List.countP_eq_zero] at none
  simpa using none i (List.mem_range.mpr hi)

theorem grantHead_of_order {h : HeadNo} {b : BusNo} {rest : List BusNo} {s : State} {e : TestEntry} {k : StepKind} {ks : List StepKind}
    (test : (s.bus b).test = some e) (order : (buildProgram e).order = k :: ks) :
    grantHead h b rest s =
      startStep h b k
        ((({ s with waitQueue := rest } : State).setBus b { s.bus b with state := .measuring, timer := none }).setProgram b
          (some (buildProgram e))) := by
  simp [grantHead, test, order]

theorem startStep_view_head_self (h : HeadNo) (b : BusNo) (k : StepKind) (s : State) : (startStep h b k s).head h =
    { state := .attached, bus := some b, step := some k, timer := some (.watchdog, watchdogOf k), startedAt := 0 } := by
  simp [startStep]

theorem startStep_otherHeads (h : HeadNo) (b : BusNo) (k : StepKind) (s : State) : OtherHeads h s (startStep h b k s) := by
  intro x other
  simp [startStep, State.setHead_view_head, other.symm]

theorem HeadsJoined.of_only {fs : List Field} {s t : State} (h : HeadsJoined s) (only : OnlyChanges fs s t)
    (away : apart [.heads, .buses] fs = true) : HeadsJoined t := by
  refine h.of_buses (fun x => ?_) fun b => ?_
  · rw [State.head, show t.heads = s.heads from only.same_of_apart away (f := .heads) (by simp), State.head]
  · rw [State.bus, show t.buses = s.buses from only.same_of_apart away (f := .buses) (by simp), State.bus]

/-- After a reset no head is joined and no bus measures. -/
theorem headsJoined_of_reset {t : State} (heads : ∀ h, t.head h = Head.clearing) (buses : ∀ b, (t.bus b).state ≠ .measuring) :
    HeadsJoined t where
  joined := fun h out => by simp [heads, Head.joined, Head.clearing] at out
  alone := fun h _ => by rw [heads]; rfl
  measured := fun b measuring => absurd measuring (buses b)
  unique := fun x y b hx => by simp [heads, Head.clearing] at hx

theorem Deed.headsJoined {s t : State} {fs : List Field} (d : Deed s fs t) (tests : TestsOk s) (waits : WaitQueueOk s)
    (h : HeadsJoined s) : HeadsJoined t := by
  by_cases away : apart [.heads, .buses] fs = true
  · exact h.of_only d.only away
  · cases d with
    | aside deed => cases deed <;> exact absurd rfl away
    | rebus b r ok =>
      refine h.of_bus (fun _ => rfl) (setBus_otherBuses b r s) ?_
      rw [State.setBus_view_bus_self]
      exact ok.measures_iff
    | idle b releasing =>
      refine h.of_bus ((enterIdle_only b s).head rfl) (enterIdle_otherBuses b s) ?_
      rw [enterIdle_view_bus_self, releasing]
      decide
    | settle b seizing =>
      refine h.of_bus (b := b) (fun _ => rfl) (setBus_otherBuses b _ s) ?_
      rw [joinWait_setBus_view_bus_self, seizing]
      simp
    | claim b e rest selected =>
      refine h.of_bus ((giveToIdle_only b e rest s).head rfl) (giveToIdle_otherBuses b e rest s) ?_
      rw [giveToIdle_view_bus_self, (claimSelected selected).idle]
      simp
    | rejoin b e rest selected =>
      refine h.of_bus ((giveToHeld_only b e rest s).head rfl) (giveToHeld_otherBuses b e rest s) ?_
      rw [giveToHeld_view_bus_self, (rejoinSelected selected).held]
      simp
    | grant hd b rest first free =>
      have waited := waits.first_waits first
      obtain ⟨records, -⟩ := (testsOk_iff s).mp tests
      obtain ⟨e, test⟩ := Option.ne_none_iff_exists'.mp ((records b).working.mpr (.inr (.inr (.inl waited))))
      obtain ⟨k, ks, order⟩ := List.exists_cons_of_ne_nil (runOrder_ne_nil ((records b).mask e test) e.start e.order)
      have granted := grantHead_of_order (h := hd) (rest := rest) test (show (buildProgram e).order = k :: ks from order)
      have view : (grantHead hd b rest s).head hd =
          { state := .attached, bus := some b, step := some k, timer := some (.watchdog, watchdogOf k), startedAt := 0 } := by
        rw [granted, startStep_view_head_self]
      exact h.of_grant (freeHeadNo_free free) (by simp [waited]) (grantHead_otherBuses hd b rest s)
        (fun x other => by rw [granted, startStep_otherHeads hd b k _ x other]; rfl) (by rw [grantHead_view_bus_self])
        (by rw [view]; exact .inl rfl) (by simp [view]) (by rw [view])
    | rehead hd r ok =>
      have view : (s.setHead hd r).head hd = r := State.setHead_view_head_self s hd r
      rcases ok with ⟨attached, joined, bus, step⟩ | ⟨alone, out, none⟩
      · exact h.of_head (fun _ => rfl) (setHead_otherHeads hd r s) (by rw [view, bus])
          (by rw [view]; exact iff_of_true joined (.inl attached)) (by rw [view]; exact fun stepped _ => step stepped)
      · have was : ¬ (s.head hd).joined := by
          intro joined
          obtain ⟨step, b, bus, -⟩ := h.joined hd joined
          rcases alone with alone | alone | alone
          · exact alone joined
          · simp [alone] at bus
          · exact step alone
        exact h.of_head (fun _ => rfl) (setHead_otherHeads hd r s) (by rw [view, none, h.alone hd was])
          (by rw [view]; exact iff_of_false out was) (by rw [view]; exact fun _ joined => absurd joined out)
    | retire b ended =>
      have off := ended.line.not_measures
      have same (heads : t.heads = s.heads) (was : (s.bus b).state ≠ .measuring) : HeadsJoined t :=
        h.of_bus (fun x => by rw [State.head, heads, State.head]) ended.others (iff_of_false off was)
      rcases ended.joined with ⟨heads, -, was⟩ | ⟨heads, -, was⟩ | ⟨-, hd, bus, none, out, others⟩
      · exact same heads (by rcases was with was | was <;> simp [was])
      · refine same heads ?_
        rcases was with mem | was | ⟨was, -⟩
        · simp [(waits.2.1 b).mp mem]
        · simp [was]
        · simp [was]
      · exact h.of_leave bus ended.others others off out none
    | cold =>
      refine headsJoined_of_reset (fun x => entry_replicate _ x) fun b => ?_
      rw [coldReset_view_bus]
      simp [Bus.recovering]
    | warm =>
      refine headsJoined_of_reset (fun x => entry_replicate _ x) fun b => ?_
      rw [warmReset_view_bus]
      exact Bus.warm_not_measures _
    | tick =>
      have heads (x : HeadNo) := tick_view_head s x
      have buses (b : BusNo) := tick_view_bus s b
      exact ⟨by simp only [heads, buses]; exact h.joined, by simp only [heads]; exact h.alone,
        by simp only [heads, buses]; exact h.measured, by simp only [heads]; exact h.unique⟩
    | _ => exact absurd rfl away

/-! ## The sweep's share of the buses (R91) -/

theorem sweepOnBuses_split (s : State) (b : BusNo) :
    s.sweepOnBuses = (if (s.bus b).carriesSweep = true then 1 else 0) + (allBuses.erase b).countP fun x => (s.bus x).carriesSweep := by
  rw [State.sweepOnBuses, (List.perm_cons_erase (mem_allBuses b)).countP_eq, List.countP_cons, Nat.add_comm]

theorem sweepOnBuses_others {s t : State} {b : BusNo} (others : OtherBuses b s t) :
    ((allBuses.erase b).countP fun x => (t.bus x).carriesSweep) = (allBuses.erase b).countP fun x => (s.bus x).carriesSweep := by
  refine List.countP_congr fun x mem => ?_
  have distinct : allBuses.Nodup := by decide
  rw [others x (distinct.mem_erase_iff.mp mem).1]

/-- One bus has changed and carries no SWEEP-class test that it did not carry. -/
theorem sweepOnBuses_le {s t : State} {b : BusNo} (others : OtherBuses b s t)
    (fewer : (t.bus b).carriesSweep = true → (s.bus b).carriesSweep = true) : t.sweepOnBuses ≤ s.sweepOnBuses := by
  rw [sweepOnBuses_split t b, sweepOnBuses_split s b, sweepOnBuses_others others]
  refine Nat.add_le_add_right ?_ _
  split
  · next carries => rw [if_pos (fewer carries)]
  · exact Nat.zero_le _

theorem sweepOnBuses_le_succ {s t : State} {b : BusNo} (others : OtherBuses b s t) : t.sweepOnBuses ≤ s.sweepOnBuses + 1 := by
  rw [sweepOnBuses_split t b, sweepOnBuses_split s b, sweepOnBuses_others others]
  split <;> omega

theorem sweepOnBuses_of_no_test {s : State} (tests : ∀ b, (s.bus b).test = none) : s.sweepOnBuses = 0 := by
  rw [State.sweepOnBuses, List.countP_eq_zero]
  intro b _
  simp [Bus.carriesSweep, tests b]

theorem Bus.carriesSweep_of_test_eq {r x : Bus} (test : x.test = r.test) : x.carriesSweep = r.carriesSweep := by
  rw [Bus.carriesSweep, test, Bus.carriesSweep]

theorem Bus.Rewritten.carriesSweep {r x : Bus} (ok : r.Rewritten x) : x.carriesSweep = r.carriesSweep := by
  rcases ok.test with ⟨was, is⟩ | ⟨e, y, was, is, -, cls, -⟩
  · exact Bus.carriesSweep_of_test_eq (is.trans was.symm)
  · simp only [Bus.carriesSweep, was, is, cls]

/-- The bound in force: the sweep bus limit, 0 while no anchor is. -/
theorem sweepShareOk_iff (s : State) : SweepShareOk s ↔ s.sweepOnBuses ≤ s.limit Anchor.sweepBusLimit := by
  unfold SweepShareOk State.limit
  cases s.anchor with
  | some a => exact Iff.rfl
  | none => exact Nat.le_zero.symm

theorem SweepShareOk.of_le {s t : State} (h : SweepShareOk s) (anchor : t.anchor = s.anchor) (fewer : t.sweepOnBuses ≤ s.sweepOnBuses) :
    SweepShareOk t := by
  rw [sweepShareOk_iff] at h ⊢
  rw [State.limit, anchor]
  exact fewer.trans h

theorem SweepShareOk.of_only {fs : List Field} {s t : State} (h : SweepShareOk s) (only : OnlyChanges fs s t)
    (away : apart [.anchor, .buses] fs = true) : SweepShareOk t := by
  refine h.of_le (only.same_of_apart away (f := .anchor) (by simp)) (sweepOnBuses_le (b := 0) (fun x _ => ?_) ?_)
  · rw [State.bus, show t.buses = s.buses from only.same_of_apart away (f := .buses) (by simp), State.bus]
  · rw [State.bus, show t.buses = s.buses from only.same_of_apart away (f := .buses) (by simp), State.bus]
    exact id

/-- A quiet part carries no test. -/
theorem no_test_of_quiet {s : State} (quiet : s.quiet = true) (tests : TestsOk s) (b : BusNo) : (s.bus b).test = none := by
  obtain ⟨records, -⟩ := (testsOk_iff s).mp tests
  have settled : (s.bus b).state.settledDown = true := by
    simp only [State.quiet, Bool.and_eq_true, List.all_eq_true] at quiet
    exact quiet.1.1.1.1.1 b (mem_allBuses b)
  by_contra some
  have working := (records b).working.mp some
  unfold Bus.working at working
  rcases working with h | h | h | h <;> simp [h, BusState.settledDown] at settled

theorem Deed.sweepShareOk {s t : State} {fs : List Field} (d : Deed s fs t) (tests : TestsOk s) (h : SweepShareOk s) :
    SweepShareOk t := by
  by_cases away : apart [.anchor, .buses] fs = true
  · exact h.of_only d.only away
  · cases d with
    | aside deed => cases deed <;> exact absurd rfl away
    | accept a valid =>
      have none : (acceptCommit a s).sweepOnBuses = 0 := sweepOnBuses_of_no_test fun b => by
        rw [(acceptCommit_only a s).bus rfl]
        exact no_test_of_quiet (quiet_of_validate valid) tests b
      rw [sweepShareOk_iff, none]
      exact Nat.zero_le _
    | rebus b r ok =>
      refine h.of_le rfl (sweepOnBuses_le (setBus_otherBuses b r s) ?_)
      rw [State.setBus_view_bus_self, ok.carriesSweep]
      exact id
    | idle b =>
      refine h.of_le ((enterIdle_only b s).get .anchor rfl) (sweepOnBuses_le (enterIdle_otherBuses b s) ?_)
      rw [enterIdle_view_bus_self]
      simp [Bus.carriesSweep, Bus.idle]
    | settle b =>
      refine h.of_le rfl (sweepOnBuses_le (b := b) (setBus_otherBuses b _ s) ?_)
      rw [joinWait_setBus_view_bus_self]
      exact id
    | claim b e rest selected =>
      have move := claimSelected selected
      have anchor := (giveToIdle_only b e rest s).get .anchor rfl
      have others := giveToIdle_otherBuses b e rest s
      by_cases sweep : e.cls = .sweep
      · obtain ⟨a, inForce, share⟩ := move.share sweep
        rw [sweepShareOk_iff, State.limit, anchor, inForce]
        exact (sweepOnBuses_le_succ others).trans share
      · refine h.of_le anchor (sweepOnBuses_le others ?_)
        rw [giveToIdle_view_bus_self]
        simp [Bus.carriesSweep, sweep]
    | rejoin b e rest selected =>
      refine h.of_le ((giveToHeld_only b e rest s).get .anchor rfl) (sweepOnBuses_le (giveToHeld_otherBuses b e rest s) ?_)
      rw [giveToHeld_view_bus_self]
      simp [Bus.carriesSweep, (rejoinSelected selected).desk]
    | grant hd b rest =>
      refine h.of_le ((grantHead_only hd b rest s).get .anchor rfl) (sweepOnBuses_le (grantHead_otherBuses hd b rest s) ?_)
      rw [grantHead_view_bus_self]
      exact id
    | retire b ended =>
      refine h.of_le (ended.only.get .anchor rfl) (sweepOnBuses_le ended.others ?_)
      simp [Bus.carriesSweep, ended.test]
    | cold =>
      refine (sweepShareOk_iff _).mpr (le_of_eq_of_le (sweepOnBuses_of_no_test fun b => ?_) (Nat.zero_le _))
      rw [coldReset_view_bus]
      rfl
    | warm =>
      refine (sweepShareOk_iff _).mpr (le_of_eq_of_le (sweepOnBuses_of_no_test fun b => ?_) (Nat.zero_le _))
      obtain ⟨records, -⟩ := (testsOk_iff s).mp tests
      rw [warmReset_view_bus, Bus.warm]
      split
      · next idle =>
        by_contra some
        have working := (records b).working.mp some
        simp [Bus.working, idle] at working
      · rfl
    | tick =>
      have same (b : BusNo) : ((Machine.tick s).bus b).carriesSweep = (s.bus b).carriesSweep := by
        rw [tick_view_bus]
        exact Bus.carriesSweep_of_test_eq rfl
      exact h.of_le rfl (le_of_eq (by simp only [State.sweepOnBuses, same]))
    | _ => exact absurd rfl away

/-! ## Together -/

theorem Deed.workOk {s t : State} {fs : List Field} (d : Deed s fs t) (h : WorkOk s) : WorkOk t := by
  obtain ⟨settings, tests, waits, heads, share⟩ := h
  exact ⟨d.anchorOk settings, d.testsOk settings waits tests, d.waitQueueOk heads waits,
    (headsOk_iff t).mpr (d.headsJoined tests waits ((headsOk_iff s).mp heads)), d.sweepShareOk tests share⟩

/-- Settles O59: the parts of the law are kept together by every deed. -/
theorem workKept : Obligations.WorkKept := fun _ _ h stepped =>
  step_keeps (fun only h => by
    obtain ⟨settings, tests, waits, heads, share⟩ := h
    exact ⟨settings.of_only only rfl, tests.of_only only rfl, waits.of_only only rfl,
      (headsOk_iff _).mpr (((headsOk_iff _).mp heads).of_only only rfl), share.of_only only rfl⟩) Deed.workOk h stepped

end Sys2Proof.Machine
end

section
/-!
PROOFS. The queue of commands, and both resets: what they leave, and what they do with a host access (R3, R50, R51, R168).
-/

namespace Sys2Proof.Machine

/-- Settles O1: a step matches on the queue of commands. -/
theorem stepTakesFront : Obligations.StepTakesFront := by
  intro c rest s waiting
  simp [step, waiting]

/-! ## What both resets leave alike -/

theorem keptMessages_kept {α : Type} (begun unsent : Nat) (ms own : List α) :
    Kept begun ms own (keptMessages begun unsent ms ++ own) (keptMessages begun unsent ms).length :=
  ⟨max begun (ms.length - unsent), le_max_left _ _, rfl, rfl⟩

theorem resetMemory_of_free {s : State} (free : s.path = .free) : resetMemory s = s.mem := by simp [resetMemory, free]

theorem resetMemory_of_writer {s : State} {r : Transfer} (writing : s.path = .writer r) :
    ∃ n, resetMemory s = Memory.writeWords s.mem (r.words.take n) :=
  ⟨Config.cutShort s.freeIndex, by simp only [resetMemory, writing]⟩

theorem resetAccesses_of_not_host {s : State} (away : s.path ≠ .host) : resetAccesses s = s.hostAccesses := by
  unfold resetAccesses
  cases path : s.path with
  | host => exact absurd path away
  | free => rfl
  | writer r => rfl

theorem resetAccesses_nil {s : State} (none : s.hostAccesses = []) : resetAccesses s = [] := by
  cases path : s.path <;> simp [resetAccesses, path, none]

theorem resetShared_alike (s : State) : ResetAlike s (resetShared s) := by
  refine ⟨rfl, rfl, rfl, rfl, entry_replicate _, rfl, rfl, fun f => entry_replicate _ _, fun i => entry_replicate _ i, rfl, rfl, rfl,
    rfl, rfl, rfl, fun h => entry_replicate _ h, rfl, fun b => entry_replicate _ b, rfl, rfl, rfl, rfl, rfl, rfl, rfl, rfl, rfl, rfl,
    rfl, fun g => entry_replicate _ g, rfl, rfl, keptMessages_kept _ _ _ _, rfl, resetMemory_of_free, fun r => resetMemory_of_writer⟩

theorem coldReset_alike (s : State) : ResetAlike s (coldReset s) := resetShared_alike s

theorem warmReset_alike (s : State) : ResetAlike s (warmReset s) := resetShared_alike s

/-! ## The state the machine begins in -/

theorem reset_view_bus (b : BusNo) : State.reset.bus b = Bus.recovering none 0 := entry_replicate _ b

theorem reset_view_line (l : LineNo) : State.reset.line l = LineRecord.cold := entry_replicate _ l

theorem reset_view_head (h : HeadNo) : State.reset.head h = Head.clearing := entry_replicate _ h

theorem reset_view_group (g : GroupNo) : State.reset.group g = GroupRecord.zero := entry_replicate _ g

/-- The state the machine begins in, as a reset of itself would leave it: with no message known to have been sent. -/
theorem reset_alike : ResetAlike State.reset State.reset := by
  refine ⟨rfl, rfl, rfl, rfl, entry_replicate _, rfl, rfl, fun f => entry_replicate _ _, fun i => entry_replicate _ i, rfl, rfl, rfl,
    rfl, rfl, rfl, reset_view_head, rfl, fun b => entry_replicate _ b, rfl, rfl, rfl, rfl, rfl, rfl, rfl, rfl, rfl, rfl,
    rfl, reset_view_group, rfl, rfl, ⟨0, le_rfl, rfl, rfl⟩, rfl, fun _ => rfl, fun r writing => ?_⟩
  have free : State.reset.path = .free := rfl
  rw [free] at writing
  exact absurd writing (by simp)

/-- Settles O4: the fields of the state one by one, its tables entry by entry. -/
theorem resetState : Obligations.ResetState :=
  ⟨reset_view_line, reset_view_bus, rfl, rfl, rfl, rfl, rfl, rfl, rfl, rfl, reset_alike⟩

/-! ## The invariants in that state -/

theorem reset_inFlight : State.reset.inFlight = [] := by
  have noSlot (b : BusNo) : (State.reset.bus b).slots = [] := by rw [reset_view_bus]; rfl
  have noEntry : State.reset.queue = [] := rfl
  simp [State.inFlight, noSlot, noEntry]

theorem reset_busLineOk : BusLineOk State.reset := by
  refine ⟨fun b idle => ?_, fun b l named => ?_, fun b l occupied => ?_⟩
  · rw [reset_view_bus] at idle
    simp [Bus.recovering] at idle
  · rw [reset_view_bus] at named
    simp [Bus.recovering] at named
  · rw [reset_view_line] at occupied
    simp [LineRecord.cold] at occupied

theorem reset_groupsOk : GroupsOk State.reset := (groupsOk_iff_of_no_anchor rfl).mpr reset_view_group

theorem reset_capacityOk : CapacityOk State.reset := by
  have noTest (b : BusNo) : (State.reset.bus b).test = none := by rw [reset_view_bus]; rfl
  have noEntry : State.reset.writerQueue = [] := rfl
  refine ⟨by decide, by decide, by decide, by decide, by decide, by decide, by decide, ⟨?_, ?_, ?_⟩, ⟨by decide, ?_, ?_, by decide⟩,
    ?_, ?_, ?_⟩
  · exact fun e queued => absurd queued (List.not_mem_nil (a := e))
  · exact fun b e test => absurd test (by simp [noTest])
  · exact fun b r slots pending => absurd pending (by simp [noEntry])
  · exact fun b => by simp [noEntry]
  · exact fun b => absurd (noTest b)
  · exact fun k opened => absurd opened (by simp [State.reset])
  · exact fun q queued => absurd queued (List.not_mem_nil (a := q))
  · exact fun i n d k pending => absurd pending (by simp [noEntry])

theorem reset_workOk : WorkOk State.reset := by
  have noAnchor : State.reset.anchor = none := rfl
  have noneWaits : State.reset.waitQueue = [] := rfl
  refine ⟨fun a inForce => absurd inForce (by simp [noAnchor]), ⟨?_, ?_, ?_⟩, ⟨by simp [noneWaits], ?_, by simp [noneWaits]⟩,
    ⟨?_, ?_, ?_, ?_⟩, ?_⟩
  · exact fun b => by rw [reset_view_bus]; simp [Bus.recovering, Bus.idle]
  · exact fun b e test => by rw [reset_view_bus] at test; simp [Bus.recovering, Bus.idle] at test
  · exact fun e queued => absurd queued (List.not_mem_nil (a := e))
  · exact fun b => by rw [reset_view_bus, noneWaits]; simp [Bus.recovering]
  · exact fun h joined => by rw [reset_view_head] at joined; simp [Head.clearing] at joined
  · exact fun h _ _ => by rw [reset_view_head]; rfl
  · exact fun b measuring => by rw [reset_view_bus] at measuring; simp [Bus.recovering] at measuring
  · exact fun b both => by rw [reset_view_head] at both; simp [Head.clearing] at both
  · simp [SweepShareOk, noAnchor, State.sweepOnBuses, reset_view_bus, Bus.carriesSweep, Bus.recovering, Bus.idle]

theorem reset_beforeCommitOk : BeforeCommitOk State.reset := by
  intro _
  refine ⟨rfl, rfl, rfl, rfl, fun b => by rw [reset_view_bus]; rfl, fun f => entry_replicate _ _, by decide,
    fun e pending => absurd pending (List.not_mem_nil (a := e)), fun r writing => absurd writing (by simp [State.reset])⟩

/-- Settles O5: nothing is queued, joined or in force after a reset. -/
theorem resetMeetsInvariants : Obligations.ResetMeetsInvariants := by
  refine ⟨rfl, reset_busLineOk, reset_groupsOk, reset_capacityOk, ?slots, ?ring, reset_workOk, reset_beforeCommitOk⟩
  case slots => rw [SlotsOk, reset_inFlight]; exact List.nodup_nil
  case ring => exact fun a inForce => absurd inForce (by simp [State.reset])

/-! ## The commands -/

theorem exec_coldReset (s : State) : exec .coldReset s = .next (serveAll (coldReset s)) := rfl

theorem exec_warmReset (s : State) : exec .warmReset s = .next (serveAll (warmReset s)) := rfl

/-- Settles O6: with no access outstanding there is none to serve, and the state is that of `coldReset`. -/
theorem coldResetClears : Obligations.ColdResetClears := by
  intro s none
  have served : serveAll (coldReset s) = coldReset s := serveAll_nil (resetAccesses_nil none)
  refine ⟨coldReset s, by rw [exec_coldReset, served], coldReset_alike s, coldReset_view_line s, coldReset_view_bus s, rfl, rfl, rfl,
    keptMessages_kept _ _ _ _, keptMessages_kept _ _ _ _, rfl, resetAccesses_nil none, rfl⟩

/-- Settles O7: with no access outstanding there is none to serve, and the state is that of `warmReset`. -/
theorem warmResetKeeps : Obligations.WarmResetKeeps := by
  intro s none
  have served : serveAll (warmReset s) = warmReset s := serveAll_nil (resetAccesses_nil none)
  refine ⟨warmReset s, by rw [exec_warmReset, served], warmReset_alike s, warmReset_view_line s, fun b idle => ?idle,
    fun b busy => ?busy, rfl, rfl, rfl, ?exchange, keptMessages_kept _ _ _ _, rfl, resetAccesses_nil none, rfl⟩
  case idle => rw [warmReset_view_bus, Bus.warm, if_pos idle]
  case busy => rw [warmReset_view_bus, Bus.warm, if_neg busy]; rfl
  case exchange =>
    have kept := keptMessages_kept s.begun.exchange (Config.unsentExchange s.freeIndex) s.exchangeOut []
    rw [List.append_nil] at kept
    exact kept

/-! ## A host access that a reset finds (R168) -/

/-- What a reset leaves of the memory path, with a host access put back on the pins. -/
structure PathReset (s u v : State) : Prop where
  path : u.path = .free
  anchor : u.anchor = none
  writerQueue : u.writerQueue = []
  starvation : u.starvation = 0
  readHold : u.readHold = none
  spent : u.resultHoldSpent = false
  accesses : u.hostAccesses = []
  /-- the reset of the state with its accesses is that without them but for the accesses and memory -/
  alike : v = { u with hostAccesses := resetAccesses s, mem := resetMemory s }
  mem : u.mem = resetMemory { s with hostAccesses := [] }

theorem coldReset_pathReset (s : State) : PathReset s (coldReset { s with hostAccesses := [] }) (coldReset s) :=
  ⟨rfl, rfl, rfl, rfl, rfl, rfl, resetAccesses_nil rfl, rfl, rfl⟩

theorem warmReset_pathReset (s : State) : PathReset s (warmReset { s with hostAccesses := [] }) (warmReset s) :=
  ⟨rfl, rfl, rfl, rfl, rfl, rfl, resetAccesses_nil rfl, rfl, rfl⟩

/-- Without the access a reset ends in `u`, with it the path serves what the reset has left of it. -/
theorem exec_reset {s : State} {c : Instr} (h : c = .coldReset ∨ c = .warmReset) :
    ∃ u v, PathReset s u v ∧ exec c { s with hostAccesses := [] } = .next u ∧ exec c s = .next (serveAll v) := by
  rcases h with rfl | rfl
  · have found := coldReset_pathReset s
    exact ⟨_, _, found, by rw [exec_coldReset, serveAll_nil found.accesses], rfl⟩
  · have found := warmReset_pathReset s
    exact ⟨_, _, found, by rw [exec_warmReset, serveAll_nil found.accesses], rfl⟩

theorem resetMemory_of_read {s : State} {addr : HostAddr} {be : BitVec 4} (reads : s.hostAccesses = [.read addr be]) :
    resetMemory { s with hostAccesses := [] } = resetMemory s := by
  cases path : s.path <;> simp [resetMemory, path, reads]

theorem resetMemory_of_not_host {s : State} (away : s.path ≠ .host) :
    resetMemory { s with hostAccesses := [] } = resetMemory s := by
  cases path : s.path with
  | host => exact absurd path away
  | free => simp [resetMemory, path]
  | writer r => simp [resetMemory, path]

theorem resetAccesses_of_read {s : State} {addr : HostAddr} {be : BitVec 4} (reads : s.hostAccesses = [.read addr be]) :
    resetAccesses s = [.read addr be] := by cases path : s.path <;> simp [resetAccesses, path, reads]

theorem holdOf_of_no_anchor {s : State} (absent : s.anchor = none) (w : Nat) : s.holdOf w = none := by
  simp [State.holdOf, absent]

/-- An access whose reset has left the path as it was is the only one, on a path that is free for it. -/
theorem PathReset.presented {s u v : State} (h : PathReset s u v) (mem : resetMemory { s with hostAccesses := [] } = resetMemory s)
    {x : HostAccess} (access : resetAccesses s = [x]) : v = { u with hostAccesses := [x] } := by
  have same : resetMemory s = u.mem := by rw [h.mem, mem]
  rw [h.alike, access, same]

/-- A read performed on the path as a reset leaves it changes nothing but what it returns. -/
theorem PathReset.read {s u v : State} (h : PathReset s u v) (addr : HostAddr) (be : BitVec 4) :
    serveAll { u with hostAccesses := [.read addr be] } =
      { u with readData := some { addr := addr, be := be, data := Memory.readLanes u.mem (wordAddr addr) be } } := by
  have free : ({ u with hostAccesses := [.read addr be] } : State).hostMayTake = true :=
    (hostMayTake_iff _).mpr ⟨h.path, .inl h.writerQueue⟩
  have unheld : ({ u with hostAccesses := [.read addr be] } : State).holdOf (wordAddr addr) = none := holdOf_of_no_anchor h.anchor _
  rw [serveAll_read rfl, unheld]
  dsimp only
  rw [if_pos free]
  obtain ⟨path, anchor, writerQueue, starvation, readHold, spent, accesses, alike, mem⟩ := h
  cases u
  simp_all [performRead, endAccess, countStarved]

/-- Settles O8: a reset leaves the path free and no anchor in force, so nothing holds the access it then serves. -/
theorem resetServesHost : Obligations.ResetServesHost := by
  intro s c resets
  obtain ⟨u, v, found, without, served⟩ := exec_reset (s := s) resets
  refine ⟨fun addr be reads => ?read, fun addr data be writes away => ?waiting, fun addr data be writes performing ok => ?performing⟩
  case read =>
    rw [found.presented (resetMemory_of_read reads) (resetAccesses_of_read reads), found.read] at served
    refine ⟨_, u, without, served, found.accesses, found.readHold, found.path, rfl, readLanes_returned rfl, ?_⟩
    intro f hf; cases f <;> first | rfl | exact ⟨rfl, fun _ => rfl⟩ | simp at hf
  case waiting =>
    rw [found.presented (resetMemory_of_not_host away) (by rw [resetAccesses_of_not_host away, writes])] at served
    exact ⟨u, without, by rw [served, exec_of_writeOf (c := .hostWrite addr data be) rfl, present_first _ found.accesses]⟩
  case performing =>
    have access : resetAccesses s = [] := by simp [resetAccesses, performing, writes]
    have mem : resetMemory s = Memory.writeLanes s.mem (wordAddr addr) data be := by simp [resetMemory, performing, writes]
    have reached : v = { u with mem := Memory.writeLanes s.mem (wordAddr addr) data be } := by
      rw [found.alike, access, mem, ← found.accesses]
    have accesses : v.hostAccesses = [] := by rw [reached, ← found.accesses]
    rw [serveAll_nil accesses] at served
    exact ⟨v, u, without, served, writeLanes_stored addr data be ok (by rw [reached]), accesses, reached ▸ setMem_only u _⟩

end Sys2Proof.Machine
end

section
/-!
PROOFS. Taking a statement about one effect to the whole command: what the command does before the effect (the reply it hears) and after
it (the end of the event) leaves alone what the statement reads. And the commands of the links and of their timers, by the conditions
of their rows.
-/

namespace Sys2Proof.Machine

/-! ## Statements about a step, inside a frame -/

section
variable {fs gs : List Field} {s u v t : State}

theorem OtherBuses.framed {b : BusNo} (h : OtherBuses b u v) (before : OnlyChanges fs s u) (after : OnlyChanges gs v t)
    (hf : decide (Field.buses ∈ fs) = false := by rfl) (hg : decide (Field.buses ∈ gs) = false := by rfl) : OtherBuses b s t :=
  fun x other => ((after.bus hg x).trans (h x other)).trans (before.bus hf x)

theorem OtherHeads.framed {i : HeadNo} (h : OtherHeads i u v) (before : OnlyChanges fs s u) (after : OnlyChanges gs v t)
    (hf : decide (Field.heads ∈ fs) = false := by rfl) (hg : decide (Field.heads ∈ gs) = false := by rfl) : OtherHeads i s t :=
  fun x other => ((after.head hg x).trans (h x other)).trans (before.head hf x)

theorem OtherPrograms.framed {b : BusNo} (h : OtherPrograms b u v) (before : OnlyChanges fs s u) (after : OnlyChanges gs v t)
    (hf : decide (Field.programs ∈ fs) = false := by rfl) (hg : decide (Field.programs ∈ gs) = false := by rfl) :
    OtherPrograms b s t :=
  fun x other => ((after.program hg x).trans (h x other)).trans (before.program hf x)

theorem OtherLines.framed {l : LineNo} (h : OtherLines l u v) (before : OnlyChanges fs s u) (after : OnlyChanges gs v t)
    (hf : decide (Field.lines ∈ fs) = false := by rfl) (hg : decide (Field.lines ∈ gs) = false := by rfl) : OtherLines l s t :=
  fun x other => ((after.line hg x).trans (h x other)).trans (before.line hf x)

theorem OtherFlags.framed {gone : List Flag} (h : OtherFlags gone u v) (before : OnlyChanges fs s u) (after : OnlyChanges gs v t)
    (hf : decide (Field.flags ∈ fs) = false := by rfl) (hg : decide (Field.flags ∈ gs) = false := by rfl) : OtherFlags gone s t :=
  fun x other => ((after.flag hg x).trans (h x other)).trans (before.flag hf x)

theorem FlagRaised.framed {f : Flag} (h : FlagRaised f u v) (before : OnlyChanges fs s u) (after : OnlyChanges gs v t)
    (hf : decide (Field.flags ∈ fs) = false := by rfl) (ha : decide (Field.anchor ∈ fs) = false := by rfl)
    (hg : decide (Field.flags ∈ gs) = false := by rfl) : FlagRaised f s t :=
  FlagRaised.of_eq h (before.get .anchor ha).symm (before.flag hf f).symm (after.flag hg f)

theorem Looked.framed {event : Prop} (h : Looked event u v) (before : OnlyChanges fs s u) (after : OnlyChanges gs v t)
    (hf : decide (Field.cancelSinceLook ∈ fs) = false := by rfl) (hg : decide (Field.cancelSinceLook ∈ gs) = false := by rfl) :
    Looked event s t :=
  ⟨fun some => (after.get .cancelSinceLook hg).trans (h.1 some),
    fun none => ((after.get .cancelSinceLook hg).trans (h.2 none)).trans (before.get .cancelSinceLook hf)⟩

/-- What an equipment event reads of the state before it and of the one after it. -/
theorem EventHandedOver.framed {kind : TicketKind} {c : EventContext} (h : EventHandedOver kind c u v)
    (before : OnlyChanges fs s u) (after : OnlyChanges gs v t)
    (hf : (Field.anchor :: .epoch :: outboxFields).all (fun f => decide (f ∉ fs)) = true := by rfl)
    (hg : outboxFields.all (fun f => decide (f ∉ gs)) = true := by rfl) : EventHandedOver kind c s t := by
  have kept {f : Field} (read : f ∈ Field.anchor :: .epoch :: outboxFields) : f.same s u :=
    before f (of_decide_eq_true (List.all_eq_true.mp hf f read))
  have left {f : Field} (read : f ∈ outboxFields) : f.same v t := after f (of_decide_eq_true (List.all_eq_true.mp hg f read))
  have flagBefore : u.flag .drop = s.flag .drop := congrArg (entry · _) (kept (f := .flags) (by simp [outboxFields]))
  have flagAfter : t.flag .drop = v.flag .drop := congrArg (entry · _) (left (f := .flags) (by simp [outboxFields]))
  exact h.of_eq (kept (f := .anchor) (by simp)).symm (kept (f := .epoch) (by simp)).symm
    (kept (f := .outbox) (by simp [outboxFields])).symm (kept (f := .ticketSeq) (by simp [outboxFields])).symm
    (kept (f := .droppedBefore) (by simp [outboxFields])).symm (kept (f := .droppedTotal) (by simp [outboxFields])).symm
    flagBefore.symm (left (f := .outbox) (by simp [outboxFields])) (left (f := .ticketSeq) (by simp [outboxFields]))
    (left (f := .droppedBefore) (by simp [outboxFields])) (left (f := .droppedTotal) (by simp [outboxFields])) flagAfter

theorem finalEntries_framed (before : OnlyChanges fs s u) (b : BusNo) (o : TestOutcome) (h : Option HeadNo) (rs : StepRecords)
    (hf : decide (Field.buses ∈ fs) = false := by rfl) (he : decide (Field.epoch ∈ fs) = false := by rfl) :
    u.finalEntries b o h rs = s.finalEntries b o h rs := by
  have epoch : u.epoch = s.epoch := before.get .epoch he
  unfold State.finalEntries
  rw [before.bus hf b, epoch]

theorem outcomeOn_framed (before : OnlyChanges fs s u) (b : BusNo) (o : TestOutcome)
    (hf : decide (Field.buses ∈ fs) = false := by rfl) : u.outcomeOn b o = s.outcomeOn b o := by
  unfold State.outcomeOn
  rw [before.bus hf b]

/-! ## What a reply shows -/

theorem AnswerHeard.framed {l : LineNo} {c : ClaimNo} (h : AnswerHeard l c s v) (after : OnlyChanges gs v t)
    (hg : decide (Field.begun ∈ gs) = false := by rfl) : AnswerHeard l c s t := by
  have same : t.begun = v.begun := after.get .begun hg
  unfold AnswerHeard ExchangeShown at h ⊢
  rwa [same]

theorem ResyncEndHeard.framed (h : ResyncEndHeard s v) (after : OnlyChanges gs v t)
    (hg : decide (Field.begun ∈ gs) = false := by rfl) : ResyncEndHeard s t := by
  have same : t.begun = v.begun := after.get .begun hg
  unfold ResyncEndHeard at h ⊢
  rwa [same]

theorem SettledHeard.framed {b : BusNo} (h : SettledHeard b s v) (after : OnlyChanges gs v t)
    (hg : decide (Field.begun ∈ gs) = false := by rfl) : SettledHeard b s t := by
  have same : t.begun = v.begun := after.get .begun hg
  unfold SettledHeard MatrixShown at h ⊢
  rwa [same]

theorem OpenedHeard.framed {b : BusNo} (h : OpenedHeard b s v) (after : OnlyChanges gs v t)
    (hg : decide (Field.begun ∈ gs) = false := by rfl) : OpenedHeard b s t := by
  have same : t.begun = v.begun := after.get .begun hg
  unfold OpenedHeard MatrixShown at h ⊢
  rwa [same]

theorem XpFaultHeard.framed {b : BusNo} (h : XpFaultHeard b s v) (after : OnlyChanges gs v t)
    (hg : decide (Field.begun ∈ gs) = false := by rfl) : XpFaultHeard b s t := by
  have same : t.begun = v.begun := after.get .begun hg
  unfold XpFaultHeard MatrixShown at h ⊢
  rwa [same]

theorem ReadingHeard.framed {i : HeadNo} (h : ReadingHeard i s v) (after : OnlyChanges gs v t)
    (hg : decide (Field.begun ∈ gs) = false := by rfl) : ReadingHeard i s t := by
  have same : t.begun = v.begun := after.get .begun hg
  unfold ReadingHeard HeadShown at h ⊢
  rwa [same]

theorem AbortedHeard.framed {i : HeadNo} (h : AbortedHeard i s v) (after : OnlyChanges gs v t)
    (hg : decide (Field.begun ∈ gs) = false := by rfl) : AbortedHeard i s t := by
  have same : t.begun = v.begun := after.get .begun hg
  unfold AbortedHeard HeadShown at h ⊢
  rwa [same]

theorem ReadyHeard.framed {i : HeadNo} (h : ReadyHeard i s v) (after : OnlyChanges gs v t)
    (hg : decide (Field.begun ∈ gs) = false := by rfl) : ReadyHeard i s t := by
  have same : t.begun = v.begun := after.get .begun hg
  unfold ReadyHeard HeadShown at h ⊢
  rwa [same]

end

/-! ## The matrix link, by the number of a bus -/

theorem exec_settled (b : BusNo) (s : State) :
    exec (.settled b.val) s =
      if (s.bus b).state = .seizing ∧ (s.bus b).command = some .close then .next (finish s (settleBus b (heardSettled b s)))
      else .next (heardSettled b s) := by
  simp only [exec, execSettled, b.isLt, ↓reduceDIte, Fin.eta]

theorem exec_opened (b : BusNo) (s : State) :
    exec (.opened b.val) s =
      if (s.bus b).state = .releasing ∧ (s.bus b).command = some .opening then .next (finish s (releaseBus b (heardOpened b s)))
      else .next (heardOpened b s) := by
  simp only [exec, execOpened, b.isLt, ↓reduceDIte, Fin.eta]

theorem exec_xpFault (b : BusNo) (s : State) :
    exec (.xpFault b.val) s =
      if (s.bus b).state = .seizing ∧ (s.bus b).command = some .close then
        .next (finish s (failSeizure b (min 49 (s.bus b).ranOf50) (heardXpFault b s)))
      else if (s.bus b).state = .releasing ∧ (s.bus b).command = some .opening then
        .next (finish s (failRelease b .xpFault (s.bus b).ranOf50 (heardXpFault b s)))
      else .next (heardXpFault b s) := by
  simp only [exec, execXpFault, b.isLt, ↓reduceDIte, Fin.eta]

/-! ## The head link, by the number of a head -/

theorem exec_reading (h : HeadNo) (st : ReadingStatus) (v : BitVec 16) (s : State) :
    exec (.reading h.val (some st) v) s = .next (finish s (readHead h st v (heardReading h s))) := by
  simp only [exec, execReading, h.isLt, ↓reduceDIte, Fin.eta]

theorem exec_aborted (h : HeadNo) (s : State) :
    exec (.aborted h.val) s =
      if (s.head h).state = .aborting then .next (finish s (endAbort h (heardAborted h s))) else .next (heardAborted h s) := by
  simp only [exec, execAborted, h.isLt, ↓reduceDIte, Fin.eta]

theorem exec_ready (h : HeadNo) (s : State) :
    exec (.ready h.val) s =
      if (s.head h).state = .clearing then .next (finish s (((freeHead h (heardReady h s)).look true).raiseFlag .head))
      else .next (heardReady h s) := by
  simp only [exec, execReady, h.isLt, ↓reduceDIte, Fin.eta]

/-- A HEAD_ERROR fails every head but one SUSPECT; a FREE head has no timed phase (R71, R72). -/
theorem exec_headError {h : HeadNo} {s : State} (taken : (s.head h).state ≠ .suspect) :
    exec (.headError h.val) s =
      .next (finish s (failHead h .headError .headError (if (s.head h).state = .free then 0 else (s.head h).startedAt) s)) := by
  simp only [exec, execHeadError, h.isLt, ↓reduceDIte, Fin.eta]
  cases state : (s.head h).state with
  | suspect => exact absurd state taken
  | free => rfl
  | attached => rfl
  | aborting => rfl
  | clearing => rfl

theorem exec_headError_of_suspect {h : HeadNo} {s : State} (suspect : (s.head h).state = .suspect) :
    exec (.headError h.val) s = .next s := by
  simp only [exec, execHeadError, h.isLt, ↓reduceDIte, Fin.eta, suspect]

/-! ## Timers -/

theorem Bus.runs_of_timer {r : Bus} {k : BusTimer} {n : Nat} (h : r.timer = some (k, n)) : r.runs k = true := by
  simp [Bus.runs, h]

theorem Head.runs_of_timer {r : Head} {k : HeadTimer} {n : Nat} (h : r.timer = some (k, n)) : r.runs k = true := by
  simp [Head.runs, h]

theorem Bus.ranOf50_of_timer {r : Bus} {k : BusTimer} {n : Nat} (h : r.timer = some (k, n)) : r.ranOf50 = 50 - n := by
  simp [Bus.ranOf50, h]

section
variable {s : State} {b : BusNo} {h : HeadNo} {n : Nat}

theorem exec_claimTimerExpiry (state : (s.bus b).state = .claiming) (timer : (s.bus b).timer = some (.claim, n)) :
    exec (.claimTimerExpiry b) s = .next (finish s (claimTimeout b s)) := if_pos ⟨state, Bus.runs_of_timer timer⟩

theorem exec_settleTimerExpiry (state : (s.bus b).state = .seizing) (timer : (s.bus b).timer = some (.settle, n)) :
    exec (.settleTimerExpiry b) s = .next (finish s (failSeizure b 50 s)) := if_pos ⟨state, Bus.runs_of_timer timer⟩

theorem exec_openTimerExpiry (state : (s.bus b).state = .releasing) (timer : (s.bus b).timer = some (.opening, n)) :
    exec (.openTimerExpiry b) s = .next (finish s (failRelease b .timeout 50 s)) := if_pos ⟨state, Bus.runs_of_timer timer⟩

theorem exec_holdTimerExpiry (state : (s.bus b).state = .held) (timer : (s.bus b).timer = some (.hold, n)) :
    exec (.holdTimerExpiry b) s = .next (finish s ((startRelease b s).raiseFlag .holdEnd)) :=
  if_pos ⟨state, Bus.runs_of_timer timer⟩

theorem exec_stepWatchdogExpiry (state : (s.head h).state = .attached) (timer : (s.head h).timer = some (.watchdog, n)) :
    exec (.stepWatchdogExpiry h) s = .next (finish s (failHead h .headTimeout .headTimeout (s.head h).watchdogValue s)) :=
  if_pos ⟨state, Head.runs_of_timer timer⟩

theorem exec_abortTimerExpiry (state : (s.head h).state = .aborting) (timer : (s.head h).timer = some (.abort, n)) :
    exec (.abortTimerExpiry h) s = .next (finish s (failHead h .headTimeout .headTimeout 100 s)) :=
  if_pos ⟨state, Head.runs_of_timer timer⟩

theorem exec_clearTimerExpiry (state : (s.head h).state = .clearing) (timer : (s.head h).timer = some (.clear, n)) :
    exec (.clearTimerExpiry h) s = .next (finish s ((suspectHead h s).raiseFlag .head)) :=
  if_pos ⟨state, Head.runs_of_timer timer⟩

end

end Sys2Proof.Machine
end

section
/-!
PROOFS. Messages that are discarded (R4, R25, R30, R31, R55, R56): the command ends in its own first state, with what the message
shows of the one it answers.
-/

namespace Sys2Proof.Machine

/-! ## An answer that matches a bus out of CLAIMING (R25) -/

section
variable {s : State} {b : BusNo} {l : LineNo}

theorem heardAnswer_matches (ok : BusLineOk s) (line : (s.bus b).line = some l) (c : ClaimNo) :
    (heardAnswer l c s).matchBus l (s.bus b).claim = some b := (heardAnswer_matchBus l _ s).trans (matchBus_some ok line)

theorem exec_grant_of_matched (ok : BusLineOk s) (line : (s.bus b).line = some l) (busy : (s.bus b).state ≠ .claiming) :
    exec (.grant l (s.bus b).claim) s = .next (afterDiscard l (s.bus b).claim s) := by
  rw [exec_grant, takeGrant, heardAnswer_matches ok line]
  exact congrArg (fun u => Host.Outcome.next (finish s u)) (if_neg busy)

theorem exec_deny_of_matched (ok : BusLineOk s) (line : (s.bus b).line = some l) (busy : (s.bus b).state ≠ .claiming)
    (reason : DenyReason) : exec (.deny l (s.bus b).claim (some reason)) s = .next (afterDiscard l (s.bus b).claim s) := by
  rw [exec_deny_some, takeDeny, heardAnswer_matches ok line]
  exact congrArg (fun u => Host.Outcome.next (finish s u)) (if_neg busy)

end

theorem afterDiscard_heard (l : LineNo) (c : ClaimNo) (s : State) : AnswerHeard l c s (afterDiscard l c s) :=
  (heardAnswer_heard l c s).framed (finish_only s _)

theorem afterGiveBack_heard (l : LineNo) (c : ClaimNo) (s : State) : AnswerHeard l c s (afterGiveBack l c s) :=
  (heardAnswer_heard l c s).framed ((sendExchange_only (.release l c) _).comp (finish_only s _)
    (hs := [.exchangeOut, .writerQueue, .readHold]) rfl)

/-! ## Numbers that name no bus or head (R30, R55) -/

section
variable {n : Nat} (s : State)

theorem exec_of_no_bus (none : 4 ≤ n) :
    exec (.settled n) s = .next s ∧ exec (.opened n) s = .next s ∧ exec (.xpFault n) s = .next s := by
  have out : ¬ n < 4 := Nat.not_lt.mpr none
  simp only [exec, execSettled, execOpened, execXpFault, out, ↓reduceDIte, and_self]

theorem exec_of_no_head (none : 2 ≤ n) (st : Option ReadingStatus) (v : BitVec 16) :
    exec (.reading n st v) s = .next s ∧ exec (.aborted n) s = .next s ∧ exec (.ready n) s = .next s ∧
      exec (.headError n) s = .next s := by
  have out : ¬ n < 2 := Nat.not_lt.mpr none
  simp only [exec, execReading, execAborted, execReady, execHeadError, out, ↓reduceDIte, and_self]

end

/-- A READING whose status field holds none of the three. -/
theorem exec_reading_none (h : HeadNo) (v : BitVec 16) (s : State) : exec (.reading h.val none v) s = .next s := by
  simp only [exec, execReading, h.isLt, ↓reduceDIte]

theorem readHead_of_idle {h : HeadNo} {s : State} (st : ReadingStatus) (v : BitVec 16) (attached : (s.head h).state ≠ .attached)
    (aborting : (s.head h).state ≠ .aborting) : readHead h st v s = s := by
  unfold readHead
  cases state : (s.head h).state with
  | attached => exact absurd state attached
  | aborting => exact absurd state aborting
  | free => rfl
  | clearing => rfl
  | suspect => rfl

theorem exec_xpFault_of_no_command {b : BusNo} {s : State} (none : (s.bus b).command = none) :
    exec (.xpFault b.val) s = .next (heardXpFault b s) := by simp [exec_xpFault, none]

/-- Settles O11: message by message, each discarded one is answered by the state as it was, with what it shows. -/
theorem messagesDiscarded : Obligations.MessagesDiscarded := by
  intro s
  have same : OnlyChanges [] s s := .refl [] s
  refine ⟨fun l => ⟨s, rfl, same⟩, fun l c => ⟨s, rfl, same⟩, fun l c alone => ?unmatched, fun ok b l _ busy line => ?matched,
    fun done => ?resynced, fun n out => ?bus, fun b idle => ?settled, fun b idle => ?opened, fun b idle => ?xpFault,
    fun n out st v => ?head, fun h v => ⟨s, exec_reading_none h v s, same⟩, fun h st v attached aborting => ?reading,
    fun h idle => ?aborted, fun h idle => ?ready, fun h suspect => ⟨s, exec_headError_of_suspect suspect, same⟩⟩
  case unmatched =>
    have unmatched := matchBus_none.mpr alone
    exact ⟨⟨_, exec_grant_of_unmatched unmatched, afterGiveBack_heard l c s⟩,
      fun reason => ⟨_, exec_deny_of_unmatched unmatched reason, afterDiscard_heard l c s⟩,
      _, exec_recall_of_unmatched unmatched, afterDiscard_heard l c s⟩
  case matched =>
    exact ⟨⟨_, exec_grant_of_matched ok line busy, afterDiscard_heard l _ s, afterDiscard_only l _ s⟩,
      fun r => ⟨_, exec_deny_of_matched ok line busy r, afterDiscard_heard l _ s, afterDiscard_only l _ s⟩⟩
  case resynced =>
    exact ⟨heardResyncEnd s, by simp [exec, execResyncEnd, done], heardResyncEnd_heard s, heardResyncEnd_only s⟩
  case bus =>
    obtain ⟨settled, opened, xpFault⟩ := exec_of_no_bus s out
    exact ⟨⟨s, settled, same⟩, ⟨s, opened, same⟩, s, xpFault, same⟩
  case settled => exact ⟨_, (exec_settled b s).trans (if_neg idle), heardSettled_heard b s, heardSettled_only b s⟩
  case opened => exact ⟨_, (exec_opened b s).trans (if_neg idle), heardOpened_heard b s, heardOpened_only b s⟩
  case xpFault => exact ⟨_, exec_xpFault_of_no_command idle, heardXpFault_heard b s, heardXpFault_only b s⟩
  case head =>
    obtain ⟨reading, aborted, ready, headError⟩ := exec_of_no_head s out st v
    exact ⟨⟨s, reading, same⟩, ⟨s, aborted, same⟩, ⟨s, ready, same⟩, s, headError, same⟩
  case reading =>
    have heard := heardReading_only h s
    have discarded : readHead h st v (heardReading h s) = heardReading h s :=
      readHead_of_idle st v (by rwa [heard.head rfl]) (by rwa [heard.head rfl])
    have image : (heardReading h s).statusImage = s.statusImage := rfl
    exact ⟨_, (exec_reading h st v s).trans (by rw [discarded]), (heardReading_heard h s).framed (finish_only s _),
      heard.comp (finish_only_of_image image) rfl⟩
  case aborted => exact ⟨_, (exec_aborted h s).trans (if_neg idle), heardAborted_heard h s, heardAborted_only h s⟩
  case ready => exact ⟨_, (exec_ready h s).trans (if_neg idle), heardReady_heard h s, heardReady_only h s⟩

end Sys2Proof.Machine
end

section
/-!
PROOFS. What a claim comes to (R16, R26, R27, R28, Table 2-3): GRANT, DENY, the claim timer, RECALL and RESYNC_END.
-/

namespace Sys2Proof.Machine

/-! ## A test ends and its bus enters IDLE -/

/-- A bus has ended its test with an outcome before it reached MEASURING, and has entered IDLE and given up its line; `fs` is what it
changed besides. -/
structure GivenUp (fs : List Field) (b : BusNo) (l : LineNo) (o : TestOutcome) (s t : State) : Prop where
  bus : t.bus b = Bus.idle
  buses : OtherBuses b s t
  program : t.program b = none
  programs : OtherPrograms b s t
  line : t.line l = { s.line l with occupying := none }
  lines : OtherLines l s t
  news : t.newsEntries = s.newsEntries ++ s.finalEntries b o none StepRecords.notRun
  looked : Looked True s t
  only : OnlyChanges (fs ++ [.news, .writerQueue, .buses, .programs, .lines, .cancelSinceLook]) s t

/-- `v` is the state in which the test has ended, or that with a message sent. -/
theorem endTestEarly_enterIdle_givenUp {fs : List Field} {s v : State} {b : BusNo} {o : TestOutcome} {e : TestEntry} {l : LineNo}
    (test : (s.bus b).test = some e) (verdict : (s.outcomeOn b o).verdict = none) (line : (s.bus b).line = some l)
    (sent : OnlyChanges fs (endTestEarly b o s) v)
    (apart : [Field.news, .buses, .programs, .lines].all (fun f => decide (f ∉ fs)) = true) :
    GivenUp fs b l (s.outcomeOn b o) s (enterIdle b v) := by
  obtain ⟨bus, buses, program, programs, news, -, ended⟩ := endTest_view none StepRecords.notRun test verdict
  have away {f : Field} (mem : f ∈ [Field.news, .buses, .programs, .lines]) : decide (f ∈ fs) = false := by
    simpa using of_decide_eq_true (List.all_eq_true.mp apart f mem)
  have lineThere : (v.bus b).line = some l := by rw [sent.bus (away (by simp)), endTestEarly, bus]; exact line
  obtain ⟨idle, others, unoccupied, lines, looked⟩ := enterIdle_view lineThere
  have entered := enterIdle_only b v
  refine
    { bus := idle
      buses := fun x other => ?_
      program := (entered.program rfl b).trans ((sent.program (away (by simp)) b).trans program)
      programs := fun x other => (entered.program rfl x).trans ((sent.program (away (by simp)) x).trans (programs x other))
      line := by rw [unoccupied, sent.line (away (by simp)), endTestEarly, ended.line rfl]
      lines := fun x other => by rw [lines x other, sent.line (away (by simp)), endTestEarly, ended.line rfl]
      news := (entered.get .news rfl).trans ((sent.get .news (away (by simp))).trans news)
      looked := ⟨looked.1, fun none => absurd trivial none⟩
      only := ?_ }
  · rw [others x other, sent.bus (away (by simp)), endTestEarly, buses x other]
  · refine ((ended.weaken fun f mem => ?_).trans (sent.weaken fun f mem => ?_)).trans (entered.weaken fun f mem => ?_)
    · simp only [List.mem_cons, List.not_mem_nil, or_false, List.mem_append] at mem ⊢; tauto
    · exact List.mem_append_left _ mem
    · simp only [List.mem_cons, List.not_mem_nil, or_false, List.mem_append] at mem ⊢; tauto

theorem outcomeOn_of_abort {s : State} {b : BusNo} {r : AbortReason} (pending : (s.bus b).abort = some r) (o : TestOutcome) :
    s.outcomeOn b o = r.outcome := by
  unfold State.outcomeOn
  rw [pending]
  cases r <;> rfl

/-! ## GRANT (R26) -/

theorem startSeizure_view (b : BusNo) (l : LineNo) (s : State) :
    (startSeizure b l s).bus b = { s.bus b with state := .seizing, command := some .close, timer := some (.settle, 50) } ∧
      OtherBuses b s (startSeizure b l s) ∧ (startSeizure b l s).matrixOut = s.matrixOut ++ [.close b l] ∧
      OnlyChanges [.buses, .matrixOut] s (startSeizure b l s) := by
  refine ⟨by simp [startSeizure], fun x other => ?_, by simp [startSeizure], ?_⟩
  · simp [startSeizure, State.setBus_view_bus, other.symm]
  · exact (sendMatrix_only (.close b l) s).comp (setBus_only b _ _) rfl

section
variable {s : State} {b : BusNo} {l : LineNo} (ok : BusLineOk s) (claiming : (s.bus b).state = .claiming)
  (line : (s.bus b).line = some l)
include ok claiming line

theorem takeGrant_of_claiming (none : (s.bus b).abort = none) :
    takeGrant l (s.bus b).claim (heardAnswer l (s.bus b).claim s) = startSeizure b l (heardAnswer l (s.bus b).claim s) := by
  have bus := (heardAnswer_only l (s.bus b).claim s).bus rfl b
  simp only [takeGrant, heardAnswer_matches ok line, bus, claiming, none, ↓reduceIte]

theorem takeGrant_of_aborting {r : AbortReason} (pending : (s.bus b).abort = some r) :
    takeGrant l (s.bus b).claim (heardAnswer l (s.bus b).claim s) =
      declineGrant b r l (s.bus b).claim (heardAnswer l (s.bus b).claim s) := by
  have bus := (heardAnswer_only l (s.bus b).claim s).bus rfl b
  simp only [takeGrant, heardAnswer_matches ok line, bus, claiming, pending, ↓reduceIte]

theorem takeDeny_of_claiming (reason : DenyReason) :
    takeDeny l (s.bus b).claim reason (heardAnswer l (s.bus b).claim s) =
      (enterIdle b (endTestEarly b .claimDenied (heardAnswer l (s.bus b).claim s))).setLine l
        (((enterIdle b (endTestEarly b .claimDenied (heardAnswer l (s.bus b).claim s))).line l).deny reason) := by
  have bus := (heardAnswer_only l (s.bus b).claim s).bus rfl b
  simp only [takeDeny, heardAnswer_matches ok line, bus, claiming, ↓reduceIte]

end

theorem LineRecord.deny_busy (r : LineRecord) : r.deny .busy = { r with yieldMark := true } := rfl

theorem LineRecord.deny_unequipped_of_offHook {r : LineRecord} (h : r.supervision = .offHook) :
    r.deny .unequipped = { r with supervision := .unequipped, stamp := none, loopMark := false } := if_pos h

theorem LineRecord.deny_unequipped_of_not_offHook {r : LineRecord} (h : r.supervision ≠ .offHook) :
    r.deny .unequipped = { r with supervision := .unequipped } := if_neg h

theorem LineRecord.deny_blocked (r : LineRecord) : r.deny .blocked = r := rfl

/-- A GRANT without an abort pending (R26). -/
theorem grant_seizes {s : State} {b : BusNo} {l : LineNo} (ok : BusLineOk s) (claiming : (s.bus b).state = .claiming)
    (line : (s.bus b).line = some l) (none : (s.bus b).abort = none) :
    ∃ t, exec (.grant l (s.bus b).claim) s = .next t ∧
      t.bus b = { s.bus b with state := .seizing, command := some .close, timer := some (.settle, 50) } ∧ OtherBuses b s t ∧
      t.matrixOut = s.matrixOut ++ [.close b l] ∧ AnswerHeard l (s.bus b).claim s t ∧
      OnlyChanges [.buses, .matrixOut, .writerQueue, .readHold, .begun] s t := by
  have heard := heardAnswer_only l (s.bus b).claim s
  have ends := finish_only s (startSeizure b l (heardAnswer l (s.bus b).claim s))
  obtain ⟨bus, buses, sent, only⟩ := startSeizure_view b l (heardAnswer l (s.bus b).claim s)
  refine ⟨_, (exec_grant l _ s).trans (by rw [takeGrant_of_claiming ok claiming line none]), ?_, buses.framed heard ends, ?_,
    (heardAnswer_heard l _ s).framed (only.comp ends (hs := [.buses, .matrixOut, .writerQueue, .readHold]) rfl),
    (heard.comp only (hs := [.buses, .matrixOut, .begun]) rfl).comp ends rfl⟩
  · rw [ends.bus rfl, bus, heard.bus rfl]
  · exact (ends.get .matrixOut rfl).trans (sent.trans (congrArg (· ++ _) (heard.get .matrixOut rfl)))

/-- A GRANT with an abort pending (R26). -/
theorem grant_declines {s : State} {b : BusNo} {l : LineNo} {e : TestEntry} (ok : BusLineOk s)
    (claiming : (s.bus b).state = .claiming) (line : (s.bus b).line = some l) (aborting : (s.bus b).abort ≠ none)
    (test : (s.bus b).test = some e) :
    ∃ t, exec (.grant l (s.bus b).claim) s = .next t ∧
      t.newsEntries = s.newsEntries ++ s.finalEntries b (s.outcomeOn b .claimDenied) none StepRecords.notRun ∧
      t.bus b = Bus.idle ∧ OtherBuses b s t ∧ t.program b = none ∧ OtherPrograms b s t ∧
      t.line l = { s.line l with occupying := none } ∧ OtherLines l s t ∧ Looked True s t ∧
      t.exchangeOut = s.exchangeOut ++ [.release l (s.bus b).claim] ∧ AnswerHeard l (s.bus b).claim s t ∧
      OnlyChanges [.news, .writerQueue, .readHold, .buses, .programs, .lines, .exchangeOut, .cancelSinceLook, .begun] s t := by
  obtain ⟨r, pending⟩ := Option.ne_none_iff_exists'.mp aborting
  have heard := heardAnswer_only l (s.bus b).claim s
  have sent := sendExchange_only (.release l (s.bus b).claim) (endTestEarly b r.outcome (heardAnswer l (s.bus b).claim s))
  have testThere : ((heardAnswer l (s.bus b).claim s).bus b).test = some e := by rw [heard.bus rfl]; exact test
  have lineThere : ((heardAnswer l (s.bus b).claim s).bus b).line = some l := by rw [heard.bus rfl]; exact line
  have verdict : ((heardAnswer l (s.bus b).claim s).outcomeOn b r.outcome).verdict = none :=
    outcomeOn_verdict (.inl (by rw [heard.bus rfl]; exact aborting))
  have given := endTestEarly_enterIdle_givenUp testThere verdict lineThere sent rfl
  have outcome : (heardAnswer l (s.bus b).claim s).outcomeOn b r.outcome = s.outcomeOn b .claimDenied := by
    rw [outcomeOn_framed heard, outcomeOn_of_abort pending, outcomeOn_of_abort pending]
  have ends := finish_only s (declineGrant b r l (s.bus b).claim (heardAnswer l (s.bus b).claim s))
  have ended := (endTest_view none StepRecords.notRun testThere verdict).2.2.2.2.2.2
  refine ⟨_, (exec_grant l _ s).trans (by rw [takeGrant_of_aborting ok claiming line pending]), ?_, ?_, given.buses.framed heard ends,
    ?_, given.programs.framed heard ends, ?_, given.lines.framed heard ends, given.looked.framed heard ends, ?_,
    (heardAnswer_heard l _ s).framed (given.only.comp ends
      (hs := [.news, .writerQueue, .readHold, .buses, .programs, .lines, .exchangeOut, .cancelSinceLook]) rfl),
    (heard.comp given.only (hs := [.news, .writerQueue, .buses, .programs, .lines, .exchangeOut, .cancelSinceLook, .begun])
      rfl).comp ends rfl⟩
  · rw [finish_news, declineGrant, given.news, outcome, finalEntries_framed heard, heard.get .news rfl]
  · rw [ends.bus rfl, declineGrant, given.bus]
  · rw [ends.program rfl, declineGrant, given.program]
  · rw [ends.line rfl, declineGrant, given.line, heard.line rfl]
  · calc (finish s _).exchangeOut
        = ((endTestEarly b r.outcome (heardAnswer l (s.bus b).claim s)).sendExchange (.release l (s.bus b).claim)).exchangeOut :=
          (ends.get .exchangeOut rfl).trans ((enterIdle_only b _).get .exchangeOut rfl)
      _ = s.exchangeOut ++ [.release l (s.bus b).claim] :=
          congrArg (· ++ _) ((ended.get .exchangeOut rfl).trans (heard.get .exchangeOut rfl))

/-- A DENY (R9, R10, R27). -/
theorem deny_ends {s : State} {b : BusNo} {l : LineNo} {e : TestEntry} (reason : DenyReason) (ok : BusLineOk s)
    (claiming : (s.bus b).state = .claiming) (line : (s.bus b).line = some l) (test : (s.bus b).test = some e) :
    ∃ t, exec (.deny l (s.bus b).claim (some reason)) s = .next t ∧
      t.newsEntries = s.newsEntries ++ s.finalEntries b (s.outcomeOn b .claimDenied) none StepRecords.notRun ∧
      t.bus b = Bus.idle ∧ OtherBuses b s t ∧ t.program b = none ∧ OtherPrograms b s t ∧
      t.line l = LineRecord.deny { s.line l with occupying := none } reason ∧ OtherLines l s t ∧
      AnswerHeard l (s.bus b).claim s t ∧
      Looked True s t ∧ OnlyChanges [.news, .writerQueue, .readHold, .buses, .programs, .lines, .cancelSinceLook, .begun] s t := by
  have heard := heardAnswer_only l (s.bus b).claim s
  have verdict : ((heardAnswer l (s.bus b).claim s).outcomeOn b .claimDenied).verdict = none := outcomeOn_verdict (.inr rfl)
  have testThere : ((heardAnswer l (s.bus b).claim s).bus b).test = some e := by rw [heard.bus rfl]; exact test
  have lineThere : ((heardAnswer l (s.bus b).claim s).bus b).line = some l := by rw [heard.bus rfl]; exact line
  have given := endTestEarly_enterIdle_givenUp testThere verdict lineThere (.refl [] _) rfl
  have marked := setLine_only l
    (((enterIdle b (endTestEarly b .claimDenied (heardAnswer l (s.bus b).claim s))).line l).deny reason)
    (enterIdle b (endTestEarly b .claimDenied (heardAnswer l (s.bus b).claim s)))
  have ends := finish_only s (takeDeny l (s.bus b).claim reason (heardAnswer l (s.bus b).claim s))
  rw [takeDeny_of_claiming ok claiming line] at ends
  have after := marked.comp ends (hs := [.lines, .writerQueue, .readHold]) rfl
  refine ⟨_, (exec_deny_some l _ reason s).trans (by rw [takeDeny_of_claiming ok claiming line]), ?_, ?_,
    given.buses.framed heard after, ?_, given.programs.framed heard after, ?_, fun x other => ?_,
    (heardAnswer_heard l _ s).framed (given.only.comp after
      (hs := [.news, .writerQueue, .readHold, .buses, .programs, .lines, .cancelSinceLook]) rfl),
    given.looked.framed heard after,
    (heard.comp given.only (hs := [.news, .writerQueue, .buses, .programs, .lines, .cancelSinceLook, .begun]) rfl).comp after rfl⟩
  · rw [finish_news, marked.get .news rfl, given.news, outcomeOn_framed heard, finalEntries_framed heard, heard.get .news rfl]
  · rw [after.bus rfl, given.bus]
  · rw [after.program rfl, given.program]
  · rw [ends.line rfl, State.setLine_view_line_self, given.line, heard.line rfl]
  · rw [ends.line rfl, setLine_otherLines l _ _ x other, given.lines x other, heard.line rfl]

/-- Settles O12: what a GRANT and a DENY do to a bus in CLAIMING, and the reasons of a DENY one by one. -/
theorem claimAnswered : Obligations.ClaimAnswered := by
  refine ⟨fun s b l ok claiming line => ⟨grant_seizes ok claiming line, ?declines⟩,
    fun s b l e reason ok claiming line test => ?denied⟩
  case declines =>
    rintro e o aborting test rfl
    exact grant_declines ok claiming line aborting test
  case denied =>
    obtain ⟨t, answered, news, bus, buses, program, programs, denied, lines, heard, looked, only⟩ :=
      deny_ends reason ok claiming line test
    refine ⟨t, answered, news, bus, buses, program, programs, ?_, ?_, ?_, ?_, lines, heard, looked, only⟩
    · rintro rfl
      exact denied.trans (LineRecord.deny_busy _)
    · rintro rfl offHook
      exact denied.trans (LineRecord.deny_unequipped_of_offHook offHook)
    · rintro rfl onHook
      exact denied.trans (LineRecord.deny_unequipped_of_not_offHook onHook)
    · rintro rfl
      exact denied.trans (LineRecord.deny_blocked _)

/-! ## The claim timer (R28) -/

/-- Settles O13: the test ends and the bus enters IDLE, then LINK is raised and the event handed on. -/
theorem claimTimerExpires : Obligations.ClaimTimerExpires := by
  intro s b l e a n inForce claiming line test timer
  have given := endTestEarly_enterIdle_givenUp test (outcomeOn_verdict (o := .claimTimeout) (.inr rfl)) line (.refl [] _) rfl
  have context : busContext s b (s.limit Anchor.claimLimit) =
      { bus := some b, head := none, step := none, busState := some .claiming, headState := none, line := some l,
        claim := (s.bus b).claim, elapsed := a.claimLimit } := by simp [busContext, claiming, line, State.limit, inForce]
  obtain ⟨handed, raised, others, outbox⟩ := raise_event_view (kind := .linkTimeout) rfl (g := .link) (by decide)
    (busContext s b (s.limit Anchor.claimLimit)) given.only rfl
  have ends := finish_only s (claimTimeout b s)
  have after := outbox.comp ends (hs := outboxFields ++ [.writerQueue, .readHold]) rfl
  have start : OnlyChanges [] s s := .refl [] s
  refine ⟨_, exec_claimTimerExpiry claiming timer, ?_, ?_, given.buses.framed start after, ?_, given.programs.framed start after, ?_,
    given.lines.framed start after, context ▸ handed.framed start ends, raised.framed start ends, others.framed start ends,
    given.looked.framed start after, given.only.comp after rfl⟩
  · exact (after.get .news rfl).trans given.news
  · rw [after.bus rfl, given.bus]
  · rw [after.program rfl, given.program]
  · rw [after.line rfl, given.line]

end Sys2Proof.Machine
end

section
/-!
PROOFS. A matched RECALL, state by state of its bus (Table 2-3), and the end of the resync (R16).
-/

namespace Sys2Proof.Machine

/-! ## What a matched RECALL does (R40) -/

section
variable {s : State} {b : BusNo} {l : LineNo}

/-- The four states in which a RECALL asks for the claim back. -/
def Bus.recalled (r : Bus) : Prop := r.state = .seizing ∨ r.state = .waitHead ∨ r.state = .measuring ∨ r.state = .held

theorem recallBus_of_deaf (c : ClaimNo) (deaf : (s.bus b).state = .claiming ∨ (s.bus b).state = .releasing) :
    recallBus b l c s = s := by
  rcases deaf with state | state
  · simp only [recallBus, state]
  · simp only [recallBus, state]

theorem recallBus_of_faulted (c : ClaimNo) (faulted : (s.bus b).state = .faulted) :
    recallBus b l c s = s.sendExchange (.keep l c) := by simp only [recallBus, faulted]

theorem recallBus_of_recalled (c : ClaimNo) (state : (s.bus b).recalled) :
    recallBus b l c s =
      if (s.bus b).abort.isSome then s else if (s.bus b).forced then s.sendExchange (.keep l c) else yieldBus b l s := by
  rcases state with h | h | h | h
  all_goals simp only [recallBus, h]

theorem exec_recall_of_matched (ok : BusLineOk s) (line : (s.bus b).line = some l) :
    exec (.recall l (s.bus b).claim) s =
      .next (finish s (recallBus b l (s.bus b).claim (heardAnswer l (s.bus b).claim s))) := by
  rw [exec_recall, takeRecall, heardAnswer_matches ok line]

end

/-- A RECALL that the part does not act on beyond what it shows. -/
theorem recall_discarded {s : State} {b : BusNo} {l : LineNo} (ok : BusLineOk s) (line : (s.bus b).line = some l)
    (same : recallBus b l (s.bus b).claim (heardAnswer l (s.bus b).claim s) = heardAnswer l (s.bus b).claim s) :
    ∃ t, exec (.recall l (s.bus b).claim) s = .next t ∧ AnswerHeard l (s.bus b).claim s t ∧ OnlyChanges [.readHold, .begun] s t :=
  ⟨_, (exec_recall_of_matched ok line).trans (by rw [same]; rfl), afterDiscard_heard l _ s, afterDiscard_only l _ s⟩

/-- A RECALL answered with KEEP. -/
theorem recall_kept {s : State} {b : BusNo} {l : LineNo} (ok : BusLineOk s) (line : (s.bus b).line = some l)
    (kept : recallBus b l (s.bus b).claim (heardAnswer l (s.bus b).claim s) =
      (heardAnswer l (s.bus b).claim s).sendExchange (.keep l (s.bus b).claim)) :
    ∃ t, exec (.recall l (s.bus b).claim) s = .next t ∧ t.exchangeOut = s.exchangeOut ++ [.keep l (s.bus b).claim] ∧
      AnswerHeard l (s.bus b).claim s t ∧ OnlyChanges [.exchangeOut, .readHold, .begun] s t := by
  have heard := heardAnswer_only l (s.bus b).claim s
  have sent := sendExchange_only (.keep l (s.bus b).claim) (heardAnswer l (s.bus b).claim s)
  have image : ((heardAnswer l (s.bus b).claim s).sendExchange (.keep l (s.bus b).claim)).statusImage = s.statusImage := by simp
  have ends := finish_only_of_image image
  exact ⟨_, (exec_recall_of_matched ok line).trans (by rw [kept]), (ends.get .exchangeOut rfl).trans rfl,
    (heardAnswer_heard l _ s).framed (sent.comp ends (hs := [.exchangeOut, .readHold]) rfl),
    (heard.comp sent (hs := [.exchangeOut, .begun]) rfl).comp ends rfl⟩

/-! ## The claim given back (R41, R42, R43) -/

theorem setAbort_view_bus_self (b : BusNo) (r : AbortReason) (s : State) :
    (setAbort b r s).bus b = { s.bus b with abort := some r } := State.setBus_view_bus_self s b _

theorem setAbort_otherBuses (b : BusNo) (r : AbortReason) (s : State) : OtherBuses b s (setAbort b r s) := setBus_otherBuses b _ s

theorem setYield_view_line_self (l : LineNo) (s : State) : (setYield l s).line l = { s.line l with yieldMark := true } :=
  State.setLine_view_line_self s l _

theorem setYield_otherLines (l : LineNo) (s : State) : OtherLines l s (setYield l s) := setLine_otherLines l _ s

theorem setYield_only (l : LineNo) (s : State) : OnlyChanges [.lines] s (setYield l s) := setLine_only l _ s

/-- A bus takes abort pending RECALL and its line the yield mark. -/
theorem yield_abort_view (b : BusNo) (l : LineNo) (s : State) :
    (setYield l (setAbort b .recall s)).bus b = { s.bus b with abort := some .recall } ∧
      OtherBuses b s (setYield l (setAbort b .recall s)) ∧
      (setYield l (setAbort b .recall s)).line l = { s.line l with yieldMark := true } ∧
      OtherLines l s (setYield l (setAbort b .recall s)) ∧
      OnlyChanges [.buses, .lines] s (setYield l (setAbort b .recall s)) := by
  have aborted := setAbort_only b .recall s
  have marked := setYield_only l (setAbort b .recall s)
  refine ⟨?_, (setAbort_otherBuses b .recall s).framed (.refl [] s) marked, ?_,
    (setYield_otherLines l _).framed aborted (.refl [] _), aborted.comp marked rfl⟩
  · rw [marked.bus rfl, setAbort_view_bus_self]
  · rw [setYield_view_line_self, aborted.line rfl]

section
variable {s : State} {b : BusNo} {l : LineNo}

theorem yieldBus_of_seizing (state : (s.bus b).state = .seizing) : yieldBus b l s = setYield l (setAbort b .recall s) := by
  simp only [yieldBus, state]

theorem yieldBus_of_waitHead (state : (s.bus b).state = .waitHead) : yieldBus b l s = endWaiting b .recalled (setYield l s) := by
  simp only [yieldBus, state]

theorem yieldBus_of_measuring (state : (s.bus b).state = .measuring) :
    yieldBus b l s = abortStep b (setYield l (setAbort b .recall s)) := by simp only [yieldBus, state]

theorem yieldBus_of_held (state : (s.bus b).state = .held) : yieldBus b l s = (startRelease b s).raiseFlag .holdEnd := by
  simp only [yieldBus, state]

end

/-- A waiting bus's test has ended with an outcome and the bus releases (R42, R44, R45). -/
structure WaitEnded (b : BusNo) (o : TestOutcome) (e : TestEntry) (s t : State) : Prop where
  news : t.newsEntries = s.newsEntries ++ s.finalEntries b o none StepRecords.notRun
  bus : t.bus b = (s.bus b).sentOpen
  buses : OtherBuses b s t
  program : t.program b = none
  programs : OtherPrograms b s t
  waitQueue : t.waitQueue = s.waitQueue.filter fun x => x != b
  matrixOut : t.matrixOut = s.matrixOut ++ [.opening b]
  looked : Looked (e.cls = .sweep) s t
  only : OnlyChanges [.news, .writerQueue, .buses, .programs, .waitQueue, .matrixOut, .cancelSinceLook] s t

theorem endWaiting_ended {s : State} {b : BusNo} {o : TestOutcome} {e : TestEntry} (test : (s.bus b).test = some e)
    (verdict : (s.outcomeOn b o).verdict = none) : WaitEnded b (s.outcomeOn b o) e s (endWaiting b o s) := by
  have left := leaveWait_only b s
  have testThere : ((leaveWait b s).bus b).test = some e := by rw [left.bus rfl]; exact test
  obtain ⟨bus, buses, program, programs, sent, news, looked, only⟩ :=
    endTest_startRelease_view none StepRecords.notRun testThere (o := o) (by rwa [outcomeOn_framed left])
  have still : OnlyChanges [] (startRelease b (endTest b o none StepRecords.notRun (leaveWait b s))) (endWaiting b o s) := .refl _ _
  exact
    { news := by
        rw [endWaiting, endTestEarly, news, outcomeOn_framed left, finalEntries_framed left, left.get .news rfl]
      bus := by rw [endWaiting, endTestEarly, bus, left.bus rfl]
      buses := buses.framed left still
      program := program
      programs := programs.framed left still
      waitQueue := only.get .waitQueue rfl
      matrixOut := sent.trans (congrArg (· ++ _) (left.get .matrixOut rfl))
      looked := looked.framed left still
      only := left.comp only rfl }

section
variable {s : State} {b : BusNo} {l : LineNo} (ok : BusLineOk s) (line : (s.bus b).line = some l)
  (quiet : (s.bus b).abort = none) (free : (s.bus b).forced = false)
include ok line quiet free

/-- An unforced RECALL of a bus without an abort pending. -/
theorem exec_recall_yields (state : (s.bus b).recalled) :
    exec (.recall l (s.bus b).claim) s = .next (finish s (yieldBus b l (heardAnswer l (s.bus b).claim s))) := by
  have bus := (heardAnswer_only l (s.bus b).claim s).bus rfl b
  rw [exec_recall_of_matched ok line, recallBus_of_recalled _ (by rwa [bus])]
  simp only [bus, quiet, free, Option.isSome_none, Bool.false_eq_true, ↓reduceIte]

theorem recall_seizing (state : (s.bus b).state = .seizing) :
    ∃ t, exec (.recall l (s.bus b).claim) s = .next t ∧ t.bus b = { s.bus b with abort := some .recall } ∧ OtherBuses b s t ∧
      t.line l = { s.line l with yieldMark := true } ∧ OtherLines l s t ∧
      AnswerHeard l (s.bus b).claim s t ∧ OnlyChanges [.buses, .lines, .writerQueue, .readHold, .begun] s t := by
  have heard := heardAnswer_only l (s.bus b).claim s
  obtain ⟨bus, buses, marked, lines, only⟩ := yield_abort_view b l (heardAnswer l (s.bus b).claim s)
  have ends := finish_only s (setYield l (setAbort b .recall (heardAnswer l (s.bus b).claim s)))
  refine ⟨_, (exec_recall_yields ok line quiet free (.inl state)).trans
      (by rw [yieldBus_of_seizing (by rw [heard.bus rfl]; exact state)]), ?_, buses.framed heard ends, ?_, lines.framed heard ends,
    (heardAnswer_heard l _ s).framed (only.comp ends (hs := [.buses, .lines, .writerQueue, .readHold]) rfl),
    (heard.comp only (hs := [.buses, .lines, .begun]) rfl).comp ends rfl⟩
  · rw [ends.bus rfl, bus, heard.bus rfl]
  · rw [ends.line rfl, marked, heard.line rfl]

theorem recall_waiting {e : TestEntry} (state : (s.bus b).state = .waitHead) (test : (s.bus b).test = some e) :
    ∃ t, exec (.recall l (s.bus b).claim) s = .next t ∧
      t.newsEntries = s.newsEntries ++ s.finalEntries b .recalled none StepRecords.notRun ∧
      t.bus b = (s.bus b).sentOpen ∧ OtherBuses b s t ∧ t.program b = none ∧ OtherPrograms b s t ∧
      t.waitQueue = s.waitQueue.filter (fun x => x != b) ∧ t.matrixOut = s.matrixOut ++ [.opening b] ∧
      t.line l = { s.line l with yieldMark := true } ∧ OtherLines l s t ∧
      AnswerHeard l (s.bus b).claim s t ∧ Looked (e.cls = .sweep) s t ∧
      OnlyChanges [.news, .writerQueue, .readHold, .buses, .programs, .lines, .waitQueue, .matrixOut, .cancelSinceLook, .begun] s t := by
  have heard := heardAnswer_only l (s.bus b).claim s
  have marked := setYield_only l (heardAnswer l (s.bus b).claim s)
  have before := heard.comp marked (hs := [.begun, .lines]) rfl
  have outcome : (setYield l (heardAnswer l (s.bus b).claim s)).outcomeOn b .recalled = .recalled := by
    rw [outcomeOn_framed before, State.outcomeOn, quiet]
  have ended := endWaiting_ended (o := .recalled) (by rw [before.bus rfl]; exact test) (by rw [outcome]; rfl)
  rw [outcome] at ended
  have ends := finish_only s (endWaiting b .recalled (setYield l (heardAnswer l (s.bus b).claim s)))
  have after := ended.only.comp ends
    (hs := [.news, .writerQueue, .buses, .programs, .waitQueue, .matrixOut, .cancelSinceLook, .readHold]) rfl
  refine ⟨_, (exec_recall_yields ok line quiet free (.inr (.inl state))).trans
      (by rw [yieldBus_of_waitHead (by rw [heard.bus rfl]; exact state)]), ?_, ?_, ended.buses.framed before ends, ?_,
    ended.programs.framed before ends, ?_, ?_, ?_, (setYield_otherLines l _).framed heard after,
    (heardAnswer_heard l _ s).framed (marked.comp after (hs := [.news, .writerQueue, .buses, .programs, .waitQueue, .matrixOut,
      .cancelSinceLook, .readHold, .lines]) rfl), ended.looked.framed before ends, before.comp after rfl⟩
  · rw [finish_news, ended.news, finalEntries_framed before, before.get .news rfl]
  · rw [ends.bus rfl, ended.bus, before.bus rfl]
  · rw [ends.program rfl, ended.program]
  · exact (ends.get .waitQueue rfl).trans (ended.waitQueue.trans (congrArg _ (before.get .waitQueue rfl)))
  · exact (ends.get .matrixOut rfl).trans (ended.matrixOut.trans (congrArg (· ++ _) (before.get .matrixOut rfl)))
  · rw [after.line rfl, setYield_view_line_self, heard.line rfl]

theorem recall_measuring {h : HeadNo} (state : (s.bus b).state = .measuring) (heads : HeadsOk s) (bus : (s.head h).bus = some b)
    (attached : (s.head h).state = .attached) :
    ∃ t, exec (.recall l (s.bus b).claim) s = .next t ∧ t.bus b = { s.bus b with abort := some .recall } ∧ OtherBuses b s t ∧
      t.line l = { s.line l with yieldMark := true } ∧ OtherLines l s t ∧ t.headOut = s.headOut ++ [.abort h] ∧
      t.head h = { s.head h with state := .aborting, timer := some (.abort, 100), startedAt := 0 } ∧ OtherHeads h s t ∧
      AnswerHeard l (s.bus b).claim s t ∧ OnlyChanges [.buses, .lines, .heads, .headOut, .writerQueue, .readHold, .begun] s t := by
  have heard := heardAnswer_only l (s.bus b).claim s
  obtain ⟨pending, buses, marked, lines, only⟩ := yield_abort_view b l (heardAnswer l (s.bus b).claim s)
  have before := heard.comp only (hs := [.begun, .buses, .lines]) rfl
  have headThere : (setYield l (setAbort b .recall (heardAnswer l (s.bus b).claim s))).headOfBus b = some h :=
    headOfBus_some (by rw [before.head rfl]; exact bus) (by rw [before.head rfl, before.head rfl]; exact heads.2.2.2 b)
  obtain ⟨head, others, sent⟩ := abortStep_view headThere (by rw [before.head rfl]; exact attached)
  have aborted := abortStep_only b (setYield l (setAbort b .recall (heardAnswer l (s.bus b).claim s)))
  have ends := finish_only s (abortStep b (setYield l (setAbort b .recall (heardAnswer l (s.bus b).claim s))))
  have after := aborted.comp ends (hs := [.heads, .headOut, .writerQueue, .readHold]) rfl
  refine ⟨_, (exec_recall_yields ok line quiet free (.inr (.inr (.inl state)))).trans
      (by rw [yieldBus_of_measuring (by rw [heard.bus rfl]; exact state)]), ?_, buses.framed heard after, ?_,
    lines.framed heard after, ?_, ?_, others.framed before ends,
    (heardAnswer_heard l _ s).framed (only.comp after (hs := [.buses, .lines, .heads, .headOut, .writerQueue, .readHold]) rfl),
    before.comp after rfl⟩
  · rw [after.bus rfl, pending, heard.bus rfl]
  · rw [after.line rfl, marked, heard.line rfl]
  · exact (ends.get .headOut rfl).trans (sent.trans (congrArg (· ++ _) (before.get .headOut rfl)))
  · rw [ends.head rfl, head, before.head rfl]

theorem recall_held (state : (s.bus b).state = .held) :
    ∃ t, exec (.recall l (s.bus b).claim) s = .next t ∧
      t.bus b = { s.bus b with state := .releasing, command := some .opening, timer := some (.opening, 50), cause := none } ∧
      OtherBuses b s t ∧ t.matrixOut = s.matrixOut ++ [.opening b] ∧ FlagRaised .holdEnd s t ∧ OtherFlags [.holdEnd] s t ∧
      AnswerHeard l (s.bus b).claim s t ∧ OnlyChanges [.buses, .matrixOut, .flags, .writerQueue, .readHold, .begun] s t := by
  have heard := heardAnswer_only l (s.bus b).claim s
  obtain ⟨bus, buses, sent⟩ := startRelease_view b (heardAnswer l (s.bus b).claim s)
  have released := startRelease_only b (heardAnswer l (s.bus b).claim s)
  have raised := raiseFlag_only .holdEnd (startRelease b (heardAnswer l (s.bus b).claim s))
  have ends := finish_only s ((startRelease b (heardAnswer l (s.bus b).claim s)).raiseFlag .holdEnd)
  have before := heard.comp released (hs := [.begun, .buses, .matrixOut]) rfl
  have after := raised.comp ends (hs := [.flags, .writerQueue, .readHold]) rfl
  refine ⟨_, (exec_recall_yields ok line quiet free (.inr (.inr (.inr state)))).trans
      (by rw [yieldBus_of_held (by rw [heard.bus rfl]; exact state)]), ?_, buses.framed heard after, ?_,
    (flagRaised_raiseFlag .holdEnd _).framed before ends, (otherFlags_raiseFlag .holdEnd _).framed before ends,
    (heardAnswer_heard l _ s).framed (released.comp after (hs := [.buses, .matrixOut, .flags, .writerQueue, .readHold]) rfl),
    before.comp after rfl⟩
  · rw [after.bus rfl, bus, heard.bus rfl]
  · exact (after.get .matrixOut rfl).trans (sent.trans (congrArg (· ++ _) (heard.get .matrixOut rfl)))

end

/-- Settles O14: Table 2-3, row by row. -/
theorem recallTaken : Obligations.RecallTaken := by
  intro s b l ok line
  have bus := (heardAnswer_only l (s.bus b).claim s).bus rfl b
  refine ⟨?discarded, ?kept, fun quiet free state => recall_seizing ok line quiet free state,
    fun e quiet free state test => recall_waiting ok line quiet free state test,
    fun h quiet free state heads joined attached => recall_measuring ok line quiet free state heads joined attached,
    fun quiet free state => recall_held ok line quiet free state⟩
  case discarded =>
    intro deaf
    refine recall_discarded ok line ?_
    rcases deaf with claiming | releasing | ⟨aborting, state⟩
    · exact recallBus_of_deaf _ (.inl (by rw [bus]; exact claiming))
    · exact recallBus_of_deaf _ (.inr (by rw [bus]; exact releasing))
    · rw [recallBus_of_recalled _ (by rwa [bus]), bus, if_pos (Option.isSome_iff_ne_none.mpr aborting)]
  case kept =>
    intro keeps
    refine recall_kept ok line ?_
    rcases keeps with faulted | ⟨quiet, forced, state⟩
    · exact recallBus_of_faulted _ (by rw [bus]; exact faulted)
    · rw [recallBus_of_recalled _ (by rwa [bus]), bus, quiet, forced]
      rfl

/-! ## RESYNC_END (R16) -/

theorem endResync_only (s : State) : OnlyChanges [.lines, .resyncPending, .cancelSinceLook, .flags] s (endResync s) :=
  (((mapLines_only LineRecord.resynced s).comp (setResyncPending_only _ false) (hs := [.lines, .resyncPending]) rfl).comp
    (look_only true _) (hs := [.lines, .resyncPending, .cancelSinceLook]) rfl).comp (raiseFlag_only .link _) rfl

theorem endResync_view_line (s : State) (l : LineNo) : (endResync s).line l = (s.line l).resynced := by
  rw [endResync, raiseFlag_view_line, State.look_view_line]
  exact State.mapLines_view_line s _ l

/-- Settles O15: the resync ends in `endResync`, after what the message shows and before the end of the event. -/
theorem resyncEnds : Obligations.ResyncEnds := by
  intro s pending
  have heard := heardResyncEnd_only s
  have ended := endResync_only (heardResyncEnd s)
  have ends := finish_only s (endResync (heardResyncEnd s))
  have raising : OnlyChanges [.lines, .resyncPending, .cancelSinceLook] (heardResyncEnd s)
      ((State.look true { (heardResyncEnd s).mapLines LineRecord.resynced with resyncPending := false })) :=
    ((mapLines_only LineRecord.resynced _).comp (setResyncPending_only _ false) (hs := [.lines, .resyncPending]) rfl).comp
      (look_only true _) rfl
  have before := heard.comp raising (hs := [.begun, .lines, .resyncPending, .cancelSinceLook]) rfl
  have line (l : LineNo) : (finish s (endResync (heardResyncEnd s))).line l = (s.line l).resynced := by
    rw [ends.line rfl, endResync_view_line, heard.line rfl]
  refine ⟨finish s (endResync (heardResyncEnd s)), by simp [exec, execResyncEnd, pending], ?_, fun l unknown => ?_,
    fun l known => ?_, (flagRaised_raiseFlag .link _).framed before ends, (otherFlags_raiseFlag .link _).framed before ends,
    (heardResyncEnd_heard s).framed (ended.comp ends
      (hs := [.lines, .resyncPending, .cancelSinceLook, .flags, .writerQueue, .readHold]) rfl), ?_,
    (heard.comp ended (hs := [.lines, .resyncPending, .cancelSinceLook, .flags, .begun]) rfl).comp ends rfl⟩
  · rw [finish_resyncPending, endResync, raiseFlag_resyncPending, State.look_resyncPending]
  · rw [line, LineRecord.resynced, if_pos unknown]
  · rw [line, LineRecord.resynced, if_neg known]
  · exact ⟨fun _ => by simp [endResync], fun none => absurd trivial none⟩

end Sys2Proof.Machine
end

section
/-!
PROOFS. The matrix link and the bus timers (R32–R36, R48, R57): seizures and releases that succeed, and those that fail.
-/

namespace Sys2Proof.Machine

/-! ## SETTLED (R32, R57) -/

section
variable {s : State} {b : BusNo}

theorem settleBus_of_no_abort (quiet : (s.bus b).abort = none) :
    settleBus b s = joinWait b (s.setBus b { s.bus b with state := .waitHead, command := none, timer := none }) := by
  simp only [settleBus, quiet]

theorem settleBus_of_abort {r : AbortReason} (pending : (s.bus b).abort = some r) :
    settleBus b s = startRelease b (endTestEarly b r.outcome s) := by simp only [settleBus, pending]

theorem busIsDesk_of_test {e : TestEntry} (test : (s.bus b).test = some e) : s.busIsDesk b = (e.cls == .desk) := by
  simp only [State.busIsDesk, test]

/-- The classes of the buses are those of their tests. -/
theorem busIsDesk_congr {u : State} (tests : ∀ x, (u.bus x).test = (s.bus x).test) : u.busIsDesk = s.busIsDesk := by
  funext x
  unfold State.busIsDesk
  rw [tests]

theorem busIsDesk_setBus {r : Bus} (test : r.test = (s.bus b).test) : (s.setBus b r).busIsDesk = s.busIsDesk := by
  refine busIsDesk_congr fun x => ?_
  rw [State.setBus_view_bus]
  split
  · next same => rw [test, same]
  · rfl

theorem busIsDesk_of_only {fs : List Field} {u : State} (only : OnlyChanges fs s u)
    (hf : decide (Field.buses ∈ fs) = false := by rfl) : u.busIsDesk = s.busIsDesk := busIsDesk_congr fun x => by rw [only.bus hf]

end

theorem joinedQueue_of_desk {isDesk : BusNo → Bool} {b : BusNo} (desk : isDesk b = true) (q : List BusNo) :
    joinedQueue isDesk b q = q.filter isDesk ++ b :: q.filter (fun x => !isDesk x) := if_pos desk

theorem joinedQueue_of_sweep {isDesk : BusNo → Bool} {b : BusNo} (sweep : isDesk b = false) (q : List BusNo) :
    joinedQueue isDesk b q = q ++ [b] := if_neg (by simp [sweep])

theorem settled_joins {s : State} {b : BusNo} {e : TestEntry} (seizing : (s.bus b).state = .seizing)
    (closing : (s.bus b).command = some .close) (test : (s.bus b).test = some e) (quiet : (s.bus b).abort = none) :
    ∃ t, exec (.settled b.val) s = .next t ∧
      t.bus b = { s.bus b with state := .waitHead, command := none, timer := none } ∧ OtherBuses b s t ∧
      (e.cls = .desk →
        t.waitQueue = s.waitQueue.filter s.busIsDesk ++ b :: s.waitQueue.filter (fun x => !s.busIsDesk x)) ∧
      (e.cls = .sweep → t.waitQueue = s.waitQueue ++ [b]) ∧
      SettledHeard b s t ∧ OnlyChanges [.buses, .waitQueue, .writerQueue, .readHold, .begun] s t := by
  have heard := heardSettled_only b s
  have bus := heard.bus rfl b
  have waiting := setBus_only b { s.bus b with state := .waitHead, command := none, timer := none } (heardSettled b s)
  have joined := joinWait_only b
    ((heardSettled b s).setBus b { s.bus b with state := .waitHead, command := none, timer := none })
  have settled : settleBus b (heardSettled b s) =
      joinWait b ((heardSettled b s).setBus b { s.bus b with state := .waitHead, command := none, timer := none }) := by
    rw [settleBus_of_no_abort (by rw [bus]; exact quiet), bus]
  have ends := finish_only s (settleBus b (heardSettled b s))
  rw [settled] at ends
  have effect := waiting.comp joined (hs := [.buses, .waitQueue]) rfl
  have queue : (finish s (joinWait b
      ((heardSettled b s).setBus b { s.bus b with state := .waitHead, command := none, timer := none }))).waitQueue =
        joinedQueue s.busIsDesk b s.waitQueue := by
    rw [finish_waitQueue, joinWait, busIsDesk_setBus (by rw [bus]), busIsDesk_of_only heard, State.setBus_waitQueue,
      heard.get .waitQueue rfl]
  refine ⟨_, (exec_settled b s).trans ((if_pos ⟨seizing, closing⟩).trans (by rw [settled])), ?_, ?_, fun desk => ?_, fun sweep => ?_,
    (heardSettled_heard b s).framed (effect.comp ends (hs := [.buses, .waitQueue, .writerQueue, .readHold]) rfl),
    (heard.comp effect (hs := [.buses, .waitQueue, .begun]) rfl).comp ends rfl⟩
  · rw [ends.bus rfl, joined.bus rfl, State.setBus_view_bus_self]
  · exact (setBus_otherBuses b _ _).framed heard (joined.comp ends (hs := [.waitQueue, .writerQueue, .readHold]) rfl)
  · rw [queue, joinedQueue_of_desk (by rw [busIsDesk_of_test test, desk]; rfl)]
  · rw [queue, joinedQueue_of_sweep (by rw [busIsDesk_of_test test, sweep]; rfl)]

/-! ## A test ends and its bus sends OPEN -/

/-- A bus has ended its test with an outcome, its head and its step records, and has sent OPEN. -/
structure Released (b : BusNo) (o : TestOutcome) (h : Option HeadNo) (rs : StepRecords) (e : TestEntry) (s t : State) : Prop where
  news : t.newsEntries = s.newsEntries ++ s.finalEntries b o h rs
  bus : t.bus b = (s.bus b).sentOpen
  buses : OtherBuses b s t
  program : t.program b = none
  programs : OtherPrograms b s t
  matrixOut : t.matrixOut = s.matrixOut ++ [.opening b]
  looked : Looked (e.cls = .sweep) s t
  only : OnlyChanges [.news, .writerQueue, .buses, .programs, .matrixOut, .cancelSinceLook] s t

theorem endTest_startRelease_released {s : State} {b : BusNo} {o : TestOutcome} {e : TestEntry} (h : Option HeadNo) (rs : StepRecords)
    (test : (s.bus b).test = some e) (verdict : (s.outcomeOn b o).verdict = none) :
    Released b (s.outcomeOn b o) h rs e s (startRelease b (endTest b o h rs s)) := by
  obtain ⟨bus, buses, program, programs, sent, news, looked, only⟩ := endTest_startRelease_view h rs test verdict
  exact ⟨news, bus, buses, program, programs, sent, looked, only.weaken (by simp)⟩

theorem endTestEarly_startRelease_released {s : State} {b : BusNo} {o : TestOutcome} {e : TestEntry}
    (test : (s.bus b).test = some e) (verdict : (s.outcomeOn b o).verdict = none) :
    Released b (s.outcomeOn b o) none StepRecords.notRun e s (startRelease b (endTestEarly b o s)) :=
  endTest_startRelease_released none StepRecords.notRun test verdict

/-- The same inside a frame: what the command did before, and what it does after. -/
theorem Released.framed {b : BusNo} {o : TestOutcome} {hd : Option HeadNo} {rs : StepRecords} {e : TestEntry} {fs gs : List Field}
    {s u v t : State} (h : Released b o hd rs e u v) (before : OnlyChanges fs s u) (after : OnlyChanges gs v t)
    (hf : [Field.news, .buses, .programs, .matrixOut, .cancelSinceLook, .epoch].all (fun f => decide (f ∉ fs)) = true := by rfl)
    (hg : [Field.news, .buses, .programs, .matrixOut, .cancelSinceLook].all (fun f => decide (f ∉ gs)) = true := by rfl) :
    t.newsEntries = s.newsEntries ++ s.finalEntries b o hd rs ∧ t.bus b = (s.bus b).sentOpen ∧
      OtherBuses b s t ∧ t.program b = none ∧ OtherPrograms b s t ∧ t.matrixOut = s.matrixOut ++ [.opening b] ∧
      Looked (e.cls = .sweep) s t := by
  have outside {f : Field} (mem : f ∈ [Field.news, .buses, .programs, .matrixOut, .cancelSinceLook, .epoch]) :
      decide (f ∈ fs) = false := by simpa using of_decide_eq_true (List.all_eq_true.mp hf f mem)
  have later {f : Field} (mem : f ∈ [Field.news, .buses, .programs, .matrixOut, .cancelSinceLook]) : decide (f ∈ gs) = false := by
    simpa using of_decide_eq_true (List.all_eq_true.mp hg f mem)
  refine ⟨?_, ?_, h.buses.framed before after (outside (by simp)) (later (by simp)), ?_,
    h.programs.framed before after (outside (by simp)) (later (by simp)), ?_,
    h.looked.framed before after (outside (by simp)) (later (by simp))⟩
  · rw [after.get .news (later (by simp)), h.news,
      finalEntries_framed before b o hd rs (outside (by simp)) (outside (by simp)), before.get .news (outside (by simp))]
  · rw [after.bus (later (by simp)), h.bus, before.bus (outside (by simp))]
  · rw [after.program (later (by simp)), h.program]
  · exact (after.get .matrixOut (later (by simp))).trans
      (h.matrixOut.trans (congrArg (· ++ _) (before.get .matrixOut (outside (by simp)))))

theorem settled_releases {s : State} {b : BusNo} {e : TestEntry} (seizing : (s.bus b).state = .seizing)
    (closing : (s.bus b).command = some .close) (test : (s.bus b).test = some e) (aborting : (s.bus b).abort ≠ none) :
    ∃ t, exec (.settled b.val) s = .next t ∧
      t.newsEntries = s.newsEntries ++ s.finalEntries b (s.outcomeOn b .noHead) none StepRecords.notRun ∧
      t.bus b = (s.bus b).sentOpen ∧ OtherBuses b s t ∧ t.program b = none ∧ OtherPrograms b s t ∧
      t.matrixOut = s.matrixOut ++ [.opening b] ∧ SettledHeard b s t ∧ Looked (e.cls = .sweep) s t ∧
      OnlyChanges [.news, .writerQueue, .readHold, .buses, .programs, .matrixOut, .cancelSinceLook, .begun] s t := by
  obtain ⟨r, pending⟩ := Option.ne_none_iff_exists'.mp aborting
  have heard := heardSettled_only b s
  have bus := heard.bus rfl b
  have outcome (o : TestOutcome) : (heardSettled b s).outcomeOn b o = s.outcomeOn b .noHead := by
    rw [outcomeOn_framed heard, outcomeOn_of_abort pending, outcomeOn_of_abort pending]
  have released := endTestEarly_startRelease_released (s := heardSettled b s) (o := r.outcome) (by rw [bus]; exact test)
    (outcomeOn_verdict (.inl (by rw [bus]; exact aborting)))
  rw [outcome] at released
  have settled := settleBus_of_abort (s := heardSettled b s) (by rw [bus]; exact pending)
  have ends := finish_only s (settleBus b (heardSettled b s))
  rw [settled] at ends
  obtain ⟨news, sentOpen, buses, program, programs, sent, looked⟩ := released.framed heard ends
  exact ⟨_, (exec_settled b s).trans ((if_pos ⟨seizing, closing⟩).trans (by rw [settled])), news, sentOpen, buses, program, programs,
    sent, (heardSettled_heard b s).framed (released.only.comp ends
      (hs := [.news, .writerQueue, .buses, .programs, .matrixOut, .cancelSinceLook, .readHold]) rfl), looked,
    (heard.comp released.only (hs := [.news, .writerQueue, .buses, .programs, .matrixOut, .cancelSinceLook, .begun])
      rfl).comp ends rfl⟩

/-! ## OPENED (R34) -/

section
variable {s : State} {b : BusNo} (releasing : (s.bus b).state = .releasing) (opening : (s.bus b).command = some .opening)
include releasing opening

theorem opened_gives_back {l : LineNo} (line : (s.bus b).line = some l) :
    ∃ t, exec (.opened b.val) s = .next t ∧ t.bus b = Bus.idle ∧ OtherBuses b s t ∧
      t.exchangeOut = s.exchangeOut ++ [.release l (s.bus b).claim] ∧
      t.line l = { s.line l with occupying := none } ∧ OtherLines l s t ∧
      OpenedHeard b s t ∧ Looked True s t ∧
      OnlyChanges [.buses, .lines, .exchangeOut, .cancelSinceLook, .writerQueue, .readHold, .begun] s t := by
  have heard := heardOpened_only b s
  have bus := heard.bus rfl b
  have sent := sendExchange_only (.release l (s.bus b).claim) (heardOpened b s)
  have before := heard.comp sent (hs := [.begun, .exchangeOut]) rfl
  have lineThere : (((heardOpened b s).sendExchange (.release l (s.bus b).claim)).bus b).line = some l := by
    rw [before.bus rfl]; exact line
  have released : releaseBus b (heardOpened b s) = enterIdle b ((heardOpened b s).sendExchange (.release l (s.bus b).claim)) := by
    simp only [releaseBus, bus, line]
  obtain ⟨idle, buses, unoccupied, lines, looked⟩ := enterIdle_view lineThere
  have entered := enterIdle_only b ((heardOpened b s).sendExchange (.release l (s.bus b).claim))
  have ends := finish_only s (releaseBus b (heardOpened b s))
  rw [released] at ends
  refine ⟨_, (exec_opened b s).trans ((if_pos ⟨releasing, opening⟩).trans (by rw [released])), ?_, buses.framed before ends, ?_, ?_,
    lines.framed before ends, (heardOpened_heard b s).framed ((sent.comp entered
      (hs := [.exchangeOut, .lines, .buses, .cancelSinceLook]) rfl).comp ends
      (hs := [.exchangeOut, .lines, .buses, .cancelSinceLook, .writerQueue, .readHold]) rfl), looked.framed before ends,
    (before.comp entered (hs := [.exchangeOut, .lines, .buses, .cancelSinceLook, .begun]) rfl).comp ends rfl⟩
  · rw [ends.bus rfl, idle]
  · exact (ends.get .exchangeOut rfl).trans ((entered.get .exchangeOut rfl).trans
      (congrArg (· ++ _) (heard.get .exchangeOut rfl)))
  · rw [ends.line rfl, unoccupied, before.line rfl]

theorem opened_without_line (line : (s.bus b).line = none) :
    ∃ t, exec (.opened b.val) s = .next t ∧ t.bus b = Bus.idle ∧ OtherBuses b s t ∧
      OpenedHeard b s t ∧ Looked True s t ∧ OnlyChanges [.buses, .cancelSinceLook, .writerQueue, .readHold, .begun] s t := by
  have heard := heardOpened_only b s
  have bus := heard.bus rfl b
  have released : releaseBus b (heardOpened b s) = ((heardOpened b s).setBus b Bus.idle).look true := by
    simp only [releaseBus, bus, line, enterIdle]
  have put := setBus_only b Bus.idle (heardOpened b s)
  have looks := look_only true ((heardOpened b s).setBus b Bus.idle)
  have ends := finish_only s (releaseBus b (heardOpened b s))
  rw [released] at ends
  have after := looks.comp ends (hs := [.cancelSinceLook, .writerQueue, .readHold]) rfl
  refine ⟨_, (exec_opened b s).trans ((if_pos ⟨releasing, opening⟩).trans (by rw [released])), ?_,
    (setBus_otherBuses b Bus.idle _).framed heard after,
    (heardOpened_heard b s).framed (put.comp after (hs := [.buses, .cancelSinceLook, .writerQueue, .readHold]) rfl),
    (looked_look (event := True) (by simp) _).framed (heard.comp put (hs := [.begun, .buses]) rfl) ends,
    (heard.comp put (hs := [.begun, .buses]) rfl).comp after rfl⟩
  rw [after.bus rfl, State.setBus_view_bus_self]

end

/-- Settles O16: SETTLED with and without an abort pending, OPENED with and without a line. -/
theorem matrixAnswers : Obligations.MatrixAnswers :=
  ⟨fun _ _ _ seizing closing test =>
      ⟨fun quiet => settled_joins seizing closing test quiet, fun aborting => settled_releases seizing closing test aborting⟩,
    fun _ _ releasing opening =>
      ⟨fun _ line => opened_gives_back releasing opening line, fun line => opened_without_line releasing opening line⟩⟩

/-! ## Commands that fail (R33, R35) -/

theorem busContext_framed {fs : List Field} {s u : State} (before : OnlyChanges fs s u) (b : BusNo) (ms : Nat)
    (hf : decide (Field.buses ∈ fs) = false := by rfl) : busContext u b ms = busContext s b ms := by
  unfold busContext
  rw [before.bus hf]

/-- A seizure has failed (R33), after what the command heard (`fs`). -/
theorem failSeizure_view {fs : List Field} {s u : State} {b : BusNo} {e : TestEntry} (ms : Nat)
    (before : OnlyChanges fs s u) (seizing : (s.bus b).state = .seizing) (test : (s.bus b).test = some e)
    (hf : fs ⊆ [.begun]) :
    (finish s (failSeizure b ms u)).newsEntries =
        s.newsEntries ++ s.finalEntries b (s.outcomeOn b .xpFault) none StepRecords.notRun ∧
      (finish s (failSeizure b ms u)).bus b = (s.bus b).sentOpen ∧ OtherBuses b s (finish s (failSeizure b ms u)) ∧
      (finish s (failSeizure b ms u)).program b = none ∧ OtherPrograms b s (finish s (failSeizure b ms u)) ∧
      (finish s (failSeizure b ms u)).matrixOut = s.matrixOut ++ [.opening b] ∧
      EventHandedOver .xpFault
        { bus := some b, head := none, step := none, busState := some .seizing, headState := none, line := (s.bus b).line,
          claim := (s.bus b).claim, elapsed := ms } s (finish s (failSeizure b ms u)) ∧
      FlagRaised .bus s (finish s (failSeizure b ms u)) ∧ OtherFlags [.bus, .drop] s (finish s (failSeizure b ms u)) ∧
      Looked (e.cls = .sweep) s (finish s (failSeizure b ms u)) ∧
      OnlyChanges [.news, .writerQueue, .readHold, .buses, .programs, .matrixOut, .flags, .outbox, .ticketSeq, .droppedBefore,
        .droppedTotal, .cancelSinceLook] u (finish s (failSeizure b ms u)) := by
  have before : OnlyChanges [.begun] s u := before.weaken fun _ mem => hf mem
  have bus := before.bus rfl b
  have context : busContext u b ms =
      { bus := some b, head := none, step := none, busState := some .seizing, headState := none, line := (s.bus b).line,
        claim := (s.bus b).claim, elapsed := ms } := by rw [busContext_framed before, busContext, seizing]
  have released := endTestEarly_startRelease_released (s := u) (o := .xpFault) (by rw [bus]; exact test)
    (outcomeOn_verdict (.inr rfl))
  rw [outcomeOn_framed before] at released
  obtain ⟨handed, raised, others, outbox⟩ := raise_event_view (kind := .xpFault) rfl (g := .bus) (by decide)
    (busContext u b ms) released.only rfl
  have ends := finish_only s (failSeizure b ms u)
  have after := outbox.comp ends (hs := outboxFields ++ [.writerQueue, .readHold]) rfl
  obtain ⟨news, sentOpen, buses, program, programs, sent, looked⟩ := released.framed before after
  exact ⟨news, sentOpen, buses, program, programs, sent, context ▸ handed.framed before ends, raised.framed before ends,
    others.framed before ends, looked, released.only.comp after rfl⟩

/-- A release has failed (R35), after what the command heard (`fs`). -/
theorem failRelease_view {fs : List Field} {s u : State} {b : BusNo} (cause : FaultCause) (ms : Nat)
    (before : OnlyChanges fs s u) (releasing : (s.bus b).state = .releasing) (hf : fs ⊆ [.begun]) :
    (finish s (failRelease b cause ms u)).bus b =
        { s.bus b with state := .faulted, command := none, timer := none, cause := some cause } ∧
      OtherBuses b s (finish s (failRelease b cause ms u)) ∧
      EventHandedOver .xpFault
        { bus := some b, head := none, step := none, busState := some .releasing, headState := none, line := (s.bus b).line,
          claim := (s.bus b).claim, elapsed := ms } s (finish s (failRelease b cause ms u)) ∧
      FlagRaised .bus s (finish s (failRelease b cause ms u)) ∧ OtherFlags [.bus, .drop] s (finish s (failRelease b cause ms u)) ∧
      OnlyChanges [.buses, .flags, .outbox, .ticketSeq, .droppedBefore, .droppedTotal, .writerQueue, .readHold] u
        (finish s (failRelease b cause ms u)) := by
  have before : OnlyChanges [.begun] s u := before.weaken fun _ mem => hf mem
  have bus := before.bus rfl b
  have context : busContext u b ms =
      { bus := some b, head := none, step := none, busState := some .releasing, headState := none, line := (s.bus b).line,
        claim := (s.bus b).claim, elapsed := ms } := by rw [busContext_framed before, busContext, releasing]
  have faulted := setBus_only b { u.bus b with state := .faulted, command := none, timer := none, cause := some cause } u
  obtain ⟨handed, raised, others, outbox⟩ := raise_event_view (kind := .xpFault) rfl (g := .bus) (by decide)
    (busContext u b ms) faulted rfl
  have ends := finish_only s (failRelease b cause ms u)
  have after := outbox.comp ends (hs := outboxFields ++ [.writerQueue, .readHold]) rfl
  refine ⟨?_, (setBus_otherBuses b _ u).framed before after, context ▸ handed.framed before ends, raised.framed before ends,
    others.framed before ends, faulted.comp after rfl⟩
  rw [after.bus rfl, State.setBus_view_bus_self, bus]

/-- Settles O17: a seizure and a release fail alike by an XP_FAULT and by the expiry of their timer, but for what the XP_FAULT shows. -/
theorem matrixCommandFails : Obligations.MatrixCommandFails := by
  refine ⟨fun s b e c n ms seizing closing test timer fails => ?seizure,
    fun s b c cause n ms releasing opening timer fails => ?release⟩
  case seizure =>
    rcases fails with ⟨rfl, rfl⟩ | ⟨rfl, rfl⟩
    · have heard := heardXpFault_only b s
      obtain ⟨news, bus, buses, program, programs, sent, handed, raised, others, looked, only⟩ :=
        failSeizure_view (min 49 (50 - n)) heard seizing test (by simp)
      refine ⟨_, (exec_xpFault b s).trans ((if_pos ⟨seizing, closing⟩).trans (by rw [Bus.ranOf50_of_timer timer])), news, bus, buses,
        program, programs, sent, handed, raised, others, fun _ => (heardXpFault_heard b s).framed only, fun other => ?_, looked,
        heard.comp only rfl⟩
      exact absurd other (by simp)
    · obtain ⟨news, bus, buses, program, programs, sent, handed, raised, others, looked, only⟩ :=
        failSeizure_view 50 (.refl [] s) seizing test (by simp)
      refine ⟨_, exec_settleTimerExpiry seizing timer, news, bus, buses, program, programs, sent, handed, raised, others,
        fun other => ?_, fun _ => only.get .begun rfl, looked, only.weaken (by simp)⟩
      exact absurd other (by simp)
  case release =>
    have notSeizing : ¬ ((s.bus b).state = .seizing ∧ (s.bus b).command = some .close) := by simp [releasing]
    rcases fails with ⟨rfl, rfl, rfl⟩ | ⟨rfl, rfl, rfl⟩
    · have heard := heardXpFault_only b s
      obtain ⟨bus, buses, handed, raised, others, only⟩ := failRelease_view .xpFault (50 - n) heard releasing (by simp)
      refine ⟨_, (exec_xpFault b s).trans ((if_neg notSeizing).trans ((if_pos ⟨releasing, opening⟩).trans
        (by rw [Bus.ranOf50_of_timer timer]))), bus, buses, handed, raised, others,
        fun _ => (heardXpFault_heard b s).framed only, fun other => ?_, heard.comp only rfl⟩
      exact absurd other (by simp)
    · obtain ⟨bus, buses, handed, raised, others, only⟩ := failRelease_view .timeout 50 (.refl [] s) releasing (by simp)
      refine ⟨_, exec_openTimerExpiry releasing timer, bus, buses, handed, raised, others, fun other => ?_,
        fun _ => only.get .begun rfl, only.weaken (by simp)⟩
      exact absurd other (by simp)

/-! ## The hold timer (R48) -/

/-- Settles O18: the bus sends OPEN and HOLD_END is raised. -/
theorem holdTimerExpires : Obligations.HoldTimerExpires := by
  intro s b n held timer
  obtain ⟨bus, buses, sent⟩ := startRelease_view b s
  have released := startRelease_only b s
  have after := (raiseFlag_only .holdEnd (startRelease b s)).comp (finish_only s _) (hs := [.flags, .writerQueue, .readHold]) rfl
  have ends := finish_only s ((startRelease b s).raiseFlag .holdEnd)
  refine ⟨_, exec_holdTimerExpiry held timer, ?_, buses.framed (.refl [] s) after, (after.get .matrixOut rfl).trans sent,
    (flagRaised_raiseFlag .holdEnd _).framed released ends, (otherFlags_raiseFlag .holdEnd _).framed released ends,
    released.comp after rfl⟩
  rw [after.bus rfl, bus]

end Sys2Proof.Machine
end

section
/-!
PROOFS. The selection of the Test Queue (R22, R89–R92): that it moves an entry whenever one may move, and what each move does.
-/

namespace Sys2Proof.Machine

/-! ## That there is a move -/

theorem exists_first {α : Type} {p : α → Prop} {l : List α} (h : ∃ x ∈ l, p x) :
    ∃ before x after, l = before ++ x :: after ∧ p x ∧ ∀ y ∈ before, ¬ p y := by
  induction l with
  | nil => simp at h
  | cons x xs ih =>
    by_cases here : p x
    · exact ⟨[], x, xs, rfl, here, by simp⟩
    · obtain ⟨before, y, after, split, holds, none⟩ := ih (by simpa [here] using h)
      refine ⟨x :: before, y, after, by rw [split]; rfl, holds, fun z mem => ?_⟩
      rcases List.mem_cons.mp mem with rfl | mem
      · exact here
      · exact none z mem

theorem selection_ne_none {s : State} {e : TestEntry} {m : Move} {rest : List TestEntry} (h : Selects s e m rest) :
    s.selection ≠ none := by simp [(selection_iff s e m rest).mpr h]

theorem selection_of_desk {s : State} (offered : Offered s) (eligible : ∃ e ∈ s.queue, ∃ m, DeskMoves s e m) :
    s.selection ≠ none := by
  obtain ⟨before, e, after, split, ⟨m, moves⟩, none⟩ := exists_first eligible
  exact selection_ne_none (e := e) (m := m) ⟨offered, before, after, split, rfl,
    .inl ⟨moves, fun x mem y desk => none x mem ⟨y, desk⟩⟩⟩

theorem selection_of_sweep {s : State} (offered : Offered s) (noDesk : ∀ e ∈ s.queue, ∀ m, ¬ DeskMoves s e m)
    (considered : SweepConsidered s) (moves : ∃ e ∈ s.queue, ∃ m, SweepMoves s e m) : s.selection ≠ none := by
  obtain ⟨before, e, after, split, ⟨m, moves⟩, earlier⟩ := exists_first moves
  exact selection_ne_none (e := e) (m := m) ⟨offered, before, after, split, rfl,
    .inr ⟨moves, noDesk, fun x mem y sweep => earlier x mem ⟨y, sweep⟩, considered⟩⟩

/-- Settles O19: the selection is `Selects`, which the first eligible entry satisfies; a STATE looks where it changes the line. -/
theorem selectionOrder : Obligations.SelectionOrder := by
  intro s
  refine ⟨selection_iff s, selection_of_desk, selection_of_sweep, fun l v => ⟨_, exec_state_some l v s, ?_⟩⟩
  exact (looked_look (by simp) _).framed (setLine_only l _ s) (finish_only s _)

/-! ## An entry leaves the queue (R86, R92) -/

theorem leaveQueue_tested (rest : List TestEntry) (s : State) : WaitTested True s (leaveQueue rest s) := by
  have tested := retestWaiting_tested true (s := s) (u := { s with queue := rest }) rfl
  rwa [eq_self_iff_true] at tested

theorem WaitTested.leftQueue {fs : List Field} {rest : List TestEntry} {s t : State} (after : OnlyChanges fs (leaveQueue rest s) t)
    (hf : (Field.testWaiting :: retakeFields).all (fun f => decide (f ∉ fs)) = true := by rfl) : WaitTested True s t :=
  (leaveQueue_tested rest s).after after hf

/-! ## The IDLE bus (R21, R23) -/

section
variable (b : BusNo) (e : TestEntry) (rest : List TestEntry) (s : State)

/-- The claim itself, once the entry has left the queue. -/
theorem giveToIdle_claim_only : OnlyChanges [.exchangeOut, .claimCounter, .lines, .buses, .cancelSinceLook] (leaveQueue rest s)
    (giveToIdle b e rest s) :=
  ((((sendExchange_only (.claim e.line s.claimCounter e.force) (leaveQueue rest s)).comp (setClaimCounter_only _ _)
    (hs := [.exchangeOut, .claimCounter]) rfl).comp (setOccupying_only e.line (some b) _)
    (hs := [.exchangeOut, .claimCounter, .lines]) rfl).comp (setBus_only b _ _)
    (hs := [.exchangeOut, .claimCounter, .lines, .buses]) rfl).comp (look_only true _) rfl

theorem giveToIdle_view_line_self : (giveToIdle b e rest s).line e.line = { s.line e.line with occupying := some b } := by
  change (setOccupying e.line (some b) _).line e.line = _
  rw [setOccupying, State.setLine_view_line_self]
  exact congrArg (fun r => { r with occupying := some b }) ((leaveQueue_only rest s).line rfl e.line)

theorem giveToIdle_otherLines : OtherLines e.line s (giveToIdle b e rest s) := by
  intro x other
  change (setOccupying e.line (some b) _).line x = _
  rw [setOccupying, setLine_otherLines e.line _ _ x other]
  exact (leaveQueue_only rest s).line rfl x

theorem giveToIdle_exchangeOut :
    (giveToIdle b e rest s).exchangeOut = s.exchangeOut ++ [.claim e.line s.claimCounter e.force] :=
  congrArg (· ++ _) ((leaveQueue_only rest s).get .exchangeOut rfl)

theorem giveToIdle_claimCounter : (giveToIdle b e rest s).claimCounter = s.claimCounter + 1 := rfl

theorem giveToIdle_looked : Looked True s (giveToIdle b e rest s) :=
  ⟨fun _ => by simp [giveToIdle], fun none => absurd trivial none⟩

end

theorem exec_entryToIdleBus {s : State} {e : TestEntry} {b : BusNo} {rest : List TestEntry}
    (selected : s.selection = some (e, .toIdle b, rest)) :
    exec .entryToIdleBus s = .next (finish s (giveToIdle b e rest s)) := by simp only [exec, execEntryToIdleBus, selected]

/-! ## The HELD bus (R47, R57) -/

theorem exec_entryToHeldBus {s : State} {e : TestEntry} {b : BusNo} {rest : List TestEntry}
    (selected : s.selection = some (e, .toHeld b, rest)) :
    exec .entryToHeldBus s = .next (finish s (giveToHeld b e rest s)) := by simp only [exec, execEntryToHeldBus, selected]

theorem giveToHeld_rejoin_only (b : BusNo) (e : TestEntry) (rest : List TestEntry) (s : State) :
    OnlyChanges [.buses, .waitQueue] (leaveQueue rest s) (giveToHeld b e rest s) :=
  (setBus_only b _ (leaveQueue rest s)).comp (joinWait_only b _) rfl

/-- The bus joins behind the DESK-class buses: it is one itself, and it did not wait before. -/
theorem giveToHeld_waitQueue {s : State} {e : TestEntry} {b : BusNo} {rest : List TestEntry}
    (selected : RejoinSelected s e b rest) (waits : WaitQueueOk s) :
    (giveToHeld b e rest s).waitQueue =
      s.waitQueue.filter s.busIsDesk ++ b :: s.waitQueue.filter (fun x => !s.busIsDesk x) := by
  have left := leaveQueue_only rest s
  have bus := giveToHeld_view_bus_self b e rest s
  have others := giveToHeld_otherBuses b e rest s
  have queue : (leaveQueue rest s).waitQueue = s.waitQueue := left.get .waitQueue rfl
  have desk : (giveToHeld b e rest s).busIsDesk b = true := by
    rw [busIsDesk_of_test (e := e) (by rw [bus]), selected.desk]; rfl
  have away : b ∉ s.waitQueue := fun mem => by
    have waiting := (waits.2.1 b).mp mem
    rw [selected.held] at waiting
    exact absurd waiting (by simp)
  have same {x : BusNo} (mem : x ∈ s.waitQueue) : (giveToHeld b e rest s).busIsDesk x = s.busIsDesk x := by
    unfold State.busIsDesk
    rw [others x (fun same => away (same ▸ mem))]
  have desks : s.waitQueue.filter (giveToHeld b e rest s).busIsDesk = s.waitQueue.filter s.busIsDesk :=
    List.filter_congr fun x mem => same mem
  have sweeps : s.waitQueue.filter (fun x => !(giveToHeld b e rest s).busIsDesk x) = s.waitQueue.filter (fun x => !s.busIsDesk x) :=
    List.filter_congr fun x mem => by rw [same mem]
  change joinedQueue (giveToHeld b e rest s).busIsDesk b (leaveQueue rest s).waitQueue = _
  rw [joinedQueue_of_desk desk, queue, desks, sweeps]

/-- Settles O20: what the two moves of the selection do to entry, bus, line and link. -/
theorem entryGivenToBus : Obligations.EntryGivenToBus := by
  intro s b e rest a inForce
  refine ⟨fun selected => ?idle, fun selected waits => ?held⟩
  case idle =>
    have ends := finish_only s (giveToIdle b e rest s)
    have start : OnlyChanges [] s s := .refl [] s
    refine ⟨_, exec_entryToIdleBus selected, ?_, ?_, (giveToIdle_otherBuses b e rest s).framed start ends, ?_,
      (giveToIdle_otherLines b e rest s).framed start ends, ?_, ?_,
      .leftQueue (rest := rest) ((giveToIdle_claim_only b e rest s).comp ends
        (hs := [.exchangeOut, .claimCounter, .lines, .buses, .cancelSinceLook, .writerQueue, .readHold]) rfl),
      (giveToIdle_looked b e rest s).framed start ends, (giveToIdle_only b e rest s).comp ends rfl⟩
    · exact (ends.get .queue rfl).trans (giveToIdle_queue b e rest s)
    · rw [ends.bus rfl, giveToIdle_view_bus_self]
      simp [Bus.idle, State.limit, inForce]
    · rw [ends.line rfl, giveToIdle_view_line_self]
    · exact (ends.get .exchangeOut rfl).trans (giveToIdle_exchangeOut b e rest s)
    · exact (ends.get .claimCounter rfl).trans (giveToIdle_claimCounter b e rest s)
  case held =>
    have ends := finish_only s (giveToHeld b e rest s)
    refine ⟨_, exec_entryToHeldBus selected, ?_, ?_, (giveToHeld_otherBuses b e rest s).framed (.refl [] s) ends, ?_,
      .leftQueue (rest := rest) ((giveToHeld_rejoin_only b e rest s).comp ends
        (hs := [.buses, .waitQueue, .writerQueue, .readHold]) rfl),
      (giveToHeld_only b e rest s).comp ends rfl⟩
    · exact (ends.get .queue rfl).trans (giveToHeld_queue b e rest s)
    · rw [ends.bus rfl, giveToHeld_view_bus_self]
    · exact (ends.get .waitQueue rfl).trans (giveToHeld_waitQueue (rejoinSelected selected) waits)

/-! ## The skip (R91, R112, R113) -/

/-- The state with another Test Queue and another record of a waiting TEST. -/
def State.requeue (q : List TestEntry) (w : TestWait) (s : State) : State := { s with queue := q, testWaiting := w }

theorem requeue_only (q : List TestEntry) (w : TestWait) (s : State) : OnlyChanges [.queue, .testWaiting] s (s.requeue q w) :=
  (setQueue_only s q).comp (setTestWaiting_only _ w) rfl

section
variable {a : Anchor} {l : LineNo} {s v t : State} (left : OnlyChanges [.queue, .testWaiting] s v)
include left

/-- What a step changes after the Test Queue has changed, it changes without that. -/
theorem OnlyChanges.requeued {gs : List Field} (only : OnlyChanges gs v t) :
    OnlyChanges gs s (t.requeue s.queue s.testWaiting) := by
  have all : OnlyChanges ([.queue, .testWaiting] ++ gs) s (t.requeue s.queue s.testWaiting) :=
    ((left.weaken fun _ => List.mem_append_left _).trans (only.weaken fun _ => List.mem_append_right _)).trans
      ((requeue_only _ _ t).weaken fun _ => List.mem_append_left _)
  intro f away
  cases f with
  | queue => rfl
  | testWaiting => rfl
  | _ => exact all _ (by simp [away])

theorem TicketEntered.requeued {k : Ticket} (h : TicketEntered k v t) :
    TicketEntered k s (t.requeue s.queue s.testWaiting) := by
  have outbox : v.outbox = s.outbox := left.get .outbox rfl
  have sequence : v.ticketSeq = s.ticketSeq := left.get .ticketSeq rfl
  have before : v.droppedBefore = s.droppedBefore := left.get .droppedBefore rfl
  have total : v.droppedTotal = s.droppedTotal := left.get .droppedTotal rfl
  have anchor : v.anchor = s.anchor := left.get .anchor rfl
  unfold TicketEntered FlagRaised at h ⊢
  rw [outbox, sequence, before, total, anchor, left.flag rfl] at h
  exact h

/-- A standing loop is checked for alike whether the entry has left the queue or not. -/
theorem LoopChecked.requeued (h : LoopChecked a l v t) : LoopChecked a l s (t.requeue s.queue s.testWaiting) := by
  have epoch : v.epoch = s.epoch := left.get .epoch rfl
  have due (stamp : BitVec 8) : LoopDue a l stamp v ↔ LoopDue a l stamp s := by
    unfold LoopDue
    rw [left.line rfl, epoch]
  have still := requeue_only s.queue s.testWaiting t
  refine ⟨fun stamp found => ?_, fun none => left.requeued (h.2 fun stamp found => none stamp ((due stamp).mp found))⟩
  obtain ⟨line, lines, entered, flags, only⟩ := h.1 stamp ((due stamp).mpr found)
  refine ⟨?_, lines.framed left still, ?_, flags.framed left still, left.requeued only⟩
  · rw [still.line rfl, line, left.line rfl]
  · rw [epoch] at entered
    exact TicketEntered.requeued left entered

end

theorem exec_sweepEntrySkip {s : State} {e : TestEntry} {rest : List TestEntry} (selected : s.selection = some (e, .skip, rest)) :
    exec .sweepEntrySkip s = .next (finish s (skipEntry e rest s)) := by simp only [exec, execSweepEntrySkip, selected]

/-- Settles O21: the check made after the entry has left is that made before, the Test Queue apart. -/
theorem sweepEntrySkipped : Obligations.SweepEntrySkipped := by
  intro s e rest a inForce selected
  have left := leaveQueue_only rest s
  have checked := standingLoopCheck_checked a e.line (leaveQueue rest s) ((left.get .anchor rfl).trans inForce)
  have skipped := standingLoopCheck_only e.line (leaveQueue rest s)
  have ends := finish_only s (skipEntry e rest s)
  have after := skipped.comp ends (hs := [.outbox, .ticketSeq, .droppedBefore, .droppedTotal, .flags, .lines, .register,
    .coalescing, .writerQueue, .readHold]) rfl
  have back : OnlyChanges [.queue, .testWaiting] ((skipEntry e rest s).requeue s.queue s.testWaiting) (skipEntry e rest s) :=
    requeue_only (skipEntry e rest s).queue (skipEntry e rest s).testWaiting _
  exact ⟨_, _, exec_sweepEntrySkip selected, LoopChecked.requeued left checked, (after.get .queue rfl).trans (leaveQueue_queue rest s),
    .leftQueue after, back.comp ends rfl⟩

end Sys2Proof.Machine
end

section
/-!
PROOFS. Grants and readings (R58, R62–R68): how a reading is classified, how a program goes on, and how it ends.
-/

namespace Sys2Proof.Machine

/-! ## HEAD_GRANT (R58, R62, R63) -/

/-- The lowest-numbered FREE head is the one the grant finds. -/
theorem freeHeadNo_of_lowest {s : State} {h : HeadNo} (free : (s.head h).state = .free)
    (lowest : ∀ x, x < h → (s.head x).state ≠ .free) : s.freeHeadNo = some h := by
  match h with
  | 0 => simp [State.freeHeadNo, allHeads, free]
  | 1 =>
    have first := lowest 0 (by decide)
    simp [State.freeHeadNo, allHeads, free, first]

theorem exec_headGrant {s : State} {b : BusNo} {rest : List BusNo} {h : HeadNo} (waiting : s.waitQueue = b :: rest)
    (free : s.freeHeadNo = some h) : exec .headGrant s = .next (finish s (grantHead h b rest s)) := by
  simp only [exec, execHeadGrant, waiting, free]

theorem startStep_headOut (h : HeadNo) (b : BusNo) (k : StepKind) (s : State) :
    (startStep h b k s).headOut = s.headOut ++ [.start h b k] := rfl

theorem setProgram_otherPrograms (b : BusNo) (p : Option StepProgram) (s : State) : OtherPrograms b s (s.setProgram b p) := by
  intro x other
  rw [State.setProgram_view_program, if_neg other.symm]

/-- Settles O23: the granted state is `grantHead`, whose program begins with the first step of the run order. -/
theorem headGranted : Obligations.HeadGranted := by
  intro s b rest h e k ks waiting free lowest test order
  have built : (buildProgram e).order = k :: ks := order
  have granted := grantHead_of_order (h := h) (rest := rest) test built
  have ends := finish_only s (grantHead h b rest s)
  have start : OnlyChanges [] s s := .refl [] s
  have programmed : OnlyChanges [.waitQueue, .buses] s
      (({ s with waitQueue := rest } : State).setBus b { s.bus b with state := .measuring, timer := none }) :=
    (setWaitQueue_only s rest).comp (setBus_only b _ _) rfl
  refine ⟨_, exec_headGrant waiting (freeHeadNo_of_lowest free lowest), ?_, ?_, (grantHead_otherBuses h b rest s).framed start ends,
    ?_, ?_, ?_, ?_, ?_, (grantHead_only h b rest s).comp ends rfl⟩
  · rw [finish_waitQueue, granted]; rfl
  · rw [ends.bus rfl, grantHead_view_bus_self]
  · rw [ends.program rfl, granted, (startStep_only h b k _).program rfl, State.setProgram_view_program_self]
    simp [buildProgram, order]
  · refine OtherPrograms.framed (u := s) (v := grantHead h b rest s) (fun x other => ?_) start ends
    rw [granted, (startStep_only h b k _).program rfl, setProgram_otherPrograms b _ _ x other, programmed.program rfl]
  · rw [ends.head rfl, granted, startStep_view_head_self]
  · refine OtherHeads.framed (u := s) (v := grantHead h b rest s) (fun x other => ?_) start ends
    rw [granted, startStep_otherHeads h b k _ x other]
    rfl
  · rw [finish_headOut, granted]; rfl

/-! ## Classifying a reading (R64–R66, R68) -/

theorem isFv_iff (k : StepKind) : isFv k = true ↔ k.val < 2 := decide_eq_true_iff

theorem comparison_of_is {k : StepKind} {st : ReadingStatus} {v c : BitVec 16} (h : ComparisonIs k st v c) :
    comparison k st v = c := by
  cases st with
  | valid => exact (show c = v from h).symm
  | overRange => exact (show c = if k.val < 2 then 0x7FFF#16 else 0xFFFF#16 from h).symm ▸ by simp [comparison, isFv]
  | underRange => exact (show c = if k.val < 2 then 0x8000#16 else 0#16 from h).symm ▸ by simp [comparison, isFv]

theorem isHazard_iff (k : StepKind) (c : BitVec 16) (limit : Nat) : isHazard k c limit = true ↔ HazardFound k c limit := by
  unfold isHazard HazardFound
  rw [Bool.and_eq_true, isFv_iff, decide_eq_true_iff]
  refine and_congr_right fun fv => ?_
  rw [numeric, if_pos ((isFv_iff k).mpr fv)]

theorem inWindow_iff (k : StepKind) (w : Limits) (c : BitVec 16) :
    (numeric k w.low ≤ numeric k c ∧ numeric k c ≤ numeric k w.high) ↔ InWindow k w c := by
  unfold InWindow numeric
  by_cases fv : k.val < 2
  · simp [isFv, fv]
  · simp [isFv, fv]

theorem classify_of_window {k : StepKind} {w : Limits} {c : BitVec 16} {x : StepStatus} (inside : InWindow k w c → x = .pass)
    (outside : ¬ InWindow k w c → x = .fail) : classify k w c = x := by
  unfold classify
  by_cases h : InWindow k w c
  · rw [if_pos ((inWindow_iff k w c).mpr h), inside h]
  · rw [if_neg (fun found => h ((inWindow_iff k w c).mp found)), outside h]

theorem failsWith_iff (rs : StepRecords) (f : FaultKind) :
    failsWith rs f = true ↔ ∃ k, (entry rs k).status = .fail ∧ failingKind k = f := by
  have all (k : StepKind) : k ∈ allKinds := by revert k; decide
  simp [failsWith, all]

theorem failingKind_mem_ranking (k : StepKind) : failingKind k ∈ ranking := by revert k; decide

/-- In a list that rises by a code, the first element found is the one with the least code. -/
theorem find?_of_least {α : Type} {p : α → Bool} {code : α → Nat} {l : List α} {x : α} (rises : l.Pairwise fun y z => code y < code z)
    (mem : x ∈ l) (found : p x = true) (least : ∀ y, p y = true → code x ≤ code y) : l.find? p = some x := by
  induction l with
  | nil => simp at mem
  | cons y ys ih =>
    obtain ⟨below, rises⟩ := List.pairwise_cons.mp rises
    rcases List.mem_cons.mp mem with rfl | mem
    · exact List.find?_cons_of_pos found
    · have earlier : ¬ p y = true := fun here => absurd (least y here) (Nat.not_le.mpr (below x mem))
      rw [List.find?_cons_of_neg earlier]
      exact ih rises mem

theorem verdictOf_of_is {rs : StepRecords} {v : Verdict} (h : VerdictIs rs v) : verdictOf rs = v := by
  unfold verdictOf
  rcases h with ⟨rfl, none⟩ | ⟨k, failed, rfl, least⟩
  · have nothing : ranking.find? (failsWith rs) = Option.none := by
      refine List.find?_eq_none.mpr fun f _ found => ?_
      obtain ⟨k, failed, -⟩ := (failsWith_iff rs f).mp found
      exact none k failed
    rw [nothing]
  · have ranked : failingKind k ∈ ranking := failingKind_mem_ranking k
    have found := find?_of_least (p := failsWith rs) (code := FaultKind.code) (by decide) ranked
      ((failsWith_iff rs _).mpr ⟨k, failed, rfl⟩) fun f other => by
        obtain ⟨j, failed, rfl⟩ := (failsWith_iff rs f).mp other
        exact least j failed
    rw [found]

theorem entry_eightRecords (f : StepKind → StepRecord) (j : StepKind) : entry (eightRecords f) j = f j := by
  match j with
  | 0 | 1 | 2 | 3 | 4 | 5 | 6 | 7 => rfl

/-- The records after a hazard, by what R66 says of each step. -/
theorem hazardRecords_of_is {ps rs : StepRecords} {k : StepKind} {st : ReadingStatus} {c : BitVec 16}
    (failed : entry rs k = { status := .fail, reading := some (st, c) })
    (kept : ∀ j, j ≠ k → j.val < 2 ∨ (entry ps j).status = .notRun → entry rs j = entry ps j)
    (suspect : ∀ j, j ≠ k → 2 ≤ j.val → (entry ps j).status ≠ .notRun →
      entry rs j = { status := .suspect, reading := (entry ps j).reading }) : hazardRecords ps k st c = rs := by
  refine eq_of_entries fun j => ?_
  rw [hazardRecords, entry_eightRecords]
  by_cases here : j = k
  · rw [if_pos here, here, failed]
  · rw [if_neg here]
    by_cases fv : j.val < 2
    · rw [if_pos ((isFv_iff j).mpr fv), kept j here (.inl fv)]
    · rw [if_neg (fun found => fv ((isFv_iff j).mp found))]
      by_cases run : (entry ps j).status = .notRun
      · rw [if_pos run, kept j here (.inr run)]
      · rw [if_neg run, suspect j here (Nat.not_lt.mp fv) run]

/-! ## A READING taken for an ATTACHED head -/

section
variable {s : State} {h : HeadNo} {b : BusNo} {k : StepKind} {p : StepProgram} {a : Anchor} {st : ReadingStatus} {v c : BitVec 16}
  (inForce : s.anchor = some a) (attached : (s.head h).state = .attached) (joined : (s.head h).bus = some b)
  (step : (s.head h).step = some k) (program : s.program b = some p)
include inForce attached joined step program

theorem exec_reading_of_attached :
    exec (.reading h.val (some st) v) s = .next (finish s (takeReading h b k p a st v (heardReading h s))) := by
  have heard := heardReading_only h s
  have anchor : (heardReading h s).anchor = some a := (heard.get .anchor rfl).trans inForce
  rw [exec_reading, readHead, heard.head rfl, attached]
  simp only [joined, step, heard.program rfl, program, anchor]

theorem exec_reading_advances {x : StepStatus} (compared : ComparisonIs k st v c) (safe : ¬ HazardFound k c a.hazardLimit)
    (inside : InWindow k (entry a.limits k) c → x = .pass) (outside : ¬ InWindow k (entry a.limits k) c → x = .fail) :
    exec (.reading h.val (some st) v) s =
      .next (finish s (advanceProgram h b p (putEntry p.steps k { status := x, reading := some (st, c) }) (heardReading h s))) := by
  rw [exec_reading_of_attached inForce attached joined step program, takeReading]
  rw [comparison_of_is compared, if_neg (fun found => safe ((isHazard_iff k c _).mp found)), classify_of_window inside outside]

theorem exec_reading_stops (compared : ComparisonIs k st v c) (hazard : HazardFound k c a.hazardLimit) :
    exec (.reading h.val (some st) v) s =
      .next (finish s (hazardStop h b (hazardRecords p.steps k st c) (heardReading h s))) := by
  rw [exec_reading_of_attached inForce attached joined step program, takeReading]
  rw [comparison_of_is compared, if_pos ((isHazard_iff k c _).mpr hazard)]

end

/-- A program with the records of the step that has ended, at its next step. -/
def StepProgram.advanced (p : StepProgram) (rs : StepRecords) : StepProgram :=
  { order := p.order, position := p.position + 1, steps := rs }

theorem advanceProgram_of_next {p : StepProgram} {k : StepKind} (next : p.order[p.position + 1]? = some k) (h : HeadNo) (b : BusNo)
    (rs : StepRecords) (s : State) :
    advanceProgram h b p rs s = startStep h b k (s.setProgram b (some (p.advanced rs))) := by
  simp only [advanceProgram, next]
  rfl

/-- Settles O24: the program's record of the step, and the START of the next. -/
theorem readingAdvances : Obligations.ReadingAdvances := by
  intro s h b k k' p a st v c x inForce attached joined step program next compared safe inside outside
  have answered := exec_reading_advances inForce attached joined step program compared safe inside outside
  generalize putEntry p.steps k { status := x, reading := some (st, c) } = rs at answered ⊢
  rw [advanceProgram_of_next next] at answered
  have heard := heardReading_only h s
  have noted := setProgram_only b (some (p.advanced rs)) (heardReading h s)
  have before := heard.comp noted (hs := [.begun, .programs]) rfl
  have started := startStep_only h b k' ((heardReading h s).setProgram b (some (p.advanced rs)))
  have ends := finish_only s (startStep h b k' ((heardReading h s).setProgram b (some (p.advanced rs))))
  have after := started.comp ends (hs := [.headOut, .heads, .writerQueue, .readHold]) rfl
  refine ⟨_, answered, ?_, (setProgram_otherPrograms b _ _).framed heard after, ?_,
    (startStep_otherHeads h b k' _).framed before ends, ?_,
    (heardReading_heard h s).framed (noted.comp after (hs := [.programs, .headOut, .heads, .writerQueue, .readHold]) rfl),
    before.comp after rfl⟩
  · rw [after.program rfl, State.setProgram_view_program_self, StepProgram.advanced]
  · rw [ends.head rfl, startStep_view_head_self]
  · exact (ends.get .headOut rfl).trans (congrArg (· ++ _) (before.get .headOut rfl))

end Sys2Proof.Machine
end

section
/-!
PROOFS. Programs that end (R38, R39, R46, R66–R68). What is handed on before the bus is dealt with is `State.testDone`; it is reached from
the state in which the reading has been heard, and handing a verdict on does not read what is known to have been sent.
-/

namespace Sys2Proof.Machine

/-- The state with another record of what is known to have been sent. -/
def State.withBegun (n : Begun) (s : State) : State := { s with begun := n }

theorem withBegun_only (n : Begun) (s : State) : OnlyChanges [.begun] s (s.withBegun n) := by
  intro f hf; cases f <;> first | rfl | exact ⟨rfl, fun _ => rfl⟩ | simp at hf

/-! ## Handing a verdict on does not read it -/

section
variable (n : Begun) (s : State)

theorem raiseFlag_withBegun (f : Flag) : (s.withBegun n).raiseFlag f = (s.raiseFlag f).withBegun n := by
  unfold State.raiseFlag
  rw [apply_ite (State.withBegun n)]
  rfl

theorem clearMark_withBegun (k : FaultKind) (l : LineNo) : clearMark k (s.withBegun n) l = (clearMark k s l).withBegun n := by
  unfold clearMark
  rw [apply_ite (State.withBegun n)]
  rfl

theorem foldl_clearMark_withBegun (k : FaultKind) (ls : List LineNo) :
    ls.foldl (clearMark k) (s.withBegun n) = (ls.foldl (clearMark k) s).withBegun n := by
  induction ls generalizing s with
  | nil => rfl
  | cons l ls ih => rw [List.foldl_cons, List.foldl_cons, clearMark_withBegun, ih]

theorem cleanMarks_withBegun (k : Ticket) : cleanMarks k (s.withBegun n) = (cleanMarks k s).withBegun n := by
  unfold cleanMarks
  cases k.kind with
  | lineFault f => exact foldl_clearMark_withBegun n s f k.lines
  | _ => rfl

theorem dropTicket_withBegun (k : Ticket) : dropTicket k (s.withBegun n) = (dropTicket k s).withBegun n := by
  unfold dropTicket
  rw [← cleanMarks_withBegun, ← raiseFlag_withBegun]
  rfl

theorem enterOutbox_withBegun (k : Ticket) : enterOutbox k (s.withBegun n) = (enterOutbox k s).withBegun n := by
  unfold enterOutbox
  rw [apply_ite (State.withBegun n), ← dropTicket_withBegun]
  rfl

theorem closeRegister_withBegun : closeRegister (s.withBegun n) = (closeRegister s).withBegun n := by
  cases opened : s.register with
  | none => rw [closeRegister_none opened, closeRegister_none (s := s.withBegun n) opened]
  | some k =>
    rw [closeRegister_some opened, closeRegister_some (s := s.withBegun n) opened, ← enterOutbox_withBegun]
    rfl

theorem reachRegister_withBegun (k : Ticket) : reachRegister k (s.withBegun n) = (reachRegister k s).withBegun n := by
  unfold reachRegister
  change (match s.register with
    | none => openRegister k (s.withBegun n)
    | some o => if k.joins o then openRegister (o.append k) (s.withBegun n) else openRegister k (closeRegister (s.withBegun n))) = _
  rw [closeRegister_withBegun]
  cases s.register with
  | none => rfl
  | some o =>
    dsimp only
    rw [apply_ite (State.withBegun n)]
    rfl

theorem routeTicket_withBegun (k : Ticket) : routeTicket k (s.withBegun n) = (routeTicket k s).withBegun n := by
  unfold routeTicket
  rw [apply_ite (State.withBegun n), reachRegister_withBegun, enterOutbox_withBegun]

theorem offerFocus_withBegun (g : GroupNo) : offerFocus g (s.withBegun n) = (offerFocus g s).withBegun n := by
  unfold offerFocus
  rw [apply_ite (State.withBegun n)]
  rfl

theorem listAlarm_withBegun (g : GroupNo) : listAlarm g (s.withBegun n) = (listAlarm g s).withBegun n := by
  unfold listAlarm
  rw [apply_ite (State.withBegun n)]
  rfl

theorem raiseAlarm_withBegun (g : GroupNo) (m : Nat) : raiseAlarm g m (s.withBegun n) = (raiseAlarm g m s).withBegun n := by
  unfold raiseAlarm
  rw [← raiseFlag_withBegun, ← offerFocus_withBegun, ← listAlarm_withBegun]
  rfl

theorem countLine_withBegun (l : LineNo) : countLine l (s.withBegun n) = (countLine l s).withBegun n := by
  unfold countLine
  dsimp only
  rw [apply_ite (State.withBegun n), apply_ite (State.withBegun n), ← raiseAlarm_withBegun]
  rfl

theorem formLineFault_withBegun (l : LineNo) (k : FaultKind) (c : TestClass) (rs : StepRecords) :
    formLineFault l k c rs (s.withBegun n) = (formLineFault l k c rs s).withBegun n := by
  unfold formLineFault
  rw [apply_ite (State.withBegun n), ← routeTicket_withBegun, ← countLine_withBegun]
  rfl

theorem formRestored_withBegun (l : LineNo) (c : TestClass) (rs : StepRecords) :
    formRestored l c rs (s.withBegun n) = (formRestored l c rs s).withBegun n := by
  unfold formRestored
  change (match (s.line l).ticketMark with
    | some _ => routeTicket (lineTicket s .restored c.origin l (.steps rs))
        ((s.setLine l { s.line l with ticketMark := none }).withBegun n)
    | none => s.withBegun n) = _
  rw [routeTicket_withBegun]
  cases (s.line l).ticketMark with
  | none => rfl
  | some k => rfl

theorem takeVerdict_withBegun (l : LineNo) (v : Verdict) (c : TestClass) (rs : StepRecords) :
    takeVerdict l v c rs (s.withBegun n) = (takeVerdict l v c rs s).withBegun n := by
  cases v with
  | pass => exact formRestored_withBegun n s l c rs
  | fail k => exact formLineFault_withBegun n s l k c rs
  | hazard => exact formLineFault_withBegun n s l .hazard c rs

end

/-! ## A completed test -/

/-- What a test that completes hands on before its bus is dealt with (R13, R38, R68). -/
theorem handOn_testDone {s : State} {b : BusNo} {e : TestEntry} (n : Begun) (test : (s.bus b).test = some e) (h : HeadNo) (v : Verdict)
    (rs : StepRecords) :
    handOnVerdict e (.completed v) rs (queueFinal b e (.completed v) (some h) rs (freeHead h (s.withBegun n))) =
      (s.testDone h b e v rs).withBegun n := by
  have queued : queueFinal b e (.completed v) (some h) rs (freeHead h (s.withBegun n)) =
      ({ s with heads := putEntry s.heads h Head.free,
                writerQueue := s.writerQueue ++ s.finalEntries b (.completed v) (some h) rs } : State).withBegun n := by
    unfold queueFinal State.finalEntries
    rw [test]
    dsimp only
    cases none : e.slots.isEmpty with
    | true =>
      rw [if_pos rfl, if_pos (List.isEmpty_iff.mp none), List.append_nil]
      rfl
    | false =>
      rw [if_neg (by simp), if_neg (fun empty => by simp [empty] at none)]
      rfl
  rw [queued]
  unfold handOnVerdict State.testDone
  rw [← takeVerdict_withBegun]
  rfl

/-- The end of a completed test without an abort pending, from the state in which its reading has been heard. -/
theorem endTest_testDone {s : State} {b : BusNo} {e : TestEntry} (n : Begun) (test : (s.bus b).test = some e)
    (quiet : (s.bus b).abort = none) (h : HeadNo) (v : Verdict) (rs : StepRecords) :
    endTest b (.completed v) (some h) rs (freeHead h (s.withBegun n)) =
      (dropTest b ((s.testDone h b e v rs).withBegun n)).look (e.cls == .sweep) := by
  have testThere : ((freeHead h (s.withBegun n)).bus b).test = some e := test
  have outcome : (freeHead h (s.withBegun n)).outcomeOn b (.completed v) = .completed v := by
    have quietThere : ((freeHead h (s.withBegun n)).bus b).abort = none := quiet
    unfold State.outcomeOn
    rw [quietThere]
  rw [endTest_of_test testThere, outcome, handOn_testDone n test]

/-- A completed test changes no bus record, no program and no link before its bus is dealt with. -/
theorem testDone_only (s : State) (h : HeadNo) (b : BusNo) (e : TestEntry) (v : Verdict) (rs : StepRecords) :
    OnlyChanges [.heads, .news, .writerQueue, .outbox, .ticketSeq, .droppedBefore, .droppedTotal, .flags, .lines, .register, .coalescing,
      .groups, .alarmList, .alarmOverflow, .focus] s (s.testDone h b e v rs) := by
  have before : OnlyChanges [.heads, .news, .writerQueue, .lines] s
      { s with heads := putEntry s.heads h Head.free,
               writerQueue := s.writerQueue ++ s.finalEntries b (.completed v) (some h) rs,
               lines := putEntry s.lines e.line { s.line e.line with lastTest := some { verdict := v, epoch := s.epoch } } } := by
    intro f hf; cases f <;> first | rfl | exact ⟨rfl, fun _ => rfl⟩ | simp at hf
  exact before.comp (takeVerdict_only e.line v e.cls rs _) rfl

/-- The test of a bus is dropped: the bus is left without it, and its program is gone. -/
theorem dropTest_look_view (b : BusNo) (p : Bool) (s : State) :
    ((dropTest b s).look p).bus b = { s.bus b with test := none, abort := none } ∧ OtherBuses b s ((dropTest b s).look p) ∧
      ((dropTest b s).look p).program b = none ∧ OtherPrograms b s ((dropTest b s).look p) ∧
      OnlyChanges [.buses, .programs, .cancelSinceLook] s ((dropTest b s).look p) := by
  refine ⟨?_, fun x other => ?_, ?_, fun x other => ?_, (dropTest_only b s).comp (look_only p _) rfl⟩
  · rw [State.look_view_bus, dropTest_view_bus_self]
  · rw [State.look_view_bus, dropTest_otherBuses b s x other]
  · simp [dropTest]
  · simp [dropTest, State.setProgram_view_program, other.symm]

section
variable {s : State} {h : HeadNo} {b : BusNo} {e : TestEntry} {n : Begun} {v : Verdict} {rs : StepRecords}
  (test : (s.bus b).test = some e) (quiet : (s.bus b).abort = none)
include test quiet

/-- What ends a completed test sees of its bus. -/
theorem completeTest_eq : completeTest h b v rs (s.withBegun n) =
    if (s.bus b).hold && (TestOutcome.completed v).mayHold then
      holdBus b ((dropTest b ((s.testDone h b e v rs).withBegun n)).look (e.cls == .sweep))
    else startRelease b ((dropTest b ((s.testDone h b e v rs).withBegun n)).look (e.cls == .sweep)) := by
  have outcome : (s.bus b).endOutcome (.completed v) = .completed v := by simp [Bus.endOutcome, quiet]
  have same : (s.withBegun n).bus b = s.bus b := rfl
  unfold completeTest
  rw [endTest_testDone n test quiet, same, outcome]

/-- A completed test whose bus sends OPEN (R39), as seen from what was handed on; the frame is that of the steps after it. -/
theorem completeTest_released (unheld : ((s.bus b).hold && (TestOutcome.completed v).mayHold) = false) :
    let t := completeTest h b v rs (s.withBegun n)
    t.bus b = (s.bus b).sentOpen ∧ OtherBuses b s t ∧ t.program b = none ∧ OtherPrograms b s t ∧
      t.matrixOut = s.matrixOut ++ [.opening b] ∧ Looked (e.cls = .sweep) s t ∧
      OnlyChanges [.programs, .buses, .matrixOut, .cancelSinceLook, .begun] (s.testDone h b e v rs) t ∧
      t.begun = n ∧ t.newsEntries = (s.testDone h b e v rs).newsEntries := by
  intro t
  have reached : t = startRelease b ((dropTest b ((s.testDone h b e v rs).withBegun n)).look (e.cls == .sweep)) :=
    (completeTest_eq test quiet).trans (if_neg (by simp [unheld]))
  have done := (testDone_only s h b e v rs).comp (withBegun_only n _) (hs := [.heads, .news, .writerQueue, .outbox, .ticketSeq,
    .droppedBefore, .droppedTotal, .flags, .lines, .register, .coalescing, .groups, .alarmList, .alarmOverflow, .focus, .begun]) rfl
  obtain ⟨bus, buses, program, programs, dropped⟩ :=
    dropTest_look_view b (e.cls == .sweep) ((s.testDone h b e v rs).withBegun n)
  obtain ⟨sentOpen, others, sent⟩ :=
    startRelease_view b ((dropTest b ((s.testDone h b e v rs).withBegun n)).look (e.cls == .sweep))
  have released := startRelease_only b ((dropTest b ((s.testDone h b e v rs).withBegun n)).look (e.cls == .sweep))
  have only := ((withBegun_only n (s.testDone h b e v rs)).comp dropped (hs := [.programs, .buses, .cancelSinceLook, .begun])
    rfl).comp released (hs := [.programs, .buses, .matrixOut, .cancelSinceLook, .begun]) rfl
  rw [reached]
  refine ⟨?_, fun x other => ?_, ?_, programs.framed done released, ?_, ?_, only, ?_, only.get .news rfl⟩
  · rw [sentOpen, bus, done.bus rfl, Bus.sentOpen]
  · rw [others x other, buses x other, done.bus rfl]
  · rw [released.program rfl, program]
  · exact sent.trans (congrArg (· ++ _) ((dropped.get .matrixOut rfl).trans (done.get .matrixOut rfl)))
  · exact (looked_look (by simp) _).framed (done.comp (dropTest_only b _) (hs := [.heads, .news, .writerQueue, .outbox, .ticketSeq,
      .droppedBefore, .droppedTotal, .flags, .lines, .register, .coalescing, .groups, .alarmList, .alarmOverflow, .focus, .begun,
      .buses, .programs]) rfl) released
  · exact (released.get .begun rfl).trans (dropped.get .begun rfl)

/-- A completed test whose bus is HELD (R39, R46). -/
theorem completeTest_held (holds : ((s.bus b).hold && (TestOutcome.completed v).mayHold) = true) :
    let t := completeTest h b v rs (s.withBegun n)
    t.bus b = { s.bus b with
        state := .held, test := none, abort := none,
        timer := if s.limit Anchor.holdLimit = 0 then none else some (.hold, 1000 * s.limit Anchor.holdLimit) } ∧
      OtherBuses b s t ∧ t.program b = none ∧ OtherPrograms b s t ∧ t.matrixOut = s.matrixOut ∧ Looked True s t ∧
      OnlyChanges [.programs, .buses, .cancelSinceLook, .begun] (s.testDone h b e v rs) t ∧ t.begun = n ∧
      t.newsEntries = (s.testDone h b e v rs).newsEntries := by
  intro t
  have reached : t = holdBus b ((dropTest b ((s.testDone h b e v rs).withBegun n)).look (e.cls == .sweep)) :=
    (completeTest_eq test quiet).trans (if_pos holds)
  have done := (testDone_only s h b e v rs).comp (withBegun_only n _) (hs := [.heads, .news, .writerQueue, .outbox, .ticketSeq,
    .droppedBefore, .droppedTotal, .flags, .lines, .register, .coalescing, .groups, .alarmList, .alarmOverflow, .focus, .begun]) rfl
  obtain ⟨bus, buses, program, programs, dropped⟩ :=
    dropTest_look_view b (e.cls == .sweep) ((s.testDone h b e v rs).withBegun n)
  have held := holdBus_only b ((dropTest b ((s.testDone h b e v rs).withBegun n)).look (e.cls == .sweep))
  have only := ((withBegun_only n (s.testDone h b e v rs)).comp dropped (hs := [.programs, .buses, .cancelSinceLook, .begun])
    rfl).comp held (hs := [.programs, .buses, .cancelSinceLook, .begun]) rfl
  have anchor : ((dropTest b ((s.testDone h b e v rs).withBegun n)).look (e.cls == .sweep)).anchor = s.anchor :=
    (dropped.get .anchor rfl).trans (done.get .anchor rfl)
  have limit : ((dropTest b ((s.testDone h b e v rs).withBegun n)).look (e.cls == .sweep)).limit Anchor.holdLimit =
      s.limit Anchor.holdLimit := by rw [State.limit, anchor, State.limit]
  rw [reached]
  refine ⟨?_, fun x other => ?_, ?_, programs.framed done held, ?_, ⟨fun _ => by simp [holdBus], fun none => absurd trivial none⟩,
    only, ?_, only.get .news rfl⟩
  · rw [holdBus_view_bus_self, bus, done.bus rfl, limit]
  · rw [holdBus_otherBuses b _ x other, buses x other, done.bus rfl]
  · rw [held.program rfl, program]
  · exact (held.get .matrixOut rfl).trans ((dropped.get .matrixOut rfl).trans (done.get .matrixOut rfl))
  · exact (held.get .begun rfl).trans (dropped.get .begun rfl)

end

theorem mayHold_of_is {rs : StepRecords} {d : Verdict} (h : VerdictIs rs d) : (TestOutcome.completed d).mayHold = true := by
  rcases h with ⟨rfl, -⟩ | ⟨k, -, rfl, -⟩
  · rfl
  · rfl

theorem heardReading_withBegun (h : HeadNo) (s : State) : heardReading h s = s.withBegun (heardReading h s).begun := rfl

/-- Settles O25: the program ends in `completeTest`, whose bus is held by its hold flag and otherwise released. -/
theorem readingEndsProgram : Obligations.ReadingEndsProgram := by
  rintro s h b k p a st v c x e rs d inForce attached joined step program last compared safe inside outside test quiet rfl verdict
  have answered := exec_reading_advances inForce attached joined step program compared safe inside outside
  generalize putEntry p.steps k { status := x, reading := some (st, c) } = rs at answered verdict ⊢
  have ended : advanceProgram h b p rs (heardReading h s) = completeTest h b d rs (s.withBegun (heardReading h s).begun) := by
    rw [heardReading_withBegun h s]
    simp only [advanceProgram, last, verdictOf_of_is verdict]
    rfl
  rw [ended] at answered
  have ends := finish_only s (completeTest h b d rs (s.withBegun (heardReading h s).begun))
  have may := mayHold_of_is verdict
  have heard := heardReading_heard h s
  refine ⟨_, answered, ?_⟩
  cases hold : (s.bus b).hold with
  | true =>
    obtain ⟨bus, buses, gone, programs, unsent, looked, only, begun, news⟩ :=
      completeTest_held (h := h) (n := (heardReading h s).begun) (v := d) (rs := rs) test quiet (by rw [hold, may]; rfl)
    refine ⟨(ends.program rfl b).trans gone, programs.framed (.refl [] s) ends, buses.framed (.refl [] s) ends,
      fun _ => ⟨?_, (ends.get .matrixOut rfl).trans unsent⟩, fun other => absurd other (by simp), ?_,
      ⟨fun _ => (ends.get .cancelSinceLook rfl).trans (looked.1 trivial), fun none => absurd (Or.inl rfl) none⟩,
      only.comp ends rfl, (finish_news _ _).trans news⟩
    · rw [ends.bus rfl, bus]
      simp [State.limit, inForce, quiet]
    · unfold ReadingHeard HeadShown at heard ⊢
      rwa [finish_begun, begun]
  | false =>
    obtain ⟨bus, buses, gone, programs, sent, looked, only, begun, news⟩ :=
      completeTest_released (h := h) (n := (heardReading h s).begun) (v := d) (rs := rs) test quiet (by rw [hold]; rfl)
    refine ⟨(ends.program rfl b).trans gone, programs.framed (.refl [] s) ends, buses.framed (.refl [] s) ends,
      fun other => absurd other (by simp), fun _ => ⟨(ends.bus rfl b).trans bus, (ends.get .matrixOut rfl).trans sent⟩, ?_, ?_,
      only.comp ends rfl, (finish_news _ _).trans news⟩
    · unfold ReadingHeard HeadShown at heard ⊢
      rwa [finish_begun, begun]
    · simpa using looked.framed (.refl [] s) ends

/-- Settles O26: the hazard stop is a completed test whose bus is never held, and raises HAZARD. -/
theorem hazardStops : Obligations.HazardStops := by
  intro s h b k p a st v c e rs inForce attached joined step program compared hazard test quiet failed kept suspect
  have answered := exec_reading_stops inForce attached joined step program compared hazard
  rw [hazardRecords_of_is failed kept suspect, hazardStop, heardReading_withBegun h s] at answered
  obtain ⟨bus, buses, gone, programs, sent, looked, only, begun, news⟩ :=
    completeTest_released (h := h) (n := (heardReading h s).begun) (v := .hazard) (rs := rs) test quiet
      (by simp [TestOutcome.mayHold])
  have raised := raiseFlag_only .hazard (completeTest h b .hazard rs (s.withBegun (heardReading h s).begun))
  have ends := finish_only s ((completeTest h b .hazard rs (s.withBegun (heardReading h s).begun)).raiseFlag .hazard)
  have after := raised.comp ends (hs := [.flags, .writerQueue, .readHold]) rfl
  have heard := heardReading_heard h s
  refine ⟨_, answered, (after.program rfl b).trans gone, programs.framed (.refl [] s) after, (after.bus rfl b).trans bus,
    buses.framed (.refl [] s) after, (after.get .matrixOut rfl).trans sent, (flagRaised_raiseFlag .hazard _).framed only ends,
    (otherFlags_raiseFlag .hazard _).framed only ends, ?_, looked.framed (.refl [] s) after, only.comp after rfl,
    (after.get .news rfl).trans news⟩
  unfold ReadingHeard HeadShown at heard ⊢
  have same : (finish s _).begun = (heardReading h s).begun := (after.get .begun rfl).trans begun
  rwa [same]

end Sys2Proof.Machine
end

section
/-!
PROOFS. Aborts and clears that end (R74, R78), and heads that fail while the other is in service or while they clear (R69–R72, R75).
-/

namespace Sys2Proof.Machine

/-! ## The head of a test that ends -/

theorem abortedRecords_of_program {s : State} {b : BusNo} {p : StepProgram} (program : s.program b = some p) (k : StepKind) :
    s.abortedRecords b k = putEntry p.steps k { status := .aborted, reading := none } := by
  simp only [State.abortedRecords, State.stepRecords, program]

/-- A head record is replaced, its bus's test ends and the bus sends OPEN (R69, R74), after what the command heard (`fs`). -/
theorem head_released {s u : State} {h : HeadNo} {r : Head} {b : BusNo} {o : TestOutcome} {e : TestEntry} (rs : StepRecords)
    (heard : OnlyChanges [.begun] s u) (test : (s.bus b).test = some e) (verdict : (s.outcomeOn b o).verdict = none) :
    Released b (s.outcomeOn b o) (some h) rs e (u.setHead h r) (startRelease b (endTest b o (some h) rs (u.setHead h r))) := by
  have before := heard.comp (setHead_only h r u) (hs := [.begun, .heads]) rfl
  have outcome := outcomeOn_framed before b o
  rw [← outcome]
  exact endTest_startRelease_released (some h) rs (by rw [before.bus rfl]; exact test) (by rwa [outcome])

theorem setHead_released_heads {s u : State} {h : HeadNo} {r : Head} {b : BusNo} {o : TestOutcome} {hd : Option HeadNo}
    {rs : StepRecords} {e : TestEntry} {t : State} (heard : OnlyChanges [.begun] s u) (ended : Released b o hd rs e (u.setHead h r) t) :
    t.head h = r ∧ OtherHeads h s t := by
  refine ⟨?_, (setHead_otherHeads h r u).framed heard ended.only⟩
  rw [ended.only.head rfl, State.setHead_view_head_self]

/-! ## Aborts (R74) -/

/-- An abort has ended, after what the command heard. -/
theorem endAbort_view {s u : State} {h : HeadNo} {b : BusNo} {k : StepKind} {p : StepProgram} {e : TestEntry}
    (heard : OnlyChanges [.begun] s u) (joined : (s.head h).bus = some b) (step : (s.head h).step = some k)
    (program : s.program b = some p) (test : (s.bus b).test = some e) (aborting : (s.bus b).abort ≠ none) :
    (finish s (endAbort h u)).head h = Head.free ∧ OtherHeads h s (finish s (endAbort h u)) ∧
      (finish s (endAbort h u)).newsEntries = s.newsEntries ++
        s.finalEntries b (s.outcomeOn b .cancelled) (some h) (putEntry p.steps k { status := .aborted, reading := none }) ∧
      (finish s (endAbort h u)).bus b = (s.bus b).sentOpen ∧ OtherBuses b s (finish s (endAbort h u)) ∧
      (finish s (endAbort h u)).program b = none ∧ OtherPrograms b s (finish s (endAbort h u)) ∧
      (finish s (endAbort h u)).matrixOut = s.matrixOut ++ [.opening b] ∧ Looked (e.cls = .sweep) s (finish s (endAbort h u)) ∧
      OnlyChanges [.heads, .news, .writerQueue, .readHold, .buses, .programs, .matrixOut, .cancelSinceLook] u
        (finish s (endAbort h u)) := by
  have reached : endAbort h u = startRelease b (endTest b .cancelled (some h)
      (putEntry p.steps k { status := .aborted, reading := none }) (u.setHead h Head.free)) := by
    have program : u.program b = some p := (heard.program rfl b).trans program
    unfold endAbort
    rw [heard.head rfl, joined, step]
    dsimp only
    rw [abortedRecords_of_program program]
    rfl
  have ended := head_released (h := h) (r := Head.free) (o := .cancelled)
    (putEntry p.steps k { status := .aborted, reading := none }) heard test (outcomeOn_verdict (.inl aborting))
  rw [reached]
  have freed := setHead_only h Head.free u
  have before := heard.comp freed (hs := [.begun, .heads]) rfl
  have ends := finish_only s (startRelease b (endTest b .cancelled (some h)
    (putEntry p.steps k { status := .aborted, reading := none }) (u.setHead h Head.free)))
  obtain ⟨head, heads⟩ := setHead_released_heads heard ended
  obtain ⟨news, bus, buses, gone, programs, sent, looked⟩ := ended.framed before ends
  exact ⟨(ends.head rfl h).trans head, heads.framed (.refl [] s) ends, news, bus, buses, gone, programs, sent, looked,
    (freed.comp ended.only (hs := [.heads, .news, .writerQueue, .buses, .programs, .matrixOut, .cancelSinceLook]) rfl).comp ends rfl⟩

/-- A READING of an ABORTING head ends its abort. -/
theorem exec_reading_of_aborting {s : State} {h : HeadNo} (aborting : (s.head h).state = .aborting) (st : ReadingStatus)
    (v : BitVec 16) : exec (.reading h.val (some st) v) s = .next (finish s (endAbort h (heardReading h s))) := by
  rw [exec_reading, readHead, (heardReading_only h s).head rfl, aborting]

/-! ## Clears (R78) -/

theorem ready_view {s : State} {h : HeadNo} (clearing : (s.head h).state = .clearing) :
    ∃ t, exec (.ready h.val) s = .next t ∧ t.head h = Head.free ∧ OtherHeads h s t ∧ FlagRaised .head s t ∧
      OtherFlags [.head] s t ∧ ReadyHeard h s t ∧ Looked True s t ∧
      OnlyChanges [.heads, .flags, .cancelSinceLook, .writerQueue, .readHold, .begun] s t := by
  have heard := heardReady_only h s
  have freed := freeHead_only h (heardReady h s)
  have looks := look_only true (freeHead h (heardReady h s))
  have raised := raiseFlag_only .head ((freeHead h (heardReady h s)).look true)
  have ends := finish_only s (((freeHead h (heardReady h s)).look true).raiseFlag .head)
  have before := (heard.comp freed (hs := [.begun, .heads]) rfl).comp looks (hs := [.begun, .heads, .cancelSinceLook]) rfl
  have flagged := raised.comp ends (hs := [.flags, .writerQueue, .readHold]) rfl
  have after := looks.comp flagged (hs := [.cancelSinceLook, .flags, .writerQueue, .readHold]) rfl
  refine ⟨_, (exec_ready h s).trans (if_pos clearing), ?_, (setHead_otherHeads h _ _).framed heard after,
    (flagRaised_raiseFlag .head _).framed before ends, (otherFlags_raiseFlag .head _).framed before ends,
    (heardReady_heard h s).framed (freed.comp after (hs := [.heads, .cancelSinceLook, .flags, .writerQueue, .readHold]) rfl),
    (looked_look (by simp) _).framed (heard.comp freed (hs := [.begun, .heads]) rfl) flagged, before.comp flagged rfl⟩
  rw [after.head rfl, freeHead, State.setHead_view_head_self]
  rfl

theorem clearTimer_view {s : State} {h : HeadNo} {n : Nat} (clearing : (s.head h).state = .clearing)
    (timer : (s.head h).timer = some (.clear, n)) :
    ∃ t, exec (.clearTimerExpiry h) s = .next t ∧ t.head h = Head.suspect ∧ OtherHeads h s t ∧ FlagRaised .head s t ∧
      OtherFlags [.head] s t ∧ OnlyChanges [.heads, .flags, .writerQueue, .readHold] s t := by
  have suspected := suspectHead_only h s
  have ends := finish_only s ((suspectHead h s).raiseFlag .head)
  have after := (raiseFlag_only .head (suspectHead h s)).comp ends (hs := [.flags, .writerQueue, .readHold]) rfl
  refine ⟨_, exec_clearTimerExpiry clearing timer, ?_, (setHead_otherHeads h _ s).framed (.refl [] s) after,
    (flagRaised_raiseFlag .head _).framed suspected ends, (otherFlags_raiseFlag .head _).framed suspected ends,
    suspected.comp after rfl⟩
  rw [after.head rfl, suspectHead, State.setHead_view_head_self]
  rfl

/-- Settles O27: an ABORTED and a READING end an abort alike, a READY and the clear timer end a clear. -/
theorem abortsAndClearsEnd : Obligations.AbortsAndClearsEnd := by
  refine ⟨fun s h b k p e c aborting joined step program test pending answer => ?abort,
    fun s h clearing => ⟨ready_view clearing, fun n timer => clearTimer_view clearing timer⟩⟩
  rcases answer with rfl | ⟨st, v, rfl⟩
  · have heard := heardAborted_only h s
    obtain ⟨head, heads, news, bus, buses, gone, programs, sent, looked, only⟩ := endAbort_view heard joined step program test pending
    exact ⟨_, (exec_aborted h s).trans (if_pos aborting), head, heads, news, bus, buses, gone, programs, sent,
      fun _ => (heardAborted_heard h s).framed only, fun other => absurd rfl other, looked, heard.comp only rfl⟩
  · have heard := heardReading_only h s
    obtain ⟨head, heads, news, bus, buses, gone, programs, sent, looked, only⟩ := endAbort_view heard joined step program test pending
    exact ⟨_, exec_reading_of_aborting aborting st v, head, heads, news, bus, buses, gone, programs, sent,
      fun other => absurd other (by simp), fun _ => (heardReading_heard h s).framed only, looked, heard.comp only rfl⟩

/-! ## Head failures (R69–R72, R75) -/

/-- Each failure of a joined head is the command's `failHead`. -/
theorem exec_of_joinedFailure {s : State} {h : HeadNo} {c : Instr} {kind : TicketKind} {o : TestOutcome} {ms : Nat}
    (fails : JoinedFailure s h c kind o ms) :
    exec c s = .next (finish s (failHead h kind o ms s)) ∧ (s.head h).state.inService = true ∧ kind.isEquipment = true ∧
      o.verdict = none := by
  rcases fails with ⟨rfl, attached, ⟨n, timer⟩, rfl, rfl, k, step, rfl⟩ | ⟨rfl, aborting, ⟨n, timer⟩, rfl, rfl, rfl⟩ |
    ⟨rfl, state, rfl, rfl, rfl⟩
  · refine ⟨(exec_stepWatchdogExpiry attached timer).trans ?_, by rw [attached]; rfl, rfl, rfl⟩
    simp only [Head.watchdogValue, step]
  · exact ⟨exec_abortTimerExpiry aborting timer, by rw [aborting]; rfl, rfl, rfl⟩
  · have taken : (s.head h).state ≠ .suspect ∧ (s.head h).state ≠ .free ∧ (s.head h).state.inService = true := by
      rcases state with state | state
      all_goals rw [state]; exact ⟨by simp, by simp, rfl⟩
    obtain ⟨taken, busy, serving⟩ := taken
    exact ⟨(exec_headError taken).trans (by rw [if_neg busy]), serving, rfl, rfl⟩

theorem headContext_of_joined {s : State} {h : HeadNo} {b : BusNo} {k : StepKind} (joined : (s.head h).bus = some b)
    (step : (s.head h).step = some k) (ms : Nat) : headContext s h ms = s.joinedContext h b k ms := by
  simp [headContext, State.joinedContext, joined, step]

theorem headContext_of_alone {s : State} {h : HeadNo} (bus : (s.head h).bus = none) (step : (s.head h).step = none) (ms : Nat) :
    headContext s h ms =
      { bus := none, head := some h, step := none, busState := none, headState := some (s.head h).state, line := none, claim := 0,
        elapsed := ms } := by simp [headContext, bus, step]

theorem endFailedTest_of_joined {s : State} {h : HeadNo} {b : BusNo} {k : StepKind} {p : StepProgram}
    (joined : (s.head h).bus = some b) (step : (s.head h).step = some k) (program : s.program b = some p) (o : TestOutcome) :
    endFailedTest h o s = startRelease b (endTest b o (some h)
      (putEntry p.steps k { status := .aborted, reading := none }) (s.setHead h Head.suspect)) := by
  unfold endFailedTest
  rw [joined, step]
  dsimp only
  rw [abortedRecords_of_program program]
  rfl

theorem endFailedTest_of_alone {s : State} {h : HeadNo} (bus : (s.head h).bus = none) (o : TestOutcome) :
    endFailedTest h o s = s.setHead h Head.suspect := by
  unfold endFailedTest
  rw [bus]
  rfl

/-- The head is out of service and its event handed on; what is left of `failHead` is the loss of the last head. -/
def failedHead (h : HeadNo) (kind : TicketKind) (o : TestOutcome) (ms : Nat) (s : State) : State :=
  (equipmentEvent kind (headContext s h ms) (endFailedTest h o s)).raiseFlag .head

theorem failHead_eq (h : HeadNo) (kind : TicketKind) (o : TestOutcome) (ms : Nat) (s : State) :
    failHead h kind o ms s =
      if (s.head h).state.inService then lossOfLastHead (failedHead h kind o ms s) else failedHead h kind o ms s := rfl

theorem headInService_iff (s : State) : s.headInService = true ↔ ∃ h, (s.head h).state.inService = true := by
  simp [State.headInService, allHeads, Fin.exists_fin_two]

theorem lossOfLastHead_of_inService {s : State} {x : HeadNo} (serving : (s.head x).state.inService = true) : lossOfLastHead s = s :=
  if_pos ((headInService_iff s).mpr ⟨x, serving⟩)

/-- What a failing head that is joined to a bus leaves, before the loss of the last head is looked at. -/
theorem failedHead_joined {s : State} {h : HeadNo} {b : BusNo} {k : StepKind} {p : StepProgram} {e : TestEntry} {kind : TicketKind}
    {o : TestOutcome} (equipment : kind.isEquipment = true) (verdict : o.verdict = none) (joined : (s.head h).bus = some b)
    (step : (s.head h).step = some k) (program : s.program b = some p) (test : (s.bus b).test = some e) (ms : Nat) :
    ∃ v, Released b (s.outcomeOn b o) (some h) (putEntry p.steps k { status := .aborted, reading := none }) e
        (s.setHead h Head.suspect) v ∧ OnlyChanges outboxFields v (failedHead h kind o ms s) ∧
      EventHandedOver kind (s.joinedContext h b k ms) s (failedHead h kind o ms s) ∧
      FlagRaised .head s (failedHead h kind o ms s) ∧ OtherFlags [.head, .drop] s (failedHead h kind o ms s) := by
  have ended := head_released (h := h) (r := Head.suspect) (o := o)
    (putEntry p.steps k { status := .aborted, reading := none }) (OnlyChanges.refl [.begun] s) test (outcomeOn_verdict (.inr verdict))
  rw [← endFailedTest_of_joined joined step program] at ended
  obtain ⟨handed, raised, others, outbox⟩ := event_raise_view equipment (g := .head) (by decide) (headContext s h ms)
    ((setHead_only h Head.suspect s).comp ended.only
      (hs := [.heads, .news, .writerQueue, .buses, .programs, .matrixOut, .cancelSinceLook]) rfl) rfl
  exact ⟨_, ended, outbox, headContext_of_joined joined step ms ▸ handed, raised, others⟩

/-- What a failing head without a bus leaves, before the loss of the last head is looked at. -/
theorem failedHead_alone {s : State} {h : HeadNo} {kind : TicketKind} (equipment : kind.isEquipment = true)
    (bus : (s.head h).bus = none) (step : (s.head h).step = none) (o : TestOutcome) (ms : Nat) :
    OnlyChanges outboxFields (s.setHead h Head.suspect) (failedHead h kind o ms s) ∧
      EventHandedOver kind
        { bus := none, head := some h, step := none, busState := none, headState := some (s.head h).state, line := none, claim := 0,
          elapsed := ms } s (failedHead h kind o ms s) ∧
      FlagRaised .head s (failedHead h kind o ms s) ∧ OtherFlags [.head, .drop] s (failedHead h kind o ms s) := by
  obtain ⟨handed, raised, others, outbox⟩ := event_raise_view equipment (g := .head) (by decide) (headContext s h ms)
    (setHead_only h Head.suspect s) rfl
  rw [← endFailedTest_of_alone bus o] at handed raised others outbox
  exact ⟨endFailedTest_of_alone bus o ▸ outbox, headContext_of_alone bus step ms ▸ handed, raised, others⟩

/-- Settles O28: with the other head in service, or from CLEARING, no more follows than `failedHead`. -/
theorem headFails : Obligations.HeadFails := by
  refine ⟨fun s h b k p e c kind o ms fails joined step program test other => ?joined, fun s h ms bus step state => ?alone⟩
  case joined =>
    obtain ⟨answered, -, equipment, verdict⟩ := exec_of_joinedFailure fails
    obtain ⟨v, ended, outbox, handed, raised, others⟩ := failedHead_joined equipment verdict joined step program test ms
    obtain ⟨head, heads⟩ := setHead_released_heads (.refl _ s) ended
    obtain ⟨x, away, serving⟩ := other
    have still : failHead h kind o ms s = failedHead h kind o ms s := by
      rw [failHead_eq, lossOfLastHead_of_inService (x := x) (by rw [outbox.head rfl, heads x away]; exact serving), ite_self]
    have ends := finish_only s (failedHead h kind o ms s)
    have after := outbox.comp ends (hs := outboxFields ++ [.writerQueue, .readHold]) rfl
    obtain ⟨news, sentOpen, buses, gone, programs, sent, looked⟩ := ended.framed (setHead_only h Head.suspect s) after
    exact ⟨_, answered.trans (by rw [still]), (after.head rfl h).trans head, heads.framed (.refl [] s) after, news, sentOpen, buses,
      gone, programs, sent, handed.framed (.refl [] s) ends, raised.framed (.refl [] s) ends, others.framed (.refl [] s) ends, looked,
      ((setHead_only h Head.suspect s).comp ended.only
        (hs := [.heads, .news, .writerQueue, .buses, .programs, .matrixOut, .cancelSinceLook]) rfl).comp after rfl⟩
  case alone =>
    obtain ⟨outbox, handed, raised, others⟩ := failedHead_alone (kind := .headError) rfl bus step .headError ms
    have heads := setHead_otherHeads h Head.suspect s
    have still : failHead h .headError .headError ms s = failedHead h .headError .headError ms s := by
      rw [failHead_eq]
      rcases state with ⟨-, -, x, away, serving⟩ | ⟨clearing, -⟩
      · rw [lossOfLastHead_of_inService (x := x) (by rw [outbox.head rfl, heads x away]; exact serving), ite_self]
      · rw [clearing]
        rfl
    have answered : exec (.headError h.val) s = .next (finish s (failedHead h .headError .headError ms s)) := by
      rw [← still]
      rcases state with ⟨free, rfl, -⟩ | ⟨clearing, rfl⟩
      · rw [exec_headError (by simp [free]), if_pos free]
      · rw [exec_headError (by simp [clearing]), if_neg (by simp [clearing])]
    have ends := finish_only s (failedHead h .headError .headError ms s)
    have after := outbox.comp ends (hs := outboxFields ++ [.writerQueue, .readHold]) rfl
    refine ⟨_, answered, ?_, heads.framed (.refl [] s) after, handed.framed (.refl [] s) ends, raised.framed (.refl [] s) ends,
      others.framed (.refl [] s) ends, (setHead_only h Head.suspect s).comp after rfl⟩
    rw [after.head rfl, State.setHead_view_head_self]

end Sys2Proof.Machine
end

section
/-!
PROOFS. The loss of the last head (R45, R76): the waiting buses end their tests one after another, then the claiming and seizing ones
take NO_HEAD; and what the failing head's own bus did before that stands.
-/

namespace Sys2Proof.Machine

/-! ## Events one after another -/

theorem Looked.comp {p q : Prop} {s t u : State} (h : Looked p s t) (k : Looked q t u) : Looked (p ∨ q) s u := by
  by_cases later : q
  · exact ⟨fun _ => k.1 later, fun neither => absurd (.inr later) neither⟩
  · refine ⟨fun one => ?_, fun neither => ?_⟩
    · exact (k.2 later).trans (h.1 (one.resolve_right later))
    · exact (k.2 later).trans (h.2 fun first => neither (.inl first))

theorem Looked.congr {p q : Prop} {s t : State} (h : Looked p s t) (same : p ↔ q) : Looked q s t :=
  ⟨fun event => h.1 (same.mpr event), fun none => h.2 fun event => none (same.mp event)⟩

/-! ## The waiting buses (R45) -/

/-- What stands for the test of a waiting bus when the last head is lost. -/
def State.noHeadEntries (s : State) (b : BusNo) : List WriterEntry :=
  s.finalEntries b (s.outcomeOn b .noHead) none StepRecords.notRun

theorem noHeadEntries_congr {s t : State} {b : BusNo} (bus : t.bus b = s.bus b) (epoch : t.epoch = s.epoch) :
    t.noHeadEntries b = s.noHeadEntries b := by
  unfold State.noHeadEntries State.finalEntries State.outcomeOn
  rw [bus, epoch]

/-- The tests of some waiting buses have ended NO_HEAD, in their order (log 17). -/
structure WaitsEnded (q : List BusNo) (s t : State) : Prop where
  waitQueue : t.waitQueue = s.waitQueue.filter fun x => decide (x ∉ q)
  news : t.newsEntries = s.newsEntries ++ q.flatMap s.noHeadEntries
  matrixOut : t.matrixOut = s.matrixOut ++ q.map MatrixMessage.opening
  ended : ∀ b ∈ q, t.bus b = (s.bus b).sentOpen ∧ t.program b = none
  others : ∀ b, b ∉ q → t.bus b = s.bus b ∧ t.program b = s.program b
  looked : Looked (∃ b ∈ q, ∃ e, (s.bus b).test = some e ∧ e.cls = .sweep) s t
  only : OnlyChanges [.news, .writerQueue, .buses, .programs, .waitQueue, .matrixOut, .cancelSinceLook] s t

theorem foldl_endWaiting_ended {q : List BusNo} {s : State} (each : q.Nodup) (tests : ∀ b ∈ q, (s.bus b).test ≠ none) :
    WaitsEnded q s (q.foldl (fun t b => endWaiting b .noHead t) s) := by
  induction q generalizing s with
  | nil =>
    exact ⟨by simp, by simp, by simp, by simp, fun _ _ => ⟨rfl, rfl⟩, ⟨by simp, fun _ => rfl⟩, .refl _ s⟩
  | cons b bs ih =>
    obtain ⟨away, each⟩ := List.nodup_cons.mp each
    obtain ⟨e, test⟩ := Option.ne_none_iff_exists'.mp (tests b (by simp))
    have first : WaitEnded b (s.outcomeOn b .noHead) e s (endWaiting b .noHead s) :=
      endWaiting_ended test (outcomeOn_verdict (.inr rfl))
    have other {x : BusNo} (mem : x ∈ bs) : x ≠ b := fun same => away (same ▸ mem)
    have bus {x : BusNo} (mem : x ∈ bs) : (endWaiting b .noHead s).bus x = s.bus x := first.buses x (other mem)
    have epoch : (endWaiting b .noHead s).epoch = s.epoch := first.only.get .epoch rfl
    have rest := ih (s := endWaiting b .noHead s) each fun x mem => by rw [bus mem]; exact tests x (by simp [mem])
    have entries : bs.flatMap (endWaiting b .noHead s).noHeadEntries = bs.flatMap s.noHeadEntries :=
      List.flatMap_congr fun x mem => noHeadEntries_congr (bus mem) epoch
    rw [List.foldl_cons]
    refine
      { waitQueue := ?_
        news := ?_
        matrixOut := ?_
        ended := fun x mem => ?_
        others := fun x out => ?_
        looked := (first.looked.comp rest.looked).congr ?_
        only := first.only.comp rest.only rfl }
    · rw [rest.waitQueue, first.waitQueue, List.filter_filter]
      exact List.filter_congr fun x _ => by by_cases same : x = b <;> simp [same]
    · rw [rest.news, first.news, entries, List.flatMap_cons, List.append_assoc]
      rfl
    · rw [rest.matrixOut, first.matrixOut, List.map_cons, List.append_assoc]
      rfl
    · rcases List.mem_cons.mp mem with rfl | mem
      · rw [(rest.others x away).1, (rest.others x away).2]
        exact ⟨first.bus, first.program⟩
      · rw [← bus mem]
        exact rest.ended x mem
    · have out : x ≠ b ∧ x ∉ bs := by simpa using out
      rw [(rest.others x out.2).1, (rest.others x out.2).2]
      exact ⟨first.buses x out.1, first.programs x out.1⟩
    · constructor
      · rintro (sweep | ⟨x, mem, f, testThere, sweep⟩)
        · exact ⟨b, by simp, e, test, sweep⟩
        · exact ⟨x, by simp [mem], f, by rwa [← bus mem], sweep⟩
      · rintro ⟨x, mem, f, testThere, sweep⟩
        rcases List.mem_cons.mp mem with rfl | mem
        · rw [test] at testThere
          cases testThere
          exact .inl sweep
        · exact .inr ⟨x, mem, f, by rwa [bus mem], sweep⟩

/-! ## The claiming and seizing buses (R45) -/

/-- The record of a bus after the last head is lost, but for a waiting bus. -/
def Bus.losesHead (r : Bus) : Bus :=
  if (r.state = .claiming ∨ r.state = .seizing) ∧ r.abort = none then { r with abort := some .noHead } else r

theorem loseHeadOnBus_view_bus (s : State) (b x : BusNo) :
    (loseHeadOnBus s b).bus x = if b = x then (s.bus x).losesHead else s.bus x := by
  unfold loseHeadOnBus Bus.losesHead
  by_cases here : b = x
  · subst here
    rw [if_pos rfl]
    split
    · exact setAbort_view_bus_self b .noHead s
    · rfl
  · rw [if_neg here]
    split
    · exact setAbort_otherBuses b .noHead s x (Ne.symm here)
    · rfl

theorem foldl_loseHeadOnBus_view_bus {l : List BusNo} (each : l.Nodup) (s : State) (x : BusNo) :
    (l.foldl loseHeadOnBus s).bus x = if x ∈ l then (s.bus x).losesHead else s.bus x := by
  induction l generalizing s with
  | nil => rfl
  | cons b bs ih =>
    obtain ⟨away, each⟩ := List.nodup_cons.mp each
    rw [List.foldl_cons, ih each, loseHeadOnBus_view_bus]
    by_cases here : b = x
    · subst here
      rw [if_neg away, if_pos rfl, if_pos (by simp)]
    · rw [if_neg here]
      simp [Ne.symm here]

theorem Bus.losesHead_of_quiet {r : Bus} (state : r.state = .claiming ∨ r.state = .seizing) (quiet : r.abort = none) :
    r.losesHead = { r with abort := some .noHead } := if_pos ⟨state, quiet⟩

theorem Bus.losesHead_of_aborting {r : Bus} (aborting : r.abort ≠ none) : r.losesHead = r := if_neg fun h => aborting h.2

theorem Bus.losesHead_of_past {r : Bus} (claiming : r.state ≠ .claiming) (seizing : r.state ≠ .seizing) : r.losesHead = r :=
  if_neg fun h => h.1.elim claiming seizing

/-! ## Both together -/

/-- The last head of a state is lost: what becomes of the waiting buses and of all others. -/
structure HeadsLost (s t : State) : Prop where
  waitQueue : t.waitQueue = []
  news : t.newsEntries = s.newsEntries ++ s.waitQueue.flatMap s.noHeadEntries
  matrixOut : t.matrixOut = s.matrixOut ++ s.waitQueue.map MatrixMessage.opening
  waiting : ∀ b ∈ s.waitQueue, t.bus b = (s.bus b).sentOpen ∧ t.program b = none
  others : ∀ b, b ∉ s.waitQueue → t.bus b = (s.bus b).losesHead ∧ t.program b = s.program b
  looked : Looked (∃ b ∈ s.waitQueue, ∃ e, (s.bus b).test = some e ∧ e.cls = .sweep) s t
  only : OnlyChanges [.news, .writerQueue, .readHold, .buses, .programs, .waitQueue, .matrixOut, .cancelSinceLook] s t

theorem HeadsLost.framed {s t u : State} (h : HeadsLost s t) (after : OnlyChanges [.writerQueue, .readHold] t u) : HeadsLost s u :=
  { waitQueue := (after.get .waitQueue rfl).trans h.waitQueue
    news := (after.get .news rfl).trans h.news
    matrixOut := (after.get .matrixOut rfl).trans h.matrixOut
    waiting := fun b mem => by
      rw [after.bus rfl, after.program rfl]
      exact h.waiting b mem
    others := fun b out => by
      rw [after.bus rfl, after.program rfl]
      exact h.others b out
    looked := h.looked.framed (.refl [] s) after
    only := h.only.comp after rfl }

theorem foldl_loseHeadOnBus_lost {s u : State} (ended : WaitsEnded s.waitQueue s u) :
    HeadsLost s (allBuses.foldl loseHeadOnBus u) := by
  have losing : OnlyChanges [.buses] u (allBuses.foldl loseHeadOnBus u) :=
    foldl_only (fun b v => loseHeadOnBus_only b v) allBuses u
  have bus (x : BusNo) : (allBuses.foldl loseHeadOnBus u).bus x = (u.bus x).losesHead := by
    rw [foldl_loseHeadOnBus_view_bus (by decide), if_pos (mem_allBuses x)]
  generalize allBuses.foldl loseHeadOnBus u = t at losing bus
  refine
    { waitQueue := ?_
      news := (losing.get .news rfl).trans ended.news
      matrixOut := (losing.get .matrixOut rfl).trans ended.matrixOut
      waiting := fun b mem => ?_
      others := fun b out => ?_
      looked := ended.looked.framed (.refl [] s) losing
      only := ended.only.comp losing rfl }
  · rw [losing.get .waitQueue rfl, ended.waitQueue, List.filter_eq_nil_iff]
    simp
  · obtain ⟨sentOpen, gone⟩ := ended.ended b mem
    rw [bus, sentOpen, losing.program rfl, gone, Bus.losesHead_of_past (by simp [Bus.sentOpen]) (by simp [Bus.sentOpen])]
    exact ⟨rfl, rfl⟩
  · obtain ⟨same, program⟩ := ended.others b out
    rw [bus, same, losing.program rfl, program]
    exact ⟨rfl, rfl⟩

theorem lossOfLastHead_lost {s : State} (last : s.headInService = false) (each : s.waitQueue.Nodup)
    (tests : ∀ b ∈ s.waitQueue, (s.bus b).test ≠ none) : HeadsLost s (lossOfLastHead s) := by
  have reached : lossOfLastHead s =
      allBuses.foldl loseHeadOnBus (s.waitQueue.foldl (fun t b => endWaiting b .noHead t) s) := if_neg (by simp [last])
  rw [reached]
  exact foldl_loseHeadOnBus_lost (foldl_endWaiting_ended each tests)

/-! ## After the failing head's own bus -/

/-- A failing head's step before the last head is looked at: `P` marks its own bus. Every other bus, and the wait queue, is as it was. -/
structure BeforeLoss (P : BusNo → Prop) (records : List WriterEntry) (opened : List MatrixMessage) (s v : State) : Prop where
  news : v.newsEntries = s.newsEntries ++ records
  matrixOut : v.matrixOut = s.matrixOut ++ opened
  waitQueue : v.waitQueue = s.waitQueue
  epoch : v.epoch = s.epoch
  others : ∀ x, ¬ P x → v.bus x = s.bus x ∧ v.program x = s.program x

/-- The loss of the last head as `LastHeadGone` sees it from before the failing head's step. -/
theorem BeforeLoss.gone {P : BusNo → Prop} {records : List WriterEntry} {opened : List MatrixMessage} {s v t : State}
    (h : BeforeLoss P records opened s v) (lost : HeadsLost v t) (waits : WaitQueueOk s)
    (own : ∀ x, P x → (s.bus x).state = .measuring) : LastHeadGone records opened s t := by
  have member (b : BusNo) : b ∈ v.waitQueue ↔ (s.bus b).state = .waitHead := by rw [h.waitQueue]; exact waits.2.1 b
  have entries : s.waitQueue.flatMap v.noHeadEntries = s.waitQueue.flatMap s.noHeadEntries :=
    List.flatMap_congr fun x mem => by
      have waiting : (s.bus x).state = .waitHead := (waits.2.1 x).mp mem
      exact noHeadEntries_congr (h.others x fun mine => by simp [own x mine] at waiting).1 h.epoch
  refine ⟨lost.waitQueue, ?_, ?_, fun b waiting => ?_, fun b early => ?_⟩
  · rw [lost.news, h.news, h.waitQueue, entries]
    rfl
  · rw [lost.matrixOut, h.matrixOut, h.waitQueue]
  · obtain ⟨same, -⟩ := h.others b fun mine => by simp [own b mine] at waiting
    rw [← same]
    exact lost.waiting b ((member b).mpr waiting)
  · obtain ⟨same, program⟩ := h.others b fun mine => by simp [own b mine] at early
    obtain ⟨bus, still⟩ := lost.others b fun mem => by
      have waiting := (member b).mp mem
      rcases early with state | state
      all_goals simp [state] at waiting
    rw [same] at bus
    refine ⟨still.trans program, fun quiet => ?_, fun aborting => ?_⟩
    · rw [bus, Bus.losesHead_of_quiet early quiet]
    · rw [bus, Bus.losesHead_of_aborting aborting]

/-- A bus that neither waits nor claims nor seizes, nor is the failing head's own, is untouched. -/
theorem BeforeLoss.untouched {P : BusNo → Prop} {records : List WriterEntry} {opened : List MatrixMessage} {s v t : State}
    (h : BeforeLoss P records opened s v) (lost : HeadsLost v t) (waits : WaitQueueOk s) {x : BusNo} (away : ¬ P x)
    (waiting : (s.bus x).state ≠ .waitHead) (claiming : (s.bus x).state ≠ .claiming) (seizing : (s.bus x).state ≠ .seizing) :
    t.bus x = s.bus x ∧ t.program x = s.program x := by
  obtain ⟨same, program⟩ := h.others x away
  obtain ⟨bus, still⟩ := lost.others x fun mem => waiting ((waits.2.1 x).mp (h.waitQueue ▸ mem))
  rw [bus, same, Bus.losesHead_of_past claiming seizing]
  exact ⟨rfl, still.trans program⟩

theorem Released.beforeLoss {b : BusNo} {o : TestOutcome} {h : Option HeadNo} {rs : StepRecords} {e : TestEntry} {s u v w : State}
    (ended : Released b o h rs e u v) (before : OnlyChanges [.heads] s u) (after : OnlyChanges outboxFields v w) :
    BeforeLoss (· = b) (s.finalEntries b o h rs) [.opening b] s w := by
  obtain ⟨news, -, buses, -, programs, sent, -⟩ := ended.framed before after
  have only := (before.comp ended.only
    (hs := [.heads, .news, .writerQueue, .buses, .programs, .matrixOut, .cancelSinceLook]) rfl).comp after
    (hs := [.heads, .news, .writerQueue, .buses, .programs, .matrixOut, .cancelSinceLook] ++ outboxFields) rfl
  exact ⟨news, sent, only.get .waitQueue rfl, only.get .epoch rfl, fun x away => ⟨buses x away, programs x away⟩⟩

theorem BeforeLoss.of_only {fs : List Field} {s v : State} (only : OnlyChanges fs s v)
    (outside : [Field.news, .matrixOut, .waitQueue, .epoch, .buses, .programs].all (fun f => decide (f ∉ fs)) = true := by rfl) :
    BeforeLoss (fun _ => False) [] [] s v := by
  have same {f : Field} (mem : f ∈ [Field.news, .matrixOut, .waitQueue, .epoch, .buses, .programs]) : decide (f ∈ fs) = false := by
    simpa using of_decide_eq_true (List.all_eq_true.mp outside f mem)
  refine ⟨?_, ?_, only.get .waitQueue (same (by simp)), only.get .epoch (same (by simp)), fun x _ =>
    ⟨only.bus (same (by simp)) x, only.program (same (by simp)) x⟩⟩
  · rw [only.get .news (same (by simp)), List.append_nil]
  · rw [only.get .matrixOut (same (by simp)), List.append_nil]

/-- The last head leaves service: a state in which no other head serves loses it, and no bus that waits loses its test before. -/
theorem BeforeLoss.lost {P : BusNo → Prop} {records : List WriterEntry} {opened : List MatrixMessage} {s v : State}
    (before : BeforeLoss P records opened s v) (work : WorkOk s) (own : ∀ x, P x → (s.bus x).state = .measuring)
    {h : HeadNo} (head : v.head h = Head.suspect) (heads : OtherHeads h s v)
    (only : ∀ x, x ≠ h → (s.head x).state.inService = false) : HeadsLost v (finish s (lossOfLastHead v)) := by
  obtain ⟨-, tests, waits, -⟩ := work
  have idle : v.headInService = false := by
    rw [Bool.eq_false_iff]
    intro serving
    obtain ⟨x, serving⟩ := (headInService_iff v).mp serving
    by_cases same : x = h
    · rw [same, head] at serving
      exact absurd serving (by simp [Head.suspect, HeadState.inService])
    · rw [heads x same, only x same] at serving
      exact absurd serving (by simp)
  refine (lossOfLastHead_lost idle (before.waitQueue ▸ waits.1) fun b mem => ?_).framed (finish_only s _)
  have waiting : (s.bus b).state = .waitHead := (waits.2.1 b).mp (before.waitQueue ▸ mem)
  rw [(before.others b fun mine => by simp [own b mine] at waiting).1]
  exact (tests.1 b).mpr (.inr (.inr (.inl waiting)))

/-- What a loss of the last head finds under test, seen from before the failing head's step. -/
theorem BeforeLoss.found {P : BusNo → Prop} {records : List WriterEntry} {opened : List MatrixMessage} {s v : State}
    (before : BeforeLoss P records opened s v) (waits : WaitQueueOk s) (own : ∀ x, P x → (s.bus x).state = .measuring) :
    (∃ b ∈ v.waitQueue, ∃ e, (v.bus b).test = some e ∧ e.cls = .sweep) ↔
      ∃ x e, (s.bus x).state = .waitHead ∧ (s.bus x).test = some e ∧ e.cls = .sweep := by
  have same {x : BusNo} (waiting : (s.bus x).state = .waitHead) : v.bus x = s.bus x :=
    (before.others x fun mine => by simp [own x mine] at waiting).1
  constructor
  · rintro ⟨x, mem, e, test, sweep⟩
    have waiting := (waits.2.1 x).mp (before.waitQueue ▸ mem)
    exact ⟨x, e, waiting, same waiting ▸ test, sweep⟩
  · rintro ⟨x, e, waiting, test, sweep⟩
    exact ⟨x, before.waitQueue ▸ (waits.2.1 x).mpr waiting, e, (same waiting).symm ▸ test, sweep⟩

/-- A head that is joined to a bus is joined to one that measures. -/
theorem HeadsOk.measuring {s : State} (ok : HeadsOk s) {h : HeadNo} {b : BusNo} (joined : (s.head h).bus = some b) :
    (s.bus b).state = .measuring := by
  obtain ⟨busy, idle, -, -⟩ := ok
  by_cases taken : (s.head h).state = .attached ∨ (s.head h).state = .aborting
  · obtain ⟨-, x, bus, measuring⟩ := busy h taken
    rw [joined] at bus
    cases bus
    exact measuring
  · obtain ⟨attached, aborting⟩ := not_or.mp taken
    exact absurd (idle h attached aborting) (by simp [joined])

/-- Settles O29: the failing head's own bus first, then the waiting ones, then those that claim or seize. -/
theorem lastHeadLost : Obligations.LastHeadLost := by
  refine fun s h work only => ⟨fun b k p c kind o ms fails joined step program => ?joined, fun free step => ?alone⟩
  all_goals
    obtain ⟨-, tests, waits, heads, -⟩ := id work
  case joined =>
    have measuring := heads.measuring joined
    have own (x : BusNo) (mine : x = b) : (s.bus x).state = .measuring := mine ▸ measuring
    obtain ⟨e, test⟩ := Option.ne_none_iff_exists'.mp ((tests.1 b).mpr (.inr (.inr (.inr measuring))))
    obtain ⟨answered, serving, equipment, verdict⟩ := exec_of_joinedFailure fails
    obtain ⟨v, ended, outbox, handed, raised, flags⟩ := failedHead_joined equipment verdict joined step program test ms
    obtain ⟨head, heads⟩ := setHead_released_heads (.refl _ s) ended
    have freed := setHead_only h Head.suspect s
    have before := ended.beforeLoss freed outbox
    have head := (outbox.head rfl h).trans head
    have heads := heads.framed (.refl [] s) outbox
    have lost := before.lost work own head heads only
    obtain ⟨-, sentOpen, -, gone, -, -, looked⟩ := ended.framed freed outbox
    obtain ⟨bus, program⟩ := lost.others b fun mem => by
      have waiting := (waits.2.1 b).mp (before.waitQueue ▸ mem)
      simp [measuring] at waiting
    refine ⟨_, answered.trans (by rw [failHead_eq, if_pos serving]), (lost.only.head rfl h).trans head,
      heads.framed (.refl [] s) lost.only, before.gone lost waits own, ?_, program.trans gone,
      fun x away waiting claiming seizing => before.untouched lost waits away waiting claiming seizing,
      handed.framed (.refl [] s) lost.only, raised.framed (.refl [] s) lost.only, flags.framed (.refl [] s) lost.only,
      (looked.comp lost.looked).congr ?_, ?_⟩
    · rw [bus, sentOpen, Bus.losesHead_of_past (by simp [Bus.sentOpen]) (by simp [Bus.sentOpen])]
    · rw [before.found waits own]
      constructor
      · rintro (sweep | ⟨x, f, waiting, there, sweep⟩)
        · exact ⟨b, e, .inl rfl, test, sweep⟩
        · exact ⟨x, f, .inr waiting, there, sweep⟩
      · rintro ⟨x, f, rfl | waiting, there, sweep⟩
        · rw [test] at there
          cases there
          exact .inl sweep
        · exact .inr ⟨x, f, waiting, there, sweep⟩
    · exact ((freed.comp ended.only
        (hs := [.heads, .news, .writerQueue, .buses, .programs, .matrixOut, .cancelSinceLook]) rfl).comp outbox
        (hs := [.heads, .news, .writerQueue, .buses, .programs, .matrixOut, .cancelSinceLook] ++ outboxFields) rfl).comp lost.only rfl
  case alone =>
    have bus : (s.head h).bus = none := heads.2.1 h (by simp [free]) (by simp [free])
    obtain ⟨outbox, handed, raised, flags⟩ := failedHead_alone (kind := .headError) rfl bus step .headError 0
    have freed := setHead_only h Head.suspect s
    have before : BeforeLoss (fun _ => False) [] [] s (failedHead h .headError .headError 0 s) :=
      .of_only (freed.comp outbox (hs := .heads :: outboxFields) rfl)
    have head : (failedHead h .headError .headError 0 s).head h = Head.suspect := by
      rw [outbox.head rfl, State.setHead_view_head_self]
    have heads := (setHead_otherHeads h Head.suspect s).framed (.refl [] s) outbox
    have own (x : BusNo) (mine : False) : (s.bus x).state = .measuring := mine.elim
    have lost := before.lost work own head heads only
    refine ⟨_, ?_, (lost.only.head rfl h).trans head, heads.framed (.refl [] s) lost.only, before.gone lost waits own,
      fun x waiting claiming seizing => before.untouched lost waits not_false waiting claiming seizing, ?_,
      raised.framed (.refl [] s) lost.only, flags.framed (.refl [] s) lost.only, ?_,
      (freed.comp outbox (hs := .heads :: outboxFields) rfl).comp lost.only rfl⟩
    · rw [exec_headError (by simp [free]), if_pos free, failHead_eq, free]
      rfl
    · rw [free] at handed
      exact handed.framed (.refl [] s) lost.only
    · have still : Looked False s (failedHead h .headError .headError 0 s) :=
        ⟨False.elim, fun _ => (freed.comp outbox (hs := .heads :: outboxFields) rfl).get .cancelSinceLook rfl⟩
      exact (still.comp lost.looked).congr (by rw [before.found waits own, false_or])

end Sys2Proof.Machine
end

section
/-!
PROOFS. Takes of the Intake Unit that end in a disposition: SWEEP_CONTROL, CLEAR_GROUP, LINE_QUERY, RELEASE_HOLD, BUS_RESET and
HEAD_RESET (R18, R19, R36, R49, R77, R118–R120, R152, R153).
-/

namespace Sys2Proof.Machine

/-! ## A take and its disposition -/

/-- What a disposition and the end of its event change. -/
def takenFields : List Field := [.news, .writerQueue, .shadows, .takeIndex, .testWaiting, .readHold]

theorem finish_dispose_only (s : State) (a : Anchor) (d : Disposition) (u : State) :
    OnlyChanges takenFields u (finish s (dispose a d u)) := (dispose_only a d u).comp (finish_only s _) rfl

theorem exec_of_takes {s : State} {a : Anchor} {r : Request} {c : Instr} {p : Request → Bool} {act : Anchor → Request → State → State}
    (taken : Takes s a r) (row : exec c s = .next (takeIf s p act)) (about : p r = true) :
    exec c s = .next (finish s (act a r s)) := by rw [row, takeIf_of_takes taken about]

/-- A take whose effect is `u` and a disposition: the disposition is queued behind the records of `u`. -/
theorem disposed_of_takes {s u : State} {a : Anchor} {r : Request} {c : Instr} {p : Request → Bool}
    {act : Anchor → Request → State → State} {d : Disposition} {fs : List Field} {records : List WriterEntry} (taken : Takes s a r)
    (row : exec c s = .next (takeIf s p act)) (about : p r = true) (effect : act a r s = dispose a d u) (only : OnlyChanges fs s u)
    (queued : u.newsEntries = s.newsEntries ++ records)
    (apart : decide (Field.shadows ∈ fs) = false ∧ decide (Field.takeIndex ∈ fs) = false := by exact ⟨rfl, rfl⟩) :
    ∃ t, exec c s = .next t ∧ Disposed a records d s t ∧ OnlyChanges takenFields u t :=
  ⟨_, (exec_of_takes taken row about).trans (by rw [effect]), finish_dispose_disposed d only apart queued, finish_dispose_only s a d u⟩

/-- A take that queues no record of its own. -/
theorem disposed_of_silent_take {s u : State} {a : Anchor} {r : Request} {c : Instr} {p : Request → Bool}
    {act : Anchor → Request → State → State} {d : Disposition} {fs : List Field} (taken : Takes s a r)
    (row : exec c s = .next (takeIf s p act)) (about : p r = true) (effect : act a r s = dispose a d u) (only : OnlyChanges fs s u)
    (apart : decide (Field.news ∈ fs) = false ∧ decide (Field.shadows ∈ fs) = false ∧ decide (Field.takeIndex ∈ fs) = false := by
      exact ⟨rfl, rfl, rfl⟩) :
    ∃ t, exec c s = .next t ∧ Disposed a [] d s t ∧ OnlyChanges takenFields u t :=
  disposed_of_takes taken row about effect only (by rw [only.get .news apart.1, List.append_nil]) apart.2

theorem kind_eq_of {r : Request} {k : RequestKind} (kind : r.kind = some k) : (r.kind == some k) = true := by rw [kind, beq_self_eq_true]

/-! ## SWEEP_CONTROL (R119, R120) -/

/-- Settles O36: START and STOP set the sweep state alone, RESTART takes the pass start actions too. -/
theorem sweepControlled : Obligations.SweepControlled := by
  intro s a r taken kind
  refine ⟨fun action => ?start, fun action => ?stop, fun action => ?restart⟩
  case start =>
    have set := setSweep_only s .running
    obtain ⟨t, answered, disposed, after⟩ := disposed_of_silent_take (c := .sweepStart) (act := takeStart) taken rfl
      (sweeps_of_action kind action) rfl set
    exact ⟨t, answered, after.get .sweep rfl, disposed, set.comp after rfl⟩
  case stop =>
    have set := setSweep_only s .stopped
    obtain ⟨t, answered, disposed, after⟩ := disposed_of_silent_take (c := .sweepStop) (act := takeStop) taken rfl
      (sweeps_of_action kind action) rfl set
    exact ⟨t, answered, after.get .sweep rfl, disposed, set.comp after rfl⟩
  case restart =>
    have set := (passStart_only s).comp (setSweep_only (passStart s) .running) (hs := [.sweep, .pointer, .lines]) rfl
    obtain ⟨t, answered, disposed, after⟩ := disposed_of_silent_take (c := .sweepRestart) (act := takeRestart) taken rfl
      (sweeps_of_action kind action) rfl set
    refine ⟨t, answered, after.get .sweep rfl, after.get .pointer rfl, fun l => ?_, disposed, set.comp after rfl⟩
    rw [after.line rfl, (setSweep_only (passStart s) .running).line rfl]
    exact State.mapLines_view_line s _ l

/-! ## CLEAR_GROUP (R152, R153) -/

theorem installedCount_of_takes {s : State} {a : Anchor} {r : Request} (taken : Takes s a r) : s.installedCount = a.installed := by
  obtain ⟨inForce, -⟩ := taken
  unfold State.installedCount State.limit
  rw [inForce]

theorem unlistAlarm_alarmList (g : GroupNo) (s : State) : (unlistAlarm g s).alarmList = s.alarmList.filter fun x => x != g := by
  unfold unlistAlarm
  split
  · rfl
  · next absent =>
    refine (List.filter_eq_self.mpr fun x mem => ?_).symm
    simpa using fun same : x = g => absent (List.contains_iff_mem.mpr (same ▸ mem))

theorem unlistAlarm_alarmOverflow (g : GroupNo) (s : State) :
    (unlistAlarm g s).alarmOverflow = if g ∈ s.alarmList then false else s.alarmOverflow := by
  unfold unlistAlarm
  rw [apply_ite State.alarmOverflow]
  simp only [List.contains_iff_mem]

theorem clearGroupRecord_alarmList (g : GroupNo) (s : State) :
    (clearGroupRecord g s).alarmList = s.alarmList.filter fun x => x != g := unlistAlarm_alarmList g _

theorem clearGroupRecord_alarmOverflow (g : GroupNo) (s : State) :
    (clearGroupRecord g s).alarmOverflow = if g ∈ s.alarmList then false else s.alarmOverflow := unlistAlarm_alarmOverflow g _

theorem takeClearGroup_of_target {s : State} {a : Anchor} {r : Request} {g : GroupNo} (taken : Takes s a r) (target : r.target = g.val)
    (installed : g.val * 16 < a.installed) : takeClearGroup a r s = dispose a .done (clearGroupRecord g s) := by
  obtain ⟨n, small⟩ := g
  cases target
  have found : s.groupInstalled ⟨r.target, small⟩ = true := by
    rw [State.groupInstalled, installedCount_of_takes taken]
    exact decide_eq_true installed
  exact (dif_pos small).trans (if_pos found)

/-- Settles O38: the group's record is cleared, its number leaves the alarm list and its lines the focus list. -/
theorem groupCleared : Obligations.GroupCleared := by
  intro s a r g taken kind target installed
  have cleared := clearGroupRecord_only g s
  obtain ⟨t, answered, disposed, after⟩ := disposed_of_silent_take (c := .clearGroup) (act := takeClearGroup) taken rfl (kind_eq_of kind)
    (takeClearGroup_of_target taken target installed) cleared
  have group (x : GroupNo) : t.group x = if g = x then GroupRecord.zero else s.group x :=
    (after.group rfl x).trans (clearGroupRecord_view_group g s x)
  refine ⟨t, answered, (group g).trans (if_pos rfl), fun x other => (group x).trans (if_neg (Ne.symm other)), ?_, ?_, ?_, disposed,
    cleared.comp after rfl⟩
  · rw [after.get .alarmList rfl, clearGroupRecord_alarmList]
  · rw [after.get .alarmOverflow rfl, clearGroupRecord_alarmOverflow]
  · rw [after.get .focus rfl, clearGroupRecord_focus]

/-! ## LINE_QUERY (R18, R19) -/

theorem checkSlot_eq (a : Anchor) (r : Request) (s : State) :
    checkSlot a r s =
      if a.resultCount ≤ r.slot then some .refusedSlot else if r.slot ∈ s.inFlight then some .refusedSlotBusy else none := by
  simp only [checkSlot, List.contains_iff_mem]

/-- The checks of a LINE_QUERY are those of its row of Table 9-2. -/
theorem refusalOf_lineQuery {s : State} {a : Anchor} {r : Request} (taken : Takes s a r) (kind : r.kind = some .lineQuery) :
    refusalOf s a r = (checkQuery a r s).map (Instr.lineQuery, ·) := by
  unfold refusalOf checkQuery
  rw [kind, checkSlot_eq, installed_line_of_takes taken]
  dsimp only
  split_ifs
  all_goals rfl

theorem inFlight_of_only {fs : List Field} {s t : State} (only : OnlyChanges fs s t)
    (apart : decide (Field.queue ∈ fs) = false ∧ decide (Field.buses ∈ fs) = false) : t.inFlight = s.inFlight := by
  unfold State.inFlight
  rw [only.get .queue apart.1]
  simp only [only.bus apart.2]

/-- Settles O39: the QUERY record shows the line as the slot is taken, ahead of the disposition. -/
theorem lineQueried : Obligations.LineQueried := by
  intro s a r taken kind passes
  have checked : checkQuery a r s = none := by
    rw [refusalOf_lineQuery taken kind] at passes
    exact Option.map_eq_none_iff.mp passes
  have effect : takeLineQuery a r s = dispose a .done (s.pushEntry (.query r.slot (queryRecord s r))) := by
    unfold takeLineQuery
    rw [checked]
  have pushed := pushEntry_only (.query r.slot (queryRecord s r)) s
  obtain ⟨t, answered, disposed, after⟩ := disposed_of_takes (c := .lineQuery) taken rfl (kind_eq_of kind) effect pushed
    (pushEntry_news rfl s)
  have only := pushed.comp after (hs := takenFields) rfl
  exact ⟨t, answered, disposed, inFlight_of_only only ⟨rfl, rfl⟩, only⟩

/-! ## RELEASE_HOLD (R49), BUS_RESET (R36) and HEAD_RESET (R77) -/

theorem takeReleaseHold_of_bus {s : State} {a : Anchor} {r : Request} {b : BusNo} (lines : BusLineOk s) (taken : Takes s a r)
    (installed : r.targetInstalled a = true) (serves : (s.bus b).line = some r.line) :
    takeReleaseHold a r s =
      if (s.bus b).state = .held then dispose a .done (startRelease b s)
      else if (s.bus b).willHold then dispose a .done (s.setBus b { s.bus b with hold := false })
      else dispose a .refusedState s := by
  unfold takeReleaseHold
  rw [installed_line_of_takes taken, installed, busOfLine_some lines serves]
  rfl

theorem Bus.willHold_iff (r : Bus) :
    r.willHold = true ↔
      r.hold = true ∧ (r.state = .claiming ∨ r.state = .seizing ∨ r.state = .waitHead ∨ r.state = .measuring) := by
  simp [Bus.willHold, or_assoc]

/-- A take that releases a bus. -/
theorem released_of_takes {s : State} {a : Anchor} {r : Request} {c : Instr} {p : Request → Bool}
    {act : Anchor → Request → State → State} {b : BusNo} (taken : Takes s a r) (row : exec c s = .next (takeIf s p act))
    (about : p r = true) (effect : act a r s = dispose a .done (startRelease b s)) :
    ∃ t, exec c s = .next t ∧
      t.bus b = { s.bus b with state := .releasing, command := some .opening, timer := some (.opening, 50), cause := none } ∧
      OtherBuses b s t ∧ t.matrixOut = s.matrixOut ++ [.opening b] ∧ Disposed a [] .done s t ∧
      OnlyChanges [.buses, .matrixOut, .news, .writerQueue, .shadows, .takeIndex, .testWaiting, .readHold] s t := by
  obtain ⟨bus, buses, sent⟩ := startRelease_view b s
  have only := startRelease_only b s
  obtain ⟨t, answered, disposed, after⟩ := disposed_of_silent_take taken row about effect only
  exact ⟨t, answered, (after.bus rfl b).trans bus, buses.framed (.refl [] s) after, (after.get .matrixOut rfl).trans sent, disposed,
    only.comp after rfl⟩

theorem takeBusReset_of_target {s : State} {a : Anchor} {r : Request} {b : BusNo} (target : r.target = b.val)
    (faulted : (s.bus b).state = .faulted) : takeBusReset a r s = dispose a .done (startRelease b s) := by
  obtain ⟨n, small⟩ := b
  cases target
  exact (dif_pos small).trans (if_pos faulted)

theorem takeHeadReset_of_target {s : State} {a : Anchor} {r : Request} {h : HeadNo} (target : r.target = h.val)
    (suspect : (s.head h).state = .suspect) : takeHeadReset a r s = dispose a .accepted (startClear h s) := by
  obtain ⟨n, small⟩ := h
  cases target
  exact (dif_pos small).trans (if_pos suspect)

/-- Settles O35, a request kind at a time. -/
theorem releaseAndResetRequests : Obligations.ReleaseAndResetRequests := by
  intro s a r taken
  refine ⟨fun b lines kind installed serves => ⟨fun held => ?held, fun set busy => ?onItsWay⟩,
    fun b kind target faulted => ?busReset, fun h kind target suspect => ?headReset⟩
  case held =>
    refine released_of_takes (act := takeReleaseHold) taken rfl (kind_eq_of kind) ?_
    rw [takeReleaseHold_of_bus lines taken installed serves, if_pos held]
  case onItsWay =>
    have notHeld : (s.bus b).state ≠ .held := by
      rcases busy with state | state | state | state
      all_goals simp [state]
    have only := setBus_only b { s.bus b with hold := false } s
    obtain ⟨t, answered, disposed, after⟩ := disposed_of_silent_take (c := .releaseHold) (act := takeReleaseHold) taken rfl
      (kind_eq_of kind) (by rw [takeReleaseHold_of_bus lines taken installed serves, if_neg notHeld,
        if_pos ((Bus.willHold_iff _).mpr ⟨set, busy⟩)]) only
    exact ⟨t, answered, (after.bus rfl b).trans (State.setBus_view_bus_self s b _), (setBus_otherBuses b _ s).framed (.refl [] s) after,
      disposed, only.comp after rfl⟩
  case busReset => exact released_of_takes taken rfl (kind_eq_of kind) (takeBusReset_of_target target faulted)
  case headReset =>
    have only := startClear_only h s
    obtain ⟨t, answered, disposed, after⟩ := disposed_of_silent_take (c := .headReset) (act := takeHeadReset) taken rfl
      (kind_eq_of kind) (takeHeadReset_of_target target suspect) only
    refine ⟨t, answered, ?_, (setHead_otherHeads h _ _).framed (sendHead_only _ s) after, ?_, disposed, only.comp after rfl⟩
    · rw [after.head rfl, startClear, State.setHead_view_head_self]
      rfl
    · exact (after.get .headOut rfl).trans rfl

end Sys2Proof.Machine
end

section
/-!
PROOFS. Requests that a check refuses (Table 9-2), and a TEST that is merged, accepted or left waiting (R84–R88).
-/

namespace Sys2Proof.Machine

/-! ## Members of slot lists -/

theorem findMember_eq_none_iff {slot : Nat} {ms : List SlotMember} : findMember slot ms = none ↔ slot ∉ ms.map SlotMember.slot := by
  simp [findMember]

theorem not_mem_inFlight_iff {s : State} {slot : Nat} :
    slot ∉ s.inFlight ↔ (∀ e ∈ s.queue, findMember slot e.slots = none) ∧ ∀ b, findMember slot (s.bus b).slots = none := by
  simp only [State.inFlight, List.mem_append, List.mem_flatMap, not_or, not_exists, not_and, findMember_eq_none_iff]
  exact and_congr_right fun _ => ⟨fun away b => away b (mem_allBuses b), fun away b _ => away b⟩

theorem cancelQueued_eq_none {slot : Nat} {q : List TestEntry} (absent : ∀ e ∈ q, findMember slot e.slots = none) :
    cancelQueued slot q = none := by
  induction q with
  | nil => rfl
  | cons e es ih =>
    rw [cancelQueued, absent e List.mem_cons_self, ih fun x mem => absent x (List.mem_cons_of_mem e mem)]
    rfl

theorem busOfSlot_eq_none {s : State} {slot : Nat} (absent : ∀ b, findMember slot (s.bus b).slots = none) :
    s.busOfSlot slot = none := List.find?_eq_none.mpr fun b _ => by rw [absent b]; simp

/-! ## Refused takes -/

/-- A take that comes to no more than a disposition. -/
def Refuses (s : State) (a : Anchor) (r : Request) (c : Instr) (d : Disposition) : Prop :=
  ∃ p act, exec c s = .next (takeIf s p act) ∧ p r = true ∧ act a r s = dispose a d s

theorem takeTest_of_refused {s : State} {a : Anchor} {r : Request} {d : Disposition} (fails : checkTest a r s = some d) :
    takeTest a r s = dispose a d s := by
  unfold takeTest
  rw [fails]

theorem takeLineQuery_of_refused {s : State} {a : Anchor} {r : Request} {d : Disposition} (fails : checkQuery a r s = some d) :
    takeLineQuery a r s = dispose a d s := by
  unfold takeLineQuery
  rw [fails]

theorem takeCancel_of_absent {s : State} {a : Anchor} {r : Request} (inside : ¬ a.resultCount ≤ r.slot) (absent : r.slot ∉ s.inFlight) :
    takeCancel a r s = dispose a .refusedNotFound s := by
  obtain ⟨queued, onBus⟩ := not_mem_inFlight_iff.mp absent
  unfold takeCancel cancelElsewhere
  rw [if_neg inside, cancelQueued_eq_none queued, busOfSlot_eq_none onBus]

theorem holdsLine_of_bus {s : State} {b : BusNo} {l : LineNo} (serves : (s.bus b).line = some l)
    (holds : (s.bus b).state = .held ∨ (s.bus b).willHold = true) : s.holdsLine l = true := by
  refine List.any_eq_true.mpr ⟨b, mem_allBuses b, ?_⟩
  rw [serves, beq_self_eq_true, Bool.true_and, Bool.or_eq_true, beq_iff_eq]
  exact holds

theorem takeReleaseHold_of_unheld {s : State} {a : Anchor} {r : Request} (installed : s.installed r.line = true)
    (unheld : s.holdsLine r.line = false) : takeReleaseHold a r s = dispose a .refusedState s := by
  unfold takeReleaseHold
  rw [installed]
  cases named : s.busOfLine r.line with
  | none => rfl
  | some b =>
    have serves : (s.bus b).line = some r.line := by
      have found := List.find?_some named
      simp only [Bool.and_eq_true, beq_iff_eq] at found
      exact found.2
    have neither : ¬ ((s.bus b).state = .held ∨ (s.bus b).willHold = true) := fun holds => by
      simp [holdsLine_of_bus serves holds] at unheld
    obtain ⟨held, will⟩ := not_or.mp neither
    exact (if_neg held).trans (if_neg will)

/-- The checks of a TEST are those of its row of Table 9-2. -/
theorem refusalOf_test {s : State} {a : Anchor} {r : Request} (taken : Takes s a r) (kind : r.kind = some .test) :
    refusalOf s a r = (checkTest a r s).map (Instr.test, ·) := by
  unfold refusalOf checkTest
  rw [kind, checkSlot_eq, installed_line_of_takes taken]
  dsimp only
  split_ifs
  all_goals rfl

theorem takeBusReset_of_not_faulted {s : State} {a : Anchor} {r : Request} (small : r.target < 4)
    (state : (s.bus ⟨r.target, small⟩).state ≠ .faulted) : takeBusReset a r s = dispose a .refusedState s :=
  (dif_pos small).trans (if_neg state)

theorem takeHeadReset_of_not_suspect {s : State} {a : Anchor} {r : Request} (small : r.target < 2)
    (state : (s.head ⟨r.target, small⟩).state ≠ .suspect) : takeHeadReset a r s = dispose a .refusedState s :=
  (dif_pos small).trans (if_neg state)

theorem takeClearGroup_of_absent {s : State} {a : Anchor} {r : Request} (taken : Takes s a r)
    (outside : 255 < r.target ∨ a.installed ≤ r.target * 16) : takeClearGroup a r s = dispose a .refusedTarget s := by
  unfold takeClearGroup
  by_cases small : r.target < 256
  · have absent : ¬ s.groupInstalled ⟨r.target, small⟩ = true := by
      rw [State.groupInstalled, installedCount_of_takes taken, decide_eq_true_eq]
      simp only
      omega
    rw [dif_pos small]
    exact if_neg absent
  · exact dif_neg small

/-- Table 9-2, a request kind at a time: what a failing check answers is its disposition alone. -/
theorem refuses_of_refusalOf {s : State} {a : Anchor} {r : Request} {c : Instr} {d : Disposition} (taken : Takes s a r)
    (refused : refusalOf s a r = some (c, d)) : Refuses s a r c d := by
  have line := installed_line_of_takes taken
  cases kind : r.kind with
  | none =>
    simp only [refusalOf, kind, Option.some.injEq, Prod.mk.injEq] at refused
    obtain ⟨rfl, rfl⟩ := refused
    exact ⟨_, takeBadKind, rfl, by rw [kind]; rfl, rfl⟩
  | some k =>
    cases k with
    | test =>
      rw [refusalOf_test taken kind] at refused
      obtain ⟨d, fails, equal⟩ := Option.map_eq_some_iff.mp refused
      cases equal
      exact ⟨_, takeTest, rfl, kind_eq_of kind, takeTest_of_refused fails⟩
    | cancel =>
      simp only [refusalOf, kind] at refused
      split_ifs at refused with outside absent
      · cases refused
        exact ⟨_, takeCancel, rfl, kind_eq_of kind, if_pos outside⟩
      · cases refused
        exact ⟨_, takeCancel, rfl, kind_eq_of kind, takeCancel_of_absent outside absent⟩
    | fence => simp [refusalOf, kind] at refused
    | releaseHold =>
      simp only [refusalOf, kind, ← line] at refused
      split_ifs at refused with missing unheld
      · cases refused
        exact ⟨_, takeReleaseHold, rfl, kind_eq_of kind, if_pos missing⟩
      · cases refused
        exact ⟨_, takeReleaseHold, rfl, kind_eq_of kind,
          takeReleaseHold_of_unheld (by simpa using missing) (by simpa using unheld)⟩
    | busReset =>
      simp only [refusalOf, kind] at refused
      split_ifs at refused with small state
      · cases refused
        exact ⟨_, takeBusReset, rfl, kind_eq_of kind, takeBusReset_of_not_faulted small state⟩
      · cases refused
        exact ⟨_, takeBusReset, rfl, kind_eq_of kind, dif_neg small⟩
    | headReset =>
      simp only [refusalOf, kind] at refused
      split_ifs at refused with small state
      · cases refused
        exact ⟨_, takeHeadReset, rfl, kind_eq_of kind, takeHeadReset_of_not_suspect small state⟩
      · cases refused
        exact ⟨_, takeHeadReset, rfl, kind_eq_of kind, dif_neg small⟩
    | sweepControl =>
      cases action : r.action with
      | none =>
        simp only [refusalOf, kind, action, Option.some.injEq, Prod.mk.injEq] at refused
        obtain ⟨rfl, rfl⟩ := refused
        exact ⟨_, takeBadAction, rfl, sweeps_of_action kind action, rfl⟩
      | some x =>
        cases x with
        | seek =>
          simp only [refusalOf, kind, action, ← line] at refused
          split_ifs at refused with missing
          cases refused
          exact ⟨_, takeSeek, rfl, sweeps_of_action kind action, if_neg (by simpa using missing)⟩
        | start => simp [refusalOf, kind, action] at refused
        | stop => simp [refusalOf, kind, action] at refused
        | restart => simp [refusalOf, kind, action] at refused
    | clearGroup =>
      simp only [refusalOf, kind] at refused
      split_ifs at refused with large absent
      · cases refused
        exact ⟨_, takeClearGroup, rfl, kind_eq_of kind, takeClearGroup_of_absent taken (.inl large)⟩
      · cases refused
        exact ⟨_, takeClearGroup, rfl, kind_eq_of kind, takeClearGroup_of_absent taken (.inr absent)⟩
    | lineQuery =>
      rw [refusalOf_lineQuery taken kind] at refused
      obtain ⟨d, fails, equal⟩ := Option.map_eq_some_iff.mp refused
      cases equal
      exact ⟨_, takeLineQuery, rfl, kind_eq_of kind, takeLineQuery_of_refused fails⟩

/-- Settles O30: the disposition is the whole of the take. -/
theorem requestsRefused : Obligations.RequestsRefused := by
  intro s a r c d _ taken refused
  obtain ⟨p, act, row, about, effect⟩ := refuses_of_refusalOf taken refused
  exact disposed_of_silent_take taken row about effect (.refl [] s)

/-! ## TEST (R84–R88) -/

theorem mergeQueue_of_first {r : Request} {before after : List TestEntry} {e : TestEntry} (early : ∀ x ∈ before, ¬ CanMerge r x)
    (merges : CanMerge r e) : mergeQueue r (before ++ e :: after) = some (before ++ e.merge r :: after) := by
  induction before with
  | nil => rw [List.nil_append, mergeQueue, if_pos ((mergesInto_iff r e).mpr merges), List.nil_append]
  | cons x xs ih =>
    have away : ¬ r.mergesInto x = true := (mergesInto_iff r x).not.mpr (early x List.mem_cons_self)
    rw [List.cons_append, mergeQueue, if_neg away, ih fun y mem => early y (List.mem_cons_of_mem x mem)]
    rfl

theorem mergeQueue_eq_none {r : Request} {q : List TestEntry} (away : ∀ x ∈ q, ¬ CanMerge r x) : mergeQueue r q = none := by
  by_contra merges
  obtain ⟨q', merged⟩ := Option.ne_none_iff_exists'.mp merges
  obtain ⟨before, e, after, rfl, -, can, -⟩ := mergeQueue_some merged
  exact away e (by simp) can

/-- The take of a TEST that is merged or accepted. -/
theorem answerTest_disposed {s : State} {a : Anchor} {r : Request} {merged : Bool} {q : List TestEntry} (taken : Takes s a r)
    (kind : r.kind = some .test) (effect : takeTest a r s = answerTest a r merged q s) :
    ∃ t, exec .test s = .next t ∧ t.queue = q ∧
      Disposed a [.inProgress r.slot (s.inProgressOf r merged)] (if merged then .merged else .accepted) s t ∧ Looked True s t ∧
      OnlyChanges [.queue, .cancelSinceLook, .news, .writerQueue, .shadows, .takeIndex, .testWaiting, .readHold] s t := by
  have queued := setQueue_only s q
  have looks := look_only true { s with queue := q }
  have pushed := pushEntry_only (.inProgress r.slot (inProgressRecord s r merged)) (State.look true { s with queue := q })
  have before := queued.comp looks (hs := [.queue, .cancelSinceLook]) rfl
  obtain ⟨t, answered, disposed, after⟩ := disposed_of_takes (c := .test) taken rfl (kind_eq_of kind) effect
    (before.comp pushed (hs := [.queue, .cancelSinceLook, .news, .writerQueue]) rfl)
    ((pushEntry_news rfl _).trans (by rw [before.get .news rfl]))
  have queue : t.queue = q := (after.get .queue rfl).trans ((pushed.get .queue rfl).trans (looks.get .queue rfl))
  exact ⟨t, answered, queue, disposed,
    (looked_look (by simp) _).framed queued (pushed.comp after (hs := takenFields) rfl),
    (before.comp pushed (hs := [.queue, .cancelSinceLook, .news, .writerQueue]) rfl).comp after rfl⟩

section
variable {s : State} {a : Anchor} {r : Request} (taken : Takes s a r) (kind : r.kind = some .test) (passes : refusalOf s a r = none)
include taken kind passes

theorem checkTest_of_passes : checkTest a r s = none := by
  rw [refusalOf_test taken kind] at passes
  exact Option.map_eq_none_iff.mp passes

theorem takeTest_of_merged {q : List TestEntry} (merged : mergeQueue r s.queue = some q) :
    takeTest a r s = answerTest a r true q s := by
  unfold takeTest
  rw [checkTest_of_passes taken kind passes, merged]

theorem takeTest_of_apart (apart : mergeQueue r s.queue = none) :
    takeTest a r s =
      if s.queue.length < 16 then answerTest a r false (s.queue ++ [r.newEntry]) s else { s with testWaiting := .waiting } := by
  unfold takeTest
  rw [checkTest_of_passes taken kind passes, apart]

end

/-- Settles O31: merged into the oldest entry that takes it, else added, else left waiting. -/
theorem testTaken : Obligations.TestTaken := by
  intro s a r taken kind passes
  refine ⟨fun before e after queue early merges => ?merged, fun away room => ?accepted, fun away full => ?waits⟩
  case merged =>
    exact answerTest_disposed taken kind
      (takeTest_of_merged taken kind passes (by rw [queue]; exact mergeQueue_of_first early merges))
  case accepted =>
    exact answerTest_disposed taken kind ((takeTest_of_apart taken kind passes (mergeQueue_eq_none away)).trans (if_pos room))
  case waits =>
    have effect := (takeTest_of_apart taken kind passes (mergeQueue_eq_none away)).trans (if_neg (Nat.not_lt.mpr full))
    have waits := setTestWaiting_only (s := s) .waiting
    have ends := finish_only_of_image (before := s) (s := { s with testWaiting := .waiting }) rfl
    exact ⟨_, (exec_of_takes taken rfl (kind_eq_of kind)).trans (by rw [effect]), ends.get .testWaiting rfl, waits.comp ends rfl⟩

end Sys2Proof.Machine
end

section
/-!
PROOFS. CANCEL: a slot of a queued entry and a slot of a test on a bus (R93–R96).
-/

namespace Sys2Proof.Machine

/-! ## Where a slot is -/

theorem findMember_of_mem {ms : List SlotMember} {m : SlotMember} (distinct : (ms.map SlotMember.slot).Nodup) (mem : m ∈ ms) :
    findMember m.slot ms = some m := by
  induction ms with
  | nil => exact absurd mem List.not_mem_nil
  | cons x xs ih =>
    obtain ⟨away, distinct⟩ := List.nodup_cons.mp distinct
    rcases List.mem_cons.mp mem with rfl | mem
    · exact List.find?_cons_of_pos (beq_self_eq_true _)
    · have other : x.slot ≠ m.slot := fun same => away (same ▸ List.mem_map_of_mem mem)
      rw [findMember, List.find?_cons_of_neg (by simpa using other)]
      exact ih distinct mem

theorem cancelQueued_of_found {slot : Nat} {before after : List TestEntry} {e : TestEntry} {m : SlotMember}
    (early : ∀ x ∈ before, findMember slot x.slots = none) (found : findMember slot e.slots = some m) :
    cancelQueued slot (before ++ e :: after) = some (m, e.line, before ++ (e.afterCancel slot ++ after)) := by
  induction before with
  | nil => rw [List.nil_append, cancelQueued, found]; rfl
  | cons x xs ih =>
    rw [List.cons_append, cancelQueued, early x List.mem_cons_self, ih fun y mem => early y (List.mem_cons_of_mem x mem)]
    rfl

/-- The members of a queued entry are found in it and in no entry before it. -/
theorem SlotsOk.queued {s : State} (slots : SlotsOk s) {before after : List TestEntry} {e : TestEntry} {m : SlotMember}
    (queue : s.queue = before ++ e :: after) (mem : m ∈ e.slots) :
    findMember m.slot e.slots = some m ∧ ∀ x ∈ before, findMember m.slot x.slots = none := by
  have distinct : (queuedSlots (before ++ e :: after)).Nodup := queue ▸ (List.nodup_append.mp slots).1
  rw [queuedSlots_append] at distinct
  obtain ⟨-, here, apart⟩ := List.nodup_append.mp distinct
  have split : queuedSlots (e :: after) = e.slots.map SlotMember.slot ++ queuedSlots after := List.flatMap_cons
  refine ⟨findMember_of_mem (List.nodup_append.mp (split ▸ here)).1 mem, fun x early => findMember_eq_none_iff.mpr fun found => ?_⟩
  refine apart m.slot (List.mem_flatMap.mpr ⟨x, early, found⟩) m.slot ?_ rfl
  rw [split]
  exact List.mem_append_left _ (List.mem_map_of_mem mem)

/-- The members of a test on a bus are found in it, in no other test and in no queued entry. -/
theorem SlotsOk.onBus {s : State} (slots : SlotsOk s) {b : BusNo} {e : TestEntry} {m : SlotMember} (test : (s.bus b).test = some e)
    (mem : m ∈ e.slots) :
    findMember m.slot e.slots = some m ∧ (∀ x, x ≠ b → findMember m.slot (s.bus x).slots = none) ∧
      ∀ x ∈ s.queue, findMember m.slot x.slots = none := by
  have distinct := (inFlight_perm s b).nodup_iff.mp slots
  obtain ⟨-, onBuses, queueApart⟩ := List.nodup_append.mp distinct
  obtain ⟨here, -, apart⟩ := List.nodup_append.mp onBuses
  rw [Bus.indices, Bus.slots_of_test test] at here apart
  have named := List.mem_map_of_mem (f := SlotMember.slot) mem
  refine ⟨findMember_of_mem here mem, fun x other => findMember_eq_none_iff.mpr fun found => ?_,
    fun x queued => findMember_eq_none_iff.mpr fun found => ?_⟩
  · refine apart m.slot named m.slot (List.mem_flatMap.mpr ⟨x, ?_, found⟩) rfl
    exact (List.mem_erase_of_ne other).mpr (mem_allBuses x)
  · refine queueApart m.slot (List.mem_flatMap.mpr ⟨x, queued, found⟩) m.slot (List.mem_append_left _ ?_) rfl
    rwa [Bus.indices, Bus.slots_of_test test]

theorem busOfSlot_of_only {s : State} {b : BusNo} {slot : Nat} (here : findMember slot (s.bus b).slots ≠ none)
    (others : ∀ x, x ≠ b → findMember slot (s.bus x).slots = none) : s.busOfSlot slot = some b := by
  unfold State.busOfSlot
  cases found : allBuses.find? fun x => (findMember slot (s.bus x).slots).isSome with
  | none =>
    have missing := List.find?_eq_none.mp found b (mem_allBuses b)
    exact absurd (Option.isSome_iff_ne_none.mpr here) missing
  | some x =>
    by_cases same : x = b
    · rw [same]
    · have holds := List.find?_some found
      rw [others x same] at holds
      exact absurd holds (by simp)

/-! ## A queued slot (R94) -/

theorem TestEntry.afterCancel_of_left {e : TestEntry} {slot : Nat} {left : List SlotMember}
    (rest : left = e.slots.filter fun x => x.slot != slot) :
    (left ≠ [] → e.afterCancel slot = [{ e with slots := left }]) ∧ (left = [] → e.origin = .desk → e.afterCancel slot = []) ∧
      (left = [] → e.origin = .sweep → e.afterCancel slot = [{ e with cls := .sweep, slots := [] }]) := by
  have dropped : dropMember slot e.slots = left := rest.symm
  unfold TestEntry.afterCancel
  rw [dropped]
  refine ⟨fun some => ?_, fun empty origin => ?_, fun empty origin => ?_⟩
  · exact if_neg (by simpa using some)
  · simp [empty, origin]
  · simp [empty, origin]

theorem takeCancel_of_queued {s : State} {a : Anchor} {r : Request} {before after : List TestEntry} {e : TestEntry} {m : SlotMember}
    (slots : SlotsOk s) (inside : r.slot < a.resultCount) (queue : s.queue = before ++ e :: after) (mem : m ∈ e.slots)
    (slot : m.slot = r.slot) :
    takeCancel a r s = dispose a .done
      ((cancelledQueue (before ++ (e.afterCancel r.slot ++ after)) s).pushEntry
        (.cancelled r.slot (cancelledRecord s m e.line none))) := by
  obtain ⟨found, early⟩ := slots.queued queue mem
  rw [slot] at found early
  unfold takeCancel
  rw [if_neg (Nat.not_le.mpr inside), queue, cancelQueued_of_found early found]

theorem selection_isNone_iff (s : State) : s.selection.isNone = true ↔ ∀ x y rest, ¬ Selects s x y rest := by
  rw [Option.isNone_iff_eq_none, Option.eq_none_iff_forall_ne_some]
  exact ⟨fun away x y rest selects => away _ ((selection_iff s x y rest).mpr selects),
    fun away move selected => away _ _ _ ((selection_iff s move.1 move.2.1 move.2.2).mp selected)⟩

/-- Settles O32: the entry keeps its place with the members left, leaves the queue or returns to class SWEEP. -/
theorem cancelInQueue : Obligations.CancelInQueue := by
  intro s a r before after e m left slots taken kind inside queue mem slot rest
  have moved := cancelledQueue_only (before ++ (e.afterCancel r.slot ++ after)) s
  have pushed := pushEntry_only (.cancelled r.slot (cancelledRecord s m e.line none))
    (cancelledQueue (before ++ (e.afterCancel r.slot ++ after)) s)
  have effect := moved.comp pushed (hs := [.queue, .cancelSinceLook, .news, .writerQueue]) rfl
  obtain ⟨t, answered, disposed, after'⟩ := disposed_of_takes (c := .cancel) taken rfl (kind_eq_of kind)
    (takeCancel_of_queued slots inside queue mem slot) effect ((pushEntry_news rfl _).trans (by rw [moved.get .news rfl]))
  have later := pushed.comp after' (hs := takenFields) rfl
  have queued : t.queue = before ++ (e.afterCancel r.slot ++ after) := later.get .queue rfl
  have look : t.cancelSinceLook = (s.cancelSinceLook || s.selection.isNone) := later.get .cancelSinceLook rfl
  obtain ⟨some, gone, returns⟩ := e.afterCancel_of_left rest
  refine ⟨t, answered, fun members => ?_, fun empty desk => ?_, fun empty sweep => ?_, disposed, fun ⟨x, y, z, selects⟩ => ?_,
    fun away => ?_, effect.comp after' rfl⟩
  · rw [queued, some members]
    rfl
  · rw [queued, gone empty desk]
    rfl
  · rw [queued, returns empty sweep]
    rfl
  · rw [look, (selection_iff s x y z).mpr selects]
    exact Bool.or_false _
  · rw [look, (selection_isNone_iff s).mpr away]
    exact Bool.or_true _

/-! ## A slot of a test on a bus (R95) -/

theorem takeCancel_of_onBus {s : State} {a : Anchor} {r : Request} {b : BusNo} {e : TestEntry} {m : SlotMember} (slots : SlotsOk s)
    (inside : r.slot < a.resultCount) (test : (s.bus b).test = some e) (mem : m ∈ e.slots) (slot : m.slot = r.slot) :
    takeCancel a r s = cancelTestOnBus a b e m s := by
  obtain ⟨found, others, queued⟩ := slots.onBus test mem
  rw [slot] at found others queued
  have here : s.busOfSlot r.slot = some b := busOfSlot_of_only (by rw [Bus.slots_of_test test, found]; simp) others
  unfold takeCancel cancelElsewhere
  rw [if_neg (Nat.not_le.mpr inside), cancelQueued_eq_none queued, here]
  dsimp only
  rw [test]
  dsimp only
  rw [found]

theorem cancelTestOnBus_of_left {s : State} {a : Anchor} {b : BusNo} {e : TestEntry} {m : SlotMember} {left : List SlotMember}
    (rest : left = e.slots.filter fun x => x.slot != m.slot) :
    cancelTestOnBus a b e m s =
      if left.isEmpty && e.origin == .desk then cancelOnBus b (dispose a .done s)
      else
        dispose a .done
          ((s.setBus b { s.bus b with test := some { e with slots := left } }).pushEntry
            (.cancelled m.slot (cancelledRecord s m e.line (some b)))) := by
  cases rest
  rfl

theorem cancelOnBus_of_aborting {s : State} {b : BusNo} (aborting : (s.bus b).abort ≠ none) : cancelOnBus b s = s := by
  obtain ⟨x, pending⟩ := Option.ne_none_iff_exists'.mp aborting
  unfold cancelOnBus
  rw [pending]

theorem cancelOnBus_of_seeking {s : State} {b : BusNo} (quiet : (s.bus b).abort = none)
    (state : (s.bus b).state = .claiming ∨ (s.bus b).state = .seizing) : cancelOnBus b s = setAbort b .cancel s := by
  unfold cancelOnBus
  rw [quiet]
  rcases state with state | state
  all_goals rw [state]

theorem cancelOnBus_of_waiting {s : State} {b : BusNo} (quiet : (s.bus b).abort = none) (state : (s.bus b).state = .waitHead) :
    cancelOnBus b s = endWaiting b .cancelled s := by
  unfold cancelOnBus
  rw [quiet, state]

theorem cancelOnBus_of_measuring {s : State} {b : BusNo} (quiet : (s.bus b).abort = none) (state : (s.bus b).state = .measuring) :
    cancelOnBus b s = abortStep b (setAbort b .cancel s) := by
  unfold cancelOnBus
  rw [quiet, state]

/-- The disposition stands at once; what the cancelled test then does leaves it. -/
theorem dispose_slotPassed (a : Anchor) (d : Disposition) (s : State) : SlotPassed a s (dispose a d s) :=
  (passSlot_slotPassed a _).of_only (pushEntry_only _ s) (.refl [] _) ⟨rfl, rfl⟩ ⟨rfl, rfl, rfl⟩

theorem disposed_of_only {fs : List Field} {a : Anchor} {d : Disposition} {s t : State} (after : OnlyChanges fs (dispose a d s) t)
    (apart : decide (Field.news ∈ fs) = false ∧ decide (Field.shadows ∈ fs) = false ∧ decide (Field.takeIndex ∈ fs) = false ∧
      decide (Field.testWaiting ∈ fs) = false := by exact ⟨rfl, rfl, rfl, rfl⟩) : Disposed a [] d s t := by
  refine ⟨?_, (dispose_slotPassed a d s).of_only (.refl [] s) after ⟨rfl, rfl⟩ apart.2⟩
  rw [after.get .news apart.1, dispose_news, List.append_nil]

section
variable {s : State} {a : Anchor} {r : Request} {b : BusNo} {e : TestEntry} {m : SlotMember}

/-- The last member of a DESK test: the disposition, and then the order to end (R95). -/
theorem exec_cancel_of_last (slots : SlotsOk s) (taken : Takes s a r) (kind : r.kind = some .cancel) (inside : r.slot < a.resultCount)
    (test : (s.bus b).test = some e) (mem : m ∈ e.slots) (slot : m.slot = r.slot) (last : e.slots.filter (fun x => x.slot != r.slot) = [])
    (origin : e.origin = .desk) : exec .cancel s = .next (finish s (cancelOnBus b (dispose a .done s))) := by
  rw [exec_of_takes (c := .cancel) (act := takeCancel) taken rfl (kind_eq_of kind), takeCancel_of_onBus slots inside test mem slot,
    cancelTestOnBus_of_left (left := []) (by rw [slot, last]), origin]
  rfl

theorem withdrawn_of_takes {left : List SlotMember} (slots : SlotsOk s) (taken : Takes s a r) (kind : r.kind = some .cancel)
    (inside : r.slot < a.resultCount) (test : (s.bus b).test = some e) (mem : m ∈ e.slots) (slot : m.slot = r.slot)
    (rest : left = e.slots.filter fun x => x.slot != r.slot) (stays : left ≠ [] ∨ e.origin = .sweep) :
    ∃ t, exec .cancel s = .next t ∧ t.bus b = { s.bus b with test := some { e with slots := left } } ∧ OtherBuses b s t ∧
      Disposed a [.cancelled r.slot (s.cancelledOf m e.line (some b))] .done s t ∧
      OnlyChanges [.buses, .news, .writerQueue, .shadows, .takeIndex, .testWaiting, .readHold] s t := by
  have branch : ¬ (left.isEmpty && e.origin == .desk) = true := by
    rcases stays with some | sweep
    · simp [some]
    · simp [sweep]
  have effect : takeCancel a r s = _ := (takeCancel_of_onBus slots inside test mem slot).trans
    ((cancelTestOnBus_of_left (by rw [slot]; exact rest)).trans (if_neg branch))
  rw [slot] at effect
  have set := setBus_only b { s.bus b with test := some { e with slots := left } } s
  have pushed := pushEntry_only (.cancelled r.slot (cancelledRecord s m e.line (some b)))
    (s.setBus b { s.bus b with test := some { e with slots := left } })
  obtain ⟨t, answered, disposed, after⟩ := disposed_of_takes (c := .cancel) taken rfl (kind_eq_of kind) effect
    (set.comp pushed (hs := [.buses, .news, .writerQueue]) rfl) ((pushEntry_news rfl _).trans (by rw [set.get .news rfl]))
  have later := pushed.comp after (hs := takenFields) rfl
  exact ⟨t, answered, (later.bus rfl b).trans (State.setBus_view_bus_self s b _), (setBus_otherBuses b _ s).framed (.refl [] s) later,
    disposed, set.comp later rfl⟩

end

/-- Settles O33: what the cancelled test does follows its bus's state. -/
theorem cancelOnBus_holds : Obligations.CancelOnBus := by
  intro s a r b e m left slots taken kind inside test mem slot rest
  refine ⟨fun stays => withdrawn_of_takes slots taken kind inside test mem slot rest stays, fun last origin => ?_⟩
  have answered := exec_cancel_of_last slots taken kind inside test mem slot (rest ▸ last) origin
  have disposes := dispose_only a .done s
  have bus : (dispose a .done s).bus b = s.bus b := disposes.bus rfl b
  refine ⟨fun aborting => ?aborting, fun quiet state => ?seeking, fun quiet state => ?waiting,
    fun h quiet state heads joined attached => ?measuring⟩
  case aborting =>
    rw [cancelOnBus_of_aborting (by rw [bus]; exact aborting)] at answered
    have ends := finish_only s (dispose a .done s)
    exact ⟨_, answered, disposed_of_only ends, disposes.comp ends rfl⟩
  case seeking =>
    rw [cancelOnBus_of_seeking (by rw [bus]; exact quiet) (by rw [bus]; exact state)] at answered
    have set := setAbort_only b .cancel (dispose a .done s)
    have ends := finish_only s (setAbort b .cancel (dispose a .done s))
    have after := set.comp ends (hs := [.buses, .writerQueue, .readHold]) rfl
    refine ⟨_, answered, ?_, (setAbort_otherBuses b .cancel _).framed disposes ends, disposed_of_only after, disposes.comp after rfl⟩
    rw [ends.bus rfl, setAbort_view_bus_self, bus]
  case waiting =>
    rw [cancelOnBus_of_waiting (by rw [bus]; exact quiet) (by rw [bus]; exact state)] at answered
    have outcome : s.outcomeOn b .cancelled = .cancelled := by simp [State.outcomeOn, quiet]
    have outcome' : (dispose a .done s).outcomeOn b .cancelled = .cancelled := by rw [outcomeOn_framed disposes, outcome]
    have ended : WaitEnded b .cancelled e (dispose a .done s) (endWaiting b .cancelled (dispose a .done s)) := by
      have ended := endWaiting_ended (s := dispose a .done s) (o := .cancelled) (by rw [bus]; exact test) (by rw [outcome']; rfl)
      rwa [outcome'] at ended
    have ends := finish_only s (endWaiting b .cancelled (dispose a .done s))
    refine ⟨_, answered, ?_, ended.buses.framed disposes ends, (ends.program rfl b).trans ended.program,
      ended.programs.framed disposes ends, ?_, ?_, ?_,
      (dispose_slotPassed a .done s).of_only (.refl [] s) (ended.only.comp ends (hs := [.news, .writerQueue, .buses, .programs,
        .waitQueue, .matrixOut, .cancelSinceLook, .readHold]) rfl) ⟨rfl, rfl⟩ ⟨rfl, rfl, rfl⟩, ended.looked.framed disposes ends,
      (disposes.comp ended.only (hs := [.buses, .programs, .cancelSinceLook, .waitQueue, .matrixOut, .news, .writerQueue, .shadows,
        .takeIndex, .testWaiting]) rfl).comp ends rfl⟩
    · rw [ends.bus rfl, ended.bus, bus]
    · rw [ends.get .waitQueue rfl, ended.waitQueue, disposes.get .waitQueue rfl]
    · rw [ends.get .matrixOut rfl, ended.matrixOut, disposes.get .matrixOut rfl]
    · rw [ends.get .news rfl, ended.news, dispose_news, finalEntries_framed disposes, List.append_assoc]
      rfl
  case measuring =>
    rw [cancelOnBus_of_measuring (by rw [bus]; exact quiet) (by rw [bus]; exact state)] at answered
    have set := setAbort_only b .cancel (dispose a .done s)
    have before := disposes.comp set (hs := .buses :: takenFields) rfl
    obtain ⟨-, -, -, single⟩ := heads
    have joined' : (setAbort b .cancel (dispose a .done s)).headOfBus b = some h :=
      headOfBus_some (by rw [before.head rfl]; exact joined) (by rw [before.head rfl, before.head rfl]; exact single b)
    obtain ⟨head, others, sent⟩ := abortStep_view joined' (by rw [before.head rfl]; exact attached)
    have stops := abortStep_only b (setAbort b .cancel (dispose a .done s))
    have ends := finish_only s (abortStep b (setAbort b .cancel (dispose a .done s)))
    have after := (set.comp stops (hs := [.buses, .heads, .headOut]) rfl).comp ends
      (hs := [.buses, .heads, .headOut, .writerQueue, .readHold]) rfl
    refine ⟨_, answered, ?_, (setAbort_otherBuses b .cancel _).framed disposes (stops.comp ends
      (hs := [.heads, .headOut, .writerQueue, .readHold]) rfl), ?_, others.framed before ends, ?_, disposed_of_only after,
      disposes.comp after rfl⟩
    · rw [ends.bus rfl, stops.bus rfl, setAbort_view_bus_self, bus]
    · rw [ends.head rfl, head, before.head rfl]
    · rw [ends.get .headOut rfl, sent, before.get .headOut rfl]

end Sys2Proof.Machine
end

section
/-!
PROOFS. FENCE and its completion (R97, R98), tickets that move and timers that expire (R106, R135, R141), and verdicts that reach the
Ticket Unit (R126–R128). Closing the register reads nothing of what the take of
a FENCE, or a host write, writes.
-/

namespace Sys2Proof.Machine

/-! ## What the Ticket Unit does not read -/

/-- Parts of the state that no ticket's way reads or changes: memory and its path, and the Intake Unit's own. -/
def besideFields : List Field :=
  [.mem, .path, .starvation, .hostAccesses, .readHold, .resultHoldSpent, .staging, .shadows, .takeIndex, .testWaiting, .fence]

/-- The state with those parts of another. -/
def State.beside (x s : State) : State :=
  { s with mem := x.mem, path := x.path, starvation := x.starvation, hostAccesses := x.hostAccesses, readHold := x.readHold,
           resultHoldSpent := x.resultHoldSpent, staging := x.staging, shadows := x.shadows, takeIndex := x.takeIndex,
           testWaiting := x.testWaiting, fence := x.fence }

/-- Where two states came from one, and the second left those parts alone, giving it the parts of the first changes what the first did. -/
theorem beside_only {fs gs : List Field} {s t x : State} (own : OnlyChanges fs s x) (kept : OnlyChanges gs s t)
    (away : apart besideFields gs = true) : OnlyChanges fs t (State.beside x t) := by
  intro f outside
  have set : f.same s x := own f outside
  by_cases inside : f ∈ besideFields
  · have same : f.same s t := kept.same_of_apart away inside
    cases f
    case mem => exact ⟨set.1.trans same.1.symm, fun a => (set.2 a).trans (same.2 a).symm⟩
    case path | starvation | hostAccesses | readHold | resultHoldSpent | staging | shadows | takeIndex | testWaiting | fence =>
      exact Eq.trans set (Eq.symm same)
    all_goals exact absurd inside (by decide)
  · cases f
    case mem | path | starvation | hostAccesses | readHold | resultHoldSpent | staging | shadows | takeIndex | testWaiting | fence =>
      exact absurd (by decide) inside
    all_goals rfl

section
variable (x s : State)

theorem raiseFlag_beside (f : Flag) : (State.beside x s).raiseFlag f = State.beside x (s.raiseFlag f) := by
  unfold State.raiseFlag
  rw [apply_ite (State.beside x)]
  rfl

theorem clearMark_beside (k : FaultKind) (l : LineNo) : clearMark k (State.beside x s) l = State.beside x (clearMark k s l) := by
  unfold clearMark
  rw [apply_ite (State.beside x)]
  rfl

theorem foldl_clearMark_beside (k : FaultKind) (ls : List LineNo) :
    ls.foldl (clearMark k) (State.beside x s) = State.beside x (ls.foldl (clearMark k) s) := by
  induction ls generalizing s with
  | nil => rfl
  | cons l ls ih => rw [List.foldl_cons, List.foldl_cons, clearMark_beside, ih]

theorem cleanMarks_beside (k : Ticket) : cleanMarks k (State.beside x s) = State.beside x (cleanMarks k s) := by
  unfold cleanMarks
  cases k.kind with
  | lineFault f => exact foldl_clearMark_beside x s f k.lines
  | _ => rfl

theorem dropTicket_beside (k : Ticket) : dropTicket k (State.beside x s) = State.beside x (dropTicket k s) := by
  unfold dropTicket
  rw [← cleanMarks_beside, ← raiseFlag_beside]
  rfl

theorem enterOutbox_beside (k : Ticket) : enterOutbox k (State.beside x s) = State.beside x (enterOutbox k s) := by
  unfold enterOutbox
  rw [apply_ite (State.beside x), ← dropTicket_beside]
  rfl

theorem closeRegister_beside : closeRegister (State.beside x s) = State.beside x (closeRegister s) := by
  cases opened : s.register with
  | none => rw [closeRegister_none opened, closeRegister_none (s := State.beside x s) opened]
  | some k =>
    rw [closeRegister_some opened, closeRegister_some (s := State.beside x s) opened, ← enterOutbox_beside]
    rfl

end

/-- The slot is passed and the fence is pending; the register is not yet closed. -/
def fencePassed (a : Anchor) (s : State) : State := { passSlot a s with fence := some s.takeIndex }

theorem fencePassed_only (a : Anchor) (s : State) :
    OnlyChanges [.fence, .shadows, .takeIndex, .testWaiting] s (fencePassed a s) :=
  (passSlot_only a s).comp (setFence_only _ (some s.takeIndex)) rfl

theorem takeFence_eq (a : Anchor) (r : Request) (s : State) :
    takeFence a r s = State.beside (fencePassed a s) (closeRegister s) := closeRegister_beside (fencePassed a s) s

/-! ## FENCE (R97) and its completion (R98) -/

theorem fence_taken {s : State} {a : Anchor} {r : Request} (taken : Takes s a r) (kind : r.kind = some .fence) :
    ∃ t u, exec .fence s = .next t ∧ RegisterClosed s u ∧ t.fence = some s.takeIndex ∧ t.newsEntries = s.newsEntries ∧
      SlotPassed a s t ∧ OnlyChanges [.fence, .shadows, .takeIndex, .testWaiting, .writerQueue, .readHold] u t := by
  have closed := closeRegister_only s
  have fenced := beside_only (fencePassed_only a s) closed rfl
  have ends := finish_only s (State.beside (fencePassed a s) (closeRegister s))
  refine ⟨_, closeRegister s, (exec_of_takes taken rfl (kind_eq_of kind)).trans (by rw [takeFence_eq]), closeRegister_closed s,
    ends.get .fence rfl, ?_, ?_, fenced.comp ends rfl⟩
  · rw [ends.get .news rfl, fenced.get .news rfl, closed.get .news rfl]
  · have passed : SlotPassed a s (State.beside (fencePassed a s) (closeRegister s)) := passSlot_slotPassed a s
    exact passed.of_only (.refl [] s) ends ⟨rfl, rfl⟩ ⟨rfl, rfl, rfl⟩

theorem fenceReady_iff (s : State) : s.fenceReady = true ↔
    s.inFlight = [] ∧ (∀ e ∈ s.writerQueue, e.isFinal = false) ∧ s.writerQueue.countP WriterEntry.isGeneral ≤ 3 := by
  have room := freeGeneral_le_iff s 1 (by decide) (by decide)
  simp only [State.fenceReady, State.finalPending, Bool.and_eq_true, Bool.not_eq_true', decide_eq_true_eq, List.isEmpty_iff,
    List.any_eq_false, Bool.not_eq_true, room, and_assoc]

/-- Settles O34: a FENCE closes the register and is pending; its DONE waits for flights and final records. -/
theorem fenceTakenAndCompleted : Obligations.FenceTakenAndCompleted := by
  refine ⟨fun s a r taken kind => fence_taken taken kind, fun s i pending landed noFinal room => ?_⟩
  have ready : s.fenceReady = true := (fenceReady_iff s).mpr ⟨landed, noFinal, room⟩
  have lifted := setFence_only s none
  have pushed := pushEntry_only (.disposition i .done true) { s with fence := none }
  have ends := finish_only s (completeFence i s)
  have answered : exec .fenceComplete s = .next (finish s (completeFence i s)) := by
    change execFenceComplete s = _
    unfold execFenceComplete
    rw [pending]
    exact if_pos ready
  refine ⟨_, answered, (ends.get .fence rfl).trans (pushed.get .fence rfl), ?_,
    (lifted.comp pushed (hs := [.fence, .news, .writerQueue]) rfl).comp ends rfl⟩
  rw [ends.get .news rfl, completeFence, pushEntry_news rfl, lifted.get .news rfl]

/-! ## Tickets that move and timers that expire -/

theorem ticketsFilled_eq_zero_iff (s : State) : s.ticketsFilled = 0 ↔ ∀ e ∈ s.writerQueue, e.isTicket = false := by
  simp [State.ticketsFilled, List.countP_eq_zero]

theorem ticket_moves {s : State} {a : Anchor} {q : QueuedTicket} {qs : List QueuedTicket} (inForce : s.anchor = some a)
    (outbox : s.outbox = q :: qs) (alone : ∀ e ∈ s.writerQueue, e.isTicket = false) (room : (s.produce - s.consume).toNat < a.ticketSize)
    (general : s.writerQueue.countP WriterEntry.isGeneral ≤ 1) :
    ∃ t, exec .ticketMove s = .next t ∧ t.outbox = qs ∧ t.droppedBefore = 0 ∧
      t.newsEntries = s.newsEntries ++ [.ticket s.produce q.sequence s.droppedBefore q.ticket] ∧
      OnlyChanges [.outbox, .droppedBefore, .news, .writerQueue, .readHold] s t := by
  have limit : s.limit Anchor.ticketSize = a.ticketSize := by rw [State.limit, inForce]
  have ready : s.moveReady = true := (moveReady_iff s).mpr
    ⟨by simp [outbox], (ticketsFilled_eq_zero_iff s).mpr alone, by rw [limit]; exact room, general⟩
  have moved := moveTicket_of_ready outbox ready
  have pushed := pushEntry_only (.ticket s.produce q.sequence s.droppedBefore q.ticket) { s with outbox := qs, droppedBefore := 0 }
  have ends := finish_only s (moveTicket s)
  have answered : exec .ticketMove s = .next (finish s (moveTicket s)) := rfl
  refine ⟨_, answered, ?_, ?_, ?_, (moveTicket_only s).comp ends rfl⟩
  · rw [ends.get .outbox rfl, moved, pushed.get .outbox rfl]
  · rw [ends.get .droppedBefore rfl, moved, pushed.get .droppedBefore rfl]
  · rw [ends.get .news rfl, moved, pushEntry_news rfl]
    rfl

/-- Settles O41: the oldest ticket moves to the writer; the coalescing timer closes the register, the pacing timer stays expired. -/
theorem ticketsMoveAndTimersExpire : Obligations.TicketsMoveAndTimersExpire := by
  refine ⟨fun s a q qs inForce outbox alone room general => ticket_moves inForce outbox alone room general,
    fun s n running => ?coalescing, fun s => ?pacing⟩
  case coalescing =>
    have answered : exec .coalescingTimerExpiry s = .next (finish s (closeRegister s)) := by
      change execCoalescingTimerExpiry s = _
      unfold execCoalescingTimerExpiry
      rw [running]
    have ends := finish_only s (closeRegister s)
    exact ⟨_, closeRegister s, answered, closeRegister_closed s, ends,
      (ends.get .news rfl).trans ((closeRegister_only s).get .news rfl)⟩
  case pacing =>
    have ends := finish_only_of_image (before := s) (s := { s with pacing := 0 }) rfl
    exact ⟨finish s { s with pacing := 0 }, rfl, ends.get .pacing rfl, (setPacing_only s 0).comp ends rfl⟩

/-! ## Verdicts (R126–R128) -/

theorem formRestored_ticketed {s : State} {a : Anchor} (inForce : s.anchor = some a) (l : LineNo) (cls : TestClass) (rs : StepRecords) :
    PassTicketed a l cls.origin rs s (formRestored l cls rs s) := by
  unfold formRestored
  refine ⟨fun unmarked => ?_, fun marked => ?_⟩
  · rw [unmarked]
    exact .refl [] s
  · obtain ⟨k, mark⟩ := Option.ne_none_iff_exists'.mp marked
    rw [mark]
    have cleared := setLine_only l { s.line l with ticketMark := none } s
    exact ⟨s.setLine l { s.line l with ticketMark := none }, State.setLine_view_line_self s l _, setLine_otherLines l _ s, cleared,
      routeTicket_routed ((cleared.get .anchor rfl).trans inForce) (lineTicket s .restored cls.origin l (.steps rs)) l rfl⟩

theorem formLineFault_ticketed {s : State} {a : Anchor} (inForce : s.anchor = some a) (l : LineNo) (k : FaultKind) (cls : TestClass)
    (rs : StepRecords) : FaultTicketed a l k cls.origin rs s (formLineFault l k cls rs s) := by
  unfold formLineFault
  refine ⟨fun suppressed => ?_, fun new => ?_⟩
  · rw [if_pos suppressed]
    exact .refl [] s
  · rw [if_neg new]
    have marked := setLine_only l { s.line l with ticketMark := some k } s
    have used := (marked.get .anchor rfl).trans inForce
    have counted := countLine_only l (s.setLine l { s.line l with ticketMark := some k })
    exact ⟨s.setLine l { s.line l with ticketMark := some k }, _, State.setLine_view_line_self s l _, setLine_otherLines l _ s, marked,
      countLine_counted used l,
      routeTicket_routed ((counted.get .anchor rfl).trans used) (lineTicket s (.lineFault k) cls.origin l (.steps rs)) l rfl⟩

/-- Settles O42: a ticket's origin is its test's class. -/
theorem verdictTicketed : Obligations.VerdictTicketed := by
  intro s a l cls origin rs inForce matching
  have same : origin = cls.origin := by
    rcases matching with ⟨rfl, rfl⟩ | ⟨rfl, rfl⟩
    all_goals rfl
  subst same
  exact ⟨formRestored_ticketed inForce l cls rs, fun k => formLineFault_ticketed inForce l k cls rs,
    formLineFault_ticketed inForce l .hazard cls rs⟩

end Sys2Proof.Machine
end

section
/-!
PROOFS. An issue attempt walks candidates until one is visited or a pass ends (R104–R111). The walk's fuel is enough: the focus list
holds at most 64 candidates, and the pointer comes to the last installed line.
-/

namespace Sys2Proof.Machine

/-! ## The conditions of an attempt (R104, R106) -/

theorem sweepQueued_eq_false_iff (s : State) : s.sweepQueued = false ↔ ∀ e ∈ s.queue, e.cls = .desk := by
  rw [State.sweepQueued, List.any_eq_false]
  refine forall₂_congr fun e _ => ?_
  cases e.cls
  all_goals decide

theorem obstacle_eq_none_iff {s : State} {a : Anchor} (inForce : s.anchor = some a) :
    s.obstacle = .none ↔ s.resyncPending = false ∧ s.headInService = true ∧ s.sweepOnBuses < a.sweepBusLimit ∧ s.queue.length < 16 ∧
      s.sweepQueued = false ∧ s.sweepOnBuses + 2 ≤ s.outboxFree := by
  have limit : s.limit Anchor.sweepBusLimit = a.sweepBusLimit := by rw [State.limit, inForce]
  unfold State.obstacle
  rw [limit, inForce]
  cases s.resyncPending
  case true => simp
  cases s.headInService
  case false => simp
  cases s.sweepQueued
  case true =>
    simp only [Bool.or_true]
    split_ifs
    all_goals simp
  simp only [Option.isNone_some, Bool.or_self, Bool.false_eq_true, if_false, Bool.not_true, Bool.or_false, decide_eq_true_eq, true_and]
  split_ifs
  all_goals simp
  all_goals omega

theorem attemptReady_iff {s : State} {a : Anchor} (inForce : s.anchor = some a) : s.attemptReady = true ↔ MayAttempt s a := by
  simp only [State.attemptReady, Bool.and_eq_true, beq_iff_eq, obstacle_eq_none_iff inForce, headInService_iff, sweepQueued_eq_false_iff,
    State.outboxFree, MayAttempt]
  tauto

/-! ## Candidates (R108, R109) -/

theorem visitable_iff {s : State} {a : Anchor} (inForce : s.anchor = some a) (l : LineNo) : s.visitable l = true ↔ Visited s a l := by
  have installed : s.installed l = true ↔ l.val < a.installed := by
    rw [State.installed, State.installedCount, State.limit, inForce, decide_eq_true_eq]
  simp only [State.visitable, Bool.and_eq_true, beq_iff_eq, Bool.not_eq_true', Option.isNone_iff_eq_none, List.any_eq_false, installed,
    Visited, and_assoc]

theorem setFocus_focusOnly (x : List FocusEntry) (s : State) : OnlyChanges [.focus] s { s with focus := x } := by
  intro f away
  cases f
  case focus => exact absurd (List.mem_singleton_self _) away
  case mem => exact ⟨rfl, fun _ => rfl⟩
  all_goals rfl

theorem advanceFocus_view {s : State} {f : FocusEntry} {fs : List FocusEntry} (focus : s.focus = f :: fs) :
    (advanceFocus s).focus = focusAdvanced f fs ∧ OnlyChanges [.focus] s (advanceFocus s) := by
  rw [advanceFocus_eq focus]
  exact ⟨rfl, setFocus_focusOnly _ s⟩

theorem issueVisit_view (a : Anchor) (l : LineNo) (s : State) :
    (issueVisit a l s).queue = s.queue ++ [visitEntry a l] ∧ WaitTested False s (issueVisit a l s) ∧
      Looked True s (issueVisit a l s) := by
  have retests := retestWaiting_only false (State.look true { s with queue := s.queue ++ [visitEntry a l] })
  refine ⟨retests.get .queue rfl, ?_, (looked_look (by simp) _).framed (setQueue_only s (s.queue ++ [visitEntry a l])) retests⟩
  have tested := retestWaiting_tested false (s := s) (u := State.look true { s with queue := s.queue ++ [visitEntry a l] }) rfl
  rwa [eq_false Bool.false_ne_true] at tested

/-! ## How many candidates are left -/

/-- Candidates of a focus list. -/
def focusLeft (fs : List FocusEntry) : Nat := (fs.map fun f => 16 - f.cursor.val).sum

theorem focusLeft_cons (f : FocusEntry) (fs : List FocusEntry) : focusLeft (f :: fs) = (16 - f.cursor.val) + focusLeft fs := by
  simp [focusLeft]

theorem focusLeft_focusAdvanced (f : FocusEntry) (fs : List FocusEntry) : focusLeft (focusAdvanced f fs) < focusLeft (f :: fs) := by
  have within := f.cursor.isLt
  unfold focusAdvanced
  split
  · simp only [focusLeft_cons]
    omega
  · rw [focusLeft_cons]
    omega

theorem focusLeft_le (fs : List FocusEntry) : focusLeft fs ≤ 16 * fs.length := by
  induction fs with
  | nil => exact Nat.le_refl 0
  | cons f fs ih => rw [focusLeft_cons, List.length_cons]; omega

/-- Candidates an attempt can still take: those of the focus list and the installed lines from the pointer on. -/
def candidatesLeft (a : Anchor) (s : State) : Nat := focusLeft s.focus + (a.installed - s.pointer)

/-! ## The walk -/

theorem atLastLine_iff {s : State} {a : Anchor} (inForce : s.anchor = some a) : s.atLastLine = true ↔ a.installed ≤ s.pointer + 1 := by
  rw [State.atLastLine, State.installedCount, State.limit, inForce, decide_eq_true_eq]

theorem pointerLine_val {s : State} (small : s.pointer < 4096) : s.pointerLine.val = s.pointer := Nat.mod_eq_of_lt small

section
variable {a : Anchor} {s : State} {n : Nat} (inForce : s.anchor = some a)
include inForce

theorem walk_focus_attempt {f : FocusEntry} {fs : List FocusEntry} (focus : s.focus = f :: fs)
    (rest : ¬ Visited s a f.line → Attempt a (advanceFocus (standingLoopCheck f.line s))
      (walk a n (advanceFocus (standingLoopCheck f.line s)))) : Attempt a s (walk a (n + 1) s) := by
  unfold walk
  rw [focus]
  dsimp only
  split
  · next visits =>
    obtain ⟨queue, tested, looked⟩ := issueVisit_view a f.line s
    have visit := issueVisit_only a f.line s
    obtain ⟨advanced, only⟩ := advanceFocus_view ((visit.get .focus rfl).trans focus)
    exact .visitFocus f fs s _ focus ((visitable_iff inForce _).mp visits) ((only.get .queue rfl).trans queue) advanced
      (tested.after only rfl) (looked.framed (.refl [] s) only) (visit.comp only rfl)
  · next skips =>
    have skipped : ¬ Visited s a f.line := fun visited => skips ((visitable_iff inForce _).mpr visited)
    obtain ⟨advanced, only⟩ := advanceFocus_view (((standingLoopCheck_only f.line s).get .focus rfl).trans focus)
    exact .skipFocus f fs s _ _ _ focus skipped (standingLoopCheck_checked a f.line s inForce) advanced only (rest skipped)

theorem advancePointer_view (visit : s.pointer + 1 < a.installed) :
    (advancePointer s).pointer = s.pointer + 1 ∧ OnlyChanges [.pointer] s (advancePointer s) := by
  have inside : ¬ s.atLastLine = true := fun last => Nat.not_le.mpr visit ((atLastLine_iff inForce).mp last)
  have advanced : advancePointer s = { s with pointer := s.pointer + 1 } := if_neg inside
  rw [advanced]
  exact ⟨rfl, setPointer_only _ s⟩

theorem walk_pointer_attempt (focus : s.focus = []) (small : s.pointer < 4096)
    (rest : s.pointer + 1 < a.installed → Attempt a (advancePointer (standingLoopCheck s.pointerLine s))
      (walk a n (advancePointer (standingLoopCheck s.pointerLine s)))) : Attempt a s (walk a (n + 1) s) := by
  have line := pointerLine_val small
  unfold walk
  rw [focus]
  dsimp only
  split
  · next visits =>
    have visited := (visitable_iff inForce _).mp visits
    obtain ⟨queue, tested, looked⟩ := issueVisit_view a s.pointerLine s
    have visit := issueVisit_only a s.pointerLine s
    have inForce' := (visit.get .anchor rfl).trans inForce
    have pointer : (issueVisit a s.pointerLine s).pointer = s.pointer := visit.get .pointer rfl
    by_cases last : a.installed ≤ s.pointer + 1
    · have ends : advancePointer (issueVisit a s.pointerLine s) = passEnd (issueVisit a s.pointerLine s) :=
        if_pos ((atLastLine_iff inForce').mpr (by rwa [pointer]))
      rw [ends]
      exact .visitLast s.pointerLine s _ _ focus line visited last queue tested looked visit (passEnd_ended _)
    · obtain ⟨advanced, only⟩ := advancePointer_view inForce' (by rw [pointer]; exact Nat.not_le.mp last)
      exact .visitPointer s.pointerLine s _ focus line visited (Nat.not_le.mp last) ((only.get .queue rfl).trans queue)
        (by rw [advanced, pointer]) (tested.after only rfl) (looked.framed (.refl [] s) only) (visit.comp only rfl)
  · next skips =>
    have skipped : ¬ Visited s a s.pointerLine := fun visited => skips ((visitable_iff inForce _).mpr visited)
    have check := standingLoopCheck_only s.pointerLine s
    have checked := standingLoopCheck_checked a s.pointerLine s inForce
    split
    · next last =>
      exact .skipLast s.pointerLine s _ _ focus line skipped ((atLastLine_iff inForce).mp last) checked (passEnd_ended _)
    · next inside =>
      have more : s.pointer + 1 < a.installed := Nat.not_le.mp fun last => inside ((atLastLine_iff inForce).mpr last)
      have pointer : (standingLoopCheck s.pointerLine s).pointer = s.pointer := check.get .pointer rfl
      obtain ⟨advanced, only⟩ := advancePointer_view (s := standingLoopCheck s.pointerLine s) ((check.get .anchor rfl).trans inForce)
        (by rw [pointer]; exact more)
      exact .skipPointer s.pointerLine s _ _ _ focus line skipped more checked (by rw [advanced, pointer]) only (rest more)

end

/-- With fuel for the candidates left, the walk is an attempt. -/
theorem walk_attempt {a : Anchor} (small : a.installed ≤ 4096) {n : Nat} {s : State} (inForce : s.anchor = some a)
    (inside : s.pointer < a.installed) (enough : candidatesLeft a s ≤ n) : Attempt a s (walk a n s) := by
  induction n generalizing s with
  | zero =>
    unfold candidatesLeft at enough
    omega
  | succ n ih =>
    cases focus : s.focus with
    | cons f fs =>
      refine walk_focus_attempt inForce focus fun _ => ?_
      have check := standingLoopCheck_only f.line s
      obtain ⟨advanced, only⟩ := advanceFocus_view ((check.get .focus rfl).trans focus)
      have pointer := (only.get .pointer rfl).trans (check.get .pointer rfl)
      have fewer := focusLeft_focusAdvanced f fs
      refine ih ((only.get .anchor rfl).trans ((check.get .anchor rfl).trans inForce)) (by rw [pointer]; exact inside) ?_
      unfold candidatesLeft at enough ⊢
      rw [advanced, pointer]
      rw [focus] at enough
      omega
    | nil =>
      refine walk_pointer_attempt inForce focus (Nat.lt_of_lt_of_le inside small) fun more => ?_
      have check := standingLoopCheck_only s.pointerLine s
      have inForce' := (check.get .anchor rfl).trans inForce
      have pointer : (standingLoopCheck s.pointerLine s).pointer = s.pointer := check.get .pointer rfl
      obtain ⟨advanced, only⟩ := advancePointer_view inForce' (by rw [pointer]; exact more)
      refine ih ((only.get .anchor rfl).trans inForce') (by rw [advanced, pointer]; exact more) ?_
      have same : (advancePointer (standingLoopCheck s.pointerLine s)).focus = s.focus :=
        (only.get .focus rfl).trans (check.get .focus rfl)
      unfold candidatesLeft at enough ⊢
      rw [advanced, pointer, same]
      omega

/-- Settles O40: at most 64 focus candidates and 4,096 pointer candidates. -/
theorem issueAttemptRuns : Obligations.IssueAttemptRuns := by
  intro s a may anchors few
  have inForce : s.anchor = some a := may.1
  obtain ⟨-, -, range, -, -, inside⟩ := anchors a inForce
  obtain ⟨-, -, -, ⟨-, small, -⟩, -⟩ := (rangeOk_iff a).mp range
  have enough : candidatesLeft a s ≤ walkBound := by
    have focus := focusLeft_le s.focus
    unfold candidatesLeft walkBound
    omega
  have paced := setPacing_only (walk a walkBound s) a.sweepInterval
  have ends := finish_only s (issueAttempt a s)
  have answered : exec .issueAttempt s = .next (finish s (issueAttempt a s)) := by
    change execIssueAttempt s = _
    unfold execIssueAttempt
    rw [inForce]
    exact if_pos ((attemptReady_iff inForce).mpr may)
  exact ⟨_, walk a walkBound s, answered, walk_attempt small inForce inside enough, ends.get .pacing rfl, paced.comp ends rfl⟩

end Sys2Proof.Machine
end

section
/-!
PROOFS. Host writes: how a write is stored (R156, R158, R163), and what the owner of its window makes of it (R157, R158, R175, R181,
R143).
-/

namespace Sys2Proof.Machine

/-! ## The write stored -/

theorem hostMayTake_of_writerFirst {s : State} (writer : WriterFirst s) : s.hostMayTake = false := by
  rw [← Bool.not_eq_true, hostMayTake_iff]
  rintro ⟨free, turn⟩
  rcases writer with writing | ⟨-, pending, first⟩
  · rw [free] at writing
    simp [Path.isWriter] at writing
  · rcases turn with none | ⟨inForce, few⟩
    · exact pending none
    · rcases first with absent | full
      · simp [absent] at inForce
      · omega

theorem exec_write_open {s : State} {c : Instr} {addr : HostAddr} {data : Word} {be : BitVec 4}
    (writes : writeOf c = some (addr, data, be)) (free : PathOpen s) :
    exec c s = .next (State.markIfChanged (afterWrite addr data be s)
      (handToOwner (wordAddr addr) data be (afterWrite addr data be s))) := by
  rw [exec_of_writeOf writes, present_write_open_eq free]

/-- What a performed write changes beside its owner's part. -/
theorem exec_write_open_only (addr : HostAddr) (data : Word) (be : BitVec 4) (s : State) :
    OnlyChanges ownerFields (afterWrite addr data be s) (State.markIfChanged (afterWrite addr data be s)
      (handToOwner (wordAddr addr) data be (afterWrite addr data be s))) :=
  (handToOwner_only _ data be _).comp (markIfChanged_only _ _) rfl

/-- Settles O43: on a path open to it a write is stored at once; otherwise it waits, alone or behind others. -/
theorem hostWriteStored : Obligations.HostWriteStored := by
  intro s c addr data be writes
  refine ⟨fun free memory => ?stored, fun none writer => ?waits, fun some => ?follows⟩
  case stored =>
    have owner := exec_write_open_only addr data be s
    refine ⟨_, exec_write_open writes free, writeLanes_stored addr data be memory (owner.get .mem rfl).1, owner.get .path rfl,
      owner.get .hostAccesses rfl, owner.get .readHold rfl, (owner.get .starvation rfl).trans ?_, owner.get .readData rfl⟩
    change countStarved (!s.writerQueue.isEmpty) s.starvation = _
    unfold countStarved
    cases s.writerQueue
    all_goals rfl
  case waits =>
    refine ⟨{ s with hostAccesses := [.write addr data be] }, ?_, rfl, setHostAccesses_only s _⟩
    have turn : State.hostMayTake { s with hostAccesses := [.write addr data be] } = false := hostMayTake_of_writerFirst writer
    rw [exec_of_writeOf writes, present_first _ none, serveAll_write rfl, turn]
    rfl
  case follows =>
    exact ⟨_, (exec_of_writeOf writes s).trans (by rw [present_next _ some]), rfl, setHostAccesses_only s _⟩

/-! ## The windows (Table 8-1) -/

theorem windows_apart {a : Anchor} (layout : LaidOut a) :
    Apart (0x200, 0x80) (a.ringBase, 16 * a.ringSize) ∧ Apart (0x200, 0x80) (a.statusBase, 64) ∧
      Apart (a.ringBase, 16 * a.ringSize) (a.statusBase, 64) := by
  obtain ⟨-, -, pairs⟩ := layout
  simp only [List.pairwise_cons, List.mem_cons, List.not_mem_nil, or_false, forall_eq_or_imp, forall_eq] at pairs
  obtain ⟨⟨anchorRing, -, -, anchorStatus⟩, ⟨-, -, ringStatus⟩, -⟩ := pairs
  exact ⟨anchorRing, anchorStatus, ringStatus⟩

theorem laidOut_of_anchorOk {s : State} {a : Anchor} (anchors : AnchorOk s) (inForce : s.anchor = some a) : LaidOut a := by
  obtain ⟨-, -, -, layout, -⟩ := anchors a inForce
  exact (layoutOk_iff a).mp layout

section
variable {w : Nat} {data : Word} {be : BitVec 4} {s : State}

theorem handToOwner_anchorBlock (i : Fin 32) (word : w = 0x200 + 4 * i.val) :
    handToOwner w data be s = writeAnchorBlock i data be s := by
  have inside : 0x200 ≤ w ∧ w < 0x280 := by omega
  have place : Fin.ofNat 32 ((w - 0x200) / 4) = i := by
    ext
    simp only [Fin.val_ofNat]
    omega
  unfold handToOwner
  rw [if_pos inside, place]

theorem handToOwner_of_no_anchor (outside : w < 0x200 ∨ 0x280 ≤ w) (absent : s.anchor = none) : handToOwner w data be s = s := by
  unfold handToOwner
  rw [if_neg (by omega), absent]

section
variable {a : Anchor} (inForce : s.anchor = some a) (outside : w < 0x200 ∨ 0x280 ≤ w)
include inForce outside

theorem handToOwner_of_anchor :
    handToOwner w data be s =
      if a.ringBase ≤ w ∧ w < a.ringBase + 16 * a.ringSize then
        writeShadow (Fin.ofNat 64 ((w - a.ringBase) / 16)) (Fin.ofNat 4 ((w - a.ringBase) % 16 / 4)) data be s
      else if a.statusBase ≤ w ∧ w < a.statusBase + 64 then writeStatusBlock a w data be s
      else s := by
  unfold handToOwner
  rw [if_neg (by omega), inForce]

theorem handToOwner_ring (i : Fin 64) (j : Fin 4) (inRing : i.val < a.ringSize) (word : w = a.ringBase + 16 * i.val + 4 * j.val) :
    handToOwner w data be s = writeShadow i j data be s := by
  have slot : Fin.ofNat 64 ((w - a.ringBase) / 16) = i := by
    ext
    simp only [Fin.val_ofNat]
    omega
  have place : Fin.ofNat 4 ((w - a.ringBase) % 16 / 4) = j := by
    ext
    simp only [Fin.val_ofNat]
    omega
  rw [handToOwner_of_anchor inForce outside, if_pos (by omega), slot, place]

theorem handToOwner_status (offRing : w < a.ringBase ∨ a.ringBase + 16 * a.ringSize ≤ w)
    (inside : a.statusBase ≤ w ∧ w < a.statusBase + 64) : handToOwner w data be s = writeStatusBlock a w data be s := by
  rw [handToOwner_of_anchor inForce outside, if_neg (by omega), if_pos inside]

theorem handToOwner_nothing (offRing : w < a.ringBase ∨ a.ringBase + 16 * a.ringSize ≤ w)
    (noAck : ¬ (w = a.statusBase + 8 ∧ be = 0xF#4)) (noConsume : ¬ (w = a.statusBase + 16 ∧ be = 0xF#4)) :
    handToOwner w data be s = s := by
  rw [handToOwner_of_anchor inForce outside, if_neg (by omega)]
  split
  · have full := isFullWord_iff be
    exact (if_neg fun both => noAck ⟨both.1, full.mp both.2⟩).trans (if_neg fun both => noConsume ⟨both.1, full.mp both.2⟩)
  · rfl

end

/-! ## What each owner does -/

theorem writeAnchorBlock_of_no_attempt {i : Fin 32}
    (quiet : i = 31 → be = 0xF#4 → data.toNat % 256 = 0 ∨ ∃ a, s.anchor = some a ∧ a.generation = data.toNat % 256) :
    writeAnchorBlock i data be s = mergeStaging i data be s := by
  refine if_neg ?_
  rintro ⟨last, full, attempt⟩
  simp only [State.isAttempt, field_zero, Bool.and_eq_true, bne_iff_ne] at attempt
  rcases quiet last ((isFullWord_iff be).mp full) with zero | ⟨a, inForce, same⟩
  · exact attempt.1 zero
  · have anchor : (mergeStaging i data be s).anchor = some a := inForce
    rw [anchor] at attempt
    simp [same] at attempt

theorem mergeStaging_view (i : Fin 32) (data : Word) (be : BitVec 4) (s : State) :
    Merged (entry s.staging i) data be (entry (mergeStaging i data be s).staging i) ∧
      ∀ j, j ≠ i → entry (mergeStaging i data be s).staging j = entry s.staging j := by
  refine ⟨?_, fun j other => entry_putEntry_ne _ _ (Ne.symm other)⟩
  rw [show entry (mergeStaging i data be s).staging i = mergeLanes (entry s.staging i) data be from entry_putEntry_self _ _ _]
  exact mergeLanes_merged _ data be

theorem ownerField_eq (data : Word) : field data 0 2 = data.toNat % 4 := field_zero data 2

theorem postedAfter_eq (data : Word) (was : Bool) :
    (data.toNat % 4 = 1 → postedAfter data was = true) ∧ (data.toNat % 4 = 2 → postedAfter data was = false) ∧
      (data.toNat % 4 ≠ 1 ∧ data.toNat % 4 ≠ 2 → postedAfter data was = was) := by
  unfold postedAfter
  rw [ownerField_eq]
  refine ⟨fun posted => if_pos posted, fun returned => ?_, fun ⟨one, two⟩ => ?_⟩
  · rw [if_neg (by omega), if_pos returned]
  · rw [if_neg one, if_neg two]

/-- The shadow of a slot a host write reaches. -/
def Shadow.written (x : Shadow) (j : Fin 4) (data : Word) (be : BitVec 4) : Shadow :=
  { words := putEntry x.words j (mergeLanes (entry x.words j) data be),
    posted := if (decide (j = 3) && isFullWord be) = true then postedAfter data x.posted else x.posted }

theorem writeShadow_view_shadow (i : Fin 64) (j : Fin 4) (data : Word) (be : BitVec 4) (s : State) (x : Fin 64) :
    (writeShadow i j data be s).shadow x = if i = x then (s.shadow i).written j data be else s.shadow x :=
  ((retestWaiting_only _ _).shadow rfl x).trans (State.setShadow_view_shadow s i _ x)

theorem Shadow.written_posted (x : Shadow) (j : Fin 4) (data : Word) (be : BitVec 4) :
    (j = 3 → be = 0xF#4 → data.toNat % 4 = 1 → (x.written j data be).posted = true) ∧
      (j = 3 → be = 0xF#4 → data.toNat % 4 = 2 → (x.written j data be).posted = false) ∧
      (j ≠ 3 ∨ be ≠ 0xF#4 ∨ (data.toNat % 4 ≠ 1 ∧ data.toNat % 4 ≠ 2) → (x.written j data be).posted = x.posted) := by
  obtain ⟨posts, returns, leaves⟩ := postedAfter_eq data x.posted
  have owner : (x.written j data be).posted = if j = 3 ∧ be = 0xF#4 then postedAfter data x.posted else x.posted := by
    simp only [Shadow.written, Bool.and_eq_true, decide_eq_true_eq, isFullWord_iff]
  rw [owner]
  refine ⟨fun last full posted => ?_, fun last full returned => ?_, fun other => ?_⟩
  · rw [if_pos ⟨last, full⟩, posts posted]
  · rw [if_pos ⟨last, full⟩, returns returned]
  · split
    · next both => exact leaves ((other.resolve_left (· both.1)).resolve_left (· both.2))
    · rfl

theorem writeShadow_tested (i : Fin 64) (j : Fin 4) (data : Word) (be : BitVec 4) {s u : State}
    (waiting : u.testWaiting = s.testWaiting) (index : u.takeIndex = s.takeIndex) :
    WaitTested (i = s.takeIndex ∧ j = 3 ∧ be = 0xF#4 ∧ data.toNat % 4 = 1) s (writeShadow i j data be u) := by
  have moment : (decide (i = u.takeIndex) && (decide (j = 3) && isFullWord be) && decide (field data 0 2 = 1)) = true ↔
      i = s.takeIndex ∧ j = 3 ∧ be = 0xF#4 ∧ data.toNat % 4 = 1 := by
    simp only [Bool.and_eq_true, decide_eq_true_eq, isFullWord_iff, index, ownerField_eq, and_assoc]
  rw [← propext moment]
  exact retestWaiting_tested _ waiting

end

/-! ## The write handed over -/

/-- A write whose owner leaves the status image as it was. -/
theorem exec_write_of_image {s v : State} {c : Instr} {addr : HostAddr} {data : Word} {be : BitVec 4}
    (writes : writeOf c = some (addr, data, be)) (free : PathOpen s)
    (owner : handToOwner (wordAddr addr) data be (afterWrite addr data be s) = v)
    (image : v.statusImage = (afterWrite addr data be s).statusImage) : exec c s = .next v := by
  rw [exec_write_open writes free, owner, markIfChanged_of_image image]

theorem acknowledge_view (data : Word) {s : State} (free : s.path = .free) :
    (∀ f, (data.getLsbD f.position = true → (acknowledge data s).flag f = .clear) ∧
        (data.getLsbD f.position = false → (acknowledge data s).flag f = s.flag f)) ∧ StatusPending (acknowledge data s) := by
  refine ⟨fun f => ?_, markDirty_pending none _ fun writing => ?_⟩
  · have flag : (acknowledge data s).flag f = if data.getLsbD f.position = true then .clear else s.flag f :=
      ((markDirty_only none _).flag rfl f).trans (acknowledgeFlags_view_flag data s f)
    rw [flag]
    exact ⟨fun set => if_pos set, fun unset => if_neg (by simp [unset])⟩
  · rw [(acknowledgeFlags_only data s).get .path rfl, free] at writing
    simp [Path.isWriter] at writing

theorem markIfChanged_of_pending {u v : State} (pending : StatusPending v) : State.markIfChanged u v = v := by
  unfold State.markIfChanged
  split
  · exact markDirty_keep v pending
  · rfl

theorem offerConsume_consume (a : Anchor) (data : Word) (s : State) :
    (offerConsume a data s).consume =
      if ((∀ e ∈ s.writerQueue, e.isTicket = false) ∧ (s.produce - data.setWidth 16).toNat ≤ a.ticketSize) ∨
          ((∃ e ∈ s.writerQueue, e.isTicket = true) ∧ (s.produce - data.setWidth 16).toNat ≤ a.ticketSize - 1) then data.setWidth 16
      else s.consume := by
  unfold offerConsume
  dsimp only
  rw [apply_ite State.consume]
  refine if_congr ?_ rfl rfl
  cases ticket : s.ticketInWriter with
  | true =>
    obtain ⟨e, mem, isTicket⟩ := List.any_eq_true.mp ticket
    have some : ¬ ∀ e ∈ s.writerQueue, e.isTicket = false := fun none => by simp [none e mem] at isTicket
    simp only [some, false_and, false_or, if_true]
    exact (and_iff_right ⟨e, mem, isTicket⟩).symm
  | false =>
    have none : ∀ e ∈ s.writerQueue, e.isTicket = false := by
      simpa [State.ticketInWriter] using ticket
    have noTicket : ¬ ∃ e ∈ s.writerQueue, e.isTicket = true := fun ⟨e, mem, isTicket⟩ => by simp [none e mem] at isTicket
    simp only [noTicket, false_and, or_false, Bool.false_eq_true, if_false]
    exact (and_iff_right none).symm

/-- Settles O44, a window at a time. -/
theorem hostWriteHandedOver : Obligations.HostWriteHandedOver := by
  rintro s c addr data be w writes rfl free anchors
  have stored := afterWrite_only addr data be s free
  refine ⟨fun i word quiet => ?anchorBlock, fun outside absent => ?noAnchor, fun a inForce =>
    ⟨fun i j inRing word => ?ring, fun word full => ?acknowledge, fun word full => ?consume,
      fun outside offRing noAck noConsume => ?nothing⟩⟩
  case anchorBlock =>
    have merged := mergeStaging_only i data be (afterWrite addr data be s)
    obtain ⟨here, others⟩ := mergeStaging_view i data be (afterWrite addr data be s)
    exact ⟨_, exec_write_of_image writes free ((handToOwner_anchorBlock i word).trans (writeAnchorBlock_of_no_attempt quiet))
      (statusImage_of_only merged rfl), here, others, stored.comp merged rfl⟩
  case noAnchor =>
    exact ⟨_, exec_write_of_image writes free (handToOwner_of_no_anchor outside absent) rfl, stored⟩
  all_goals
    have inForce' : (afterWrite addr data be s).anchor = some a := inForce
    have layout := laidOut_of_anchorOk anchors inForce
    obtain ⟨anchorRing, anchorStatus, ringStatus⟩ := windows_apart layout
    simp only [Apart] at anchorRing anchorStatus ringStatus
  case ring =>
    have written := writeShadow_only i j data be (afterWrite addr data be s)
    have shadow := writeShadow_view_shadow i j data be (afterWrite addr data be s)
    have here : (writeShadow i j data be (afterWrite addr data be s)).shadow i = (s.shadow i).written j data be :=
      (shadow i).trans (if_pos rfl)
    have words : ((s.shadow i).written j data be).words =
        putEntry (s.shadow i).words j (mergeLanes (entry (s.shadow i).words j) data be) := rfl
    obtain ⟨posts, returns, leaves⟩ := (s.shadow i).written_posted j data be
    refine ⟨_, exec_write_of_image writes free (handToOwner_ring inForce' (by omega) i j inRing word)
      (statusImage_of_only written rfl), ?_, fun x other => ?_, ?_, ?_, ?_, fun x other => (shadow x).trans (if_neg (Ne.symm other)),
      writeShadow_tested i j data be rfl rfl, stored.comp written rfl⟩
    · rw [here, words, entry_putEntry_self]
      exact mergeLanes_merged _ data be
    · rw [here, words, entry_putEntry_ne _ _ (Ne.symm other)]
    · rw [here]; exact posts
    · rw [here]; exact returns
    · rw [here]; exact leaves
  case acknowledge =>
    have owner : handToOwner (wordAddr addr) data be (afterWrite addr data be s) = acknowledge data (afterWrite addr data be s) :=
      (handToOwner_status inForce' (by omega) (by omega) (by omega)).trans (if_pos ⟨word, (isFullWord_iff be).mpr full⟩)
    obtain ⟨flags, pending⟩ := acknowledge_view data (s := afterWrite addr data be s) rfl
    refine ⟨_, (exec_write_open writes free).trans (by rw [owner, markIfChanged_of_pending pending]), flags, pending,
      stored.comp (acknowledge_only data _) rfl⟩
  case consume =>
    have offered := offerConsume_only a data (afterWrite addr data be s)
    have other : ¬ wordAddr addr = a.ackAddr := by
      unfold Anchor.ackAddr
      omega
    have owner : handToOwner (wordAddr addr) data be (afterWrite addr data be s) = offerConsume a data (afterWrite addr data be s) :=
      (handToOwner_status inForce' (by omega) (by omega) (by omega)).trans
        ((if_neg fun both => other both.1).trans (if_pos ⟨word, (isFullWord_iff be).mpr full⟩))
    have consume := offerConsume_consume a data (afterWrite addr data be s)
    exact ⟨_, exec_write_of_image writes free owner (statusImage_of_only offered rfl), fun accepted => consume.trans (if_pos accepted),
      fun ignored => consume.trans (if_neg ignored), stored.comp offered rfl⟩
  case nothing =>
    exact ⟨_, exec_write_of_image writes free (handToOwner_nothing inForce' outside offRing noAck noConsume) rfl, stored⟩

end Sys2Proof.Machine
end

section
/-!
PROOFS. A commit attempt (R169–R174): the checks in their order, an accepted attempt and a refused one. The register is closed before
the checks; that leaves the part as quiet or as busy as it was.
-/

namespace Sys2Proof.Machine

/-! ## The checks (R171, R172) -/

theorem validate_of_outcomeIs {a : Anchor} {s : State} {o : CommitOutcome} (h : OutcomeIs a s o) : validate a s = o := by
  unfold validate
  simp only [OutcomeIs, ← rangeOk_iff, ← layoutOk_iff, ← limitsOk_iff, ← quiet_iff_Quiet] at h
  rcases h with ⟨range, rfl⟩ | ⟨range, layout, rfl⟩ | ⟨range, layout, limits, rfl⟩ | ⟨range, layout, limits, quiet, rfl⟩ |
    ⟨range, layout, limits, quiet, rfl⟩
  all_goals simp [*]

theorem closeRegister_quiet (s : State) : (closeRegister s).quiet = s.quiet := by
  cases opened : s.register with
  | none => rw [closeRegister_none opened]
  | some k =>
    have busy : s.quiet = false := by simp [State.quiet, opened]
    have filled : (closeRegister s).outbox ≠ [] := by
      rw [closeRegister_some opened]
      exact enterOutbox_outbox_ne k _
    have still : (closeRegister s).quiet = false := by simp [State.quiet, filled]
    rw [busy, still]

theorem outcomeIs_of_quiet {a : Anchor} {s t : State} {o : CommitOutcome} (h : OutcomeIs a s o) (same : t.quiet = s.quiet) :
    OutcomeIs a t o := by
  unfold OutcomeIs at h ⊢
  rwa [← quiet_iff_Quiet t, same, quiet_iff_Quiet]

theorem register_of_quiet {s : State} (quiet : s.quiet = true) : s.register = none := by
  obtain ⟨-, -, -, -, -, register⟩ := (quiet_iff_Quiet s).mp quiet
  exact register

/-! ## The attempt -/

theorem generationField_eq (data : Word) : field data 0 8 = data.toNat % 256 := field_zero data 8

/-- The commit word has been written; the attempt has not yet begun. -/
def commitWritten (addr : HostAddr) (data : Word) (s : State) : State := mergeStaging 31 data 0xF#4 (afterWrite addr data 0xF#4 s)

theorem commitWritten_staging (addr : HostAddr) (data : Word) (s : State) :
    (commitWritten addr data s).staging = putEntry s.staging 31 data :=
  congrArg (putEntry s.staging 31) (mergeLanes_full (entry s.staging 31) data)

theorem commitWritten_only (addr : HostAddr) (data : Word) {s : State} (free : PathOpen s) :
    OnlyChanges (.staging :: accessFields) s (commitWritten addr data s) :=
  (afterWrite_only addr data 0xF#4 s free).comp (mergeStaging_only 31 data 0xF#4 _) rfl

theorem isAttempt_of_new {data : Word} {s : State} (used : data.toNat % 256 ≠ 0)
    (new : ∀ x, s.anchor = some x → x.generation ≠ data.toNat % 256) : s.isAttempt data = true := by
  unfold State.isAttempt
  rw [generationField_eq]
  cases inForce : s.anchor with
  | none => simpa using used
  | some x => simpa using ⟨used, (new x inForce).symm⟩

theorem exec_commitAttempt {s : State} {c : Instr} {addr : HostAddr} {data : Word} (writes : writeOf c = some (addr, data, 0xF#4))
    (word : wordAddr addr = 0x27C) (free : PathOpen s) (used : data.toNat % 256 ≠ 0)
    (new : ∀ x, s.anchor = some x → x.generation ≠ data.toNat % 256) :
    exec c s = .next (commitAttempt data (commitWritten addr data s)) := by
  have owner : handToOwner (wordAddr addr) data 0xF#4 (afterWrite addr data 0xF#4 s) =
      commitAttempt data (commitWritten addr data s) :=
    (handToOwner_anchorBlock 31 word).trans (if_pos ⟨rfl, rfl, isAttempt_of_new used new⟩)
  rw [exec_write_open writes free, owner, markIfChanged_of_pending (commitAttempt_pending data rfl)]

/-- The attempt ends accepted or refused, and its outcome stands in the status entry. -/
theorem commitAttempt_eq {data : Word} {s : State} {a : Anchor} {o : CommitOutcome}
    (settings : a = Machine.settings s.staging (data.toNat % 256)) (outcome : OutcomeIs a s o) :
    commitAttempt data s =
      State.markDirty
        (if o = .accepted then acceptCommit a (closeRegister s)
          else refuseCommit { generation := data.toNat % 256, outcome := o } (closeRegister s))
        (some { generation := data.toNat % 256, outcome := o }) := by
  have staging : (closeRegister s).staging = s.staging := (closeRegister_only s).get .staging rfl
  have checked : validate a (closeRegister s) = o := validate_of_outcomeIs (outcomeIs_of_quiet outcome (closeRegister_quiet s))
  unfold commitAttempt
  dsimp only
  rw [generationField_eq, staging, ← settings, checked]
  cases o
  all_goals rfl

theorem mem_markStatus_self (c : CommitRecord) (l : List WriterEntry) : .status (some c) ∈ markStatus (some c) l := by
  induction l with
  | nil => exact List.mem_singleton_self _
  | cons e es ih =>
    unfold markStatus
    split
    · exact List.mem_cons_self
    · exact List.mem_cons_of_mem e ih

theorem mem_markDirty_self (c : CommitRecord) {s : State} (free : s.path = .free) :
    .status (some c) ∈ (s.markDirty (some c)).writerQueue := by
  have marked : (s.markDirty (some c)).writerQueue = markStatus (some c) s.writerQueue := by
    unfold State.markDirty
    rw [free]
    rfl
  rw [marked]
  exact mem_markStatus_self c _

/-! ## The two outcomes (R173, R174) -/

/-- An accepted attempt but for the COMMIT flag that it raises. -/
def acceptedState (a : Anchor) (s : State) : State :=
  clearAllGroups
    { s with anchor := some a, shadows := Vector.replicate 64 Shadow.cleared, takeIndex := 0, testWaiting := .absent, fence := none,
             cancelSinceLook := false, produce := 0, consume := 0, flags := Vector.replicate 13 .clear,
             lastCommit := some { generation := a.generation, outcome := .accepted },
             pointer := if a.installed ≤ s.pointer then 0 else s.pointer }

theorem acceptCommit_eq (a : Anchor) (s : State) : acceptCommit a s = (acceptedState a s).raiseFlag .commit := rfl

theorem acceptedState_flag (a : Anchor) (s : State) (f : Flag) : (acceptedState a s).flag f = .clear := entry_replicate _ _

theorem acceptCommit_flag (a : Anchor) (s : State) :
    (acceptCommit a s).flag .commit = .raised ∧ ∀ f, f ≠ .commit → (acceptCommit a s).flag f = .clear := by
  refine ⟨?_, fun f other => ?_⟩
  · rw [acceptCommit_eq, raiseFlag_view_flag, if_pos ⟨rfl, rfl, acceptedState_flag a s _⟩]
  · rw [acceptCommit_eq, raiseFlag_view_flag, if_neg fun same => other same.1.symm, acceptedState_flag]

theorem refuseCommit_view (c : CommitRecord) (s : State) :
    (s.anchor ≠ none → (refuseCommit c s).lastCommit = some c ∧ FlagRaised .commit s (refuseCommit c s) ∧
        OtherFlags [.commit] s (refuseCommit c s)) ∧
      (s.anchor = none → refuseCommit c s = s) := by
  unfold refuseCommit
  refine ⟨fun used => ?_, fun absent => ?_⟩
  · rw [if_pos (by simpa [Option.isSome_iff_ne_none] using used)]
    exact ⟨(raiseFlag_only .commit { s with lastCommit := some c }).get .lastCommit rfl,
      flagRaised_raiseFlag .commit { s with lastCommit := some c }, otherFlags_raiseFlag .commit { s with lastCommit := some c }⟩
  · rw [if_neg (by simp [absent])]

/-- The fields an accepted attempt changes. -/
def acceptFields : List Field :=
  [.anchor, .lastCommit, .shadows, .takeIndex, .testWaiting, .fence, .cancelSinceLook, .produce, .consume, .flags, .groups, .alarmList,
    .alarmOverflow, .focus, .pointer]

theorem acceptCommit_only_accept (a : Anchor) (s : State) : OnlyChanges acceptFields s (acceptCommit a s) :=
  (acceptCommit_only a s).weaken (by simp [acceptFields])

/-- Settles O45: an accepted attempt found the part quiet, so no register was open; a refused one is shown while an anchor is in
force. -/
theorem commitAttemptTaken : Obligations.CommitAttemptTaken := by
  intro s c addr data o a writes word free used new isSettings outcome
  have written := commitWritten_only addr data free
  have staging := commitWritten_staging addr data s
  have reached := commitAttempt_eq (s := commitWritten addr data s) (isSettings.trans (by rw [staging]))
    (outcomeIs_of_quiet outcome rfl)
  have answered := exec_commitAttempt writes word free used new
  rw [reached] at answered
  have closed := closeRegister_only (commitWritten addr data s)
  refine ⟨_, answered, ?staging, mem_markDirty_self _ ?free, ?news, fun accepted => ?accepted, fun refused => ?refused⟩
  case staging =>
    rw [(markDirty_only _ _).get .staging rfl]
    split
    · rw [(acceptCommit_only a _).get .staging rfl, closed.get .staging rfl, staging]
    · rw [(refuseCommit_only _ _).get .staging rfl, closed.get .staging rfl, staging]
  case free =>
    split
    · rw [(acceptCommit_only a _).get .path rfl, closed.get .path rfl]
      rfl
    · rw [(refuseCommit_only _ _).get .path rfl, closed.get .path rfl]
      rfl
  case news =>
    rw [markDirty_news]
    split
    · rw [(acceptCommit_only a _).get .news rfl, closed.get .news rfl, written.get .news rfl]
    · rw [(refuseCommit_only _ _).get .news rfl, closed.get .news rfl, written.get .news rfl]
  case accepted =>
    have quiet : (commitWritten addr data s).quiet = true :=
      quiet_of_validate ((validate_of_outcomeIs (outcomeIs_of_quiet outcome rfl)).trans accepted)
    have generation : a.generation = data.toNat % 256 := by rw [isSettings]; rfl
    rw [if_pos accepted, closeRegister_none (register_of_quiet quiet)]
    have marked := markDirty_only (some { generation := data.toNat % 256, outcome := o })
      (acceptCommit a (commitWritten addr data s))
    have raised := raiseFlag_only .commit (acceptedState a (commitWritten addr data s))
    have later := raised.comp marked (hs := [.flags, .writerQueue]) rfl
    obtain ⟨flag, flags⟩ := acceptCommit_flag a (commitWritten addr data s)
    refine ⟨later.get .anchor rfl, (later.get .lastCommit rfl).trans ?_, fun i => (later.shadow rfl i).trans (entry_replicate _ i),
      later.get .takeIndex rfl, later.get .testWaiting rfl, later.get .fence rfl, later.get .cancelSinceLook rfl,
      later.get .produce rfl, later.get .consume rfl, (marked.flag rfl _).trans flag, fun f other => (marked.flag rfl f).trans
      (flags f other), fun g => (later.group rfl g).trans (entry_replicate _ g), later.get .alarmList rfl,
      later.get .alarmOverflow rfl, later.get .focus rfl, later.get .pointer rfl,
      (written.comp (acceptCommit_only_accept a _) (hs := .staging :: accessFields ++ acceptFields) rfl).comp marked rfl⟩
    rw [accepted, ← generation]
    rfl
  case refused =>
    have moved : closeRegister (commitWritten addr data s) = State.beside (commitWritten addr data s) (closeRegister s) :=
      closeRegister_beside (commitWritten addr data s) s
    rw [if_neg refused, moved]
    have beside := beside_only written (closeRegister_only s) rfl
    have marked := markDirty_only (some { generation := data.toNat % 256, outcome := o })
      (refuseCommit { generation := data.toNat % 256, outcome := o } (State.beside (commitWritten addr data s) (closeRegister s)))
    have anchor : (State.beside (commitWritten addr data s) (closeRegister s)).anchor = s.anchor :=
      (closeRegister_only s).get .anchor rfl
    obtain ⟨shown, unshown⟩ := refuseCommit_view { generation := data.toNat % 256, outcome := o }
      (State.beside (commitWritten addr data s) (closeRegister s))
    rw [anchor] at shown unshown
    refine ⟨closeRegister s, closeRegister_closed s, fun inForce => ?_, fun absent => ?_,
      (beside.comp (refuseCommit_only _ _) (hs := [.staging, .lastCommit, .flags] ++ accessFields) rfl).comp marked rfl⟩
    · obtain ⟨lastCommit, raised, others⟩ := shown inForce
      exact ⟨(marked.get .lastCommit rfl).trans lastCommit, raised.framed beside marked, others.framed beside marked⟩
    · rw [unshown absent]
      exact ⟨((markDirty_only _ _).get .lastCommit rfl).trans ((closeRegister_only s).get .lastCommit rfl),
        fun f => (markDirty_only _ _).flag rfl f⟩

end Sys2Proof.Machine
end

section
/-!
PROOFS. Host reads and their holds (R156, R165, R166), and the writer's turn on the path (R162–R164).
-/

namespace Sys2Proof.Machine

/-! ## The hold on a word (R165, R166) -/

/-- No hold applies to a word: its record is not in flight, or no result hold is left for it. -/
def HoldOver (s : State) (w : Nat) : Prop :=
  ∀ a, s.anchor = some a → ¬ Covered s a w ∧ (InFlightWord s a w → a.resultHoldLimit = 0 ∨ s.resultHoldSpent = true)

section
variable {s : State} {w : Nat}

theorem holdOf_of_covered {a : Anchor} (inForce : s.anchor = some a) (covered : Covered s a w) : s.holdOf w = some .pendingWrite := by
  unfold State.holdOf
  rw [inForce]
  exact if_pos ((covered_iff_Covered s a w).mpr covered)

theorem holdOf_of_over (h : HoldOver s w) : s.holdOf w = none := by
  unfold State.holdOf
  cases inForce : s.anchor with
  | none => rfl
  | some a =>
    obtain ⟨uncovered, unheld⟩ := h a inForce
    have noFlight : ¬ (s.wordInFlight a w && a.resultHoldLimit != 0 && !s.resultHoldSpent) = true := by
      simp only [Bool.and_eq_true, wordInFlight_iff, bne_iff_ne, Bool.not_eq_true']
      rintro ⟨⟨flight, limit⟩, fresh⟩
      rcases unheld flight with zero | spent
      · exact limit zero
      · simp [spent] at fresh
    exact (if_neg fun covered => uncovered ((covered_iff_Covered s a w).mp covered)).trans (if_neg noFlight)

/-- A result hold keeps the time it has left, or starts at the limit (log 15). -/
theorem holdOf_of_flight {a : Anchor} (inForce : s.anchor = some a) (uncovered : ¬ Covered s a w) (flight : InFlightWord s a w)
    (limit : a.resultHoldLimit ≠ 0) (fresh : s.resultHoldSpent = false) :
    (∀ n, s.readHold = some (.result n) → s.holdOf w = some (.result n)) ∧
      ((∀ n, s.readHold ≠ some (.result n)) → s.holdOf w = some (.result a.resultHoldLimit)) := by
  have noCover : ¬ s.covered a w = true := fun covered => uncovered ((covered_iff_Covered s a w).mp covered)
  have holds : (s.wordInFlight a w && a.resultHoldLimit != 0 && !s.resultHoldSpent) = true := by
    simp [(wordInFlight_iff s a w).mpr flight, limit, fresh]
  unfold State.holdOf
  rw [inForce]
  dsimp only
  rw [if_neg noCover, if_pos holds]
  refine ⟨fun n held => by rw [held], fun other => ?_⟩
  cases held : s.readHold with
  | none => rfl
  | some x =>
    cases x with
    | result n => exact absurd held (other n)
    | pendingWrite => rfl

end

/-! ## A read presented -/

section
variable {s : State} {addr : HostAddr} {be : BitVec 4}

theorem serveAll_of_held {x : ReadHold} (access : s.hostAccesses = [.read addr be]) (hold : s.holdOf (wordAddr addr) = some x) :
    serveAll s = { s with readHold := some x } := by
  rw [serveAll_read access, hold]

theorem serveAll_of_read (access : s.hostAccesses = [.read addr be]) (unheld : HoldOver s (wordAddr addr)) :
    serveAll s = if s.hostMayTake = true then performRead addr be [] s else { s with readHold := none } := by
  rw [serveAll_read access, holdOf_of_over unheld]

theorem setReadHold_present_only (x : Option ReadHold) (l : List HostAccess) (s : State) :
    OnlyChanges [.hostAccesses, .readHold] s { s with hostAccesses := l, readHold := x } :=
  (setHostAccesses_only s l).comp (setReadHold_only _ x) rfl

/-- A read is performed on a FREE path: it returns what memory holds, and nothing is left of it. -/
theorem performRead_view (free : s.path = .free) :
    Returned addr be s (performRead addr be [] s) ∧ (performRead addr be [] s).hostAccesses = [] ∧
      (performRead addr be [] s).readHold = none ∧
      OnlyChanges [.readData, .hostAccesses, .starvation, .readHold, .resultHoldSpent] s (performRead addr be [] s) := by
  refine ⟨readLanes_returned rfl, rfl, rfl, ?_⟩
  have read := setReadData_only (some { addr := addr, be := be, data := Memory.readLanes s.mem (wordAddr addr) be }) s
  exact read.comp (endAccess_only_of_free (rest := []) free) rfl

theorem present_read_held {x : ReadHold} (none : s.hostAccesses = []) (hold : s.holdOf (wordAddr addr) = some x) :
    present (.read addr be) s = { s with hostAccesses := [.read addr be], readHold := some x } := by
  rw [present_first _ none]
  exact serveAll_of_held rfl hold

theorem present_read_open (free : PathOpen s) (unheld : HoldOver s (wordAddr addr)) :
    present (.read addr be) s = performRead addr be [] { s with hostAccesses := [.read addr be] } := by
  obtain ⟨none, turn⟩ := free
  rw [present_first _ none]
  exact (serveAll_of_read (s := { s with hostAccesses := [.read addr be] }) rfl unheld).trans
    (if_pos ((hostMayTake_iff _).mpr turn))

theorem present_read_waits (none : s.hostAccesses = []) (turn : s.hostMayTake = false) (unheld : HoldOver s (wordAddr addr)) :
    present (.read addr be) s = { s with hostAccesses := [.read addr be], readHold := Option.none } := by
  rw [present_first _ none]
  refine (serveAll_of_read (s := { s with hostAccesses := [.read addr be] }) rfl unheld).trans (if_neg ?_)
  rw [show State.hostMayTake { s with hostAccesses := [.read addr be] } = s.hostMayTake from rfl, turn]
  exact Bool.false_ne_true

/-- A read that is performed as it is presented leaves no access behind. -/
theorem present_read_open_view (free : PathOpen s) (unheld : HoldOver s (wordAddr addr)) :
    Returned addr be s (present (.read addr be) s) ∧ (present (.read addr be) s).hostAccesses = [] ∧
      (present (.read addr be) s).readHold = none ∧
      OnlyChanges [.readData, .starvation, .readHold, .resultHoldSpent] s (present (.read addr be) s) := by
  obtain ⟨none, path, -⟩ := id free
  obtain ⟨returned, accesses, hold, only⟩ :=
    performRead_view (addr := addr) (be := be) (s := { s with hostAccesses := [.read addr be] }) path
  rw [present_read_open free unheld]
  refine ⟨returned, accesses, hold, fun f outside => ?_⟩
  by_cases access : f = .hostAccesses
  · subst access
    exact accesses.trans none.symm
  · exact ((setHostAccesses_only s _).comp only
      (hs := [.hostAccesses, .readData, .starvation, .readHold, .resultHoldSpent]) rfl) f (by
        simp only [List.mem_cons, not_or] at outside ⊢
        exact ⟨access, outside⟩)

end

theorem holdOver_of_limit {s : State} {w : Nat}
    (h : ∀ a, s.anchor = some a → ¬ Covered s a w ∧ (InFlightWord s a w → a.resultHoldLimit = 0)) : HoldOver s w := by
  intro a inForce
  obtain ⟨uncovered, limit⟩ := h a inForce
  exact ⟨uncovered, fun flight => .inl (limit flight)⟩

theorem exec_hostRead_eq {s t : State} {addr : HostAddr} {be : BitVec 4} (reached : present (.read addr be) s = t) :
    exec (.hostRead addr be) s = .next t := congrArg Host.Outcome.next reached

/-- Settles O46: answered at once, held, or made to wait. -/
theorem hostReadAnswered : Obligations.HostReadAnswered := by
  intro s addr be
  refine ⟨fun free unheld => ?answered, fun none a inForce covered => ?covered,
    fun none noHold fresh a inForce uncovered flight limit => ?inFlight, fun none writer unheld => ?waits, fun some => ?follows⟩
  case answered =>
    exact ⟨_, rfl, present_read_open_view free (holdOver_of_limit unheld)⟩
  case covered =>
    exact ⟨_, exec_hostRead_eq (present_read_held none (holdOf_of_covered inForce covered)), rfl, rfl, setReadHold_present_only _ _ s⟩
  case inFlight =>
    have hold := (holdOf_of_flight inForce uncovered flight limit fresh).2 (by simp [noHold])
    exact ⟨_, exec_hostRead_eq (present_read_held none hold), rfl, rfl, setReadHold_present_only _ _ s⟩
  case waits =>
    exact ⟨_, exec_hostRead_eq (present_read_waits none (hostMayTake_of_writerFirst writer) (holdOver_of_limit unheld)), rfl, rfl,
      setReadHold_present_only _ _ s⟩
  case follows =>
    exact ⟨_, exec_hostRead_eq (present_next _ some), rfl, setHostAccesses_only s _⟩

/-! ## RESULT_HOLD_EXPIRY (R166) -/

/-- The result hold is used up. -/
def State.holdSpent (s : State) : State := { s with readHold := none, resultHoldSpent := true }

theorem exec_resultHoldExpiry {s : State} {n : Nat} (held : s.readHold = some (.result n)) :
    exec .resultHoldExpiry s = .next (serveAll s.holdSpent) := by
  change execResultHoldExpiry s = _
  unfold execResultHoldExpiry
  rw [held]
  rfl

/-- Settles O47: with its hold used up a read completes, gives way to the writer, or comes under the pending-write hold. -/
theorem resultHoldExpires : Obligations.ResultHoldExpires := by
  intro s a addr be n inForce access held
  have answered := exec_resultHoldExpiry held
  have spent := setHoldSpent_only s none true
  have unheld (uncovered : ¬ Covered s a (wordAddr addr)) : HoldOver s.holdSpent (wordAddr addr) := fun x inForce' => by
    have same : x = a := Option.some.inj (inForce'.symm.trans inForce)
    rw [same]
    exact ⟨uncovered, fun _ => .inr rfl⟩
  refine ⟨fun uncovered free turn => ?completes, fun uncovered writer => ?waits, fun covered => ?covered⟩
  case completes =>
    have may : s.holdSpent.hostMayTake = true :=
      (hostMayTake_iff _).mpr ⟨free, turn.imp_right fun few => ⟨by rw [show s.holdSpent.anchor = some a from inForce]; rfl, few⟩⟩
    obtain ⟨returned, accesses, hold, only⟩ := performRead_view (addr := addr) (be := be) (s := s.holdSpent) free
    have served := (serveAll_of_read (s := s.holdSpent) access (unheld uncovered)).trans (if_pos may)
    exact ⟨_, answered.trans (congrArg _ served), returned, accesses, hold, spent.comp only rfl⟩
  case waits =>
    have turn : s.holdSpent.hostMayTake = false := hostMayTake_of_writerFirst (s := s.holdSpent) writer
    have served := (serveAll_of_read (s := s.holdSpent) access (unheld uncovered)).trans (if_neg (Bool.eq_false_iff.mp turn))
    exact ⟨_, answered.trans (congrArg _ served), rfl, rfl, spent.comp (setReadHold_only _ none) rfl⟩
  case covered =>
    have served := serveAll_of_held (s := s.holdSpent) access (holdOf_of_covered inForce covered)
    exact ⟨_, answered.trans (congrArg _ served), rfl, rfl, spent.comp (setReadHold_only _ _) rfl⟩

/-! ## The writer's turn (R162–R164) -/

theorem takePath_of_first {s : State} {e : WriterEntry} {es : List WriterEntry} (pending : s.writerQueue = e :: es) :
    takePath s = { s with path := .writer { words := entryWords s e, flags := if e.isStatus then s.raisedFlags else [] },
                          starvation := 0 } := by
  unfold takePath
  rw [pending]

theorem mem_latched {s : State} {e : WriterEntry} (f : Flag) :
    f ∈ (if e.isStatus = true then s.raisedFlags else []) ↔ e.isStatus = true ∧ s.flag f = .raised := by
  split
  · next status => simp [status, mem_raisedFlags]
  · next other => simp [other]

/-- A command by which the writer takes the path. -/
theorem writerTakes {s : State} {c : Instr} {e : WriterEntry} {es : List WriterEntry} (pending : s.writerQueue = e :: es)
    (takes : exec c s = .next (takePath s)) :
    ∃ t fs, exec c s = .next t ∧ t.path = .writer { words := entryWords s e, flags := fs } ∧
      (∀ f, f ∈ fs ↔ e.isStatus = true ∧ s.flag f = .raised) ∧ t.starvation = 0 ∧ OnlyChanges [.path, .starvation] s t := by
  have taken := takePath_of_first pending
  have only := takePath_only s
  rw [taken] at takes only
  exact ⟨_, _, takes, rfl, mem_latched, rfl, only⟩

/-- Settles O48: the writer waits only for an access that is presented, not held, and below the starvation count. -/
theorem writerTakesPath : Obligations.WriterTakesPath := by
  intro s e es free pending
  have queue : s.writerQueue ≠ [] := by simp [pending]
  refine ⟨fun turn => ?takes, fun full => ?full, fun presented noHold few used => ?waits⟩
  case takes =>
    exact writerTakes pending (if_pos ((writerMayTake_iff s).mpr ⟨free, queue, turn⟩))
  case full =>
    exact writerTakes pending (if_pos ⟨(writerMayTake_iff s).mpr ⟨free, queue, .inr (.inr (.inl (by omega)))⟩, full⟩)
  case waits =>
    refine ⟨s, if_neg fun may => ?_, .refl [] s⟩
    rcases ((writerMayTake_iff s).mp may).2.2 with none | held | full | absent
    · exact presented none
    · exact held noHold
    · omega
    · exact used absent

end Sys2Proof.Machine
end

section
/-!
PROOFS. RECORD_WRITTEN (R162–R166): the record stands in memory and its entry moves on; then the access that waited is looked at as if it
were presented to the state so reached.
-/

namespace Sys2Proof.Machine

/-! ## What a performed entry makes known (R162) -/

/-- The flag that a performed entry raises. -/
def WriterEntry.raises : WriterEntry → Option Flag
  | .bus _ _ _ | .cancelled _ _ | .query _ _ => some .result
  | .disposition _ d fence => if d.isRefusal then some .refused else if fence then some .fence else none
  | .ticket _ _ _ _ => some .ticket
  | .inProgress _ _ | .status _ => none

theorem performed_flags {e : WriterEntry} (news : e.isStatus = false) (fs : List Flag) (s : State) :
    (∀ g, e.raises = some g → FlagRaised g s (performed e fs s) ∧ OtherFlags [g] s (performed e fs s)) ∧
      (e.raises = none → OtherFlags [] s (performed e fs s)) := by
  have raised {u : State} {f : Flag} (g : Flag) (is : some f = some g) (flags : u.flags = s.flags) (anchor : u.anchor = s.anchor) :
      FlagRaised g s (u.raiseFlag f) ∧ OtherFlags [g] s (u.raiseFlag f) := by
    cases is
    have flag (x : Flag) : u.flag x = s.flag x := by rw [State.flag, flags, State.flag]
    exact ⟨(flagRaised_raiseFlag f u).of_eq anchor.symm (flag f).symm rfl,
      fun x other => (otherFlags_raiseFlag f u x other).trans (flag x)⟩
  cases e with
  | bus | cancelled | query => exact ⟨fun g is => raised g is rfl rfl, fun absent => absurd absent (by simp [WriterEntry.raises])⟩
  | ticket => exact ⟨fun g is => raised g is rfl rfl, fun absent => absurd absent (by simp [WriterEntry.raises])⟩
  | inProgress => exact ⟨fun g is => absurd is (by simp [WriterEntry.raises]), fun _ _ _ => rfl⟩
  | status => exact absurd news (by simp [WriterEntry.isStatus])
  | disposition i d fence =>
    simp only [WriterEntry.raises, performed]
    split
    · exact ⟨fun g is => raised g is rfl rfl, fun absent => absurd absent (by simp)⟩
    · split
      · exact ⟨fun g is => raised g is rfl rfl, fun absent => absurd absent (by simp)⟩
      · exact ⟨fun g is => absurd is (by simp), fun _ _ _ => rfl⟩

theorem performed_produce (e : WriterEntry) (fs : List Flag) (s : State) :
    (performed e fs s).produce = if e.isTicket then s.produce + 1 else s.produce := by
  have kept (f : Flag) (u : State) : (u.raiseFlag f).produce = u.produce := (raiseFlag_only f u).get .produce rfl
  cases e with
  | bus | cancelled | query => exact kept .result _
  | ticket => exact kept .ticket _
  | inProgress => rfl
  | status => exact (showFlags_only fs s).get .produce rfl
  | disposition i d fence =>
    simp only [performed]
    split
    · exact kept .refused s
    · split
      · exact kept .fence s
      · rfl

theorem performed_looked (e : WriterEntry) (fs : List Flag) (s : State) :
    Looked (∃ b rec ms, e = .bus b rec ms) s (performed e fs s) := by
  by_cases bus : ∃ b rec ms, e = .bus b rec ms
  · obtain ⟨b, rec, ms, rfl⟩ := id bus
    have kept : ((s.look true).raiseFlag .result).cancelSinceLook = (s.look true).cancelSinceLook :=
      (raiseFlag_only .result (s.look true)).get .cancelSinceLook rfl
    have looks := (looked_look (event := True) (p := true) (by simp) s).1 trivial
    exact ⟨fun _ => kept.trans looks, fun other => absurd bus other⟩
  · refine ⟨fun some => absurd some bus, fun _ => ?_⟩
    have kept (f : Flag) (u : State) : (u.raiseFlag f).cancelSinceLook = u.cancelSinceLook :=
      (raiseFlag_only f u).get .cancelSinceLook rfl
    cases e with
    | bus b rec ms => exact absurd ⟨b, rec, ms, rfl⟩ bus
    | cancelled | query => exact kept .result s
    | ticket => exact kept .ticket _
    | inProgress => rfl
    | status => exact (showFlags_only fs s).get .cancelSinceLook rfl
    | disposition i d fence =>
      simp only [performed]
      split
      · exact kept .refused s
      · split
        · exact kept .fence s
        · rfl

theorem performed_status (o : Option CommitRecord) (fs : List Flag) (s : State) (f : Flag) :
    (f ∈ fs → s.flag f ≠ .clear → (performed (.status o) fs s).flag f = .shown) ∧
      (f ∉ fs ∨ s.flag f = .clear → (performed (.status o) fs s).flag f = s.flag f) := by
  have flag : (performed (.status o) fs s).flag f = if f ∈ fs ∧ s.flag f ≠ .clear then .shown else s.flag f := foldl_showFlag fs s f
  rw [flag]
  exact ⟨fun latched set => if_pos ⟨latched, set⟩, fun other => if_neg fun both => other.elim (· both.1) both.2⟩

/-! ## The record written -/

/-- The record stands in memory, the path is FREE, and the writer holds these entries. -/
def State.recorded (s : State) (r : Transfer) (q : List WriterEntry) : State :=
  { s with mem := Memory.writeWords s.mem r.words, path := .free, writerQueue := q }

theorem recorded_only (s : State) (r : Transfer) (q : List WriterEntry) :
    OnlyChanges [.mem, .path, .news, .writerQueue] s (s.recorded r q) :=
  (setMem_only s (Memory.writeWords s.mem r.words)).comp (setWriterQueue_only { s with mem := Memory.writeWords s.mem r.words } q .free) rfl

/-- The state in which a record has been written, before the accesses of the host are looked at again. -/
def afterRecord (s : State) (r : Transfer) : State := finish s (writeRecord r s)

section
variable {s : State} {r : Transfer} {e : WriterEntry} {es : List WriterEntry} (first : s.writerQueue = e :: es)
include first

/-- A bus entry with further slots stays. -/
theorem writeRecord_more {b : BusNo} {rec : ResultRecord} {m m' : SlotMember} {ms : List SlotMember}
    (more : e = .bus b rec (m :: m' :: ms)) : writeRecord r s = s.recorded r (.bus b rec (m' :: ms) :: es) := by
  subst more
  unfold writeRecord
  rw [entryWritten_more r.flags (s := { s with mem := Memory.writeWords s.mem r.words, path := .free }) first]
  rfl

theorem writeRecord_done (done : ∀ b rec m m' ms, e ≠ .bus b rec (m :: m' :: ms)) :
    writeRecord r s =
      resetStarvation
        (if e.isGeneral = true then retestWaiting true (performed e r.flags (s.recorded r es))
          else performed e r.flags (s.recorded r es)) := by
  unfold writeRecord
  rw [entryWritten_done r.flags (s := { s with mem := Memory.writeWords s.mem r.words, path := .free }) first done]
  rfl

theorem afterRecord_more_only {b : BusNo} {rec : ResultRecord} {m m' : SlotMember} {ms : List SlotMember}
    (more : e = .bus b rec (m :: m' :: ms)) :
    OnlyChanges [.writerQueue, .readHold] (s.recorded r (.bus b rec (m' :: ms) :: es)) (afterRecord s r) := by
  unfold afterRecord
  rw [writeRecord_more first more]
  exact finish_only s _

theorem afterRecord_done_only (done : ∀ b rec m m' ms, e ≠ .bus b rec (m :: m' :: ms)) :
    OnlyChanges [.testWaiting, .starvation, .writerQueue, .readHold] (performed e r.flags (s.recorded r es)) (afterRecord s r) := by
  unfold afterRecord
  rw [writeRecord_done first done]
  refine OnlyChanges.comp (fs := [.testWaiting]) ?_ ((resetStarvation_only _).comp (finish_only s _)
    (hs := [.starvation, .writerQueue, .readHold]) rfl) rfl
  split
  · exact retestWaiting_only true _
  · exact .refl _ _

theorem afterRecord_tested (done : ∀ b rec m m' ms, e ≠ .bus b rec (m :: m' :: ms)) :
    (e.isGeneral = true → WaitTested True s (afterRecord s r)) ∧
      (e.isGeneral = false → (afterRecord s r).testWaiting = s.testWaiting) := by
  unfold afterRecord
  rw [writeRecord_done first done]
  have ended (u : State) := (resetStarvation_only u).comp (finish_only s (resetStarvation u))
    (hs := [.starvation, .writerQueue, .readHold]) rfl
  have waiting : (performed e r.flags (s.recorded r es)).testWaiting = s.testWaiting :=
    (performed_only e r.flags _).get .testWaiting rfl
  refine ⟨fun general => ?_, fun other => ?_⟩
  · rw [if_pos general]
    have tested := retestWaiting_tested true waiting
    rw [eq_self_iff_true] at tested
    exact tested.after (ended _) rfl
  · rw [if_neg (by simp [other])]
    exact ((ended _).get .testWaiting rfl).trans waiting

theorem afterRecord_starvation (done : ∀ b rec m m' ms, e ≠ .bus b rec (m :: m' :: ms)) :
    (afterRecord s r).starvation = if es = [] then 0 else s.starvation := by
  unfold afterRecord
  rw [(finish_only s _).get .starvation rfl, writeRecord_done first done]
  have rest : OnlyChanges [.flags, .produce, .cancelSinceLook, .testWaiting] (s.recorded r es)
      (if e.isGeneral = true then retestWaiting true (performed e r.flags (s.recorded r es))
        else performed e r.flags (s.recorded r es)) := by
    refine (performed_only e r.flags _).comp (gs := [.testWaiting]) ?_ rfl
    split
    · exact retestWaiting_only true _
    · exact .refl _ _
  unfold resetStarvation
  rw [rest.get .writerQueue rfl]
  change (if es.isEmpty = true then _ else _ : State).starvation = _
  cases es with
  | nil => rfl
  | cons x xs => exact rest.get .starvation rfl

end

theorem writeRecord_only {s : State} {e : WriterEntry} {es : List WriterEntry} (first : s.writerQueue = e :: es) (r : Transfer) :
    OnlyChanges [.mem, .path, .news, .writerQueue, .starvation, .flags, .produce, .testWaiting, .cancelSinceLook] s (writeRecord r s) := by
  by_cases more : ∃ b rec m m' ms, e = .bus b rec (m :: m' :: ms)
  · obtain ⟨b, rec, m, m', ms, more⟩ := more
    rw [writeRecord_more first more]
    exact (recorded_only s r _).weaken (by simp)
  · rw [writeRecord_done first fun b rec m m' ms same => more ⟨b, rec, m, m', ms, same⟩]
    have done := (recorded_only s r es).comp (performed_only e r.flags _)
      (hs := [.mem, .path, .news, .writerQueue, .flags, .produce, .cancelSinceLook]) rfl
    refine (done.comp (gs := [.testWaiting])
      (hs := [.mem, .path, .news, .writerQueue, .flags, .produce, .cancelSinceLook, .testWaiting]) ?_ rfl).comp
      (resetStarvation_only _) rfl
    split
    · exact retestWaiting_only true _
    · exact .refl _ _

theorem writeRecord_mem_path {s : State} {e : WriterEntry} {es : List WriterEntry} (first : s.writerQueue = e :: es) (r : Transfer) :
    (writeRecord r s).mem = Memory.writeWords s.mem r.words ∧ (writeRecord r s).path = .free := by
  by_cases more : ∃ b rec m m' ms, e = .bus b rec (m :: m' :: ms)
  · obtain ⟨b, rec, m, m', ms, more⟩ := more
    rw [writeRecord_more first more]
    exact ⟨rfl, rfl⟩
  · have done := afterRecord_done_only (r := r) first fun b rec m m' ms same => more ⟨b, rec, m, m', ms, same⟩
    have later := (performed_only e r.flags (s.recorded r es)).comp done
      (hs := [.flags, .produce, .cancelSinceLook, .testWaiting, .starvation, .writerQueue, .readHold]) rfl
    have ends := finish_only s (writeRecord r s)
    exact ⟨((ends.get .mem rfl).1.symm).trans (later.get .mem rfl).1, (ends.get .path rfl).symm.trans (later.get .path rfl)⟩

/-! ## Its parts apart from the host's accesses -/

/-- The state with other accesses of the host outstanding. -/
def State.withAccesses (l : List HostAccess) (s : State) : State := { s with hostAccesses := l }

section
variable (l : List HostAccess) (s : State)

theorem raiseFlag_withAccesses (f : Flag) : (s.withAccesses l).raiseFlag f = (s.raiseFlag f).withAccesses l := by
  unfold State.raiseFlag
  rw [apply_ite (State.withAccesses l)]
  rfl

theorem showFlags_withAccesses (fs : List Flag) : (s.withAccesses l).showFlags fs = (s.showFlags fs).withAccesses l := by
  unfold State.showFlags
  induction fs generalizing s with
  | nil => rfl
  | cons f fs ih =>
    have shown : (if ((s.withAccesses l).flag f == .clear) = true then s.withAccesses l else (s.withAccesses l).setFlag f .shown) =
        (if (s.flag f == .clear) = true then s else s.setFlag f .shown).withAccesses l := by
      rw [apply_ite (State.withAccesses l)]
      rfl
    rw [List.foldl_cons, List.foldl_cons, shown, ih]

theorem performed_withAccesses (e : WriterEntry) (fs : List Flag) :
    performed e fs (s.withAccesses l) = (performed e fs s).withAccesses l := by
  cases e with
  | bus => exact raiseFlag_withAccesses l (s.look true) .result
  | cancelled | query => exact raiseFlag_withAccesses l s .result
  | ticket => exact raiseFlag_withAccesses l { s with produce := s.produce + 1 } .ticket
  | inProgress => rfl
  | status => exact showFlags_withAccesses l s fs
  | disposition i d fence =>
    simp only [performed]
    split
    · exact raiseFlag_withAccesses l s .refused
    · split
      · exact raiseFlag_withAccesses l s .fence
      · rfl

theorem retestWaiting_withAccesses (moment : Bool) :
    retestWaiting moment (s.withAccesses l) = (retestWaiting moment s).withAccesses l := by
  have same : (s.withAccesses l).testWaiting = s.testWaiting := rfl
  unfold retestWaiting
  rw [same]
  cases s.testWaiting
  all_goals rfl

theorem resetStarvation_withAccesses : resetStarvation (s.withAccesses l) = (resetStarvation s).withAccesses l := by
  unfold resetStarvation
  rw [apply_ite (State.withAccesses l)]
  rfl

variable {s}

theorem writeRecord_withAccesses {e : WriterEntry} {es : List WriterEntry} (first : s.writerQueue = e :: es) (r : Transfer) :
    writeRecord r (s.withAccesses l) = (writeRecord r s).withAccesses l := by
  have first' : (s.withAccesses l).writerQueue = e :: es := first
  by_cases more : ∃ b rec m m' ms, e = .bus b rec (m :: m' :: ms)
  · obtain ⟨b, rec, m, m', ms, more⟩ := more
    rw [writeRecord_more first more, writeRecord_more first' more]
    rfl
  · have done (b rec m m' ms) : e ≠ .bus b rec (m :: m' :: ms) := fun same => more ⟨b, rec, m, m', ms, same⟩
    have recorded : (s.withAccesses l).recorded r es = (s.recorded r es).withAccesses l := rfl
    rw [writeRecord_done first done, writeRecord_done first' done, recorded, performed_withAccesses, retestWaiting_withAccesses,
      ← apply_ite (State.withAccesses l), resetStarvation_withAccesses]

theorem markDirty_withAccesses (o : Option CommitRecord) : (s.withAccesses l).markDirty o = (s.markDirty o).withAccesses l := by
  have path : (s.withAccesses l).path = s.path := rfl
  have queue : (s.withAccesses l).writerQueue = s.writerQueue := rfl
  unfold State.markDirty
  rw [path, queue]
  split
  · cases s.writerQueue
    all_goals rfl
  · rfl

theorem markIfChanged_withAccesses (t : State) :
    State.markIfChanged (s.withAccesses l) (t.withAccesses l) = (State.markIfChanged s t).withAccesses l := by
  unfold State.markIfChanged
  rw [markDirty_withAccesses, apply_ite (State.withAccesses l)]
  rfl

end

/-! ## An access that waits -/

theorem exec_recordWritten {s : State} {r : Transfer} (writing : s.path = .writer r) :
    exec .recordWritten s = .next (serveAll (afterRecord s r)) := by
  change execRecordWritten s = _
  unfold execRecordWritten
  rw [writing]
  rfl

theorem afterRecord_of_nil {s : State} {e : WriterEntry} {es : List WriterEntry} (first : s.writerQueue = e :: es) (r : Transfer)
    (none : s.hostAccesses = []) : afterRecord s r = State.markIfChanged s (writeRecord r s) :=
  retestHold_of_nil (by
    rw [(markIfChanged_only _ _).get .hostAccesses rfl, (writeRecord_only first r).get .hostAccesses rfl, none])

theorem retestHold_eq_or (s : State) :
    s.retestHold = s ∨ ∃ a addr be rest, s.anchor = some a ∧ s.hostAccesses = .read addr be :: rest ∧ Covered s a (wordAddr addr) ∧
      s.retestHold = { s with readHold := some .pendingWrite } := by
  unfold State.retestHold
  split
  · next n addr be rest a _ access inForce =>
    split
    · next covered => exact .inr ⟨a, addr, be, rest, inForce, access, (covered_iff_Covered s a _).mp covered, rfl⟩
    · exact .inl rfl
  · exact .inl rfl

/-- A hold tested again before one access is served changes nothing: serving it tests the hold. -/
theorem serveAll_retestHold {s : State} {x : HostAccess} (one : s.hostAccesses = [x]) : serveAll s.retestHold = serveAll s := by
  rcases retestHold_eq_or s with same | ⟨a, addr, be, rest, inForce, access, covered, passed⟩
  · rw [same]
  · have alone : s.hostAccesses = [.read addr be] := by
      rw [access] at one
      rw [access, (List.cons.inj one).2]
    have before := serveAll_of_held alone (holdOf_of_covered inForce covered)
    have after := serveAll_of_held (s := { s with readHold := some .pendingWrite }) alone (holdOf_of_covered inForce covered)
    rw [passed, after, before]

/-- The record written while one access waits: the access is presented to the state that the record alone would have left. -/
theorem serveAll_afterRecord {s : State} {e : WriterEntry} {es : List WriterEntry} (first : s.writerQueue = e :: es) (r : Transfer)
    {x : HostAccess} (one : s.hostAccesses = [x]) :
    serveAll (afterRecord s r) = present x (afterRecord { s with hostAccesses := [] } r) := by
  have back : s = State.withAccesses [x] (s.withAccesses []) := by
    rw [← one]
    rfl
  have none : (s.withAccesses []).hostAccesses = [] := rfl
  have reached : afterRecord s r = ((afterRecord (s.withAccesses []) r).withAccesses [x]).retestHold := by
    rw [afterRecord_of_nil (s := s.withAccesses []) first r none, ← markIfChanged_withAccesses, ← writeRecord_withAccesses (s := s.withAccesses []) [x] first, ← back]
    rfl
  have left : (afterRecord (s.withAccesses []) r).hostAccesses = [] := by
    rw [afterRecord_of_nil (s := s.withAccesses []) first r none, (markIfChanged_only _ _).get .hostAccesses rfl, (writeRecord_only (s := s.withAccesses []) first r).get .hostAccesses rfl,
      none]
  rw [reached, serveAll_retestHold (x := x) rfl]
  exact (present_first x left).symm

/-! ## Settling O49 -/

section
variable {s : State} {r : Transfer} {e : WriterEntry} {es : List WriterEntry} (first : s.writerQueue = e :: es)
include first

theorem afterRecord_only (r : Transfer) :
    OnlyChanges [.mem, .path, .news, .writerQueue, .starvation, .flags, .produce, .testWaiting, .cancelSinceLook, .readHold] s
      (afterRecord s r) := (writeRecord_only first r).comp (finish_only s _) rfl

/-- The event's flags, its produce index and its look, for an entry that is done. -/
theorem afterRecord_done_view (done : ∀ b rec m m' ms, e ≠ .bus b rec (m :: m' :: ms)) :
    (e.isStatus = false →
        (∀ g, e.raises = some g → FlagRaised g s (afterRecord s r) ∧ OtherFlags [g] s (afterRecord s r)) ∧
          (e.raises = none → OtherFlags [] s (afterRecord s r))) ∧
      (afterRecord s r).produce = (if e.isTicket then s.produce + 1 else s.produce) ∧
      Looked (∃ b rec ms, e = .bus b rec ms) s (afterRecord s r) ∧
      (afterRecord s r).newsEntries = es.filter (fun x => !x.isStatus) := by
  have before := recorded_only s r es
  have after := afterRecord_done_only (r := r) first done
  refine ⟨fun news => ?_, (after.get .produce rfl).trans (performed_produce e r.flags _), (performed_looked e r.flags _).framed before after,
    (after.get .news rfl).trans ((performed_only e r.flags _).get .news rfl)⟩
  obtain ⟨raises, quiet⟩ := performed_flags news r.flags (s.recorded r es)
  refine ⟨fun g is => ?_, fun absent => (quiet absent).framed before after⟩
  obtain ⟨raised, others⟩ := raises g is
  exact ⟨raised.framed before after, others.framed before after⟩

theorem recordWritten_alone (writing : s.path = .writer r) (none : s.hostAccesses = []) :
    exec .recordWritten s = .next (afterRecord s r) := by
  rw [exec_recordWritten writing, serveAll_nil (((afterRecord_only first r).get .hostAccesses rfl).trans none)]

end

theorem not_more_of_ne_bus {e : WriterEntry} (other : ∀ b rec ms, e ≠ .bus b rec ms) :
    ∀ b rec m m' ms, e ≠ .bus b rec (m :: m' :: ms) := fun b rec m m' ms => other b rec (m :: m' :: ms)

/-- An entry written leaves the count of a waiting writer no higher. -/
theorem afterRecord_starvation_le {s : State} {e : WriterEntry} {es : List WriterEntry} (first : s.writerQueue = e :: es) (r : Transfer) :
    (afterRecord s r).starvation ≤ s.starvation := by
  by_cases more : ∃ b rec m m' ms, e = .bus b rec (m :: m' :: ms)
  · obtain ⟨b, rec, m, m', ms, more⟩ := more
    exact ((afterRecord_more_only (r := r) first more).get .starvation rfl).le
  · rw [afterRecord_starvation first fun b rec m m' ms same => more ⟨b, rec, m, m', ms, same⟩]
    split
    · exact Nat.zero_le _
    · exact Nat.le_refl _

/-- The state that a record leaves where no access waits. -/
structure RecordLeft (r : Transfer) (s u : State) : Prop where
  path : u.path = .free
  mem : u.mem = Memory.writeWords s.mem r.words
  accesses : u.hostAccesses = []
  anchor : u.anchor = s.anchor
  readHold : u.readHold = s.readHold
  spent : u.resultHoldSpent = s.resultHoldSpent
  starvation : u.starvation ≤ s.starvation

theorem recordLeft_of_nil {s : State} {e : WriterEntry} {es : List WriterEntry} (first : s.writerQueue = e :: es) (r : Transfer)
    (none : s.hostAccesses = []) : RecordLeft r s (afterRecord s r) := by
  have only := (writeRecord_only first r).comp (markIfChanged_only s (writeRecord r s))
    (hs := [.mem, .path, .news, .writerQueue, .starvation, .flags, .produce, .testWaiting, .cancelSinceLook]) rfl
  rw [← afterRecord_of_nil first r none] at only
  have ends := finish_only s (writeRecord r s)
  obtain ⟨memory, free⟩ := writeRecord_mem_path first r
  exact
    { path := (ends.get .path rfl).trans free
      mem := (ends.get .mem rfl).1.trans memory
      accesses := (only.get .hostAccesses rfl).trans none
      anchor := only.get .anchor rfl
      readHold := only.get .readHold rfl
      spent := only.get .resultHoldSpent rfl
      starvation := afterRecord_starvation_le first r }

theorem Stored.of_mem {w : Nat} {data : Word} {be : BitVec 4} {s u t : State} (h : Stored w data be u t) (same : u.mem = s.mem) :
    Stored w data be s t := by
  unfold Stored at h ⊢
  rwa [same] at h

/-- Settles O49: the record written with no access waiting; with a waiting write or read, that access comes to a state so reached. -/
theorem recordWritten : Obligations.RecordWritten := by
  intro s r e es writing first
  have left : RecordLeft r { s with hostAccesses := [] } (afterRecord { s with hostAccesses := [] } r) :=
    recordLeft_of_nil (s := { s with hostAccesses := [] }) first r rfl
  have alone : exec .recordWritten { s with hostAccesses := [] } = .next (afterRecord { s with hostAccesses := [] } r) :=
    recordWritten_alone (s := { s with hostAccesses := [] }) first writing rfl
  have waiting {x : HostAccess} (one : s.hostAccesses = [x]) :
      exec .recordWritten s = .next (present x (afterRecord { s with hostAccesses := [] } r)) := by
    rw [exec_recordWritten writing, serveAll_afterRecord first r one]
  refine ⟨fun none => ?alone, fun addr data be one => ?write, fun addr be one => ?read⟩
  case alone =>
    have ends := finish_only s (writeRecord r s)
    obtain ⟨memory, free⟩ := writeRecord_mem_path first r
    have mem : (afterRecord s r).mem = Memory.writeWords s.mem r.words := (ends.get .mem rfl).1.trans memory
    refine ⟨afterRecord s r, recordWritten_alone first writing none, (ends.get .path rfl).trans free, mem, fun ok x outside => ?outside, ?_⟩
    case outside =>
      rw [mem]
      exact Memory.read_writeWords_of_outside _ _ ok fun w here => by have := outside w here; omega
    by_cases more : ∃ b rec m m' ms, e = .bus b rec (m :: m' :: ms)
    · obtain ⟨b, rec, m, m', ms, rfl⟩ := id more
      have after := afterRecord_more_only (r := r) first rfl
      have kept := afterRecord_only first r
      have flags (f : Flag) : (afterRecord s r).flag f = s.flag f := after.flag rfl f
      refine ⟨fun b' rec' x x' xs same => ?_, fun done => absurd rfl (done b rec m m' ms), fun other => by simp at other,
        fun other => by simp at other, fun i d f same => by simp at same, fun i n d k same => by simp at same,
        fun _ => after.get .produce rfl, fun o same => by simp at same, fun general => by simp [WriterEntry.isGeneral] at general,
        fun _ => after.get .testWaiting rfl, ?_, kept⟩
      · cases same
        exact ⟨after.get .news rfl, fun f _ => flags f, after.get .starvation rfl⟩
      · exact ⟨fun ⟨b', rec', xs, same, short⟩ => by cases same; simp at short, fun _ => after.get .cancelSinceLook rfl⟩
    · have done : ∀ b rec m m' ms, e ≠ .bus b rec (m :: m' :: ms) := fun b rec m m' ms same => more ⟨b, rec, m, m', ms, same⟩
      obtain ⟨flags, produce, looked, news⟩ := afterRecord_done_view (r := r) first done
      obtain ⟨general, notGeneral⟩ := afterRecord_tested (r := r) first done
      refine ⟨fun b rec m m' ms same => absurd same (done b rec m m' ms), fun _ => ⟨news, afterRecord_starvation first done⟩,
        fun final => ?final, fun inProgress => ?inProgress, fun i d f same => ?disposition, fun i n d k same => ?ticket,
        fun other => by rw [produce, other]; rfl, fun o same f => ?status, general, notGeneral, looked.congr ?look, afterRecord_only first r⟩
      case final =>
        have result : e.isStatus = false ∧ e.raises = some .result := by
          rcases final with ⟨b, rec, m, rfl⟩ | ⟨i, rec, rfl⟩ | ⟨i, rec, rfl⟩
          all_goals exact ⟨rfl, rfl⟩
        exact (flags result.1).1 .result result.2
      case inProgress =>
        obtain ⟨i, rec, rfl⟩ := inProgress
        exact (flags rfl).2 rfl
      case disposition =>
        subst same
        obtain ⟨raises, quiet⟩ := flags rfl
        refine ⟨fun refused => raises .refused (if_pos refused), fun accepted fence => raises .fence ?_, fun accepted plain => quiet ?_⟩
        · simp [WriterEntry.raises, accepted, fence]
        · simp [WriterEntry.raises, accepted, plain]
      case ticket =>
        subst same
        exact ⟨produce, (flags rfl).1 .ticket rfl⟩
      case status =>
        subst same
        have after := afterRecord_done_only (r := r) first done
        rw [after.flag rfl]
        exact performed_status o r.flags (s.recorded r es) f
      case look =>
        refine ⟨fun ⟨b, rec, ms, same⟩ => ⟨b, rec, ms, same, ?_⟩, fun ⟨b, rec, ms, same, _⟩ => ⟨b, rec, ms, same⟩⟩
        rcases ms with _ | ⟨m, _ | ⟨m', ms⟩⟩
        · exact Nat.zero_le 1
        · exact Nat.le_refl 1
        · exact absurd same (done b rec m m' ms)
  case write =>
    refine ⟨⟨_, alone, (waiting one).trans rfl⟩, fun used few ok => ?_⟩
    have inForce : (afterRecord { s with hostAccesses := [] } r).anchor.isSome = true := by
      rw [left.anchor]
      exact Option.isSome_iff_ne_none.mpr used
    have turn : PathOpen (afterRecord { s with hostAccesses := [] } r) :=
      ⟨left.accesses, left.path, .inr ⟨inForce, Nat.lt_of_le_of_lt left.starvation few⟩⟩
    have memory : MemoryOk (afterRecord { s with hostAccesses := [] } r) := by
      unfold MemoryOk
      rw [left.mem]
      exact Memory.wf_writeWords r.words ok
    obtain ⟨t, answered, stored, path, accesses, -⟩ := (hostWriteStored _ (.hostWrite addr data be) addr data be rfl).1 turn memory
    exact ⟨t, (waiting one).trans answered, path, accesses, stored.of_mem left.mem⟩
  case read =>
    refine ⟨_, _, alone, waiting one, rfl, fun a inForce => ?_⟩
    have inForce' := left.anchor.trans inForce
    refine ⟨fun covered => ?_, fun uncovered flight limit fresh => ?_, fun uncovered limit => ?_⟩
    · rw [present_read_held left.accesses (holdOf_of_covered inForce' covered)]
      exact ⟨rfl, rfl, setReadHold_present_only _ _ _⟩
    · obtain ⟨running, starts⟩ := holdOf_of_flight inForce' uncovered flight limit (left.spent.trans fresh)
      rw [left.readHold] at running starts
      by_cases held : ∃ n, s.readHold = some (.result n)
      · obtain ⟨n, held⟩ := held
        rw [present_read_held left.accesses (running n held)]
        refine ⟨rfl, fun k is => is ▸ held.symm, fun other => absurd held (other n), setReadHold_present_only _ _ _⟩
      · have other : ∀ n, s.readHold ≠ some (.result n) := fun n is => held ⟨n, is⟩
        rw [present_read_held left.accesses (starts other)]
        exact ⟨rfl, fun n is => absurd is (other n), fun _ => rfl, setReadHold_present_only _ _ _⟩
    · have unheld : HoldOver (afterRecord { s with hostAccesses := [] } r) (wordAddr addr) := fun x inForce'' => by
        have same : x = a := Option.some.inj (inForce''.symm.trans inForce')
        rw [same, left.spent]
        exact ⟨uncovered, limit⟩
      refine ⟨fun turn => ?_, fun pending full => ?_⟩
      · exact present_read_open_view ⟨left.accesses, left.path, turn.imp_right fun few => ⟨by rw [inForce']; rfl, few⟩⟩ unheld
      · have waits : (afterRecord { s with hostAccesses := [] } r).hostMayTake = false := by
          rw [← Bool.not_eq_true, hostMayTake_iff]
          rintro ⟨-, none | ⟨-, few⟩⟩
          · exact pending none
          · omega
        rw [present_read_waits left.accesses waits unheld]
        exact ⟨rfl, rfl, setReadHold_present_only _ _ _⟩

end Sys2Proof.Machine
end

section
/-!
PROOFS. What the part does of itself on an empty queue (log 1): the steps that are due, by the unit they belong to, and 1 ms of the time
base where none is due.
-/

namespace Sys2Proof.Machine

/-! ## Timers that have run out -/

/-- The command of a bus timer's expiry. -/
def BusTimer.expiry (b : BusNo) : BusTimer → Instr
  | .claim => .claimTimerExpiry b
  | .settle => .settleTimerExpiry b
  | .opening => .openTimerExpiry b
  | .hold => .holdTimerExpiry b

/-- The command of a head timer's expiry. -/
def HeadTimer.expiry (h : HeadNo) : HeadTimer → Instr
  | .watchdog => .stepWatchdogExpiry h
  | .abort => .abortTimerExpiry h
  | .clear => .clearTimerExpiry h

theorem mem_dueOfBus {s : State} {b : BusNo} {c : Instr} :
    c ∈ dueOfBus s b ↔ ∃ k, (s.bus b).timer = some (k, 0) ∧ c = k.expiry b := by
  unfold dueOfBus
  match (s.bus b).timer with
  | none => simp
  | some (k, n + 1) => cases k <;> simp
  | some (.claim, 0) | some (.settle, 0) | some (.opening, 0) | some (.hold, 0) => simp [BusTimer.expiry]

theorem mem_dueOfHead {s : State} {h : HeadNo} {c : Instr} :
    c ∈ dueOfHead s h ↔ ∃ k, (s.head h).timer = some (k, 0) ∧ c = k.expiry h := by
  unfold dueOfHead
  match (s.head h).timer with
  | none => simp
  | some (k, n + 1) => cases k <;> simp
  | some (.watchdog, 0) | some (.abort, 0) | some (.clear, 0) => simp [HeadTimer.expiry]

theorem mem_dueOfTimers {s : State} {c : Instr} :
    c ∈ dueOfTimers s ↔
      (s.coalescing = some 0 ∧ c = .coalescingTimerExpiry) ∨ (s.readHold = some (.result 0) ∧ c = .resultHoldExpiry) := by
  unfold dueOfTimers
  rw [List.mem_append]
  refine or_congr ?_ ?_
  · match s.coalescing with
    | none | some (n + 1) | some 0 => simp
  · match s.readHold with
    | none | some .pendingWrite | some (.result (n + 1)) | some (.result 0) => simp

/-! ## Steps of the units -/

/-- The command of a move of the selection. -/
def Move.command : Move → Instr
  | .toIdle _ => .entryToIdleBus
  | .toHeld _ => .entryToHeldBus
  | .skip => .sweepEntrySkip

theorem mem_dueOfSelection {s : State} {c : Instr} :
    c ∈ dueOfSelection s ↔ ∃ e m rest, Selects s e m rest ∧ c = m.command := by
  have selects (e m rest) : Selects s e m rest ↔ s.selection = some (e, m, rest) := (selection_iff s e m rest).symm
  simp only [selects]
  unfold dueOfSelection
  match s.selection with
  | none => simp
  | some (e, .toIdle b, rest) | some (e, .toHeld b, rest) | some (e, .skip, rest) =>
    simp [Move.command, and_assoc]

theorem takeable_iff {s : State} {a : Anchor} {r : Request} : s.takeable = some (a, r) ↔ Takes s a r :=
  ⟨takes_of_takeable, takeable_of_takes⟩

theorem mem_dueOfIntake {s : State} {c : Instr} :
    c ∈ dueOfIntake s ↔ (∃ a r, Takes s a r ∧ c = r.command) ∨ (Due s .fenceComplete ∧ c = .fenceComplete) := by
  have completes : (s.fence.isSome && s.fenceReady) = true ↔ Due s .fenceComplete := by
    rw [Bool.and_eq_true, fenceReady_iff, Option.isSome_iff_ne_none]
    rfl
  unfold dueOfIntake
  rw [List.mem_append]
  refine or_congr ?_ ?_
  · simp only [← takeable_iff]
    match s.takeable with
    | none => simp
    | some (a, r) => simp [and_assoc]
  · rw [← completes]
    split
    · next due => simp [due]
    · next notDue => simp [notDue]

theorem freeHeadNo_isSome_iff (s : State) : s.freeHeadNo.isSome = true ↔ ∃ h, (s.head h).state = .free := by
  simp [State.freeHeadNo, List.find?_isSome, allHeads, Fin.exists_fin_two]

theorem moveReady_iff_due (s : State) : s.moveReady = true ↔ Due s .ticketMove := by
  rw [moveReady_iff, ticketsFilled_eq_zero_iff]
  refine and_congr_right fun _ => and_congr_right fun _ => and_congr_left fun _ => ?_
  unfold State.limit
  cases s.anchor with
  | none => simp
  | some a => simp [State.ringFill]

theorem attemptReady_iff_due (s : State) : s.attemptReady = true ↔ Due s .issueAttempt := by
  cases inForce : s.anchor with
  | none =>
    refine iff_of_false (fun ready => ?_) fun ⟨a, may⟩ => absurd may.1 (by simp [inForce])
    simp [State.attemptReady, State.obstacle, inForce] at ready
  | some a =>
    rw [attemptReady_iff inForce]
    refine ⟨fun may => ⟨a, may⟩, fun ⟨x, may⟩ => ?_⟩
    obtain rfl : x = a := Option.some.inj (may.1.symm.trans inForce)
    exact may

theorem headGrant_due_iff (s : State) : (!s.waitQueue.isEmpty && s.freeHeadNo.isSome) = true ↔ Due s .headGrant := by
  rw [Bool.and_eq_true, freeHeadNo_isSome_iff, Bool.not_eq_true', List.isEmpty_eq_false_iff]
  rfl

theorem mem_dueOfUnits {s : State} {c : Instr} :
    c ∈ dueOfUnits s ↔ (c = .headGrant ∨ c = .issueAttempt ∨ c = .ticketMove) ∧ Due s c := by
  unfold dueOfUnits
  simp only [List.mem_append, List.mem_ite_nil_right, List.mem_singleton, headGrant_due_iff, attemptReady_iff_due, moveReady_iff_due]
  constructor
  · rintro ((⟨due, rfl⟩ | ⟨due, rfl⟩) | ⟨due, rfl⟩)
    all_goals exact ⟨by simp, due⟩
  · rintro ⟨rfl | rfl | rfl, due⟩
    · exact .inl (.inl ⟨due, rfl⟩)
    · exact .inl (.inr ⟨due, rfl⟩)
    · exact .inr ⟨due, rfl⟩

theorem mem_dueOfWriter {s : State} {c : Instr} :
    c ∈ dueOfWriter s ↔ (c = .writerTakesPath ∨ c = .starvationCountFull ∨ c = .recordWritten) ∧ Due s c := by
  have idle (writing : s.path ≠ .free) : ¬ WriterDue s := fun due => writing due.1
  unfold dueOfWriter
  cases path : s.path with
  | writer t =>
    have waits := idle (by simp [path])
    simp only [List.mem_singleton]
    constructor
    · rintro rfl
      exact ⟨by simp, by simp [Due, path, Path.isWriter]⟩
    · rintro ⟨rfl | rfl | rfl, due⟩
      · exact absurd due.1 waits
      · exact absurd due.1 waits
      · rfl
  | host =>
    have waits := idle (by simp [path])
    refine iff_of_false (by simp) ?_
    rintro ⟨rfl | rfl | rfl, due⟩
    · exact waits due.1
    · exact waits due.1
    · simp [Due, path, Path.isWriter] at due
  | free =>
    have takes : s.writerMayTake = true ↔ WriterDue s := writerMayTake_iff s
    have rests : ¬ Due s .recordWritten := by simp [Due, path, Path.isWriter]
    simp only [List.mem_ite_nil_right, takes]
    constructor
    · rintro ⟨due, mem⟩
      split at mem
      · next full =>
        obtain rfl := List.mem_singleton.mp mem
        exact ⟨by simp, due, full⟩
      · next few =>
        obtain rfl := List.mem_singleton.mp mem
        exact ⟨by simp, due, few⟩
    · rintro ⟨rfl | rfl | rfl, due⟩
      · exact ⟨due.1, by rw [if_neg due.2]; exact List.mem_singleton_self _⟩
      · exact ⟨due.1, by rw [if_pos due.2]; exact List.mem_singleton_self _⟩
      · exact absurd due rests

/-! ## Every step that is due -/

theorem mem_dueSteps {s : State} {c : Instr} :
    c ∈ dueSteps s ↔ (∃ b k, (s.bus b).timer = some (k, 0) ∧ c = BusTimer.expiry b k) ∨
      (∃ h k, (s.head h).timer = some (k, 0) ∧ c = HeadTimer.expiry h k) ∨ c ∈ dueOfTimers s ∨ c ∈ dueOfSelection s ∨
      c ∈ dueOfIntake s ∨ c ∈ dueOfUnits s ∨ c ∈ dueOfWriter s := by
  have buses : c ∈ allBuses.flatMap (dueOfBus s) ↔ ∃ b k, (s.bus b).timer = some (k, 0) ∧ c = BusTimer.expiry b k := by
    simp only [List.mem_flatMap, mem_allBuses, true_and, mem_dueOfBus]
  have heads : c ∈ allHeads.flatMap (dueOfHead s) ↔ ∃ h k, (s.head h).timer = some (k, 0) ∧ c = HeadTimer.expiry h k := by
    have every (h : HeadNo) : h ∈ allHeads := by revert h; decide
    simp only [List.mem_flatMap, every, true_and, mem_dueOfHead]
  simp only [dueSteps, List.mem_append, buses, heads, or_assoc]

theorem due_command {s : State} {a : Anchor} {r : Request} (taken : Takes s a r) : Due s r.command := by
  unfold Request.command
  split
  case h_10 kind =>
    split
    all_goals
      next action => exact ⟨a, r, taken, kind, action⟩
  all_goals
    next kind => exact ⟨a, r, taken, kind⟩

theorem due_of_mem {s : State} {c : Instr} (mem : c ∈ dueSteps s) : Due s c := by
  rcases mem_dueSteps.mp mem with ⟨b, k, timer, rfl⟩ | ⟨h, k, timer, rfl⟩ | mem | mem | mem | mem | mem
  · cases k
    all_goals exact timer
  · cases k
    all_goals exact timer
  · rcases mem_dueOfTimers.mp mem with ⟨due, rfl⟩ | ⟨due, rfl⟩
    all_goals exact due
  · obtain ⟨e, m, rest, selects, rfl⟩ := mem_dueOfSelection.mp mem
    cases m with
    | toIdle b => exact ⟨e, b, rest, selects⟩
    | toHeld b => exact ⟨e, b, rest, selects⟩
    | skip => exact ⟨e, rest, selects⟩
  · rcases mem_dueOfIntake.mp mem with ⟨a, r, taken, rfl⟩ | ⟨due, rfl⟩
    · exact due_command taken
    · exact due
  · exact (mem_dueOfUnits.mp mem).2
  · exact (mem_dueOfWriter.mp mem).2

section
variable {s : State}

theorem mem_dueSteps_of_bus {b : BusNo} {k : BusTimer} (timer : (s.bus b).timer = some (k, 0)) : k.expiry b ∈ dueSteps s :=
  mem_dueSteps.mpr (.inl ⟨b, k, timer, rfl⟩)

theorem mem_dueSteps_of_head {h : HeadNo} {k : HeadTimer} (timer : (s.head h).timer = some (k, 0)) : k.expiry h ∈ dueSteps s :=
  mem_dueSteps.mpr (.inr (.inl ⟨h, k, timer, rfl⟩))

theorem mem_dueSteps_of_selects {e : TestEntry} {m : Move} {rest : List TestEntry} (selects : Selects s e m rest) :
    m.command ∈ dueSteps s :=
  mem_dueSteps.mpr (.inr (.inr (.inr (.inl (mem_dueOfSelection.mpr ⟨e, m, rest, selects, rfl⟩)))))

theorem mem_dueSteps_of_takes {c : Instr} {p : Request → Prop} (takes : TakesKind s p) (command : ∀ r, p r → r.command = c) :
    c ∈ dueSteps s := by
  obtain ⟨a, r, taken, about⟩ := takes
  exact mem_dueSteps.mpr (.inr (.inr (.inr (.inr (.inl (mem_dueOfIntake.mpr (.inl ⟨a, r, taken, (command r about).symm⟩)))))))

theorem mem_dueSteps_of_timers {c : Instr} (mem : c ∈ dueOfTimers s) : c ∈ dueSteps s := mem_dueSteps.mpr (.inr (.inr (.inl mem)))

theorem mem_dueSteps_of_units {c : Instr} (is : c = .headGrant ∨ c = .issueAttempt ∨ c = .ticketMove) (due : Due s c) :
    c ∈ dueSteps s :=
  mem_dueSteps.mpr (.inr (.inr (.inr (.inr (.inr (.inl (mem_dueOfUnits.mpr ⟨is, due⟩)))))))

theorem mem_dueSteps_of_writer {c : Instr} (is : c = .writerTakesPath ∨ c = .starvationCountFull ∨ c = .recordWritten)
    (due : Due s c) : c ∈ dueSteps s :=
  mem_dueSteps.mpr (.inr (.inr (.inr (.inr (.inr (.inr (mem_dueOfWriter.mpr ⟨is, due⟩)))))))

end

theorem mem_of_due {s : State} {c : Instr} (due : Due s c) : c ∈ dueSteps s := by
  cases c with
  | claimTimerExpiry b => exact mem_dueSteps_of_bus (k := .claim) due
  | settleTimerExpiry b => exact mem_dueSteps_of_bus (k := .settle) due
  | openTimerExpiry b => exact mem_dueSteps_of_bus (k := .opening) due
  | holdTimerExpiry b => exact mem_dueSteps_of_bus (k := .hold) due
  | stepWatchdogExpiry h => exact mem_dueSteps_of_head (k := .watchdog) due
  | abortTimerExpiry h => exact mem_dueSteps_of_head (k := .abort) due
  | clearTimerExpiry h => exact mem_dueSteps_of_head (k := .clear) due
  | coalescingTimerExpiry => exact mem_dueSteps_of_timers (mem_dueOfTimers.mpr (.inl ⟨due, rfl⟩))
  | resultHoldExpiry => exact mem_dueSteps_of_timers (mem_dueOfTimers.mpr (.inr ⟨due, rfl⟩))
  | entryToIdleBus => obtain ⟨e, b, rest, selects⟩ := due; exact mem_dueSteps_of_selects selects
  | entryToHeldBus => obtain ⟨e, b, rest, selects⟩ := due; exact mem_dueSteps_of_selects selects
  | sweepEntrySkip => obtain ⟨e, rest, selects⟩ := due; exact mem_dueSteps_of_selects selects
  | refusedKind | test | cancel | fence | releaseHold | busReset | headReset | clearGroup | lineQuery =>
    exact mem_dueSteps_of_takes due fun r kind => by rw [Request.command, kind]
  | sweepControl | sweepStart | sweepStop | sweepRestart | sweepSeek =>
    exact mem_dueSteps_of_takes due fun r ⟨kind, action⟩ => by rw [Request.command, kind, action]
  | fenceComplete => exact mem_dueSteps.mpr (.inr (.inr (.inr (.inr (.inl (mem_dueOfIntake.mpr (.inr ⟨due, rfl⟩)))))))
  | headGrant | issueAttempt | ticketMove => exact mem_dueSteps_of_units (by simp) due
  | writerTakesPath | starvationCountFull | recordWritten => exact mem_dueSteps_of_writer (by simp) due
  | _ => exact due.elim

/-! ## The step -/

theorem autonomous_runs_due {s : State} (some : dueSteps s ≠ []) :
    ∃ c ∈ dueSteps s, ∃ n, autonomous s = exec c { s with freeIndex := n } := by
  unfold autonomous
  match steps : dueSteps s with
  | [] => exact absurd steps some
  | [c] => exact ⟨c, List.mem_singleton_self c, s.freeIndex, rfl⟩
  | c :: d :: cs =>
    refine ⟨_, ?_, s.freeIndex + 1, rfl⟩
    have inside : Config.pick s.freeIndex % ((d :: cs).length + 1) < (c :: d :: cs).length := Nat.mod_lt _ (Nat.succ_pos _)
    rw [List.getD_eq_getElem _ _ inside]
    exact List.getElem_mem inside

theorem tick_readHold (s : State) :
    (∀ n, s.readHold = some (.result n) → (tick s).readHold = some (.result (n - 1))) ∧
      ((∀ n, s.readHold ≠ some (.result n)) → (tick s).readHold = s.readHold) := by
  have ticked : (tick s).readHold = s.readHold.map ReadHold.tick := rfl
  refine ⟨fun n held => by rw [ticked, held]; rfl, fun other => ?_⟩
  rw [ticked]
  cases held : s.readHold with
  | none => rfl
  | some x =>
    cases x with
    | result n => exact absurd held (other n)
    | pendingWrite => rfl

/-- Settles O2: a step that is due, or 1 ms. -/
theorem emptyQueueActs : Obligations.EmptyQueueActs := by
  refine fun s => ⟨fun c => ⟨due_of_mem, mem_of_due⟩, fun empty => ?_⟩
  have acts : step s = autonomous s := by
    unfold step
    rw [empty]
  refine ⟨fun idle => ?_, fun some => ?_⟩
  · obtain ⟨running, other⟩ := tick_readHold s
    refine ⟨tick s, acts.trans ?_, fun b => tick_view_bus s b, fun h => tick_view_head s h, rfl, rfl, running, other, tick_only s⟩
    unfold autonomous
    rw [idle]
  · rw [acts]
    exact autonomous_runs_due some

end Sys2Proof.Machine
end

section
/-!
PROOFS. Words put together from fields in ascending order, and the records the writer places in memory: TEST and QUERY records, tickets
and dispositions (R177, R183, Tables 10-2 to 10-5, 10-7).
-/

namespace Sys2Proof.Machine

/-! ## Words of fields in ascending order -/

/-- The fields stand in ascending order from a bit on, fit their lengths, and end within the word. -/
def Ascending : Nat → List (Nat × Nat × Nat) → Prop
  | lo, [] => lo ≤ 32
  | lo, f :: fs => lo ≤ f.1 ∧ f.2.2 < 2 ^ f.2.1 ∧ Ascending (f.1 + f.2.1) fs

/-- The word that holds the fields. -/
def fieldsWord (fs : List (Nat × Nat × Nat)) : Word := fs.foldl (fun w f => w ||| place f.2.2 f.1 f.2.1) 0

theorem Ascending.le {lo : Nat} {fs : List (Nat × Nat × Nat)} (h : Ascending lo fs) : lo ≤ 32 := by
  induction fs generalizing lo with
  | nil => exact h
  | cons f fs ih =>
    obtain ⟨from_lo, -, rest⟩ := h
    have := ih rest
    omega

theorem Ascending.mem {lo : Nat} {fs : List (Nat × Nat × Nat)} (h : Ascending lo fs) {f : Nat × Nat × Nat} (mem : f ∈ fs) :
    lo ≤ f.1 ∧ f.2.2 < 2 ^ f.2.1 ∧ f.1 + f.2.1 ≤ 32 := by
  induction fs generalizing lo with
  | nil => cases mem
  | cons g gs ih =>
    obtain ⟨from_lo, fits, rest⟩ := h
    rcases List.mem_cons.mp mem with rfl | mem
    · exact ⟨from_lo, fits, rest.le⟩
    · obtain ⟨above, fits, ends⟩ := ih rest mem
      exact ⟨by omega, fits, ends⟩

theorem Ascending.pairwise {lo : Nat} {fs : List (Nat × Nat × Nat)} (h : Ascending lo fs) :
    fs.Pairwise fun f g => f.1 + f.2.1 ≤ g.1 ∨ g.1 + g.2.1 ≤ f.1 := by
  induction fs generalizing lo with
  | nil => exact List.Pairwise.nil
  | cons f fs ih =>
    obtain ⟨-, -, rest⟩ := h
    exact List.Pairwise.cons (fun g mem => Or.inl (rest.mem mem).1) (ih rest)

theorem Ascending.wordIs {fs : List (Nat × Nat × Nat)} (h : Ascending 0 fs) : WordIs (fieldsWord fs) fs :=
  wordIs_foldl (gs := []) wordIs_zero fs (fun _ mem => (h.mem mem).2.1) (fun _ mem => (h.mem mem).2.2) h.pairwise

theorem place_zero (lo len : Nat) : place 0 lo len = 0 := by simp [place]

theorem placeBit_eq (b : Bool) (i : Nat) : placeBit b i = place (indication b) i 1 := rfl

theorem WordIs.of_eq {w : Word} {fs : List (Nat × Nat × Nat)} (e : w = fieldsWord fs) (h : Ascending 0 fs) : WordIs w fs :=
  e ▸ h.wordIs

/-! ## Bounds of the field values -/

theorem indication_lt (b : Bool) : indication b < 2 := by cases b <;> decide

theorem optCode_eq_codeOr {α : Type} (absent : Nat) (code : α → Nat) (o : Option α) :
    optCode absent code o = codeOr absent code o := by
  cases o <;> rfl

theorem codeOr_lt {α : Type} {absent n : Nat} {code : α → Nat} (absent_lt : absent < n) (code_lt : ∀ x, code x < n) (o : Option α) :
    codeOr absent code o < n := by
  cases o with
  | none => exact absent_lt
  | some x => exact code_lt x

theorem codeOr_val_lt {k absent n : Nat} (absent_lt : absent < n) (le : k ≤ n) (o : Option (Fin k)) : codeOr absent Fin.val o < n :=
  codeOr_lt absent_lt (fun x => Nat.lt_of_lt_of_le x.isLt le) o

theorem RecordState.code_lt (x : RecordState) : x.code < 5 := by cases x <;> decide

theorem FaultKind.code_lt (x : FaultKind) : x.code < 8 := by cases x <;> decide

theorem TicketKind.code_lt (x : TicketKind) : x.code < 14 := by
  cases x with
  | lineFault k => exact Nat.lt_of_lt_of_le k.code_lt (by decide)
  | _ => decide

theorem TicketOrigin.code_lt (x : TicketOrigin) : x.code < 4 := by cases x <;> decide

theorem StepStatus.code_lt (x : StepStatus) : x.code < 5 := by cases x <;> decide

theorem ReadingStatus.code_lt (x : Sys2Proof.ReadingStatus) : x.code < 4 := by cases x <;> decide

theorem Supervision.code_lt (x : Supervision) : x.code < 6 := by cases x <;> decide

theorem BusState.code_lt (x : BusState) : x.code < 9 := by cases x <;> decide

theorem HeadState.code_lt (x : HeadState) : x.code < 6 := by cases x <;> decide

theorem FaultCause.code_lt (x : FaultCause) : x.code < 3 := by cases x <;> decide

theorem Disposition.code_lt (x : Disposition) : x.code < 12 := by cases x <;> decide

theorem CommitOutcome.code_lt (x : CommitOutcome) : x.code < 6 := by cases x <;> decide

theorem verdictCodes_eq (v : Verdict) : verdictCodes v = (v.code, v.faultCode) := by cases v <;> rfl

theorem Verdict.code_lt (v : Verdict) : v.code < 4 := by cases v <;> simp [Verdict.code]

theorem Verdict.faultCode_lt (v : Verdict) : v.faultCode < 8 := by
  cases v with
  | fail k => exact k.code_lt
  | _ => decide

/-- The codes of a TEST record's outcome as the model composes them (Tables 10-3, 10-7). -/
theorem outcomeCodes_eq (o : Option TestOutcome) :
    outcomeCodes o = (optCode 0 TestOutcome.code o, optCode 0 Verdict.code (o.bind TestOutcome.verdict),
      optCode 0 Verdict.faultCode (o.bind TestOutcome.verdict)) := by
  cases o with
  | none => rfl
  | some x =>
    cases x with
    | completed v => simp [outcomeCodes, verdictCodes_eq, optCode, TestOutcome.code, TestOutcome.verdict]
    | _ => rfl

theorem outcomeCodes_lt (o : Option TestOutcome) :
    (outcomeCodes o).1 < 10 ∧ (outcomeCodes o).2.1 < 4 ∧ (outcomeCodes o).2.2 < 8 := by
  cases o with
  | none => decide
  | some x =>
    cases x with
    | completed v => simpa [outcomeCodes, verdictCodes_eq] using ⟨v.code_lt, v.faultCode_lt⟩
    | _ => decide

/-! ## Records as lists of words -/

/-- Words at consecutive word addresses are the words at their numbers from the base. -/
theorem placeAt_eq_zip (base : Nat) (ws : List Word) :
    placeAt base ws = ((List.range ws.length).map fun i => base + 4 * i).zip ws := by
  induction ws generalizing base with
  | nil => rfl
  | cons w ws ih =>
    have shifted : ∀ i, base + 4 + 4 * i = base + 4 * (i + 1) := fun i => by omega
    simp [placeAt, ih, List.range_succ_eq_map, Function.comp_def, shifted]

theorem Written.of_placeAt {s : State} {e : WriterEntry} {base : Nat} {ws : List Word} {layout : List (List (Nat × Nat × Nat))}
    (words : entryWords s e = placeAt base ws) (laid : List.Forall₂ WordIs ws layout) (length : layout.length = 16) :
    Written s e base (List.range 16) layout :=
  ⟨ws, laid, by rw [words, placeAt_eq_zip, laid.length_eq, length]⟩

theorem stepWord_is (r : StepRecord) : WordIs r.word (stepLayout r) := by
  have status := r.status.code_lt
  unfold StepRecord.word stepLayout
  cases r.reading with
  | some reading =>
    obtain ⟨st, v⟩ := reading
    have reading := ReadingStatus.code_lt st
    have value := v.isLt
    exact .of_eq (by simp [fieldsWord]) (by simp only [Ascending]; omega)
  | none => exact .of_eq (by simp [fieldsWord, place_zero]) (by simp only [Ascending]; omega)

theorem stepWords_are (rs : StepRecords) : List.Forall₂ WordIs (rs.toList.map StepRecord.word) (rs.toList.map stepLayout) := by
  rw [List.forall₂_map_left_iff, List.forall₂_map_right_iff, List.forall₂_same]
  exact fun r _ => stepWord_is r

/-- Words of zeros are the reserved words. -/
theorem zeroWords_are (n : Nat) : List.Forall₂ WordIs (List.replicate n 0) (List.replicate n []) := by
  induction n with
  | zero => exact .nil
  | succ n ih => exact .cons wordIs_zero ih

/-- A TEST record (Tables 10-3 and 10-4). -/
theorem testWords_are (r : ResultRecord) : List.Forall₂ WordIs r.words (testLayout r) := by
  obtain ⟨outcome, verdict, fault⟩ := outcomeCodes_lt r.outcome
  have state := r.state.code_lt
  have tag := r.tag.isLt
  have epoch := r.epoch.isLt
  have bus := codeOr_val_lt (absent := 7) (n := 8) (by decide) (by decide) r.bus
  have head := codeOr_val_lt (absent := 7) (n := 8) (by decide) (by decide) r.head
  have merged := indication_lt r.merged
  refine List.rel_append (.cons ?_ (.cons ?_ (.cons ?_ (zeroWords_are 5)))) (stepWords_are r.steps)
  · exact .of_eq (by simp [fieldsWord, place_zero, outcomeCodes_eq]) (by simp only [Ascending]; omega)
  · exact .of_eq (by simp [fieldsWord]) (by simp only [Ascending]; omega)
  · exact .of_eq (by simp [fieldsWord, placeBit_eq, optCode_eq_codeOr]) (by simp only [Ascending]; omega)

theorem testLayout_length (r : ResultRecord) : (testLayout r).length = 16 := by simp [testLayout]

/-- A QUERY record (Table 10-3). -/
theorem queryWords_are (r : QueryRecord) : List.Forall₂ WordIs r.words (queryLayout r) := by
  have supervision := r.snapshot.supervision.code_lt
  have loop := indication_lt r.snapshot.loopMark
  have yields := indication_lt r.snapshot.yieldMark
  have stamped := indication_lt r.snapshot.stamp.isSome
  have occupying := codeOr_val_lt (absent := 7) (n := 8) (by decide) (by decide) r.snapshot.occupying
  have mark := codeOr_lt (absent := 0) (n := 8) (by decide) FaultKind.code_lt r.snapshot.ticketMark
  have verdict := codeOr_lt (absent := 0) (code := fun t : LastTest => t.verdict.code) (by decide) (fun t => t.verdict.code_lt)
    r.snapshot.lastTest
  have fault := codeOr_lt (absent := 0) (code := fun t : LastTest => t.verdict.faultCode) (by decide)
    (fun t => t.verdict.faultCode_lt) r.snapshot.lastTest
  have tag := r.tag.isLt
  have now := r.epoch.isLt
  have stampValue := (r.snapshot.stamp.getD 0).isLt
  have epoch := codeOr_lt (absent := 0) (code := fun t : LastTest => t.epoch.toNat) (by decide) (fun t => t.epoch.isLt)
    r.snapshot.lastTest
  have stamp : codeOr 0 BitVec.toNat r.snapshot.stamp = (r.snapshot.stamp.getD 0).toNat := by cases r.snapshot.stamp <;> rfl
  refine .cons ?_ (.cons ?_ (.cons ?_ (List.rel_append (zeroWords_are 5) (.cons ?_ (.cons ?_ (.cons ?_ (zeroWords_are 5)))))))
  · exact .of_eq (by simp [fieldsWord, place_zero, RecordState.code]) (by simp only [Ascending]; omega)
  · exact .of_eq (by simp [fieldsWord]) (by simp only [Ascending]; omega)
  · exact .of_eq (by simp [fieldsWord, place_zero]) (by simp only [Ascending]; omega)
  · exact .of_eq (by simp [fieldsWord, placeBit_eq, optCode_eq_codeOr, stamp]) (by simp only [Ascending]; omega)
  · simp only [verdictCodes_eq]
    exact .of_eq (by simp [fieldsWord, optCode_eq_codeOr]) (by simp only [Ascending]; omega)
  · exact .of_eq (by simp [fieldsWord, optCode_eq_codeOr]) (by simp only [Ascending]; omega)

/-! ## Tickets -/

theorem foldl_lines_testBit (ls : List LineNo) (m k : Nat) :
    (ls.foldl (fun m l => m ||| (1 <<< (l.val % 16))) m).testBit k = (m.testBit k || decide (∃ l ∈ ls, l.val % 16 = k)) := by
  induction ls generalizing m with
  | nil => simp
  | cons l ls ih =>
    rw [List.foldl_cons, ih, Nat.testBit_or, Nat.one_shiftLeft, Nat.testBit_two_pow, Bool.or_assoc, ← Bool.decide_or]
    simp only [List.exists_mem_cons_iff]

/-- Bit k of the offset mask lists the line at offset k (Table 10-5). -/
theorem offsetMask_testBit (ls : List LineNo) (k : Nat) : (offsetMask ls).testBit k = decide (∃ l ∈ ls, l.val % 16 = k) := by
  rw [offsetMask, foldl_lines_testBit, Nat.zero_testBit, Bool.false_or]

theorem offsetMask_lt (ls : List LineNo) : offsetMask ls < 2 ^ 16 := by
  refine Nat.lt_pow_two_of_testBit _ fun k le => ?_
  rw [offsetMask_testBit, decide_eq_false_iff_not]
  rintro ⟨l, -, rfl⟩
  omega

/-- A field of n bits from bit 0 read bit by bit. -/
theorem WordIs.bits {w : Word} {n v : Nat} {fs : List (Nat × Nat × Nat)} (h : WordIs w ((0, n, v) :: fs)) :
    WordIs w (((List.range n).map fun k => (k, 1, if v.testBit k = true then 1 else 0)) ++ fs) := by
  obtain ⟨values, zeros⟩ := h
  have whole := values (0, n, v) List.mem_cons_self
  simp only [pow_zero, Nat.div_one] at whole
  constructor
  · intro f mem
    rcases List.mem_append.mp mem with mem | mem
    · obtain ⟨k, inside, rfl⟩ := List.mem_map.mp mem
      have k_lt : k < n := List.mem_range.mp inside
      rw [← whole, Nat.testBit_mod_two_pow, decide_eq_true k_lt, Bool.true_and, pow_one, Nat.testBit_eq_decide_div_mod_eq]
      have := Nat.mod_two_eq_zero_or_one (w.toNat / 2 ^ k)
      simp only [decide_eq_true_eq]
      split <;> omega
    · exact values f (List.mem_cons_of_mem _ mem)
  · intro i i_lt outside
    refine zeros i i_lt fun f mem => ?_
    rcases List.mem_cons.mp mem with rfl | mem
    · by_contra inside
      have k_lt : i < n := by simp only at inside; omega
      have := outside _ (List.mem_append_left _ (List.mem_map_of_mem (List.mem_range.mpr k_lt)))
      simp only at this
      omega
    · exact outside f (List.mem_append_right _ mem)

theorem detailWords_are {d : TicketDetail} (elapsed : ∀ c, d = .context c → c.elapsed < 65536) :
    List.Forall₂ WordIs d.words (detailLayout d) := by
  cases d with
  | steps rs => exact stepWords_are rs
  | age n =>
    have age := n.isLt
    exact .cons (.of_eq (by simp [fieldsWord]) (by simp only [Ascending]; omega)) (zeroWords_are 7)
  | context c =>
    have bus := codeOr_val_lt (absent := 15) (n := 16) (by decide) (by decide) c.bus
    have head := codeOr_val_lt (absent := 15) (n := 16) (by decide) (by decide) c.head
    have step := codeOr_val_lt (absent := 15) (n := 16) (by decide) (by decide) c.step
    have busState := codeOr_lt (absent := 0) (n := 9) (by decide) BusState.code_lt c.busState
    have headState := codeOr_lt (absent := 0) (n := 6) (by decide) HeadState.code_lt c.headState
    have line := codeOr_val_lt (absent := 0) (n := 4096) (by decide) (by decide) c.line
    have present := indication_lt c.line.isSome
    have claim := c.claim.isLt
    have time := elapsed c rfl
    refine .cons ?_ (.cons ?_ (.cons ?_ (zeroWords_are 5)))
    · exact .of_eq (by simp [fieldsWord, optCode_eq_codeOr]) (by simp only [Ascending]; omega)
    · exact .of_eq (by simp [fieldsWord, placeBit_eq, optCode_eq_codeOr]) (by simp only [Ascending]; omega)
    · exact .of_eq (by simp [fieldsWord]) (by simp only [Ascending]; omega)

theorem detailLayout_length (d : TicketDetail) : (detailLayout d).length = 8 := by cases d <;> simp [detailLayout]

/-- A ticket record (Table 10-5). -/
theorem ticketWords_are {t : Ticket} {n : Count16} {d : Nat} (dropped : d < 256)
    (elapsed : ∀ c, t.detail = .context c → c.elapsed < 65536) : List.Forall₂ WordIs (t.words n d) (ticketLayout n d t) := by
  have kind := t.kind.code_lt
  have origin := t.origin.code_lt
  have group := codeOr_val_lt (absent := 0) (n := 256) (by decide) (by decide) t.group
  have present := indication_lt t.group.isSome
  have mask := offsetMask_lt t.lines
  have sequence := n.isLt
  have epoch := t.epoch.isLt
  have listed : WordIs (place (offsetMask t.lines) 0 16 ||| place t.epoch.toNat 16 16)
      [(0, 16, offsetMask t.lines), (16, 16, t.epoch.toNat)] :=
    .of_eq (by simp [fieldsWord]) (by simp only [Ascending]; omega)
  refine List.rel_append (.cons ?_ (.cons ?_ (.cons ?_ (zeroWords_are 5)))) (detailWords_are elapsed)
  · exact .of_eq (by simp [fieldsWord]) (by simp only [Ascending]; omega)
  · exact .of_eq (by simp [fieldsWord, placeBit_eq, optCode_eq_codeOr]) (by simp only [Ascending]; omega)
  · simpa only [offsetMask_testBit, decide_eq_true_eq] using listed.bits

theorem ticketLayout_length (n : Count16) (d : Nat) (t : Ticket) : (ticketLayout n d t).length = 16 := by
  simp [ticketLayout, detailLayout_length]

/-! ## What the writer writes -/

variable {s : State} {a : Anchor}

/-- A TEST record of a slot (R88, R96). -/
theorem written_test (anchored : s.anchor = some a) (i : Nat) (r : ResultRecord) :
    Written s (.inProgress i r) (a.resultBase + 64 * i) (List.range 16) (testLayout r) ∧
      Written s (.cancelled i r) (a.resultBase + 64 * i) (List.range 16) (testLayout r) :=
  ⟨.of_placeAt (by simp [entryWords, anchored, Anchor.resultAddr]) (testWords_are r) (testLayout_length r),
    .of_placeAt (by simp [entryWords, anchored, Anchor.resultAddr]) (testWords_are r) (testLayout_length r)⟩

/-- A bus entry's record for its next slot (R100). -/
theorem written_bus (anchored : s.anchor = some a) (b : BusNo) (r : ResultRecord) (m : SlotMember) (ms : List SlotMember) :
    Written s (.bus b r (m :: ms)) (a.resultBase + 64 * m.slot) (List.range 16)
      (testLayout { r with tag := m.tag, merged := m.merged }) :=
  .of_placeAt (by simp [entryWords, anchored, Anchor.resultAddr]) (testWords_are (r.forMember m)) (testLayout_length _)

theorem written_query (anchored : s.anchor = some a) (i : Nat) (r : QueryRecord) :
    Written s (.query i r) (a.resultBase + 64 * i) (List.range 16) (queryLayout r) :=
  .of_placeAt (by simp [entryWords, anchored, Anchor.resultAddr]) (queryWords_are r) rfl

theorem written_ticket (anchored : s.anchor = some a) (i : Count16) {n : Count16} {d : Nat} {k : Ticket} (dropped : d < 256)
    (elapsed : ∀ c, k.detail = .context c → c.elapsed < 65536) :
    Written s (.ticket i n d k) (a.ticketBase + 64 * (i.toNat % a.ticketSize)) (List.range 16) (ticketLayout n d k) :=
  .of_placeAt (by simp [entryWords, anchored, Anchor.ticketAddr]) (ticketWords_are dropped elapsed) (ticketLayout_length n d k)

theorem written_disposition (anchored : s.anchor = some a) (i : Fin 64) (d : Disposition) (f : Bool) :
    Written s (.disposition i d f) (a.ringBase + 16 * i.val) [3] [[(0, 2, 2), (8, 4, d.code)]] := by
  have code := d.code_lt
  refine ⟨[d.postWord], .cons ?_ .nil, by simp [entryWords, anchored, Anchor.postAddr]⟩
  exact .of_eq (by simp [Disposition.postWord, fieldsWord]) (by simp only [Ascending]; omega)

end Sys2Proof.Machine
end

section
/-!
PROOFS. The status block and the outcome word, the codes of the enumerations, and the fields the part reads (R178, R182, Tables 10-1,
10-2, 10-6, 10-7).
-/

namespace Sys2Proof.Machine

/-! ## The status block -/

/-- The held-back reason's code, condition by condition in the order of Table 5-2. -/
theorem heldBack_code (s : State) : s.heldBack.code = heldBackCode s := by
  have anchorless : (s.anchor.isNone || s.resyncPending) = true ↔ s.anchor = none ∨ s.resyncPending = true := by
    rw [Bool.or_eq_true, Option.isNone_iff_eq_none]
  have headless : (!s.headInService) = true ↔ ¬ ∃ h, (s.head h).state.inService = true := by
    rw [← headInService_iff, Bool.not_eq_true', Bool.not_eq_true]
  have full : (16 ≤ s.queue.length || s.sweepQueued) = true ↔ 16 ≤ s.queue.length ∨ ∃ e ∈ s.queue, e.cls = .sweep := by
    simp [State.sweepQueued]
  have free : 8 - s.outbox.length = s.outboxFree := rfl
  unfold State.heldBack heldBackCode
  rw [free]
  cases sweep : s.sweep with
  | stopped => rfl
  | running =>
    simp only [State.obstacle, anchorless, headless, full, reduceCtorEq, if_false]
    split_ifs <;> rfl

theorem heldBackCode_lt (s : State) : heldBackCode s < 8 := by
  rw [← heldBack_code]
  cases s.heldBack <;> decide

theorem alarmPlace_eq (s : State) (i : Nat) : s.alarmPlace i = alarmAt s i := optCode_eq_codeOr 0 Fin.val s.alarmList[i]?

theorem alarmAt_lt (s : State) (i : Nat) : alarmAt s i < 256 := codeOr_val_lt (by decide) (by decide) _

theorem sweepCode_eq (x : SweepState) : x.code = if x = .running then 1 else 0 := by cases x <;> rfl

/-- The bit a flag shows in word 1 of the status block. -/
theorem flagBit_eq (s : State) (f : Flag) (i : Nat) :
    placeBit (s.flag f != .clear) i = place (if s.flag f = .clear then 0 else 1) i 1 := by
  cases s.flag f <;> rfl

theorem flagBit_lt (s : State) (f : Flag) : (if s.flag f = .clear then 0 else 1) < 2 ^ 1 := by
  split <;> decide

section
variable {s : State}

theorem statusWord1_is (s : State) :
    WordIs s.statusWord1 (flagPositions.map fun x => (x.1, 1, if s.flag x.2 = .clear then 0 else 1)) := by
  refine .of_eq (by simp [State.statusWord1, allFlags, fieldsWord, flagPositions, flagBit_eq, Flag.position]) ?_
  simp only [Ascending, flagPositions, List.map_cons, List.map_nil, flagBit_lt]
  decide

theorem statusWord3_is (queue : s.queue.length ≤ 16) :
    WordIs s.statusWord3 [(0, 6, s.takeIndex.val), (8, 5, s.queue.length), (16, 16, s.produce.toNat)] := by
  have produce := s.produce.isLt
  exact .of_eq (by simp [State.statusWord3, fieldsWord]) (by simp only [Ascending]; omega)

theorem statusWord5_is (pointer : s.pointer < 4096) :
    WordIs s.statusWord5 [(0, 1, if s.sweep = .running then 1 else 0), (4, 3, heldBackCode s), (16, 12, s.pointer)] := by
  have reason := heldBackCode_lt s
  exact .of_eq (by simp [State.statusWord5, fieldsWord, heldBack_code, sweepCode_eq]) (by simp only [Ascending]; split <;> omega)

theorem statusWord6_is (dropped : s.droppedTotal ≤ 65535) :
    WordIs s.statusWord6 [(0, 16, s.epoch.toNat), (16, 16, s.droppedTotal)] := by
  have epoch := s.epoch.isLt
  exact .of_eq (by simp [State.statusWord6, fieldsWord]) (by simp only [Ascending]; omega)

theorem statusWord7_is (s : State) :
    WordIs s.statusWord7 [(0, 4, (s.head 0).state.code), (4, 4, (s.head 1).state.code), (8, 4, (s.bus 0).state.code),
      (12, 4, (s.bus 1).state.code), (16, 4, (s.bus 2).state.code), (20, 4, (s.bus 3).state.code),
      (24, 2, codeOr 0 FaultCause.code (s.bus 0).cause), (26, 2, codeOr 0 FaultCause.code (s.bus 1).cause),
      (28, 2, codeOr 0 FaultCause.code (s.bus 2).cause), (30, 2, codeOr 0 FaultCause.code (s.bus 3).cause)] := by
  have head (h : HeadNo) : (s.head h).state.code < 2 ^ 4 := Nat.lt_trans (s.head h).state.code_lt (by decide)
  have bus (b : BusNo) : (s.bus b).state.code < 2 ^ 4 := Nat.lt_trans (s.bus b).state.code_lt (by decide)
  have cause (b : BusNo) : codeOr 0 FaultCause.code (s.bus b).cause < 2 ^ 2 :=
    Nat.lt_trans (codeOr_lt (by decide) FaultCause.code_lt _) (by decide)
  exact .of_eq (by simp [State.statusWord7, fieldsWord, optCode_eq_codeOr]) (by simp only [Ascending, head, bus, cause]; decide)

theorem statusWord8_is (alarms : s.alarmList.length ≤ 8) :
    WordIs s.statusWord8 [(0, 4, s.alarmList.length), (4, 1, indication s.alarmOverflow)] := by
  have overflow := indication_lt s.alarmOverflow
  exact .of_eq (by simp [State.statusWord8, fieldsWord, placeBit_eq]) (by simp only [Ascending]; omega)

theorem alarmWord_is (s : State) (i : Nat) :
    WordIs (s.alarmWord i) [(0, 8, alarmAt s i), (8, 8, alarmAt s (i + 1)), (16, 8, alarmAt s (i + 2)), (24, 8, alarmAt s (i + 3))] :=
  .of_eq (by simp [State.alarmWord, fieldsWord, alarmPlace_eq]) (by simp [Ascending, alarmAt_lt])

variable {a : Anchor}

theorem statusWord0_is (anchored : s.anchor = some a) (generation : a.generation < 256)
    (last : ∀ c, s.lastCommit = some c → c.generation < 256) :
    WordIs s.statusWord0 [(0, 8, a.generation), (8, 8, codeOr 0 CommitRecord.generation s.lastCommit),
      (16, 4, codeOr 0 (fun c => c.outcome.code) s.lastCommit), (24, 1, indication s.resyncPending)] := by
  have resync := indication_lt s.resyncPending
  have outcome := codeOr_lt (absent := 0) (n := 6) (code := fun c : CommitRecord => c.outcome.code) (by decide)
    (fun c => c.outcome.code_lt) s.lastCommit
  have committed : codeOr 0 CommitRecord.generation s.lastCommit < 256 := by
    cases commit : s.lastCommit with
    | none => decide
    | some c => exact last c commit
  exact .of_eq (by simp [State.statusWord0, State.limit, anchored, fieldsWord, placeBit_eq, optCode_eq_codeOr])
    (by simp only [Ascending]; omega)

/-- The ranges within which the status block shows the state as it is. -/
def StatusInRange (a : Anchor) (s : State) : Prop :=
  a.generation < 256 ∧ (∀ c, s.lastCommit = some c → c.generation < 256) ∧ s.queue.length ≤ 16 ∧ s.droppedTotal ≤ 65535 ∧
    s.pointer < 4096 ∧ s.alarmList.length ≤ 8

/-- The status image (R178, Table 10-6). -/
theorem statusImage_is (anchored : s.anchor = some a) (range : StatusInRange a s) :
    List.Forall₂ WordIs (s.statusImage.map Prod.snd) (statusLayout a s) := by
  obtain ⟨generation, last, queue, dropped, pointer, alarms⟩ := range
  exact .cons (statusWord0_is anchored generation last) (.cons (statusWord1_is s) (.cons (statusWord3_is queue)
    (.cons (statusWord5_is pointer) (.cons (statusWord6_is dropped) (.cons (statusWord7_is s) (.cons (statusWord8_is alarms)
    (.cons (alarmWord_is s 0) (.cons (alarmWord_is s 4) (zeroWords_are 5)))))))))

theorem outcomeWord_is {c : CommitRecord} (generation : c.generation < 256) :
    WordIs c.word [(0, 8, c.generation), (8, 4, c.outcome.code)] := by
  have outcome := c.outcome.code_lt
  exact .of_eq (by simp [CommitRecord.word, fieldsWord]) (by simp only [Ascending]; omega)

theorem statusImage_placed (s : State) (base : Nat) :
    s.statusImage.map (fun x => (base + 4 * x.1, x.2)) =
      (statusNumbers.map fun i => base + 4 * i).zip (s.statusImage.map Prod.snd) := rfl

theorem written_status (anchored : s.anchor = some a) (range : StatusInRange a s) :
    Written s (.status none) a.statusBase statusNumbers (statusLayout a s) :=
  ⟨_, statusImage_is anchored range, by simp only [entryWords, anchored, List.nil_append, statusImage_placed]⟩

/-- With a commit's outcome the outcome word is written before the status block (R173). -/
theorem written_outcomeAndStatus (anchored : s.anchor = some a) (range : StatusInRange a s) {c : CommitRecord}
    (generation : c.generation < 256) :
    ∃ w ws, WordIs w [(0, 8, c.generation), (8, 4, c.outcome.code)] ∧ List.Forall₂ WordIs ws (statusLayout a s) ∧
      entryWords s (.status (some c)) = (0x278, w) :: (statusNumbers.map fun i => a.statusBase + 4 * i).zip ws :=
  ⟨c.word, _, outcomeWord_is generation, statusImage_is anchored range,
    by simp only [entryWords, anchored, List.singleton_append, statusImage_placed, outcomeAddr]⟩

/-- Without an anchor the outcome word alone is written (R173). -/
theorem written_outcome (unanchored : s.anchor = none) {c : CommitRecord} (generation : c.generation < 256) :
    Written s (.status (some c)) 0x278 [0] [[(0, 8, c.generation), (8, 4, c.outcome.code)]] :=
  ⟨[c.word], .cons (outcomeWord_is generation) .nil, by simp [entryWords, unanchored, outcomeAddr]⟩

end

/-! ## The codes of the enumerations (Table 10-7) -/

theorem codesAssigned : CodesAssigned := by
  refine ⟨rfl, rfl, rfl, rfl, fun k => rfl, rfl, rfl, rfl, rfl, rfl, rfl, rfl, rfl, ?_⟩
  decide

/-! ## What the part reads -/

theorem field_eq (w : Word) (lo len : Nat) : field w lo len = w.toNat / 2 ^ lo % 2 ^ len := by
  rw [field, Nat.shiftRight_eq_div_pow]

theorem field_lt (w : Word) (lo len : Nat) : field w lo len < 2 ^ len := Nat.mod_lt _ (Nat.two_pow_pos len)

theorem extractLsb'_toNat (w : Word) (lo len : Nat) : (w.extractLsb' lo len).toNat = field w lo len := by
  rw [BitVec.extractLsb'_toNat, field]

/-- A field of three bits holds the number of a step kind. -/
theorem ofNat_field_val (w : Word) (lo : Nat) : (Fin.ofNat 8 (field w lo 3)).val = field w lo 3 :=
  Nat.mod_eq_of_lt (field_lt w lo 3)

theorem bit_eq_field (w : Word) (i : Nat) : bit w i = true ↔ field w i 1 = 1 := by
  rw [field_eq, bit, BitVec.getLsbD, Nat.testBit_eq_decide_div_mod_eq, decide_eq_true_eq, pow_one]

/-- The codes of the request kinds (Table 10-7). -/
theorem requestKind_eq (w : Word) :
    requestKind w = [none, some .test, some .cancel, some .fence, some .releaseHold, some .busReset, some .headReset,
      some .sweepControl, some .clearGroup, some .lineQuery].getD (field w 0 4) none := by
  have bound := field_lt w 0 4
  unfold requestKind
  generalize field w 0 4 = n at bound
  interval_cases n <;> rfl

/-- The codes of the sweep actions (Table 10-7). -/
theorem sweepAction_eq (w : Word) :
    sweepAction w = [none, some .start, some .stop, some .restart, some .seek].getD (field w 24 3) none := by
  have bound := field_lt w 24 3
  unfold sweepAction
  generalize field w 24 3 = n at bound
  interval_cases n <;> rfl

/-- The request a shadow holds (Table 10-2, R182). -/
theorem requestRead (x : Shadow) : RequestRead x := by
  have target : (entry x.words 0).toNat / 2 ^ 16 < 2 ^ 16 := by have := (entry x.words 0).isLt; omega
  refine ⟨(requestKind_eq _).trans (by rw [field_zero]; rfl), field_eq _ 8 8, (field_eq _ 16 16).trans (Nat.mod_eq_of_lt target),
    (extractLsb'_toNat ..).trans (field_zero ..), (ofNat_field_val _ 8).trans (field_eq _ 8 3), rfl, rfl, rfl,
    (sweepAction_eq _).trans (by rw [field_eq]; rfl), (extractLsb'_toNat ..).trans (field_zero ..), rfl⟩

/-- The bounds of a step kind in the limits table (Table 10-1, words 12–19). -/
theorem settings_limits (v : Vector Word 32) (g : Nat) (k : StepKind) :
    entry (settings v g).limits k = limitsWord (entry v (Fin.ofNat 32 (12 + k.val))) := by
  fin_cases k <;> rfl

/-- The settings a staging copy holds (Table 10-1). -/
theorem settingsRead (v : Vector Word 32) (g : Nat) : SettingsRead v g (settings v g) := by
  refine ⟨rfl, field_eq .., field_eq .., field_eq .., field_eq .., field_eq .., field_eq .., field_eq .., field_eq .., field_eq ..,
    ?_, ?_, ?_, field_eq .., field_eq .., field_eq .., field_eq .., field_eq .., field_eq .., field_eq .., field_eq .., ?_, ?_, ?_⟩
  · exact (extractLsb'_toNat ..).trans (field_eq ..)
  · exact (ofNat_field_val ..).trans (field_eq ..)
  · simp only [settings, bit_eq_field, field_eq]
  · exact (extractLsb'_toNat ..).trans (field_eq ..)
  · exact (extractLsb'_toNat ..).trans (field_eq ..)
  · intro k
    rw [settings_limits]
    exact ⟨(extractLsb'_toNat ..).trans (field_eq ..), (extractLsb'_toNat ..).trans (field_eq ..)⟩

/-- Settles O50: every record is a list of words of fields in ascending order, written at consecutive addresses. -/
theorem recordsLaidOut : Obligations.RecordsLaidOut :=
  ⟨fun a s anchored => ⟨written_test anchored, written_bus anchored, written_query anchored,
      fun i _ _ _ dropped elapsed => written_ticket anchored i dropped elapsed, written_disposition anchored,
      fun generation last queue dropped pointer alarms =>
        have range : StatusInRange a s := ⟨generation, last, queue, dropped, pointer, alarms⟩
        ⟨written_status anchored range, fun _ issued => written_outcomeAndStatus anchored range issued⟩⟩,
    fun _ _ unanchored generation => written_outcome unanchored generation, codesAssigned, requestRead, settingsRead⟩

end Sys2Proof.Machine
end
